-- ==== Sys2Proof/Word.lean ====
section
/-! DEFINITION. The word types of the engine: the widths that 10_state.md R20 and 20_memory.md R50,
R51 give its registers and memory cells. -/

namespace Sys2Proof

/-- One cell of the byte memory (R50). -/
abbrev Byte := BitVec 8

/-- One cell of the element memory (R51). -/
abbrev Elem := BitVec 32

/-- A 32-bit context register (R25 to R28, R30, R31, R35, R36). -/
abbrev Word32 := BitVec 32

/-- A 64-bit context register, and the 64-bit slot through which the host reaches every register
(R20, R100). -/
abbrev Word64 := BitVec 64

end Sys2Proof
end

