-- ==== Sys2Proof/Config.lean ====
section
/-! DEFINITION. What is fixed for the machine: the constants of 00_scope.md R7 and R8, and the free
values the spec leaves open (60_exceptions.md R227 (d), 10_state.md R38, 93_implementation_defined.md
U1, U2, U6, U14).

The free values are opaque constants: nothing can evaluate them, so whatever is proved of the model
holds for every value of them. Their first argument is a draw number, which the step reads from
`State.freeDraws` and advances, so that two draws are independent (log entry 4). -/

namespace Sys2Proof.Config

/-- `UNARY_LIMIT` (R7): a zig-zag value below it is unary coded, from it on it escapes. -/
abbrev unaryLimit : Nat := 31

/-- `ESC_PREFIX` (R7): the number of zero bits that announce an escape. -/
abbrev escPrefix : Nat := 32

/-- `LITRUN_MAX` (R7): most elements under one literal-run marker. -/
abbrev litRunMax : Nat := 127

/-- `CONSTRUN_MAX` (R7): most repetitions under one constant-run or continued-run marker. -/
abbrev constRunMax : Nat := 128

/-- `RUN_MIN` (R7): the shortest run the encoder turns into a constant run. -/
abbrev runMin : Nat := 4

/-- The marker byte of a continued run (R8, D19). -/
abbrev continuedMarker : Nat := 128

/-- `HEADER_BYTES` (R7). -/
abbrev headerBytes : Nat := 14

/-- The widest field of WRITE_BITS, READ_BITS and SCAN_ZEROS (R8, D26). -/
abbrev widestField : Nat := 64

/-- FREE VALUE: what register number `n` holds where the spec leaves it unspecified (R227 (d), and a
read while BUSY = 1, R38), at draw `k`. -/
opaque freeRegister (k n : Nat) : BitVec 64

/-- FREE VALUE: what byte `a` of the byte memory holds where the spec leaves it unspecified
(R227 (d), U1, U14), at draw `k`. -/
opaque freeByte (k a : Nat) : BitVec 8

/-- FREE VALUE: what cell `i` of the element memory holds where the spec leaves it unspecified
(R227 (d), U2, U14), at draw `k`. -/
opaque freeElem (k i : Nat) : BitVec 32

end Sys2Proof.Config
end

