-- ==== Sys2Proof/Syntax.lean ====
section
/-! DEFINITION. The instructions: one constructor for each row of spec/opcode_table.json. The 20
commands (30_encoding.md R101) and the reserved opcodes (R102) are what the host writes to CMD; the
other 17 rows are the stream formats (R80 to R99), "what the decoding commands decode". A command has
no operand fields (R100); a stream item carries the fields of its format. -/

namespace Sys2Proof

/-- One constructor per row of the opcode table. -/
inductive Instr where
  /-- CLR_FAULT, opcode 0x01 (R229). -/
  | clrFault
  /-- WRITE_BITS, opcode 0x10 (R121). -/
  | writeBits
  /-- READ_BITS, opcode 0x11 (R122). -/
  | readBits
  /-- SET_BIT, opcode 0x12 (R123). -/
  | setBit
  /-- ALIGN_WR, opcode 0x13 (R124). -/
  | alignWr
  /-- ALIGN_RD, opcode 0x14 (R125). -/
  | alignRd
  /-- SCAN_ZEROS, opcode 0x15 (R126). -/
  | scanZeros
  /-- ENC_DIFF, opcode 0x20 (R145). -/
  | encDiff
  /-- DEC_DIFF, opcode 0x21 (R146). -/
  | decDiff
  /-- ENC_CW, opcode 0x22 (R143). -/
  | encCw
  /-- DEC_CW, opcode 0x23 (R144). -/
  | decCw
  /-- ENC_ROW, opcode 0x30 (R163). -/
  | encRow
  /-- DEC_ROW, opcode 0x31 (R166). -/
  | decRow
  /-- WR_HEADER, opcode 0x40 (R181). -/
  | wrHeader
  /-- RD_HEADER, opcode 0x41 (R184). -/
  | rdHeader
  /-- ENC_BLOCK, opcode 0x42 (R186). -/
  | encBlock
  /-- DEC_BLOCK, opcode 0x43 (R188). -/
  | decBlock
  /-- PATCH_SIZE, opcode 0x44 (R190). -/
  | patchSize
  /-- ENCODE, opcode 0x48 (R191). -/
  | encode
  /-- DECODE, opcode 0x49 (R192). -/
  | decode
  /-- HDR, the stream header (R81): `total_size`, `block_count`, `block_width`, `slice_width`,
  `type_tag`. -/
  | hdr (total count width : BitVec 32) (slice tag : BitVec 8)
  /-- RAW, the raw first element of a block (R84): a field of `W` bits. -/
  | raw (x : BitVec 32)
  /-- CW_UNARY, a codeword in unary form (R87): the literal slice and the zig-zag value. -/
  | cwUnary (lit : BitVec 32) (m : BitVec 5)
  /-- CW_ESCAPE, a codeword in escape form (R88): the literal slice and the `W + 1`-bit literal. -/
  | cwEscape (lit : BitVec 32) (e : BitVec 33)
  /-- MARK_RESERVED, the marker byte 0 (R95). -/
  | markReserved
  /-- MARK_CONTINUED, the marker byte 128 (R94). -/
  | markContinued
  /-- MARK_LITERAL, the marker bytes 1 to 127 (R92). -/
  | markLiteral (n : BitVec 7)
  /-- MARK_CONSTANT, the marker bytes 129 to 255 (R93). -/
  | markConstant (b : BitVec 8)
  /-- LITDIFF, the literal difference of a constant or continued run (R96): `W + 1` bits. -/
  | litDiff (d : BitVec 33)
  /-- PAD, the 0 to 7 pad bits at the end of a block (R97). -/
  | pad (p : BitVec 3)
  /-- TAG_0, type tag 0: 16-bit elements, plain mode (R98). -/
  | tag0
  /-- TAG_1, type tag 1: 8-bit elements, plain mode (R98). -/
  | tag1
  /-- TAG_2, type tag 2: 16-bit elements, run-length mode (R98). -/
  | tag2
  /-- TAG_3, type tag 3: 8-bit elements, run-length mode (R98). -/
  | tag3
  /-- TAG_4, type tag 4: 32-bit elements, plain mode (R98). -/
  | tag4
  /-- TAG_6, type tag 6: 32-bit elements, run-length mode (R98). -/
  | tag6
  /-- TAG_RESERVED, the type tags 5, 7 and 8 to 255 (R99). -/
  | tagReserved (b : BitVec 8)
  /-- CMD_RESERVED, every opcode R101 does not list (R102). -/
  | cmdReserved (op : BitVec 8)
  deriving DecidableEq, Repr

/-- The two parameters a stream item is read and written under (00_scope.md R12): the element width
`W` and the slice width `s`. -/
structure Ctx where
  /-- the element width `W` in bits -/
  w : Nat
  /-- the slice width `s` in bits -/
  s : Nat
  deriving DecidableEq, Repr

/-- The formats of 30_encoding.md: the decoder always knows which one stands at the cursor. -/
inductive Format where
  /-- format CMD (R100): the opcode in bits 7:0 of a value written to register 0 -/
  | command
  /-- format H (R81) -/
  | header
  /-- the raw first element of format B (R84) -/
  | rawElement
  /-- formats CU and CE (R85 to R89) -/
  | codeword
  /-- the marker byte of formats SL, SC and SK (R91) -/
  | marker
  /-- the literal difference of formats SC and SK (R96) -/
  | literalDifference
  /-- format P (R97), with the number of pad bits the cursor calls for -/
  | padding (p : BitVec 3)
  /-- the type tag byte (R98, R99) -/
  | typeTag
  deriving DecidableEq, Repr

end Sys2Proof
end

