-- ==== Sys2Proof/Machine/Arith.lean ====
section
/-! DEFINITION. The integer functions of 00_scope.md R9 to R11, over exact integers. -/

namespace Sys2Proof.Machine

/-- `zext_N(v)` (R10): `v mod 2^N` read as an unsigned value. -/
def zext (n : Nat) (v : Int) : Nat :=
  (v % (2 ^ n : Nat)).toNat

/-- `sext_N(v)` (R10): the signed value of the low `N` bits of `v`. `wrap_W` is the same function. -/
def sext (n : Nat) (v : Int) : Int :=
  let u : Int := v % (2 ^ n : Nat)
  if u < (2 ^ (n - 1) : Nat) then u else u - (2 ^ n : Nat)

/-- `asr(d, s)` (R11): `d div 2^s`, floor division. -/
def asr (d : Int) (s : Nat) : Int :=
  d / (2 ^ s : Nat)

/-- `zig(q)` (R11). -/
def zig (q : Int) : Nat :=
  if 0 ≤ q then (2 * q).toNat else (-2 * q - 1).toNat

/-- `unzig(m)` (R11). -/
def unzig (m : Nat) : Int :=
  if m % 2 = 0 then (m / 2 : Nat) else -((m + 1) / 2 : Nat)

/-- The element width `W` that a legal type tag selects (10_state.md R24, 44_widthvariant.md R200):
8 with bit 0 set, 32 with bit 2 set, else 16. The reserved tags 5 and 7 select none; every command
that reads TYPE refuses them first (`typeReserved`). -/
def tagWidth (t : BitVec 3) : Nat :=
  if t.getLsbD 0 then 8 else if t.getLsbD 2 then 32 else 16

/-- Both width bits set: TYPE 5 or 7 (R24, R99). -/
def typeReserved (t : BitVec 3) : Bool :=
  t.getLsbD 0 && t.getLsbD 2

/-- A `type_tag` byte that is not 0, 1, 2, 3, 4 or 6 (R99). -/
def tagByteReserved (b : BitVec 8) : Bool :=
  decide (7 < b.toNat) || typeReserved (b.truncate 3)

/-- The number of pad bits `(0 - o) mod 8` at bit offset `o` (R97, 40_bitcursor.md R124). -/
def padBits (o : Nat) : Nat :=
  (8 - o % 8) % 8

/-- The difference a unary codeword stands for (R86): `unzig(m) * 2^s + lit`. -/
def unaryDiff (s lit m : Nat) : Int :=
  unzig m * (2 ^ s : Nat) + lit

/-- Whether an escape is one the encoder would have written (R90, 41_differencecodec.md R144): its
value does not fit the unary form, and its low `s` bits are the literal slice. -/
def escapeValid (s lit : Nat) (d : Int) : Bool :=
  decide (Config.unaryLimit ≤ zig (asr d s)) && decide (zext s d = lit)

/-- The run length of a constant-run marker `b` (R93). -/
def constantRunLength (b : Nat) : Nat :=
  257 - b

end Sys2Proof.Machine
end

