-- ==== Sys2Proof/WellFormed.lean ====
section
/-! DEFINITION. Which instructions have an encoding under a slice width and an element width: the
side conditions 30_encoding.md puts on the fields of each format. -/

namespace Sys2Proof

open Machine

/-- The opcodes of R101. -/
def opcodes : List (BitVec 8) :=
  [0x01, 0x10, 0x11, 0x12, 0x13, 0x14, 0x15, 0x20, 0x21, 0x22, 0x23, 0x30, 0x31,
   0x40, 0x41, 0x42, 0x43, 0x44, 0x48, 0x49]

/-- `W` is one of 8, 16, 32 and `0 <= s <= W` (00_scope.md R6). -/
def Ctx.wf (c : Ctx) : Bool :=
  decide (c.w = 8 ∨ c.w = 16 ∨ c.w = 32) && decide (c.s ≤ c.w)

/-- The well-formed instructions of a context. -/
def Instr.wf (c : Ctx) : Instr → Bool
  | .clrFault | .writeBits | .readBits | .setBit | .alignWr | .alignRd | .scanZeros => true
  | .encDiff | .decDiff | .encCw | .decCw | .encRow | .decRow => true
  | .wrHeader | .rdHeader | .encBlock | .decBlock | .patchSize | .encode | .decode => true
  | .hdr _ _ _ slice tag => -- R81: a legal type tag, and a slice width it allows
      !tagByteReserved tag && decide (slice.toNat ≤ tagWidth (tag.truncate 3))
  | .raw x => decide (x.toNat < 2 ^ c.w) -- R84
  | .cwUnary lit m => decide (lit.toNat < 2 ^ c.s) && decide (m.toNat < Config.unaryLimit) -- R87
  | .cwEscape lit e => -- R88, R90
      decide (lit.toNat < 2 ^ c.s) && decide (e.toNat < 2 ^ (c.w + 1)) &&
        escapeValid c.s lit.toNat (sext (c.w + 1) e.toNat)
  | .markReserved | .markContinued => true -- R94, R95
  | .markLiteral n => decide (n ≠ 0) -- R92: 0 is MARK_RESERVED
  | .markConstant b => decide (Config.continuedMarker < b.toNat) -- R93: 129 to 255
  | .litDiff d => decide (d.toNat < 2 ^ (c.w + 1)) -- R96
  | .pad _ => true -- R97
  | .tag0 | .tag1 | .tag2 | .tag3 | .tag4 | .tag6 => true -- R98
  | .tagReserved b => tagByteReserved b -- R99
  | .cmdReserved op => !opcodes.contains op -- R102

end Sys2Proof
end

