-- ==== Sys2Proof/Decode.lean ====
section
/-! DEFINITION. The decoder and the encoder, written from the formats of 30_encoding.md.

Bits are in stream order, lowest bit offset first (20_memory.md R53). A command is the value of a CMD
write (R100); a stream item is read under the format that stands at the cursor (R83, R89, R91) and
under the element width and slice width of `Ctx`. Decoding is total: what is no item of its format is
rejected by a `DecodeError`, and reserved values decode to their own rows of the table. -/

namespace Sys2Proof

open Machine

/-! ## Bit strings -/

/-- The field of `n` bits holding `v`, least significant bit first (R53). -/
def bitsOf (v n : Nat) : List Bool :=
  (List.range n).map v.testBit

/-- The unsigned value of a field (R53). -/
def natOf : List Bool → Nat
  | [] => 0
  | b :: bs => b.toNat + 2 * natOf bs

/-- The first `n` bits as a field, and the bits after it. -/
def takeField (n : Nat) (bits : List Bool) : Option (Nat × List Bool) :=
  if n ≤ bits.length then some (natOf (bits.take n), bits.drop n) else none

/-- Count zero bits, at most `k` of them: the count, whether a one bit ended it (it is consumed), and
the bits that follow; `none` when the bits run out first (R89). -/
def countZeros : Nat → List Bool → Option (Nat × Bool × List Bool)
  | 0, bits => some (0, false, bits)
  | _ + 1, [] => none
  | _ + 1, true :: bits => some (0, true, bits)
  | k + 1, false :: bits => (countZeros k bits).map fun r => (r.1 + 1, r.2)

/-! ## Decoding -/

/-- Why a bit string is no item of the format at the cursor. -/
inductive DecodeError where
  /-- the bits end before the item does -/
  | tooShort
  /-- a terminator after exactly 31 zero bits (R89) -/
  | badUnary
  /-- an escape the encoder would not have written (R90) -/
  | badEscape
  deriving DecidableEq, Repr

/-- The opcode map (R101). -/
def commandTable : List (BitVec 8 × Instr) :=
  [(0x01, .clrFault), (0x10, .writeBits), (0x11, .readBits), (0x12, .setBit), (0x13, .alignWr),
   (0x14, .alignRd), (0x15, .scanZeros), (0x20, .encDiff), (0x21, .decDiff), (0x22, .encCw),
   (0x23, .decCw), (0x30, .encRow), (0x31, .decRow), (0x40, .wrHeader), (0x41, .rdHeader),
   (0x42, .encBlock), (0x43, .decBlock), (0x44, .patchSize), (0x48, .encode), (0x49, .decode)]

/-- The command of an opcode; every opcode not in the map is reserved (R101, R102). -/
def decodeOpcode (op : BitVec 8) : Instr :=
  match commandTable.lookup op with
  | some i => i
  | none => .cmdReserved op

/-- The command a CMD write of `v` starts: bits 7:0 are the opcode, bits 63:8 are ignored (R100). -/
def decodeCommand (v : Word64) : Instr :=
  decodeOpcode (v.truncate 8)

/-- The row of a marker byte (R91). -/
def decodeMarker (b : BitVec 8) : Instr :=
  if b = 0 then .markReserved
  else if b.toNat ≤ Config.litRunMax then .markLiteral (b.truncate 7)
  else if b.toNat = Config.continuedMarker then .markContinued
  else .markConstant b

/-- The row of a type tag byte (R98, R99). -/
def decodeTag (b : BitVec 8) : Instr :=
  if b = 0 then .tag0
  else if b = 1 then .tag1
  else if b = 2 then .tag2
  else if b = 3 then .tag3
  else if b = 4 then .tag4
  else if b = 6 then .tag6
  else .tagReserved b

/-- A codeword (R89): the slice, then the unary code or the escape that the zero count selects, with
the refusals in the order of 60_exceptions.md R230. -/
def decodeCodeword (c : Ctx) (bits : List Bool) : Except DecodeError (Instr × List Bool) :=
  match takeField c.s bits with
  | none => .error .tooShort
  | some (lit, bits) =>
    match countZeros Config.escPrefix bits with
    | none => .error .tooShort
    | some (z, true, bits) =>
      if z < Config.unaryLimit then .ok (.cwUnary (BitVec.ofNat 32 lit) (BitVec.ofNat 5 z), bits)
      else .error .badUnary
    | some (_, false, bits) =>
      match takeField (c.w + 1) bits with
      | none => .error .tooShort
      | some (e, bits) =>
        if escapeValid c.s lit (sext (c.w + 1) e) then
          .ok (.cwEscape (BitVec.ofNat 32 lit) (BitVec.ofNat 33 e), bits)
        else .error .badEscape

/-- The header (R81). -/
def decodeHeader (bits : List Bool) : Except DecodeError (Instr × List Bool) :=
  match takeField 112 bits with
  | none => .error .tooShort
  | some (v, rest) =>
    .ok (.hdr (BitVec.ofNat 32 v) (BitVec.ofNat 32 (v / 2 ^ 32)) (BitVec.ofNat 32 (v / 2 ^ 64))
      (BitVec.ofNat 8 (v / 2 ^ 96)) (BitVec.ofNat 8 (v / 2 ^ 104)), rest)

/-- Decode a field of `n` bits by `f`. -/
def decodeField (n : Nat) (f : Nat → Instr) (bits : List Bool) :
    Except DecodeError (Instr × List Bool) :=
  match takeField n bits with
  | none => .error .tooShort
  | some (v, rest) => .ok (f v, rest)

/-- The item of a format that a bit string begins with, and the bits after it. -/
def decodeAs (c : Ctx) : Format → List Bool → Except DecodeError (Instr × List Bool)
  | .command => decodeField 8 fun v => decodeOpcode (BitVec.ofNat 8 v)
  | .header => decodeHeader
  | .rawElement => decodeField c.w fun v => .raw (BitVec.ofNat 32 v)
  | .codeword => decodeCodeword c
  | .marker => decodeField 8 fun v => decodeMarker (BitVec.ofNat 8 v)
  | .literalDifference => decodeField (c.w + 1) fun v => .litDiff (BitVec.ofNat 33 v)
  | .padding p => decodeField p.toNat fun _ => .pad p
  | .typeTag => decodeField 8 fun v => decodeTag (BitVec.ofNat 8 v)

/-! ## Encoding -/

/-- The format of a row. -/
def Instr.format : Instr → Format
  | .clrFault | .writeBits | .readBits | .setBit | .alignWr | .alignRd | .scanZeros
  | .encDiff | .decDiff | .encCw | .decCw | .encRow | .decRow
  | .wrHeader | .rdHeader | .encBlock | .decBlock | .patchSize | .encode | .decode
  | .cmdReserved _ => .command
  | .hdr .. => .header
  | .raw _ => .rawElement
  | .cwUnary .. | .cwEscape .. => .codeword
  | .markReserved | .markContinued | .markLiteral _ | .markConstant _ => .marker
  | .litDiff _ => .literalDifference
  | .pad p => .padding p
  | .tag0 | .tag1 | .tag2 | .tag3 | .tag4 | .tag6 | .tagReserved _ => .typeTag

/-- The fields of an item in stream order, each as (value, width) (R81 to R102). -/
def encodeFields (c : Ctx) : Instr → List (Nat × Nat)
  | .clrFault => [(0x01, 8)]
  | .writeBits => [(0x10, 8)]
  | .readBits => [(0x11, 8)]
  | .setBit => [(0x12, 8)]
  | .alignWr => [(0x13, 8)]
  | .alignRd => [(0x14, 8)]
  | .scanZeros => [(0x15, 8)]
  | .encDiff => [(0x20, 8)]
  | .decDiff => [(0x21, 8)]
  | .encCw => [(0x22, 8)]
  | .decCw => [(0x23, 8)]
  | .encRow => [(0x30, 8)]
  | .decRow => [(0x31, 8)]
  | .wrHeader => [(0x40, 8)]
  | .rdHeader => [(0x41, 8)]
  | .encBlock => [(0x42, 8)]
  | .decBlock => [(0x43, 8)]
  | .patchSize => [(0x44, 8)]
  | .encode => [(0x48, 8)]
  | .decode => [(0x49, 8)]
  | .hdr total count width slice tag =>
      [(total.toNat, 32), (count.toNat, 32), (width.toNat, 32), (slice.toNat, 8), (tag.toNat, 8)]
  | .raw x => [(x.toNat, c.w)]
  | .cwUnary lit m => [(lit.toNat, c.s), (2 ^ m.toNat, m.toNat + 1)]
  | .cwEscape lit e => [(lit.toNat, c.s), (0, Config.escPrefix), (e.toNat, c.w + 1)]
  | .markReserved => [(0, 8)]
  | .markContinued => [(Config.continuedMarker, 8)]
  | .markLiteral n => [(n.toNat, 8)]
  | .markConstant b => [(b.toNat, 8)]
  | .litDiff d => [(d.toNat, c.w + 1)]
  | .pad p => [(0, p.toNat)]
  | .tag0 => [(0, 8)]
  | .tag1 => [(1, 8)]
  | .tag2 => [(2, 8)]
  | .tag3 => [(3, 8)]
  | .tag4 => [(4, 8)]
  | .tag6 => [(6, 8)]
  | .tagReserved b => [(b.toNat, 8)]
  | .cmdReserved op => [(op.toNat, 8)]

/-- The bits of fields laid end to end (R53). -/
def fieldBits (fields : List (Nat × Nat)) : List Bool :=
  fields.flatMap fun f => bitsOf f.1 f.2

/-- The bits of a well-formed instruction in stream order. -/
def encode (c : Ctx) (i : Instr) : List Bool :=
  fieldBits (encodeFields c i)

/-- The codeword of a difference (R85 to R88): unary below 31, escape from 31 on. -/
def codewordItem (c : Ctx) (d : Int) : Instr :=
  let lit := BitVec.ofNat 32 (zext c.s d)
  let m := zig (asr d c.s)
  if m < Config.unaryLimit then .cwUnary lit (BitVec.ofNat 5 m)
  else .cwEscape lit (BitVec.ofNat 33 (zext (c.w + 1) d))

/-! ## The host's table -/

/-- The instruction the decoder reads from an opcode-table word. A word the host can hand to the
engine is the value of a CMD write (format CMD, R100), the only thing the engine takes instructions
from; a value wider than the 64-bit slot is no transaction. The stream-format rows have no word of
their own: a marker or a tag byte means what it means only where its format stands at the cursor
(`decodeAs`, log entry 8). -/
def decodeTableWord (nbits w : Nat) : Option Instr :=
  if nbits ≤ 64 then some (decodeCommand (BitVec.ofNat 64 (w % 2 ^ nbits))) else none

end Sys2Proof
end

