-- ==== Sys2Proof/Machine/State.lean ====
section
/-! DEFINITION. The state of the engine (10_state.md), the causes of its faults (60_exceptions.md),
and the state after reset (R43, 70_reset_and_hazards.md R240). -/

namespace Sys2Proof.Machine

/-- A sparse memory of `w`-bit cells: (index, cell) pairs with indices strictly rising and no cell
equal to what an unlisted index reads as (`Memory.blank`), so that equal memories are equal data. -/
abbrev Memory (w : Nat) := List (Nat × BitVec w)

/-- What a cell that nothing has written reads as. The spec gives the memories no contents at
power-up ("whatever the host left there", R43): DESIGN CHOICE, unsafe (log entry 3). -/
abbrev Memory.blank {w : Nat} : BitVec w := 0#w

/-- The canonical form of a memory. -/
abbrev Memory.wf {w : Nat} (m : Memory w) : Prop :=
  m.Pairwise (fun x y => x.1 < y.1) ∧ ∀ c ∈ m, c.2 ≠ Memory.blank

/-- STATUS (R22). Bit 3 does not exist: it reads 0 (R37). -/
structure Status where
  /-- bit 0: a command is running -/
  busy : Bool
  /-- bit 1: a command faulted and CLR_FAULT has not come yet -/
  fault : Bool
  /-- bit 2: the result flag of SCAN_ZEROS (R23) -/
  found : Bool
  /-- bits 7:4: the fault code -/
  err : BitVec 4
  /-- bits 15:8: the sub-cause -/
  sub : BitVec 8
  deriving DecidableEq, Repr

/-- CFG (R24). Bits 7:3 do not exist: they read 0 (R37). -/
structure Cfg where
  /-- bits 2:0, TYPE: bit 0 selects 8-bit elements, bit 2 32-bit elements, bit 1 run-length mode -/
  typ : BitVec 3
  /-- bits 13:8, SLICE: the slice width `s` -/
  slice : BitVec 6
  deriving DecidableEq, Repr

/-- One action of the host (30_encoding.md R100, R104; 70_reset_and_hazards.md R240). -/
inductive HostAct where
  /-- `write(n, v)`: write register `n`; a write to CMD starts a command (R100) -/
  | write (n : BitVec 4) (v : BitVec 64)
  /-- `read(n)`: read register `n` (R100) -/
  | read (n : BitVec 4)
  /-- `BM[a] = b`: the host fills a byte (R104) -/
  | setByte (a : Nat) (b : BitVec 8)
  /-- the host inspects a byte (R104) -/
  | getByte (a : Nat)
  /-- `EM[i] = x`: the host fills an element cell (R104) -/
  | setElem (i : Nat) (x : BitVec 32)
  /-- the host inspects an element cell (R104) -/
  | getElem (i : Nat)
  /-- reset is asserted (R240) -/
  | reset
  /-- `write(0, v)`, and reset is asserted before the command has ended (R240, log entry 11) -/
  | writeThenReset (v : BitVec 64)
  deriving DecidableEq, Repr

/-- What `raise` names (R211 to R225): the class and the sub-cause. -/
inductive Cause where
  /-- OutOfSpace (R211) -/
  | outOfSpace
  /-- CorruptStream(ReadPastEnd) (R212) -/
  | readPastEnd
  /-- CorruptStream(BadUnary) (R213) -/
  | badUnary
  /-- CorruptStream(BadEscape) (R214) -/
  | badEscape
  /-- CorruptStream(BadMarker) (R215) -/
  | badMarker
  /-- CorruptStream(RunOverrun) (R216) -/
  | runOverrun
  /-- CorruptStream(SizeMismatch) (R217) -/
  | sizeMismatch
  /-- InvalidParameter(BadOpcode) (R218) -/
  | badOpcode
  /-- InvalidParameter(BadType) (R219) -/
  | badType
  /-- InvalidParameter(BadSlice) (R220) -/
  | badSlice
  /-- InvalidParameter(BadGeometry) (R221) -/
  | badGeometry
  /-- InvalidParameter(ElemBufferTooSmall) (R222) -/
  | elemBufferTooSmall
  /-- InvalidParameter(BadWidth) (R223) -/
  | badWidth
  /-- InvalidParameter(Misaligned) (R224) -/
  | misaligned
  /-- InvalidParameter(HeaderMismatch) (R225) -/
  | headerMismatch
  deriving DecidableEq, Repr

/-- The machine: the context registers (R20 to R36), the two memories (R40, R41), the hidden
temporaries that outlive a single operation of a command (R42), and the model's own fields. -/
structure State where
  /-- register 1 (R22) -/
  status : Status
  /-- register 2 (R24) -/
  cfg : Cfg
  /-- register 3, BLKW (R25) -/
  blkw : BitVec 32
  /-- register 4, BLKC (R26) -/
  blkc : BitVec 32
  /-- register 5, LIMIT (R27) -/
  limit : BitVec 32
  /-- register 6, ELIM (R28) -/
  elim : BitVec 32
  /-- register 7, BITPOS (R29) -/
  bitpos : BitVec 64
  /-- register 8, PREV (R30) -/
  prev : BitVec 32
  /-- register 9, EIDX (R31) -/
  eidx : BitVec 32
  /-- register 10, VAL (R32) -/
  val : BitVec 64
  /-- register 11, WIDTH (R34) -/
  width : BitVec 7
  /-- register 12, TOTAL (R35) -/
  total : BitVec 32
  /-- register 13, BLK (R36) -/
  blk : BitVec 32
  /-- the byte memory BM (R40, R50) -/
  bm : Memory 8
  /-- the element memory EM (R41, R51) -/
  em : Memory 32
  /-- hidden (R42): the 64-bit accumulator (R8, R203), holding the difference the decoder took last;
  0 between commands -/
  acc : BitVec 64
  /-- hidden (R42): the count of elements left in the block (42_runcodec.md R166); 0 between
  commands -/
  rem : BitVec 32
  /-- hidden: the command that is running (R5, R22), which says what memory it may be writing when
  reset abandons it (R240); none between commands ("no command is running") -/
  running : Option Instr
  /-- the model's own: the host's pending actions, oldest first (log entry 1) -/
  hostQueue : List HostAct
  /-- the model's own: what the host's reads returned, newest first (log entry 12) -/
  replies : List (BitVec 64)
  /-- the model's own: the number of free values drawn so far (log entry 4) -/
  freeDraws : Nat
  deriving DecidableEq, Repr

/-- How a step could end in a fault. It never does: every fault the spec gives the engine is an event
the engine records in STATUS and survives (R210: "That is all"), so it is a next state, and the spec
names no address that does not exist. The type has no constructor (log entry 13). -/
inductive Fault
  deriving DecidableEq, Repr

/-- Why a step can be refused. -/
inductive Refusal where
  /-- Raised by an arm of `exec` whose instruction has no meaning yet; no arm raises it. Safe. -/
  | notModelled (mnemonic : String)
  /-- Raised by `step` when the host reads or writes the byte memory below LIMIT or the element
  memory below ELIM while BUSY = 1: "a breach of a host duty; the spec defines no behaviour"
  (93_implementation_defined.md U7, R232). Safe. -/
  | hostMemoryWhileBusy
  deriving DecidableEq, Repr

/-- The engine right after reset: every context register 0 (R43, R240). Both memories list nothing,
nothing is pending from the host, and the hidden temporaries are 0 (log entries 1, 3, 4, 9, 12). -/
def State.reset : State where
  status := { busy := false, fault := false, found := false, err := 0, sub := 0 }
  cfg := { typ := 0, slice := 0 }
  blkw := 0
  blkc := 0
  limit := 0
  elim := 0
  bitpos := 0
  prev := 0
  eidx := 0
  val := 0
  width := 0
  total := 0
  blk := 0
  bm := []
  em := []
  acc := 0
  rem := 0
  running := none
  hostQueue := []
  replies := []
  freeDraws := 0

end Sys2Proof.Machine
end

