-- ==== Sys2Proof/Machine/Flags.lean ====
section
/-! DEFINITION. The bits of STATUS (10_state.md R22, R23): the codes of the faults
(60_exceptions.md R226), the word the host reads, and FOUND. -/

namespace Sys2Proof.Machine

/-- STATUS.ERR of a fault (R226): 1 OutOfSpace, 2 CorruptStream, 3 InvalidParameter. -/
def Cause.err : Cause → BitVec 4
  | .outOfSpace => 1
  | .readPastEnd | .badUnary | .badEscape | .badMarker | .runOverrun | .sizeMismatch => 2
  | .badOpcode | .badType | .badSlice | .badGeometry | .elemBufferTooSmall | .badWidth
  | .misaligned | .headerMismatch => 3

/-- STATUS.SUB of a fault (R226). -/
def Cause.sub : Cause → BitVec 8
  | .outOfSpace => 0
  | .readPastEnd => 1
  | .badUnary => 2
  | .badEscape => 3
  | .badMarker => 4
  | .runOverrun => 5
  | .sizeMismatch => 6
  | .badOpcode => 1
  | .badType => 2
  | .badSlice => 3
  | .badGeometry => 4
  | .elemBufferTooSmall => 5
  | .badWidth => 6
  | .misaligned => 7
  | .headerMismatch => 8

/-- STATUS as the host reads it (R22): BUSY 0, FAULT 1, FOUND 2, bit 3 zero, ERR 7:4, SUB 15:8. -/
def Status.word (t : Status) : BitVec 16 :=
  t.sub ++ t.err ++ 0#1 ++ BitVec.ofBool t.found ++ BitVec.ofBool t.fault ++ BitVec.ofBool t.busy

/-- STATUS after a fault (R210): the fault is recorded, BUSY falls, FOUND is kept (R227 (a)). -/
def Status.faulted (c : Cause) (t : Status) : Status :=
  { busy := false, fault := true, found := t.found, err := c.err, sub := c.sub }

/-- STATUS after a command that completed without fault (R22): FOUND as the command left it. -/
def Status.completed (t : Status) : Status :=
  { busy := false, fault := false, found := t.found, err := 0, sub := 0 }

/-- STATUS after CLR_FAULT (R229): FAULT, ERR and SUB cleared, FOUND kept. -/
def Status.cleared (t : Status) : Status :=
  { t with fault := false, err := 0, sub := 0 }

/-- SCAN_ZEROS writes FOUND, and nothing else does (R23). -/
def Status.setFound (f : Bool) (t : Status) : Status :=
  { t with found := f }

end Sys2Proof.Machine
end

