-- ==== Sys2Proof/Machine/Ops.lean ====
section
/-! DEFINITION. The operations every command is made of: access to the two memories
(20_memory.md), how an operation of a command ends, taking a fault and returning from one
(60_exceptions.md R210, R227, R229), and running a command as one atomic transition
(00_scope.md R5). -/

namespace Sys2Proof.Machine

/-! ## Memories -/

/-- What index `a` holds. -/
def Memory.read {w : Nat} : Memory w → Nat → BitVec w
  | [], _ => Memory.blank
  | (b, x) :: m, a => if a = b then x else Memory.read m a

/-- Store `v` at index `a`, keeping the canonical form. -/
def Memory.write {w : Nat} : Memory w → Nat → BitVec w → Memory w
  | [], a, v => if v = Memory.blank then [] else [(a, v)]
  | (b, x) :: m, a, v =>
    if a < b then if v = Memory.blank then (b, x) :: m else (a, v) :: (b, x) :: m
    else if a = b then if v = Memory.blank then m else (a, v) :: m
    else (b, x) :: Memory.write m a v

/-- `BitRead(o)` (R52): bit `o mod 8` of byte `o div 8`. -/
def bitRead (m : Memory 8) (o : Nat) : Bool :=
  (Memory.read m (o / 8)).getLsbD (o % 8)

/-- A byte with one bit set to `b`, the other seven unchanged (R52). -/
def byteWithBit (x : Byte) (i : Nat) (b : Bool) : Byte :=
  if b then x ||| (1#8 <<< i) else x &&& ~~~(1#8 <<< i)

/-- `BitWrite(o, b)` (R52). -/
def bitWrite (m : Memory 8) (o : Nat) (b : Bool) : Memory 8 :=
  Memory.write m (o / 8) (byteWithBit (Memory.read m (o / 8)) (o % 8) b)

/-- Write the field of `n` bits holding `v` at bit offset `o` (R53), bit by bit, lowest first. -/
def fieldWrite (m : Memory 8) (o v : Nat) : Nat → Memory 8
  | 0 => m
  | n + 1 => bitWrite (fieldWrite m o v n) (o + n) (v.testBit n)

/-- The unsigned value of the field of `n` bits at bit offset `o` (R53). -/
def fieldRead (m : Memory 8) (o : Nat) : Nat → Nat
  | 0 => 0
  | n + 1 => fieldRead m o n + (bitRead m (o + n)).toNat * 2 ^ n

/-- `ElemRead(i)` at element width `w` (R51): the low `w` bits of the cell, sign-extended. -/
def elemRead (w : Nat) (m : Memory 32) (i : Nat) : Int :=
  sext w (Memory.read m i).toNat

/-- `ElemWrite(i, x)` (R51): the element sign-extended to the cell. -/
def elemWrite (m : Memory 32) (i : Nat) (x : Int) : Memory 32 :=
  Memory.write m i (BitVec.ofInt 32 x)

/-! ## How an operation ends -/

/-- The end of an operation inside a command: a result and the state reached, or `raise` (R13) and
the state reached there. -/
inductive Res (α : Type) where
  | ok (a : α) (s : State)
  | raise (c : Cause) (s : State)

/-- What follows an operation that did not raise; nothing after a `raise` is executed (R13). -/
def Res.andThen {α β : Type} (r : Res α) (f : α → State → Res β) : Res β :=
  match r with
  | .ok a s => f a s
  | .raise c s => .raise c s

/-- `repeat n times` of the pseudocode. -/
def Res.times (f : State → Res Unit) : Nat → State → Res Unit
  | 0, s => .ok () s
  | n + 1, s => (f s).andThen fun _ s => Res.times f n s

/-- `for each x in xs, in order` of the pseudocode. -/
def Res.each {α : Type} (f : α → State → Res Unit) : List α → State → Res Unit
  | [], s => .ok () s
  | x :: xs, s => (f x s).andThen fun _ s => Res.each f xs s

/-! ## Taking a fault, and returning from one -/

/-- Fault entry (R210): STATUS records the fault and BUSY falls; the command is over, so the hidden
temporaries are dead (R42). There is no vector, no saved register and no mode change. -/
def takeFault (c : Cause) (s : State) : State :=
  { s with status := s.status.faulted c, acc := 0, rem := 0, running := none }

/-- Return from a fault, CLR_FAULT (R229): it restores nothing and resumes nothing. -/
def returnFromFault (s : State) : State :=
  { s with status := s.status.cleared }

/-- The element cells a decoding command leaves unspecified when it faults (R227 (d)). -/
inductive CellRange where
  /-- none: the command writes no cell, or is an encoding command -/
  | none
  /-- `EIDX` to `EIDX + BLKW - 2` (DEC_ROW) -/
  | row
  /-- `EIDX` to `EIDX + BLKW - 1` (DEC_BLOCK) -/
  | block
  /-- 0 to `BLKW * BLKC - 1` (DECODE) -/
  | array
  /-- the elements the block still lacks (a run-length item met inside a row, log entry 7) -/
  | rest
  deriving DecidableEq, Repr

/-- What an imprecise fault of a command leaves unspecified (R227 (d), with the columns of
10_state.md R39): which of the registers, whether the bytes below LIMIT, which cells; and whether CFG
is as the header step left it (R227 (c)). -/
structure Unspec where
  bitpos : Bool := false
  prev : Bool := false
  eidx : Bool := false
  val : Bool := false
  total : Bool := false
  blk : Bool := false
  bytes : Bool := false
  cells : CellRange := .none
  header : Bool := false
  deriving DecidableEq, Repr

/-- The first index and the number of cells of a range, in the state the command started from. -/
def CellRange.span (s : State) : CellRange → Nat × Nat
  | .none => (0, 0)
  | .row => (s.eidx.toNat, s.blkw.toNat - 1)
  | .block => (s.eidx.toNat, s.blkw.toNat)
  | .array => (0, s.blkw.toNat * s.blkc.toNat)
  | .rest => (s.eidx.toNat, s.rem.toNat)

/-- `n` bytes from `lo` on hold free values. -/
def freeBytes (k : Nat) (m : Memory 8) (lo : Nat) : Nat → Memory 8
  | 0 => m
  | n + 1 => Memory.write (freeBytes k m lo n) (lo + n) (Config.freeByte k (lo + n))

/-- `n` cells from `lo` on hold free values. -/
def freeCells (k : Nat) (m : Memory 32) (lo : Nat) : Nat → Memory 32
  | 0 => m
  | n + 1 => Memory.write (freeCells k m lo n) (lo + n) (Config.freeElem k (lo + n))

/-- The state an imprecise fault leaves (R227 (a), (c), (d)): `s` is the state at issue and `r` the
one reached at the `raise`. Everything the rule calls unspecified holds a free value; everything else
is as it was at issue, and CFG as the header step of DECODE left it. -/
def unspecify (u : Unspec) (s r : State) : State :=
  let k := s.freeDraws
  { s with
    cfg := if u.header then r.cfg else s.cfg
    bitpos := if u.bitpos then Config.freeRegister k 7 else s.bitpos
    prev := if u.prev then (Config.freeRegister k 8).truncate 32 else s.prev
    eidx := if u.eidx then (Config.freeRegister k 9).truncate 32 else s.eidx
    val := if u.val then Config.freeRegister k 10 else s.val
    total := if u.total then (Config.freeRegister k 12).truncate 32 else s.total
    blk := if u.blk then (Config.freeRegister k 13).truncate 32 else s.blk
    bm := if u.bytes then freeBytes k s.bm 0 s.limit.toNat else s.bm
    em := freeCells k s.em (u.cells.span s).1 (u.cells.span s).2
    freeDraws := k + 1 }

/-- The state after a fault of a command's body: `none` marks a command whose faults are all precise
(R227 (b)); SizeMismatch leaves all a successful DECODE would have left (R227 (e)). -/
def faultState (u : Option Unspec) (c : Cause) (s r : State) : State :=
  match u with
  | none => takeFault c s
  | some u => if c = .sizeMismatch then takeFault c r else takeFault c (unspecify u s r)

/-! ## Running a command -/

/-- Whether a CMD write starts a command other than CLR_FAULT: the engine is idle (R38) and not
faulted (R228). -/
def accepts (s : State) : Bool :=
  !s.status.busy && !s.status.fault

/-- From the CMD write until the command ends BUSY is 1 (R22) and the command is the one running. -/
def start (i : Instr) (s : State) : State :=
  { s with status := { s.status with busy := true }, running := some i }

/-- Completion without fault (R22); the hidden temporaries are dead (R42). -/
def complete (s : State) : State :=
  { s with status := s.status.completed, acc := 0, rem := 0, running := none }

/-- The decoder's action on one stream item, inside a running decoding command (log entry 7): nothing
runs while a fault is recorded (R228); otherwise as `runCommand`, but the command goes on after it. -/
def runItem (u : Option Unspec) (check : State → Option Cause) (body : State → Res Unit)
    (s : State) : Host.Outcome State Fault Refusal :=
  if s.status.fault then .next s
  else
    match check s with
    | some c => .next (takeFault c s)
    | none =>
      match body s with
      | .ok _ r => .next r
      | .raise c r => .next (faultState u c s r)

end Sys2Proof.Machine
end

