-- ==== Sys2Proof/Machine/Operands.lean ====
section
/-! DEFINITION. The operand forms: the abbreviations `s`, `W` and `pv` of the pseudocode
(00_scope.md R12), VAL as an operand (10_state.md R32), how PREV, VAL, EIDX and the element memory are
written, the opening checks the commands share, and the register file the host reaches (R20, R37,
R38). -/

namespace Sys2Proof.Machine

/-! ## The abbreviations of the pseudocode -/

/-- `W`: the element width CFG.TYPE selects (R12, R24). -/
def State.w (s : State) : Nat := tagWidth s.cfg.typ

/-- `s`: the slice width CFG.SLICE (R12). -/
def State.sw (s : State) : Nat := s.cfg.slice.toNat

/-- `pv = sext_W(PREV)` (R12, R30). -/
def State.pv (s : State) : Int := sext s.w s.prev.toNat

/-- CFG.TYPE bit 1: run-length mode (R24). -/
def State.runLength (s : State) : Bool := s.cfg.typ.getLsbD 1

/-- The widths a stream item stands under (R12). -/
def State.ctx (s : State) : Ctx := { w := s.w, s := s.sw }

/-- The number of bits the engine may touch, `8 * LIMIT` (R61). -/
def State.limitBits (s : State) : Nat := 8 * s.limit.toNat

/-! ## VAL as an operand (R32) -/

/-- The operand of ENC_CW: `sext_(W+1)(VAL)`, a difference. -/
def State.valDiff (s : State) : Int := sext (s.w + 1) s.val.toNat

/-- The operand of ENC_DIFF: `sext_W(VAL)`, an element. -/
def State.valElem (s : State) : Int := sext s.w s.val.toNat

/-! ## Writing the working registers -/

/-- `PREV <- zext_W(x)` (R30). -/
def setPrev (x : Int) (s : State) : State :=
  { s with prev := BitVec.ofNat 32 (zext s.w x) }

/-- `VAL <- x` as a 64-bit two's-complement value (R32). -/
def setVal (x : Int) (s : State) : State :=
  { s with val := BitVec.ofInt 64 x }

/-- `EIDX <- EIDX + n` (R31). -/
def advance (n : Nat) (s : State) : State :=
  { s with eidx := s.eidx + BitVec.ofNat 32 n }

/-- The decoder takes a difference into the accumulator (R42, R203). -/
def takeDiff (d : Int) (s : State) : State :=
  { s with acc := BitVec.ofInt 64 d }

/-- `ElemRead(EIDX + k)` (R51). -/
def elemAt (s : State) (k : Nat) : Int :=
  elemRead s.w s.em (s.eidx.toNat + k)

/-- The `n` elements from EIDX on. -/
def elemsAt (s : State) (n : Nat) : List Int :=
  (List.range n).map (elemAt s)

/-- `ElemWrite(EIDX, x); PREV <- zext_W(x); EIDX <- EIDX + 1`: the decoder puts out one element
(R166, R188). -/
def produce (x : Int) (s : State) : State :=
  advance 1 (setPrev x { s with em := elemWrite s.em s.eidx.toNat x })

/-- The next element after the difference in the accumulator: `wrap_W(pv + d)` (R146, R165). -/
def State.nextElem (s : State) : Int :=
  sext s.w (s.pv + s.acc.toInt)

/-! ## Opening checks (R230: each rule's own order) -/

/-- No opening check. -/
def noCheck (_ : State) : Option Cause := none

/-- WIDTH above 64 (R121, R122, R126, R223). -/
def checkWidth (s : State) : Option Cause :=
  if s.width.toNat > Config.widestField then some .badWidth else none

/-- 41_differencecodec.md R142: BadType, then BadSlice. -/
def checkCodec (s : State) : Option Cause :=
  if typeReserved s.cfg.typ then some .badType
  else if s.sw > s.w then some .badSlice
  else none

/-- The row commands (R163, R166): R142, then BadGeometry, then ElemBufferTooSmall. -/
def checkRow (s : State) : Option Cause :=
  (checkCodec s).or
    (if s.blkw = 0 then some .badGeometry
     else if s.eidx.toNat + (s.blkw.toNat - 1) > s.elim.toNat then some .elemBufferTooSmall
     else none)

/-- `ValidateBlock()` (R185). -/
def checkBlock (s : State) : Option Cause :=
  (checkCodec s).or
    (if s.blkw = 0 then some .badGeometry
     else if s.eidx.toNat + s.blkw.toNat > s.elim.toNat then some .elemBufferTooSmall
     else if s.bitpos.toNat % 8 ≠ 0 then some .misaligned
     else none)

/-- The geometry of a whole array (R182, R183): `BLKW = 0` or `BLKW * BLKC >= 2^32`, then ELIM. -/
def checkGeometry (s : State) : Option Cause :=
  if s.blkw = 0 ∨ 2 ^ 32 ≤ s.blkw.toNat * s.blkc.toNat then some .badGeometry
  else if s.blkw.toNat * s.blkc.toNat > s.elim.toNat then some .elemBufferTooSmall
  else none

/-- `ValidateEncode()` (R182). -/
def checkEncode (s : State) : Option Cause :=
  (checkCodec s).or (checkGeometry s)

/-- `ValidateDecodeHost()` (R183): CFG.TYPE bit 1 and CFG.SLICE are ignored. -/
def checkDecode (s : State) : Option Cause :=
  if typeReserved s.cfg.typ then some .badType else checkGeometry s

/-- PATCH_SIZE on an unaligned cursor (R190). -/
def checkAligned (s : State) : Option Cause :=
  if s.bitpos.toNat % 8 ≠ 0 then some .misaligned else none

/-- A marker or a literal difference met in a row (log entry 7): R142, and room for the elements the
block still lacks, which DEC_ROW and DEC_BLOCK have tested when they began (R222). -/
def checkRowItem (s : State) : Option Cause :=
  (checkCodec s).or
    (if s.eidx.toNat + s.rem.toNat > s.elim.toNat then some .elemBufferTooSmall else none)

/-- The header's type tag (log entry 7): the host's TYPE must select a width (R183). -/
def checkTagItem (s : State) : Option Cause :=
  if typeReserved s.cfg.typ then some .badType else none

/-- What a command tests before it does anything (R227 (b), R230). The stream items are not started by
a CMD write; each names its own tests where it is defined. -/
def openingCheck : Instr → State → Option Cause
  | .writeBits | .readBits | .scanZeros => checkWidth
  | .encDiff | .decDiff | .encCw | .decCw => checkCodec
  | .encRow | .decRow => checkRow
  | .wrHeader | .encode => checkEncode
  | .rdHeader | .decode => checkDecode
  | .encBlock | .decBlock => checkBlock
  | .patchSize => checkAligned
  | .cmdReserved _ => fun _ => some .badOpcode
  | .clrFault | .setBit | .alignWr | .alignRd => noCheck
  | .hdr .. | .raw _ | .cwUnary .. | .cwEscape .. | .markReserved | .markContinued | .markLiteral _
  | .markConstant _ | .litDiff _ | .pad _ | .tag0 | .tag1 | .tag2 | .tag3 | .tag4 | .tag6
  | .tagReserved _ => noCheck

/-! ## Running a command -/

/-- The command `i` as one atomic transition (R5): ignored unless the engine accepts it (R38, R228); then
the opening checks, whose faults are precise (R227 (b), R230); then the body, whose faults leave
unspecified what `u` says. -/
def runCommand (i : Instr) (u : Option Unspec) (body : State → Res Unit) (s : State) :
    Host.Outcome State Fault Refusal :=
  if accepts s then
    match openingCheck i s with
    | some c => .next (takeFault c s)
    | none =>
      match body (start i s) with
      | .ok _ r => .next (complete r)
      | .raise c r => .next (faultState u c s r)
  else .next s

/-- The memory a running command may be writing (the destinations of R227 (d), U1, U2): whether the
bytes below LIMIT, and which cells. WRITE_BITS, SET_BIT, ALIGN_WR and PATCH_SIZE, whose faults are all
precise, count as writing the same bytes as the encoding commands (log entry 11). -/
def memoryWritten : Instr → Bool × CellRange
  | .writeBits | .setBit | .alignWr | .encDiff | .encCw | .encRow | .wrHeader | .encBlock
  | .patchSize | .encode => (true, .none)
  | .decRow => (false, .row)
  | .decBlock => (false, .block)
  | .decode => (false, .array)
  | .clrFault | .readBits | .alignRd | .scanZeros | .decDiff | .decCw | .rdHeader
  | .cmdReserved _ => (false, .none)
  | .hdr .. | .raw _ | .cwUnary .. | .cwEscape .. | .markReserved | .markContinued | .markLiteral _
  | .markConstant _ | .litDiff _ | .pad _ | .tag0 | .tag1 | .tag2 | .tag3 | .tag4 | .tag6
  | .tagReserved _ => (false, .none)

/-! ## The register file (R20, R37, R38) -/

/-- CFG as the host reads it (R24): TYPE in bits 2:0, SLICE in bits 13:8, the rest 0. -/
def Cfg.word (c : Cfg) : BitVec 14 :=
  c.slice ++ 0#5 ++ c.typ

/-- The bits of a register's slot that exist (R20, R37): the width of the table of R20, but for CFG bits
7:3 and STATUS bit 3; of the numbers 14 and 15 none. -/
def registerBits (n : BitVec 4) : Word64 :=
  match n.toNat with
  | 0 => 0xFF
  | 1 => 0xFFF7
  | 2 => 0x3F07
  | 3 | 4 | 5 | 6 | 8 | 9 | 12 | 13 => 0xFFFFFFFF
  | 7 | 10 => 0xFFFFFFFFFFFFFFFF
  | 11 => 0x7F
  | _ => 0

/-- Register `n` as the host reads it when the engine is idle: bits that do not exist read 0, CMD
reads 0, registers 14 and 15 read 0 (R20, R37). -/
def readRegister (s : State) (n : BitVec 4) : Word64 :=
  match n.toNat with
  | 1 => s.status.word.setWidth 64
  | 2 => s.cfg.word.setWidth 64
  | 3 => s.blkw.setWidth 64
  | 4 => s.blkc.setWidth 64
  | 5 => s.limit.setWidth 64
  | 6 => s.elim.setWidth 64
  | 7 => s.bitpos
  | 8 => s.prev.setWidth 64
  | 9 => s.eidx.setWidth 64
  | 10 => s.val
  | 11 => s.width.setWidth 64
  | 12 => s.total.setWidth 64
  | 13 => s.blk.setWidth 64
  | _ => 0

/-- A host write of `v` to register `n` other than CMD when the engine is idle: bits that do not
exist are ignored, STATUS is read-only, registers 14 and 15 do not exist (R20, R37). -/
def writeRegister (s : State) (n : BitVec 4) (v : Word64) : State :=
  match n.toNat with
  | 2 => { s with cfg := { typ := v.truncate 3, slice := v.extractLsb' 8 6 } }
  | 3 => { s with blkw := v.truncate 32 }
  | 4 => { s with blkc := v.truncate 32 }
  | 5 => { s with limit := v.truncate 32 }
  | 6 => { s with elim := v.truncate 32 }
  | 7 => { s with bitpos := v }
  | 8 => { s with prev := v.truncate 32 }
  | 9 => { s with eidx := v.truncate 32 }
  | 10 => { s with val := v }
  | 11 => { s with width := v.truncate 7 }
  | 12 => { s with total := v.truncate 32 }
  | 13 => { s with blk := v.truncate 32 }
  | _ => s

end Sys2Proof.Machine
end

