-- ==== Sys2Proof/Machine/BitCursor.lean ====
section
/-! DEFINITION. BitCursor (40_bitcursor.md): the functions every other unit reaches the byte memory
through (R120), and the commands WRITE_BITS, READ_BITS, SET_BIT, ALIGN_WR, ALIGN_RD, SCAN_ZEROS; with
them the stream item PAD, which the decoder skips as ALIGN_RD does (30_encoding.md R97). -/

namespace Sys2Proof.Machine

/-- BITPOS moves on by `n` bits; modulo 2^64, which only ALIGN_RD and a pad can reach (R125). -/
def moveOn (n : Nat) (s : State) : State :=
  { s with bitpos := s.bitpos + BitVec.ofNat 64 n }

/-- A field of `n` bits at the cursor is wholly inside the limit; a field of width 0 always is
(R61). -/
def fits (n : Nat) (s : State) : Bool :=
  decide (n = 0) || decide (s.bitpos.toNat + n ≤ s.limitBits)

/-- `WriteBits(v, n)` (R121). -/
def writeField (v n : Nat) (s : State) : Res Unit :=
  if fits n s then .ok () (moveOn n { s with bm := fieldWrite s.bm s.bitpos.toNat v n })
  else .raise .outOfSpace s

/-- `ReadBits(n)` (R122). -/
def readField (n : Nat) (s : State) : Res Nat :=
  if fits n s then .ok (fieldRead s.bm s.bitpos.toNat n) (moveOn n s)
  else .raise .readPastEnd s

/-- The loop of `ScanZeros` (R126): `k` bits still to examine, `z` zero bits seen; `none` when it
needs a bit at or beyond `lim`. -/
def scanFrom (m : Memory 8) (lim o : Nat) : Nat → Nat → Option (Nat × Bool)
  | 0, z => some (z, false)
  | k + 1, z =>
    if o + z ≥ lim then none
    else if bitRead m (o + z) then some (z, true)
    else scanFrom m lim o k (z + 1)

/-- `ScanZeros(n)` (R126): the count, and whether a one bit ended the scan (it is consumed). -/
def scanZeros (n : Nat) (s : State) : Res (Nat × Bool) :=
  match scanFrom s.bm s.limitBits s.bitpos.toNat n 0 with
  | none => .raise .readPastEnd s
  | some (z, f) => .ok (z, f) (moveOn (if f then z + 1 else n) s)

/-- `AlignWr()` (R124). -/
def alignWrite (s : State) : Res Unit :=
  writeField 0 (padBits s.bitpos.toNat) s

/-- `AlignRd()` (R125): no memory is accessed. -/
def alignRead (s : State) : State :=
  moveOn (padBits s.bitpos.toNat) s

/-- WRITE_BITS (R121). -/
def execWriteBits (s : State) : Host.Outcome State Fault Refusal :=
  runCommand .writeBits none (fun s => writeField s.val.toNat s.width.toNat s) s

/-- READ_BITS (R122). -/
def execReadBits (s : State) : Host.Outcome State Fault Refusal :=
  runCommand .readBits none
    (fun s => (readField s.width.toNat s).andThen fun v s => .ok () (setVal v s)) s

/-- SET_BIT (R123): `WriteBits(1, 1)`. -/
def execSetBit (s : State) : Host.Outcome State Fault Refusal :=
  runCommand .setBit none (writeField 1 1) s

/-- ALIGN_WR (R124). -/
def execAlignWr (s : State) : Host.Outcome State Fault Refusal :=
  runCommand .alignWr none alignWrite s

/-- ALIGN_RD (R125). -/
def execAlignRd (s : State) : Host.Outcome State Fault Refusal :=
  runCommand .alignRd none (fun s => .ok () (alignRead s)) s

/-- SCAN_ZEROS (R126): the one command that writes FOUND (R23). -/
def execScanZeros (s : State) : Host.Outcome State Fault Refusal :=
  runCommand .scanZeros none
    (fun s => (scanZeros s.width.toNat s).andThen fun r s =>
      .ok () { setVal r.1 s with status := s.status.setFound r.2 }) s

/-- PAD (R97): the decoder skips `p` bits and does not look at them; what ALIGN_RD does when `p` is
the number of bits up to the next byte boundary. -/
def execPad (p : BitVec 3) (s : State) : Host.Outcome State Fault Refusal :=
  runItem none noCheck (fun s => .ok () (moveOn p.toNat s)) s

end Sys2Proof.Machine
end

