-- ==== Sys2Proof/Machine/DifferenceCodec.lean ====
section
/-! DEFINITION. DifferenceCodec (41_differencecodec.md): `EncCodeword` and `DecCodeword`, the commands
ENC_CW, DEC_CW, ENC_DIFF, DEC_DIFF, and the two codeword forms of the stream (30_encoding.md R85 to
R90). -/

namespace Sys2Proof.Machine

/-- `EncCodeword(d)` (R143): the slice, then the unary code or the escape. -/
def encCodeword (d : Int) (s : State) : Res Unit :=
  (writeField (zext s.sw d) s.sw s).andThen fun _ s =>
  let m := zig (asr d s.sw)
  if m < Config.unaryLimit then writeField (2 ^ m) (m + 1) s
  else
    (writeField 0 Config.escPrefix s).andThen fun _ s =>
    writeField (zext (s.w + 1) d) (s.w + 1) s

/-- A codeword whose slice is `lit` and whose first one bit came after `z` zero bits (R144): the unary
form up to 30 zeros; 31 are no codeword. -/
def unaryForm (lit z : Nat) (s : State) : Res Unit :=
  if z < Config.unaryLimit then .ok () (takeDiff (unaryDiff s.sw lit z) s)
  else .raise .badUnary s

/-- A codeword whose slice is `lit` and whose escape literal is `e` (R144): refused unless the encoder
would have written it. -/
def escapeForm (lit e : Nat) (s : State) : Res Unit :=
  let d := sext (s.w + 1) e
  if escapeValid s.sw lit d then .ok () (takeDiff d s) else .raise .badEscape s

/-- `DecCodeword()` (R144): the difference is left in the accumulator. -/
def decCodeword (s : State) : Res Unit :=
  (readField s.sw s).andThen fun lit s =>
  (scanZeros Config.escPrefix s).andThen fun r s =>
  if r.2 then unaryForm lit r.1 s
  else (readField (s.w + 1) s).andThen fun e s => escapeForm lit e s

/-- ENC_CW (R143). -/
def execEncCw (s : State) : Host.Outcome State Fault Refusal :=
  runCommand .encCw (some { bitpos := true, bytes := true }) (fun s => encCodeword s.valDiff s) s

/-- DEC_CW (R144): VAL is the difference sign-extended to 64 bits. -/
def execDecCw (s : State) : Host.Outcome State Fault Refusal :=
  runCommand .decCw (some { bitpos := true, val := true })
    (fun s => (decCodeword s).andThen fun _ s => .ok () (setVal s.acc.toInt s)) s

/-- ENC_DIFF (R145): the exact difference (R141); PREV is written once the codeword was written
without fault. An imprecise fault leaves PREV unspecified, R39 giving it as written (R227 (d), ruling
U1); R145 says when PREV is updated, not what a fault leaves (log entry 5). -/
def execEncDiff (s : State) : Host.Outcome State Fault Refusal :=
  runCommand .encDiff (some { bitpos := true, prev := true, bytes := true })
    (fun s => (encCodeword (s.valElem - s.pv) s).andThen fun _ s => .ok () (setPrev s.valElem s)) s

/-- DEC_DIFF (R146): the sum wraps to `W` bits. "On a fault PREV is unchanged": the rule of the command
fixes what R227 (d) and ruling U2 leave open in general (log entry 5); VAL and BITPOS are unspecified
then. -/
def execDecDiff (s : State) : Host.Outcome State Fault Refusal :=
  runCommand .decDiff (some { bitpos := true, val := true })
    (fun s => (decCodeword s).andThen fun _ s =>
      .ok () (setPrev s.nextElem (setVal s.nextElem s))) s

/-- CW_UNARY (R87, R144): the decoder consumes `s + m + 1` bits and takes the difference. -/
def execCwUnary (lit : BitVec 32) (m : BitVec 5) (s : State) : Host.Outcome State Fault Refusal :=
  runItem (some { bitpos := true, val := true }) checkCodec
    (fun s => (readField (s.sw + (m.toNat + 1)) s).andThen fun _ s =>
      unaryForm lit.toNat m.toNat s) s

/-- CW_ESCAPE (R88, R144): the decoder consumes `s + 32 + W + 1` bits and takes the difference, or
refuses an escape the encoder would not have written. -/
def execCwEscape (lit : BitVec 32) (e : BitVec 33) (s : State) :
    Host.Outcome State Fault Refusal :=
  runItem (some { bitpos := true, val := true }) checkCodec
    (fun s => (readField (s.sw + (Config.escPrefix + (s.w + 1))) s).andThen fun _ s =>
      escapeForm lit.toNat e.toNat s) s

end Sys2Proof.Machine
end

