-- ==== Sys2Proof/Machine/RunCodec.lean ====
section
/-! DEFINITION. RunCodec (42_runcodec.md): the segmentation of a row, `EncRow` and `DecRow`, the
commands ENC_ROW and DEC_ROW, and the run-length items of the stream (30_encoding.md R91 to R96). -/

namespace Sys2Proof.Machine

/-! ## Segmentation (R161, R162) -/

/-- The exact first differences of a row after the element `p` (R161). -/
def rowDiffs (p : Int) : List Int → List Int
  | [] => []
  | x :: xs => (x - p) :: rowDiffs x xs

/-- The maximal runs of equal differences, each as (difference, length). -/
def runsOf : List Int → List (Int × Nat)
  | [] => []
  | d :: ds =>
    match runsOf ds with
    | [] => [(d, 1)]
    | (e, r) :: rs => if d = e then (e, r + 1) :: rs else (d, 1) :: (e, r) :: rs

/-- One segment of a run-length block body (R91). -/
inductive Segment where
  /-- `L(n)`: a literal run (R92) -/
  | literal (ds : List Int)
  /-- `C(n, d)`: a constant run (R93) -/
  | constant (n : Nat) (d : Int)
  /-- `K(d)`: a continued run (R94) -/
  | continued (d : Int)
  deriving DecidableEq, Repr

/-- `FlushLiterals` (R162): the pending literals as literal runs of at most 127; `fuel` bounds the
number of runs. -/
def flushLiterals : Nat → List Int → List Segment
  | 0, _ => []
  | fuel + 1, ds =>
    if ds = [] then []
    else .literal (ds.take Config.litRunMax) :: flushLiterals fuel (ds.drop Config.litRunMax)

/-- What `r` equal differences, `r > 128`, leave after one continued run for every full 128 while more
than 128 remain (R162). -/
def chainRest (r : Nat) : Nat :=
  r - Config.constRunMax * ((r - 1) / Config.constRunMax)

/-- `Segments` (R162) over the maximal runs, with the pending literals: a run of 4 or more flushes
them and becomes a chain of continued runs and a constant run of what is left, if that is at least 2;
a single left-over element becomes a pending literal; shorter runs stay pending. -/
def segmentsFrom (pending : List Int) : List (Int × Nat) → List Segment
  | [] => flushLiterals pending.length pending
  | (d, r) :: rs =>
    if r < Config.runMin then segmentsFrom (pending ++ List.replicate r d) rs
    else
      flushLiterals pending.length pending ++
        (List.replicate ((r - 1) / Config.constRunMax) (.continued d) ++
          if chainRest r < 2 then segmentsFrom (List.replicate (chainRest r) d) rs
          else .constant (chainRest r) d :: segmentsFrom [] rs)

/-- `Segments(D)` (R162). -/
def segments (ds : List Int) : List Segment :=
  segmentsFrom [] (runsOf ds)

/-! ## Encoding a row (R163) -/

/-- The literal difference of a run (R96). -/
def encLitDiff (d : Int) (s : State) : Res Unit :=
  writeField (zext (s.w + 1) d) (s.w + 1) s

/-- Write one segment (R163). -/
def encSegment : Segment → State → Res Unit
  | .literal ds, s => (writeField ds.length 8 s).andThen fun _ s => Res.each encCodeword ds s
  | .constant n d, s => (writeField (257 - n) 8 s).andThen fun _ s => encLitDiff d s
  | .continued d, s => (writeField Config.continuedMarker 8 s).andThen fun _ s => encLitDiff d s

/-- `EncRow(n)` (R163). -/
def encRow (n : Nat) (s : State) : Res Unit :=
  (Res.each encSegment (segments (rowDiffs s.pv (elemsAt s n))) s).andThen fun _ s =>
  .ok () (advance n (if n > 0 then setPrev (elemAt s (n - 1)) s else s))

/-! ## Decoding a row (R165, R166) -/

/-- The block lacks `c` elements fewer. -/
def lessRem (c : Nat) (s : State) : State :=
  { s with rem := s.rem - BitVec.ofNat 32 c }

/-- `if c > rem: raise RunOverrun`, before the segment's data is read (R166, R216). -/
def checkCount (c : Nat) (s : State) : Res Unit :=
  if c > s.rem.toNat then .raise .runOverrun s else .ok () s

/-- `x = wrap_W(x + DecCodeword()); ElemWrite(j, x); j = j + 1` (R166). -/
def decElem (s : State) : Res Unit :=
  (decCodeword s).andThen fun _ s => .ok () (produce s.nextElem s)

/-- A literal difference field (R96): the decoder takes `sext_(W+1)` of it. -/
def decLitDiff (s : State) : Res Unit :=
  (readField (s.w + 1) s).andThen fun e s => .ok () (takeDiff (sext (s.w + 1) e) s)

/-- After the marker of a literal run of `c` (R92, R166). -/
def literalRun (c : Nat) (s : State) : Res Unit :=
  (checkCount c s).andThen fun _ s =>
  (Res.times decElem c s).andThen fun _ s =>
  .ok () (lessRem c s)

/-- After the marker of a constant or continued run of `c` (R93, R94, R165, R166): the literal
difference, repeated `c` times. -/
def repeatedRun (c : Nat) (s : State) : Res Unit :=
  (checkCount c s).andThen fun _ s =>
  (decLitDiff s).andThen fun _ s =>
  (Res.times (fun s => .ok () (produce s.nextElem s)) c s).andThen fun _ s =>
  .ok () (lessRem c s)

/-- After the marker byte `b` (R91, R166). -/
def afterMarker (b : Nat) (s : State) : Res Unit :=
  if b = 0 then .raise .badMarker s
  else if b ≤ Config.litRunMax then literalRun b s
  else if b = Config.continuedMarker then repeatedRun Config.constRunMax s
  else repeatedRun (constantRunLength b) s

/-- One turn of the loop of `DecRow` (R166). -/
def decSegment (s : State) : Res Unit :=
  (readField 8 s).andThen fun b s => afterMarker b s

/-- The loop of `DecRow` (R166): until no element is missing. Every turn that does not raise puts out
at least one element, so `fuel` turns are enough for `fuel` elements. -/
def decSegments : Nat → State → Res Unit
  | 0, s => .ok () s
  | fuel + 1, s =>
    if s.rem = 0 then .ok () s else (decSegment s).andThen fun _ s => decSegments fuel s

/-- `DecRow(n)` (R166). PREV holds the running value `x` throughout, and EIDX the index `j`. -/
def decRow (n : Nat) (s : State) : Res Unit :=
  (decSegments n { s with rem := BitVec.ofNat 32 n }).andThen fun _ s =>
  .ok () (setPrev s.pv s)

/-! ## The commands and the stream items -/

/-- What an imprecise fault of DEC_ROW leaves unspecified (R227 (d)). -/
def decRowUnspec : Unspec :=
  { bitpos := true, prev := true, eidx := true, cells := .row }

/-- What an imprecise fault at an item inside a row leaves unspecified (R227 (d), log entry 7). -/
def rowItemUnspec : Unspec :=
  { bitpos := true, prev := true, eidx := true, cells := .rest }

/-- ENC_ROW (R163). -/
def execEncRow (s : State) : Host.Outcome State Fault Refusal :=
  runCommand .encRow (some { bitpos := true, prev := true, eidx := true, bytes := true })
    (fun s => encRow (s.blkw.toNat - 1) s) s

/-- DEC_ROW (R166). -/
def execDecRow (s : State) : Host.Outcome State Fault Refusal :=
  runCommand .decRow (some decRowUnspec) (fun s => decRow (s.blkw.toNat - 1) s) s

/-- MARK_RESERVED (R95): CorruptStream(BadMarker). -/
def execMarkReserved (s : State) : Host.Outcome State Fault Refusal :=
  runItem (some rowItemUnspec) checkRowItem
    (fun s => (readField 8 s).andThen fun _ s => afterMarker 0 s) s

/-- MARK_CONTINUED (R94): 128 repetitions of the literal difference that follows. -/
def execMarkContinued (s : State) : Host.Outcome State Fault Refusal :=
  runItem (some rowItemUnspec) checkRowItem
    (fun s => (readField 8 s).andThen fun _ s => afterMarker Config.continuedMarker s) s

/-- MARK_LITERAL (R92): the next `n` elements are the `n` codewords that follow. -/
def execMarkLiteral (n : BitVec 7) (s : State) : Host.Outcome State Fault Refusal :=
  runItem (some rowItemUnspec) checkRowItem
    (fun s => (readField 8 s).andThen fun _ s => afterMarker n.toNat s) s

/-- MARK_CONSTANT (R93): `257 - b` repetitions of the literal difference that follows. -/
def execMarkConstant (b : BitVec 8) (s : State) : Host.Outcome State Fault Refusal :=
  runItem (some rowItemUnspec) checkRowItem
    (fun s => (readField 8 s).andThen fun _ s => afterMarker b.toNat s) s

/-- LITDIFF (R96): the decoder consumes `W + 1` bits and takes `sext_(W+1)` of them. -/
def execLitDiff (d : BitVec 33) (s : State) : Host.Outcome State Fault Refusal :=
  runItem (some rowItemUnspec) checkRowItem
    (fun s => (readField (s.w + 1) s).andThen fun _ s =>
      .ok () (takeDiff (sext (s.w + 1) d.toNat) s)) s

end Sys2Proof.Machine
end

