-- ==== Sys2Proof/Machine/BlockFramer.lean ====
section
/-! DEFINITION. BlockFramer (43_blockframer.md): the header, the blocks and the whole stream: the
commands WR_HEADER, RD_HEADER, ENC_BLOCK, DEC_BLOCK, PATCH_SIZE, ENCODE, DECODE, and the stream items
HDR, RAW and the type tags (30_encoding.md R81, R84, R98, R99). -/

namespace Sys2Proof.Machine

/-! ## The header -/

/-- `BITPOS <- 0; EIDX <- 0; BLK <- 0` (R181, R184). -/
def rewind (s : State) : State :=
  { s with bitpos := 0, eidx := 0, blk := 0 }

/-- `WrHeader()` (R181). -/
def wrHeader (s : State) : Res Unit :=
  (writeField 0 32 { rewind s with total := 0 }).andThen fun _ s =>
  (writeField s.blkc.toNat 32 s).andThen fun _ s =>
  (writeField s.blkw.toNat 32 s).andThen fun _ s =>
  (writeField s.sw 8 s).andThen fun _ s =>
  writeField s.cfg.typ.toNat 8 s

/-- The header's tests, in the order of R184 and R230: a reserved tag, then the element width, block
count and block width the host declared, then the slice width. -/
def checkHeader (hc hw hs tag : Nat) (s : State) : Option Cause :=
  let t := BitVec.ofNat 3 tag
  if tagByteReserved (BitVec.ofNat 8 tag) then some .badType
  else if tagWidth t ≠ s.w ∨ hc ≠ s.blkc.toNat ∨ hw ≠ s.blkw.toNat then some .headerMismatch
  else if hs > tagWidth t then some .badSlice
  else none

/-- What `RdHeader` does with the five fields once it has read them (R184): the tests, then
`TOTAL <- t; CFG.TYPE <- tag[2:0]; CFG.SLICE <- hs`. -/
def acceptHeader (t hc hw hs tag : Nat) (s : State) : Res Unit :=
  match checkHeader hc hw hs tag s with
  | some c => .raise c s
  | none =>
    .ok () { s with
      total := BitVec.ofNat 32 t
      cfg := { typ := BitVec.ofNat 3 tag, slice := BitVec.ofNat 6 hs } }

/-- `RdHeader()` (R184). -/
def rdHeader (s : State) : Res Unit :=
  (readField 32 (rewind s)).andThen fun t s =>
  (readField 32 s).andThen fun hc s =>
  (readField 32 s).andThen fun hw s =>
  (readField 8 s).andThen fun hs s =>
  (readField 8 s).andThen fun tag s =>
  acceptHeader t hc hw hs tag s

/-- What the header step does with the tag byte alone (R184, R98, R99): a reserved tag is BadType,
another element width than the host's is HeaderMismatch, else CFG.TYPE is loaded. -/
def acceptTag (tag : Nat) (s : State) : Res Unit :=
  if tagByteReserved (BitVec.ofNat 8 tag) then .raise .badType s
  else if tagWidth (BitVec.ofNat 3 tag) ≠ s.w then .raise .headerMismatch s
  else .ok () { s with cfg := { s.cfg with typ := BitVec.ofNat 3 tag } }

/-! ## Blocks -/

/-- `BLK <- (BLK + 1) mod 2^32` (R36). -/
def countBlock (s : State) : State :=
  { s with blk := s.blk + 1 }

/-- The encoder's raw first element (R84, R186). -/
def encFirst (s : State) : Res Unit :=
  (writeField (zext s.w (elemAt s 0)) s.w s).andThen fun _ s =>
  .ok () (advance 1 (setPrev (elemAt s 0) s))

/-- One element of a plain block (R186). -/
def encElem (s : State) : Res Unit :=
  (encCodeword (elemAt s 0 - s.pv) s).andThen fun _ s =>
  .ok () (advance 1 (setPrev (elemAt s 0) s))

/-- `EncBlock()` (R186). -/
def encBlock (s : State) : Res Unit :=
  (encFirst s).andThen fun _ s =>
  (if s.runLength then encRow (s.blkw.toNat - 1) s
   else Res.times encElem (s.blkw.toNat - 1) s).andThen fun _ s =>
  (alignWrite s).andThen fun _ s =>
  .ok () (countBlock s)

/-- The decoder's raw first element (R84, R188). -/
def decFirst (s : State) : Res Unit :=
  (readField s.w s).andThen fun x s => .ok () (produce (sext s.w x) s)

/-- `DecBlock()` (R188). -/
def decBlock (s : State) : Res Unit :=
  (decFirst s).andThen fun _ s =>
  (if s.runLength then decRow (s.blkw.toNat - 1) s
   else Res.times decElem (s.blkw.toNat - 1) s).andThen fun _ s =>
  .ok () (countBlock (alignRead s))

/-! ## The whole stream -/

/-- `PatchSize()` (R190): the cursor does not move. -/
def patchSize (s : State) : Res Unit :=
  if s.limit.toNat < 4 ∨ s.bitpos.toNat > s.limitBits then .raise .outOfSpace s
  else
    .ok () { s with
      bm := fieldWrite s.bm 0 (s.bitpos.toNat / 8) 32
      total := BitVec.ofNat 32 (s.bitpos.toNat / 8) }

/-- The body of ENCODE (R191). -/
def encodeStream (s : State) : Res Unit :=
  (wrHeader s).andThen fun _ s =>
  (Res.times encBlock s.blkc.toNat s).andThen fun _ s =>
  patchSize s

/-- The end-of-stream check of DECODE (R189). -/
def checkSize (s : State) : Res Unit :=
  if s.bitpos.toNat / 8 ≠ s.total.toNat then .raise .sizeMismatch s else .ok () s

/-- The body of DECODE (R192). -/
def decodeStream (s : State) : Res Unit :=
  (rdHeader s).andThen fun _ s =>
  (Res.times decBlock s.blkc.toNat s).andThen fun _ s =>
  checkSize s

/-! ## The commands -/

/-- WR_HEADER (R181). -/
def execWrHeader (s : State) : Host.Outcome State Fault Refusal :=
  runCommand .wrHeader (some { bitpos := true, eidx := true, total := true, blk := true, bytes := true })
    wrHeader s

/-- What an imprecise fault of the header step leaves unspecified (R227 (c), (d)). -/
def rdHeaderUnspec : Unspec :=
  { bitpos := true, eidx := true, total := true, blk := true }

/-- RD_HEADER (R184). -/
def execRdHeader (s : State) : Host.Outcome State Fault Refusal :=
  runCommand .rdHeader (some rdHeaderUnspec) rdHeader s

/-- ENC_BLOCK (R186). -/
def execEncBlock (s : State) : Host.Outcome State Fault Refusal :=
  runCommand .encBlock (some { bitpos := true, prev := true, eidx := true, blk := true, bytes := true })
    encBlock s

/-- What an imprecise fault of a block leaves unspecified (R227 (d)). -/
def decBlockUnspec : Unspec :=
  { bitpos := true, prev := true, eidx := true, blk := true, cells := .block }

/-- DEC_BLOCK (R188). -/
def execDecBlock (s : State) : Host.Outcome State Fault Refusal :=
  runCommand .decBlock (some decBlockUnspec) decBlock s

/-- PATCH_SIZE (R190): every fault is precise. -/
def execPatchSize (s : State) : Host.Outcome State Fault Refusal :=
  runCommand .patchSize none patchSize s

/-- ENCODE (R191). -/
def execEncode (s : State) : Host.Outcome State Fault Refusal :=
  runCommand .encode
    (some { bitpos := true, prev := true, eidx := true, total := true, blk := true, bytes := true })
    encodeStream s

/-- DECODE (R192). -/
def execDecode (s : State) : Host.Outcome State Fault Refusal :=
  runCommand .decode
    (some { bitpos := true, prev := true, eidx := true, total := true, blk := true, cells := .array,
            header := true })
    decodeStream s

/-! ## The stream items -/

/-- HDR (R81, R184): the decoder has read the 14 header bytes at bit offset 0 and acts on their
fields. -/
def execHdr (total count width : BitVec 32) (slice tag : BitVec 8) (s : State) :
    Host.Outcome State Fault Refusal :=
  runItem (some rdHeaderUnspec) checkDecode
    (fun s => (readField (8 * Config.headerBytes) (rewind s)).andThen fun _ s =>
      acceptHeader total.toNat count.toNat width.toNat slice.toNat tag.toNat s) s

/-- RAW (R84, R188): the decoder consumes `W` bits and puts out the block's first element; it stands
where DEC_BLOCK begins, so the opening checks are that command's (R185). -/
def execRaw (x : BitVec 32) (s : State) : Host.Outcome State Fault Refusal :=
  runItem (some decBlockUnspec) checkBlock
    (fun s => (readField s.w s).andThen fun _ s => .ok () (produce (sext s.w x.toNat) s)) s

/-- The decoder consumes the 8 bits of a type tag and acts on it (R98, R99, R184). -/
def tagItem (tag : Nat) (s : State) : Host.Outcome State Fault Refusal :=
  runItem (some rdHeaderUnspec) checkTagItem
    (fun s => (readField 8 s).andThen fun _ s => acceptTag tag s) s

/-- TAG_0 (R98): 16-bit elements, plain mode. -/
def execTag0 (s : State) : Host.Outcome State Fault Refusal := tagItem 0 s

/-- TAG_1 (R98): 8-bit elements, plain mode. -/
def execTag1 (s : State) : Host.Outcome State Fault Refusal := tagItem 1 s

/-- TAG_2 (R98): 16-bit elements, run-length mode. -/
def execTag2 (s : State) : Host.Outcome State Fault Refusal := tagItem 2 s

/-- TAG_3 (R98): 8-bit elements, run-length mode. -/
def execTag3 (s : State) : Host.Outcome State Fault Refusal := tagItem 3 s

/-- TAG_4 (R98): 32-bit elements, plain mode. -/
def execTag4 (s : State) : Host.Outcome State Fault Refusal := tagItem 4 s

/-- TAG_6 (R98): 32-bit elements, run-length mode. -/
def execTag6 (s : State) : Host.Outcome State Fault Refusal := tagItem 6 s

/-- TAG_RESERVED (R99): InvalidParameter(BadType). -/
def execTagReserved (b : BitVec 8) (s : State) : Host.Outcome State Fault Refusal :=
  tagItem b.toNat s

end Sys2Proof.Machine
end

