-- ==== Sys2Proof/Machine/System.lean ====
section
/-! DEFINITION. The system command CLR_FAULT (60_exceptions.md R229) and the reserved opcodes
(30_encoding.md R102). -/

namespace Sys2Proof.Machine

/-- CLR_FAULT (R229): the one command the engine takes while a fault is recorded (R228); ignored
while BUSY = 1 like every CMD write (R38). -/
def execClrFault (s : State) : Host.Outcome State Fault Refusal :=
  if s.status.busy then .next s else .next (returnFromFault s)

/-- A reserved opcode (R102, R218): InvalidParameter(BadOpcode), nothing else changes. -/
def execCmdReserved (op : BitVec 8) (s : State) : Host.Outcome State Fault Refusal :=
  runCommand (.cmdReserved op) none (fun s => .ok () s) s

end Sys2Proof.Machine
end

