-- ==== Sys2Proof/Machine/Dispatch.lean ====
section
/-! DEFINITION. exec: one arm per row of the opcode table, one meaning per arm. -/

namespace Sys2Proof.Machine

open Sys2Proof

def exec (i : Instr) (s : State) : Host.Outcome State Fault Refusal :=
  match i with
  -- commands
  | .clrFault => Sys2Proof.Machine.execClrFault s
  | .writeBits => Sys2Proof.Machine.execWriteBits s
  | .readBits => Sys2Proof.Machine.execReadBits s
  | .setBit => Sys2Proof.Machine.execSetBit s
  | .alignWr => Sys2Proof.Machine.execAlignWr s
  | .alignRd => Sys2Proof.Machine.execAlignRd s
  | .scanZeros => Sys2Proof.Machine.execScanZeros s
  | .encDiff => Sys2Proof.Machine.execEncDiff s
  | .decDiff => Sys2Proof.Machine.execDecDiff s
  | .encCw => Sys2Proof.Machine.execEncCw s
  | .decCw => Sys2Proof.Machine.execDecCw s
  | .encRow => Sys2Proof.Machine.execEncRow s
  | .decRow => Sys2Proof.Machine.execDecRow s
  | .wrHeader => Sys2Proof.Machine.execWrHeader s
  | .rdHeader => Sys2Proof.Machine.execRdHeader s
  | .encBlock => Sys2Proof.Machine.execEncBlock s
  | .decBlock => Sys2Proof.Machine.execDecBlock s
  | .patchSize => Sys2Proof.Machine.execPatchSize s
  | .encode => Sys2Proof.Machine.execEncode s
  | .decode => Sys2Proof.Machine.execDecode s
  -- stream formats
  | .hdr total count width slice tag => Sys2Proof.Machine.execHdr total count width slice tag s
  | .raw x => Sys2Proof.Machine.execRaw x s
  | .cwUnary lit m => Sys2Proof.Machine.execCwUnary lit m s
  | .cwEscape lit e => Sys2Proof.Machine.execCwEscape lit e s
  | .markReserved => Sys2Proof.Machine.execMarkReserved s
  | .markContinued => Sys2Proof.Machine.execMarkContinued s
  | .markLiteral n => Sys2Proof.Machine.execMarkLiteral n s
  | .markConstant b => Sys2Proof.Machine.execMarkConstant b s
  | .litDiff d => Sys2Proof.Machine.execLitDiff d s
  | .pad p => Sys2Proof.Machine.execPad p s
  | .tag0 => Sys2Proof.Machine.execTag0 s
  | .tag1 => Sys2Proof.Machine.execTag1 s
  | .tag2 => Sys2Proof.Machine.execTag2 s
  | .tag3 => Sys2Proof.Machine.execTag3 s
  | .tag4 => Sys2Proof.Machine.execTag4 s
  | .tag6 => Sys2Proof.Machine.execTag6 s
  | .tagReserved b => Sys2Proof.Machine.execTagReserved b s
  -- reserved opcodes
  | .cmdReserved op => Sys2Proof.Machine.execCmdReserved op s

end Sys2Proof.Machine
end

