-- ==== Sys2Proof/Machine/Host.lean ====
section
/-! DEFINITION. What the host does to the machine other than start a command: register reads and
writes (10_state.md R38), filling and inspecting the memories (30_encoding.md R104, 60_exceptions.md
R232), reset (70_reset_and_hazards.md R240). -/

namespace Sys2Proof.Machine

/-- `write(n, v)` to a register other than CMD: ignored while BUSY = 1 (R38). -/
def hostWrite (n : BitVec 4) (v : Word64) (s : State) : State :=
  if s.status.busy then s else writeRegister s n v

/-- The host receives a value. -/
def reply (v : Word64) (s : State) : State :=
  { s with replies := v :: s.replies }

/-- `read(n)` (R38): while BUSY = 1 STATUS reads as it is and any other register returns an
unspecified value (U6), a free value in the bits that exist; the reserved bits and the numbers 14 and 15,
which are no registers, read 0 then too (R37, U10: "fixed, not a draw: read 0"). For CMD, which R21 says
reads 0, R38 is followed (log entry 10). -/
def hostRead (n : BitVec 4) (s : State) : State :=
  if s.status.busy && n != 1 && registerBits n != 0 then
    reply (Config.freeRegister s.freeDraws n.toNat &&& registerBits n)
      { s with freeDraws := s.freeDraws + 1 }
  else reply (readRegister s n) s

/-- Whether the host may touch byte `a` now: while BUSY = 1 it owns only the bytes at and above LIMIT
(R63, R232). -/
def mayTouchByte (a : Nat) (s : State) : Bool :=
  !s.status.busy || decide (s.limit.toNat ≤ a)

/-- Whether the host may touch element cell `i` now (R63, R232). -/
def mayTouchElem (i : Nat) (s : State) : Bool :=
  !s.status.busy || decide (s.elim.toNat ≤ i)

/-- `BM[a] = b` (R104); a breach of the duty of R232 is refused (U7). -/
def hostSetByte (a : Nat) (b : Byte) (s : State) : Host.Outcome State Fault Refusal :=
  if mayTouchByte a s then .next { s with bm := Memory.write s.bm a b }
  else .refused .hostMemoryWhileBusy

/-- The host inspects byte `a` (R104). -/
def hostGetByte (a : Nat) (s : State) : Host.Outcome State Fault Refusal :=
  if mayTouchByte a s then .next (reply ((Memory.read s.bm a).setWidth 64) s)
  else .refused .hostMemoryWhileBusy

/-- `EM[i] = x` (R104). -/
def hostSetElem (i : Nat) (x : Elem) (s : State) : Host.Outcome State Fault Refusal :=
  if mayTouchElem i s then .next { s with em := Memory.write s.em i x }
  else .refused .hostMemoryWhileBusy

/-- The host inspects element cell `i` (R104). -/
def hostGetElem (i : Nat) (s : State) : Host.Outcome State Fault Refusal :=
  if mayTouchElem i s then .next (reply ((Memory.read s.em i).setWidth 64) s)
  else .refused .hostMemoryWhileBusy

/-- Leave the memory that the command `i` may be writing unspecified (R227 (d), U14); a command that
its opening checks stop writes none (R227 (b)). -/
def spoilMemory (i : Instr) (s : State) : State :=
  if openingCheck i s = none then
    { s with
      bm := if (memoryWritten i).1 then freeBytes s.freeDraws s.bm 0 s.limit.toNat else s.bm
      em := freeCells s.freeDraws s.em ((memoryWritten i).2.span s).1 ((memoryWritten i).2.span s).2
      freeDraws := s.freeDraws + 1 }
  else s

/-- The memories when reset is asserted (R240): not changed, but for what the command that was running
was writing. -/
def abandonCommand (s : State) : State :=
  match s.status.busy, s.running with
  | true, some i => spoilMemory i s
  | _, _ => s

/-- Reset (R240): every context register holds the value of R43; the memories stay. The host's pending
actions and what it has read are not the engine's. -/
def hostReset (s : State) : State :=
  let t := abandonCommand s
  { State.reset with
    bm := t.bm, em := t.em, hostQueue := t.hostQueue, replies := t.replies,
    freeDraws := t.freeDraws }

/-- `write(0, v)` of the command `i`, and reset before the command has ended (R240): if the engine
accepts the command it is abandoned while it runs; otherwise there is only the reset. -/
def hostWriteThenReset (i : Instr) (s : State) : State :=
  if accepts s then hostReset (start i s) else hostReset s

end Sys2Proof.Machine
end

