-- ==== Sys2Proof/Machine/Step.lean ====
section
/-! DEFINITION. One step of the machine: the host's next action. A write to CMD starts the command its
low byte decodes to, as one atomic transition (00_scope.md R5). With nothing pending the engine waits
for the host (70_reset_and_hazards.md R240). -/

namespace Sys2Proof.Machine

/-- One host action in the state after it has been taken from the queue. -/
def hostAction (a : HostAct) (s : State) : Host.Outcome State Fault Refusal :=
  match a with
  | .write n v => if n = 0 then exec (decodeCommand v) s else .next (hostWrite n v s)
  | .read n => .next (hostRead n s)
  | .setByte a b => hostSetByte a b s
  | .getByte a => hostGetByte a s
  | .setElem i x => hostSetElem i x s
  | .getElem i => hostGetElem i s
  | .reset => .next (hostReset s)
  | .writeThenReset v => .next (hostWriteThenReset (decodeCommand v) s)

/-- One step. -/
def step (s : State) : Host.Outcome State Fault Refusal :=
  match s.hostQueue with
  | [] => .next s
  | a :: rest => hostAction a { s with hostQueue := rest }

/-- The state in which the host's next action is the CMD write of a word: what `step` fetches. -/
def State.withFetchWord (s : State) (nbits w : Nat) : State :=
  { s with hostQueue := .write 0 (BitVec.ofNat 64 (w % 2 ^ nbits)) :: s.hostQueue }

end Sys2Proof.Machine
end

