-- ==== Sys2Proof/Safety.lean ====
section
/-! DEFINITION. The terms the claims are stated in: when the engine accepts a command, what a command
may touch, and the bits the formats of 30_encoding.md give a difference, a segment, a row, a block and
a stream. The bit strings here are built from the encoder of Sys2Proof/Decode.lean alone; the machine
writes its bits field by field from the pseudocode, so that a claim that the two agree compares two
definitions. -/

namespace Sys2Proof.Machine

/-! ## States between commands -/

/-- Idle and not faulted: a CMD write starts a command (R21, R38, R228). -/
def State.ready (s : State) : Prop :=
  s.status.busy = false ∧ s.status.fault = false

/-- `s` with no command running and no fault recorded: what a completed command leaves where it
writes nothing (R22, R42). -/
def State.atRest (s : State) : State :=
  { s with
    status := { busy := false, fault := false, found := s.status.found, err := 0, sub := 0 }
    acc := 0
    rem := 0
    running := none }

/-- `s` with the fault `c` recorded and nothing else changed: what a precise fault leaves (R210,
R227 (b)). -/
def State.withFault (c : Cause) (s : State) : State :=
  { s with
    status := { busy := false, fault := true, found := s.status.found, err := c.err, sub := c.sub }
    acc := 0
    rem := 0
    running := none }

/-- CFG selects a width and a legal slice width (R142). -/
def State.codecLegal (s : State) : Prop :=
  typeReserved s.cfg.typ = false ∧ s.sw ≤ s.w

/-- `BLKW * BLKC` elements are legal and inside ELIM (R182, R183). -/
def State.geometryLegal (s : State) : Prop :=
  s.blkw ≠ 0 ∧ s.blkw.toNat * s.blkc.toNat < 2 ^ 32 ∧ s.blkw.toNat * s.blkc.toNat ≤ s.elim.toNat

/-- ERR and SUB are a pair of R226, 0 and 0 exactly when no fault is recorded (R22, R226). -/
def Status.legal (t : Status) : Prop :=
  if t.fault then ∃ c : Cause, t.err = c.err ∧ t.sub = c.sub else t.err = 0 ∧ t.sub = 0

/-- What holds between any two steps of a machine that was reset: no command is running (R5, R22), the
hidden temporaries are dead (R42), STATUS is legal (R226), and both memories are canonical. -/
def State.Inv (s : State) : Prop :=
  s.status.busy = false ∧ s.running = none ∧ s.status.legal ∧ s.acc = 0 ∧ s.rem = 0 ∧
    Memory.wf s.bm ∧ Memory.wf s.em

/-! ## What an imprecise decoding fault leaves (R227 (d))

`t` is `s` with the fault `e` recorded; the registers that the command writes by the table of R39 and the
cells of its range may differ, and nothing else. -/

/-- After a fault of DEC_ROW, or of an item of a row, that has `n` cells from EIDX on for its range. -/
def afterRowFault (s : State) (n : Nat) (e : Cause) (t : State) : Prop :=
  t = { s.withFault e with
    em := t.em, bitpos := t.bitpos, prev := t.prev, eidx := t.eidx, freeDraws := s.freeDraws + 1 } ∧
  ∀ j, j < s.eidx.toNat ∨ s.eidx.toNat + n ≤ j → Memory.read t.em j = Memory.read s.em j

/-- After a fault of DEC_BLOCK. -/
def afterBlockFault (s : State) (e : Cause) (t : State) : Prop :=
  t = { s.withFault e with
    em := t.em, bitpos := t.bitpos, prev := t.prev, eidx := t.eidx, blk := t.blk,
    freeDraws := s.freeDraws + 1 } ∧
  ∀ j, j < s.eidx.toNat ∨ s.eidx.toNat + s.blkw.toNat ≤ j →
    Memory.read t.em j = Memory.read s.em j

/-- After a fault of DECODE that leaves `cfg` in CFG (R227 (c)). -/
def afterDecodeFault (s : State) (cfg : Cfg) (e : Cause) (t : State) : Prop :=
  t = { s.withFault e with
    cfg := cfg, em := t.em, bitpos := t.bitpos, prev := t.prev, eidx := t.eidx, total := t.total,
    blk := t.blk, freeDraws := s.freeDraws + 1 } ∧
  ∀ j, s.blkw.toNat * s.blkc.toNat ≤ j → Memory.read t.em j = Memory.read s.em j

/-! ## What stands in the memories -/

/-- The bits from offset `o` on are `bits` (R53). -/
def holdsBits (m : Memory 8) (o : Nat) (bits : List Bool) : Prop :=
  ∀ i, (h : i < bits.length) → bitRead m (o + i) = bits[i]

/-- Of the bits from offset `o` on, those below offset `lim` are `bits`; nothing is said of what stands
at or beyond `lim` (R61). -/
def holdsBelow (m : Memory 8) (lim o : Nat) (bits : List Bool) : Prop :=
  ∀ i, (h : i < bits.length) → o + i < lim → bitRead m (o + i) = bits[i]

/-- Two states with the same registers and the same bytes below LIMIT and cells below ELIM; what their
memories hold elsewhere may differ (R61). -/
def agreeBelow (s t : State) : Prop :=
  t = { s with bm := t.bm, em := t.em } ∧
    (∀ a, a < s.limit.toNat → Memory.read t.bm a = Memory.read s.bm a) ∧
    ∀ j, j < s.elim.toNat → Memory.read t.em j = Memory.read s.em j

/-- From `m` to `m'` exactly the field at `o` was stored: it holds `bits`, every other bit is as
before, and so is every byte the field does not reach into (R59). -/
def storesBits (m m' : Memory 8) (o : Nat) (bits : List Bool) : Prop :=
  holdsBits m' o bits ∧
    (∀ p, p < o ∨ o + bits.length ≤ p → bitRead m' p = bitRead m p) ∧
    ∀ a, 8 * a + 8 ≤ o ∨ o + bits.length ≤ 8 * a → Memory.read m' a = Memory.read m a

/-- From `m` to `m'` exactly the cells from `i` on were stored: they hold the elements `xs`
sign-extended to the cell (R51), and every other cell is as before. -/
def storesElems (m m' : Memory 32) (i : Nat) (xs : List Int) : Prop :=
  (∀ k, (h : k < xs.length) → Memory.read m' (i + k) = BitVec.ofInt 32 xs[k]) ∧
    ∀ j, j < i ∨ i + xs.length ≤ j → Memory.read m' j = Memory.read m j

/-- An integer is a `w`-bit signed value (R6). -/
def isElem (w : Nat) (x : Int) : Prop :=
  sext w x = x

/-! ## The bits of the formats -/

/-- The difference a codeword stands for (R86). -/
def codewordDiff (c : Ctx) : Instr → Int
  | .cwUnary lit m => unaryDiff c.s lit.toNat m.toNat
  | .cwEscape _ e => sext (c.w + 1) e.toNat
  | _ => 0

/-- The codeword of a difference (R85 to R88). -/
def codewordBits (c : Ctx) (d : Int) : List Bool :=
  encode c (codewordItem c d)

/-- A difference that has a codeword (R90): one of `W + 1` bits, or one the unary form reaches. -/
def codable (c : Ctx) (d : Int) : Prop :=
  isElem (c.w + 1) d ∨ zig (asr d c.s) < Config.unaryLimit

/-- The literal difference of a run (R96). -/
def litDiffBits (c : Ctx) (d : Int) : List Bool :=
  encode c (.litDiff (BitVec.ofNat 33 (zext (c.w + 1) d)))

/-- The marker of a segment (R91): a literal run of `n` is marked `n`, a constant run of `n` is marked
`257 - n`. -/
def segmentMarker : Segment → Instr
  | .literal ds => .markLiteral (BitVec.ofNat 7 ds.length)
  | .constant n _ => .markConstant (BitVec.ofNat 8 (257 - n))
  | .continued _ => .markContinued

/-- What follows the marker of a segment (R92, R93, R94): codewords, or one literal difference. -/
def segmentData (c : Ctx) : Segment → List Bool
  | .literal ds => ds.flatMap (codewordBits c)
  | .constant _ d => litDiffBits c d
  | .continued d => litDiffBits c d

/-- The bits of a segment (R91). -/
def segmentBits (c : Ctx) (seg : Segment) : List Bool :=
  encode c (segmentMarker seg) ++ segmentData c seg

/-- The differences a segment stands for (R92, R93, R94). -/
def segmentDiffs : Segment → List Int
  | .literal ds => ds
  | .constant n d => List.replicate n d
  | .continued d => List.replicate Config.constRunMax d

/-- The segments the format allows (R91): literal runs of 1 to 127 codewords, constant runs of 2 to
128, and differences that their fields hold. -/
def segmentLegal (c : Ctx) : Segment → Prop
  | .literal ds => 1 ≤ ds.length ∧ ds.length ≤ Config.litRunMax ∧ ∀ d ∈ ds, codable c d
  | .constant n d => 2 ≤ n ∧ n ≤ Config.constRunMax ∧ isElem (c.w + 1) d
  | .continued d => isElem (c.w + 1) d

/-! ## `Segments(D)`, transcribed from the pseudocode of R162 -/

/-- The length of the run of `d` that a list begins with. -/
def leadingRun (d : Int) : List Int → Nat
  | [] => 0
  | e :: es => if e = d then leadingRun d es + 1 else 0

/-- `r`, the largest `r` such that `D[i] = D[i+1] = ... = D[i+r-1]`. -/
def runAt (ds : List Int) (i : Nat) : Nat :=
  match ds.drop i with
  | [] => 0
  | d :: es => leadingRun d es + 1

/-- `FlushLiterals(lo, hi)`: `D[lo .. hi-1]` as literal runs of at most 127 (`fuel` turns). -/
def flushRange (ds : List Int) : Nat → Nat → Nat → List Segment
  | 0, _, _ => []
  | fuel + 1, lo, hi =>
    if lo < hi then
      .literal ((ds.drop lo).take (min Config.litRunMax (hi - lo))) ::
        flushRange ds fuel (lo + min Config.litRunMax (hi - lo)) hi
    else []

/-- `while rem > 128: append K(d); rem = rem - 128` (`fuel` turns): the segments and what is left. -/
def chainLoop (d : Int) : Nat → Nat → List Segment × Nat
  | 0, rem => ([], rem)
  | fuel + 1, rem =>
    if rem > Config.constRunMax then
      let r := chainLoop d fuel (rem - Config.constRunMax)
      (.continued d :: r.1, r.2)
    else ([], rem)

/-- The loop of `Segments(D)` from index `i` with the pending literals starting at `p` (`fuel`
turns). -/
def segmentLoop (ds : List Int) : Nat → Nat → Nat → List Segment
  | 0, _, p => flushRange ds ds.length p ds.length
  | fuel + 1, i, p =>
    if i < ds.length then
      let r := runAt ds i
      let d := ds.getD i 0
      if r ≥ Config.runMin then
        let k := chainLoop d r r
        if k.2 ≥ 2 then
          flushRange ds ds.length p i ++ k.1 ++ .constant k.2 d :: segmentLoop ds fuel (i + r) (i + r)
        else
          flushRange ds ds.length p i ++ k.1 ++
            segmentLoop ds fuel (i + r - k.2) (i + r - k.2)
      else segmentLoop ds fuel (i + r) p
    else flushRange ds ds.length p ds.length

/-! ## Rows, blocks and streams -/

/-- The elements a sequence of differences gives after the element `p`, each sum wrapped to `W` bits
(R146, R165). -/
def runningElems (w : Nat) (p : Int) : List Int → List Int
  | [] => []
  | d :: ds => sext w (p + d) :: runningElems w (sext w (p + d)) ds

/-- The bits of a row in run-length mode: the encoder's segments (R162, R163). -/
def rowBits (c : Ctx) (ds : List Int) : List Bool :=
  (segments ds).flatMap (segmentBits c)

/-- The bits of a block up to its padding (R83): the raw first element, then codewords (plain mode) or
segments (run-length mode). -/
def blockBody (c : Ctx) (runLength : Bool) : List Int → List Bool
  | [] => []
  | x :: xs =>
    encode c (.raw (BitVec.ofNat 32 (zext c.w x))) ++
      if runLength then rowBits c (rowDiffs x xs) else (rowDiffs x xs).flatMap (codewordBits c)

/-- The zero bits that take `n` bits up to a byte boundary (R97). -/
def padding (n : Nat) : List Bool :=
  encode ⟨8, 0⟩ (.pad (BitVec.ofNat 3 (padBits n)))

/-- A block (R83): its body and its padding. -/
def blockBits (c : Ctx) (runLength : Bool) (xs : List Int) : List Bool :=
  blockBody c runLength xs ++ padding (blockBody c runLength xs).length

/-- The concatenated blocks of a stream (R80). -/
def blocksBits (c : Ctx) (runLength : Bool) (rows : List (List Int)) : List Bool :=
  rows.flatMap (blockBits c runLength)

/-- The length in bytes of a stream with these block bits, header included (R82). -/
def streamBytes (blocks : List Bool) : Nat :=
  Config.headerBytes + blocks.length / 8

/-- The header the engine writes for the stream of the registers, with a total size (R81, R181). -/
def headerOf (s : State) (total : Nat) : Instr :=
  .hdr (BitVec.ofNat 32 total) s.blkc s.blkw (BitVec.ofNat 8 s.sw) (BitVec.ofNat 8 s.cfg.typ.toNat)

/-- The rows of the array in the element memory: element `k` of block `b` is cell `b * BLKW + k`
(R31, R62). -/
def State.rows (s : State) : List (List Int) :=
  (List.range s.blkc.toNat).map fun b =>
    (List.range s.blkw.toNat).map fun k => elemRead s.w s.em (b * s.blkw.toNat + k)

/-- The whole stream ENCODE writes (R80): header and blocks. -/
def streamBits (s : State) : List Bool :=
  encode s.ctx (headerOf s (streamBytes (blocksBits s.ctx s.runLength s.rows))) ++
    blocksBits s.ctx s.runLength s.rows

/-! ## What the decoder accepts

The encoder's blocks are of this form, but not the only ones: a decoder takes any legal segments (R164)
and any codable differences, and its sums wrap (R146, R188). -/

/-- `bits` code the differences `ds` of a row or of a block's other elements: in run-length mode as legal
segments, in plain mode as one codeword each (R83, R164, R188). -/
def codes (c : Ctx) (runLength : Bool) (ds : List Int) (bits : List Bool) : Prop :=
  if runLength then
    ∃ segs : List Segment, (∀ seg ∈ segs, segmentLegal c seg) ∧ ds = segs.flatMap segmentDiffs ∧
      bits = segs.flatMap (segmentBits c)
  else (∀ d ∈ ds, codable c d) ∧ bits = ds.flatMap (codewordBits c)

/-- A block as a decoder meets it: its raw element, the differences of the others, and the bits that
code these. -/
structure CodedBlock where
  first : Int
  diffs : List Int
  rest : List Bool
  deriving DecidableEq, Repr

/-- A block of `n` elements that a decoder accepts (R83, R188). -/
def CodedBlock.legal (c : Ctx) (runLength : Bool) (n : Nat) (b : CodedBlock) : Prop :=
  isElem c.w b.first ∧ b.diffs.length + 1 = n ∧ codes c runLength b.diffs b.rest

/-- The elements of a block: the raw one, then the running sums, each wrapped to `W` bits (R188). -/
def CodedBlock.elems (w : Nat) (b : CodedBlock) : List Int :=
  b.first :: runningElems w b.first b.diffs

/-- The bits of a block up to its padding (R83, R84). -/
def CodedBlock.body (c : Ctx) (b : CodedBlock) : List Bool :=
  encode c (.raw (BitVec.ofNat 32 (zext c.w b.first))) ++ b.rest

/-- The bits of a block with zeros for its padding, whose values no decoder looks at (R97). -/
def CodedBlock.bits (c : Ctx) (b : CodedBlock) : List Bool :=
  b.body c ++ padding (b.body c).length

/-- Blocks stand one after the other from offset `o` on, as far as `lim` and whatever their pad bits are
(R80, R97). -/
def holdsBlocks (m : Memory 8) (lim : Nat) (c : Ctx) : Nat → List CodedBlock → Prop
  | _, [] => True
  | o, b :: bs =>
    holdsBelow m lim o (b.body c) ∧ holdsBlocks m lim c (o + (b.bits c).length) bs

/-- The stream of the header `h` and these blocks stands from offset 0 on, as far as `lim` and whatever
the pad bits are (R80, R97). -/
def holdsStream (m : Memory 8) (lim : Nat) (c : Ctx) (h : Instr) (blocks : List CodedBlock) : Prop :=
  holdsBelow m lim 0 (encode c h) ∧ holdsBlocks m lim c (8 * Config.headerBytes) blocks

/-- A header as DECODE in `s` accepts it: the geometry and the element width that the host declared, a
legal tag and slice width (R184). -/
def headerAccepted (s : State) (total : BitVec 32) (slice tag : BitVec 8) : Prop :=
  typeReserved s.cfg.typ = false ∧ s.geometryLegal ∧
    (Instr.hdr total s.blkc s.blkw slice tag).wf s.ctx = true ∧ tagWidth (tag.truncate 3) = s.w

/-- `s` with CFG.TYPE and CFG.SLICE as the header step loads them (R184). -/
def State.withHeader (slice tag : BitVec 8) (s : State) : State :=
  { s with cfg := { typ := tag.truncate 3, slice := slice.truncate 6 } }

/-- DECODE in `s` comes to a block at offset `o`: the header is accepted and wholly inside the limit, and
so are the legal blocks before it, fewer than BLKC (R192). -/
def reachesBlock (s : State) (total : BitVec 32) (slice tag : BitVec 8) (o : Nat) : Prop :=
  headerAccepted s total slice tag ∧ ∃ blocks : List CodedBlock,
    let u := s.withHeader slice tag
    (∀ b ∈ blocks, b.legal u.ctx u.runLength s.blkw.toNat) ∧ blocks.length < s.blkc.toNat ∧
      o = 8 * Config.headerBytes + (blocks.flatMap (CodedBlock.bits u.ctx)).length ∧
      o ≤ 8 * s.limit.toNat ∧
      holdsStream s.bm (8 * s.limit.toNat) u.ctx (.hdr total s.blkc s.blkw slice tag) blocks

/-! ## Codewords and markers the decoder refuses -/

/-- The limit cuts `bits`, which stand from offset `o` on as far as it (R212). -/
def cutByLimit (s : State) (o : Nat) (bits : List Bool) : Prop :=
  bits ≠ [] ∧ 8 * s.limit.toNat < o + bits.length ∧ holdsBelow s.bm (8 * s.limit.toNat) o bits

/-- The codeword at offset `o` is refused with the fault `e` (R144): its 32nd bit after the slice is the
first one bit (BadUnary, R213), its escape is not one the encoder would have written (BadEscape, R214),
or it does not end below the limit (ReadPastEnd, R212). -/
def codewordFails (s : State) (o : Nat) (e : Cause) : Prop :=
  ∃ lit, lit < 2 ^ s.sw ∧ ∃ bits,
    (e = .badUnary ∧ bits = fieldBits [(lit, s.sw), (2 ^ 31, 32)] ∧
      o + bits.length ≤ 8 * s.limit.toNat ∧ holdsBits s.bm o bits) ∨
    (e = .badEscape ∧ ∃ v, v < 2 ^ (s.w + 1) ∧
      bits = fieldBits [(lit, s.sw), (0, 32), (v, s.w + 1)] ∧
      (zig (asr (sext (s.w + 1) v) s.sw) < 31 ∨ zext s.sw (sext (s.w + 1) v) ≠ lit) ∧
      o + bits.length ≤ 8 * s.limit.toNat ∧ holdsBits s.bm o bits) ∨
    (e = .readPastEnd ∧
      ((∃ m, m ≤ 31 ∧ bits = fieldBits [(lit, s.sw), (2 ^ m, m + 1)]) ∨
        ∃ v, v < 2 ^ (s.w + 1) ∧ bits = fieldBits [(lit, s.sw), (0, 32), (v, s.w + 1)]) ∧
      cutByLimit s o bits)

/-- What a decoder of `n` elements may have read when the next thing it reads is a codeword: in plain
mode fewer than `n` codewords (R188); in run-length mode some segments, the marker of a literal run that
is not too long, and fewer codewords than it announces (R166). -/
def beforeCodeword (c : Ctx) (runLength : Bool) (n : Nat) (bits : List Bool) : Prop :=
  ∃ ds : List Int, (∀ d ∈ ds, codable c d) ∧
    if runLength then
      ∃ (segs : List Segment) (k : BitVec 7), (∀ seg ∈ segs, segmentLegal c seg) ∧
        ds.length < k.toNat ∧ (segs.flatMap segmentDiffs).length + k.toNat ≤ n ∧
        bits = segs.flatMap (segmentBits c) ++ encode c (.markLiteral k) ++
          ds.flatMap (codewordBits c)
    else ds.length < n ∧ bits = ds.flatMap (codewordBits c)

/-- What a decoder of a run-length row of `n` elements reads before anything can be wrong with it: some
segments, and the marker byte after them, whatever it is, if elements are still missing (R166). -/
def rowPrefix (c : Ctx) (n : Nat) (bits : List Bool) : Prop :=
  ∃ segs : List Segment, (∀ seg ∈ segs, segmentLegal c seg) ∧
    (((segs.flatMap segmentDiffs).length ≤ n ∧ bits = segs.flatMap (segmentBits c)) ∨
      ((segs.flatMap segmentDiffs).length < n ∧
        ∃ b : BitVec 8, bits = segs.flatMap (segmentBits c) ++ bitsOf b.toNat 8))

/-- The marker byte `b` is refused with `e` where `n` elements are missing: 0 is BadMarker (R215), a
count above `n` is RunOverrun (R216). -/
def markerFails (n b : Nat) (e : Cause) : Prop :=
  (b = 0 ∧ e = .badMarker) ∨
    (e = .runOverrun ∧ ((1 ≤ b ∧ b ≤ 127 ∧ n < b) ∨ (b = 128 ∧ n < 128) ∨ (129 ≤ b ∧ n < 257 - b)))

/-- A run-length row of `n` elements at offset `o` is refused with `e` for a marker, which stands inside
the limit after any legal segments (R166). What stands after the marker does not matter. -/
def rowMarkerFails (s : State) (n o : Nat) (e : Cause) : Prop :=
  ∃ (segs : List Segment) (b : BitVec 8) (bits : List Bool), (∀ seg ∈ segs, segmentLegal s.ctx seg) ∧
    (segs.flatMap segmentDiffs).length < n ∧
    markerFails (n - (segs.flatMap segmentDiffs).length) b.toNat e ∧
    bits = segs.flatMap (segmentBits s.ctx) ++ bitsOf b.toNat 8 ∧
    o + bits.length ≤ 8 * s.limit.toNat ∧ holdsBits s.bm o bits

/-! ## Sequences of operations -/

/-- Commands issued one after the other, each completing before the next (R64). -/
def execAll : List Instr → State → Host.Outcome State Fault Refusal
  | [], s => .next s
  | i :: is, s =>
    match exec i s with
    | .next t => execAll is t
    | .fault f => .fault f
    | .refused r => .refused r

/-- Fields written at consecutive cursors (R127). -/
def writeFields : List (Nat × Nat) → State → Res Unit :=
  Res.each fun f => writeField f.1 f.2

/-- Fields of the given widths read at consecutive cursors (R127). -/
def readFields : List Nat → State → Res (List Nat)
  | [], s => .ok [] s
  | n :: ns, s =>
    (readField n s).andThen fun v s => (readFields ns s).andThen fun vs s => .ok (v :: vs) s

/-! ## Which command touches what -/

/-- The commands and items that only read the byte memory (R50, R67). -/
def readsBytesOnly : Instr → Bool
  | .writeBits | .setBit | .alignWr | .encCw | .encDiff | .encRow | .wrHeader | .encBlock
  | .patchSize | .encode => false
  | .clrFault | .readBits | .alignRd | .scanZeros | .decCw | .decDiff | .decRow | .rdHeader
  | .decBlock | .decode | .hdr .. | .raw _ | .cwUnary .. | .cwEscape .. | .markReserved
  | .markContinued | .markLiteral _ | .markConstant _ | .litDiff _ | .pad _ | .tag0 | .tag1 | .tag2
  | .tag3 | .tag4 | .tag6 | .tagReserved _ | .cmdReserved _ => true

/-- The commands and items that write element cells (R51). -/
def writesElems : Instr → Bool
  | .decRow | .decBlock | .decode | .raw _ | .markReserved | .markContinued | .markLiteral _
  | .markConstant _ | .litDiff _ => true
  | .clrFault | .writeBits | .readBits | .setBit | .alignWr | .alignRd | .scanZeros | .encDiff
  | .decDiff | .encCw | .decCw | .encRow | .wrHeader | .rdHeader | .encBlock | .patchSize | .encode
  | .hdr .. | .cwUnary .. | .cwEscape .. | .pad _ | .tag0 | .tag1 | .tag2 | .tag3 | .tag4 | .tag6
  | .tagReserved _ | .cmdReserved _ => false

/-- The commands of R101, and the reserved opcodes: what a CMD write can start. -/
def isCommand : Instr → Bool
  | .clrFault | .writeBits | .readBits | .setBit | .alignWr | .alignRd | .scanZeros | .encDiff
  | .decDiff | .encCw | .decCw | .encRow | .decRow | .wrHeader | .rdHeader | .encBlock | .decBlock
  | .patchSize | .encode | .decode | .cmdReserved _ => true
  | .hdr .. | .raw _ | .cwUnary .. | .cwEscape .. | .markReserved | .markContinued | .markLiteral _
  | .markConstant _ | .litDiff _ | .pad _ | .tag0 | .tag1 | .tag2 | .tag3 | .tag4 | .tag6
  | .tagReserved _ => false

/-- The bits of a register that a host write reaches (R20, R37). -/
def registerMask (n : BitVec 4) : Word64 :=
  if n = 0 ∨ n = 1 then 0 else registerBits n

/-- The registers a command writes, by number, STATUS apart (the table of R39). -/
def registersWritten : Instr → List (BitVec 4)
  | .clrFault | .cmdReserved _ => []
  | .writeBits | .setBit | .alignWr | .alignRd | .encCw => [7]
  | .readBits | .scanZeros | .decCw => [7, 10]
  | .encDiff => [7, 8]
  | .decDiff => [7, 8, 10]
  | .encRow | .decRow => [7, 8, 9]
  | .wrHeader => [7, 9, 12, 13]
  | .rdHeader => [2, 7, 9, 12, 13]
  | .encBlock | .decBlock => [7, 8, 9, 13]
  | .patchSize => [12]
  | .encode => [7, 8, 9, 12, 13]
  | .decode => [2, 7, 8, 9, 12, 13]
  | .hdr .. => [2, 7, 9, 12, 13]
  | .raw _ => [7, 8, 9, 13]
  | .cwUnary .. | .cwEscape .. => [7, 10]
  | .markReserved | .markContinued | .markLiteral _ | .markConstant _ | .litDiff _ => [7, 8, 9]
  | .pad _ => [7]
  | .tag0 | .tag1 | .tag2 | .tag3 | .tag4 | .tag6 | .tagReserved _ => [2, 7, 9, 12, 13]

end Sys2Proof.Machine
end

