-- ==== Sys2Proof/Certificates/Slice0/Obligations.lean ====
section
/-! DEFINITION. The statements for the provers: what the numbered rules of spec/ say the engine does.
A statement that stores to a memory assumes that memory is canonical (`Memory.wf`), which
`StepKeepsInvariant` says of every state a reset machine reaches. -/

open Sys2Proof Sys2Proof.Machine

/-! ## Decoding and encoding -/

/-- Decoding the bits of a well-formed instruction, whatever follows them, gives the instruction back
and leaves what follows: every row of the table, every operand its format admits (R80 to R102). -/
def Obligations.DecodeEncodeRoundTrip : Prop :=
  ∀ (c : Ctx) (i : Instr) (rest : List Bool), c.wf = true → i.wf c = true →
    decodeAs c i.format (encode c i ++ rest) = .ok (i, rest)

/-- The decoder accepts a codeword only if it is the one the encoder's formulas give for the value it
decodes to, and it takes exactly that codeword's bits (R90, R147). -/
def Obligations.AcceptedCodewordIsTheEncoders : Prop :=
  ∀ (c : Ctx) (bits rest : List Bool) (i : Instr), c.wf = true →
    decodeAs c .codeword bits = .ok (i, rest) →
    i.wf c = true ∧ i = codewordItem c (codewordDiff c i) ∧
      bits = codewordBits c (codewordDiff c i) ++ rest

/-- Every value written to CMD is a command or a reserved opcode, by bits 7:0 alone (R100, R102). -/
def Obligations.EveryCommandWordDecodes : Prop :=
  ∀ v : Word64,
    decodeCommand v = decodeOpcode (v.truncate 8) ∧ isCommand (decodeCommand v) = true ∧
      encodeFields ⟨16, 0⟩ (decodeCommand v) = [((v.truncate 8).toNat, 8)] ∧
      (decodeCommand v = .cmdReserved (v.truncate 8) ↔ (v.truncate 8) ∉ opcodes)

/-- A few words written out from the encodings of 30_encoding.md decode to what they stand for. -/
def Obligations.SampleWordsDecode : Prop :=
  decodeTableWord 8 0x01 = some .clrFault ∧ decodeTableWord 8 0x15 = some .scanZeros ∧
    decodeTableWord 8 0x23 = some .decCw ∧ decodeTableWord 8 0x30 = some .encRow ∧
    decodeTableWord 16 0x0148 = some .encode ∧ decodeTableWord 8 0x4A = some (.cmdReserved 0x4A) ∧
    decodeMarker 0xFD = .markConstant 0xFD ∧ decodeMarker 0x80 = .markContinued ∧
    decodeMarker 0x03 = .markLiteral 3 ∧ decodeMarker 0x00 = .markReserved ∧
    decodeTag 6 = .tag6 ∧ decodeTag 5 = .tagReserved 5 ∧
    decodeAs ⟨16, 2⟩ .codeword [true, false, false, false, true] = .ok (.cwUnary 1 2, [])

/-! ## The machine between commands -/

/-- Every step keeps the invariant: no command is left running, the hidden temporaries are dead,
STATUS.ERR and STATUS.SUB are a pair of R226 (0 and 0 when no fault is recorded), and both memories
stay canonical. -/
def Obligations.StepKeepsInvariant : Prop :=
  ∀ s t : State, s.Inv → step s = .next t → t.Inv

/-- The state after reset has the invariant. -/
def Obligations.ResetMeetsInvariant : Prop :=
  State.reset.Inv

/-- After reset every context register holds 0 (R43). -/
def Obligations.ResetClearsRegisters : Prop :=
  ∀ n : BitVec 4, readRegister State.reset n = 0

/-- Asserting reset clears every register and leaves both memories, but for what a command that was
running may have been writing: no byte at or above LIMIT, no byte of a command that only reads them, no
cell outside the command's range, none at or above ELIM (R43, R227 (a), (d), R240). First for reset in
any state, then for reset during the command that a CMD write starts. Which bytes a running command
counts as writing, and the host action for a reset during a command, are the model's choices (log entry
11), as are the queue and the replies that reset keeps (log entries 1, 12); BUSY = 1 between two steps
is a state no run reaches (log entry 2). -/
def Obligations.HostResetKeepsMemories : Prop :=
  (∀ s : State, Memory.wf s.bm → Memory.wf s.em → ∃ t, hostAction .reset s = .next t ∧
    (∀ n, readRegister t n = 0) ∧ t.acc = 0 ∧ t.rem = 0 ∧ t.running = none ∧
    t.hostQueue = s.hostQueue ∧ t.replies = s.replies ∧
    (s.status.busy = false → t.bm = s.bm ∧ t.em = s.em ∧ t.freeDraws = s.freeDraws) ∧
    (∀ a, s.limit.toNat ≤ a → Memory.read t.bm a = Memory.read s.bm a) ∧
    (∀ j, s.elim.toNat ≤ j → Memory.read t.em j = Memory.read s.em j) ∧
    ∀ i, s.running = some i →
      (readsBytesOnly i = true → t.bm = s.bm) ∧ (writesElems i = false → t.em = s.em)) ∧
  ∀ (s : State) (v : Word64), s.ready → Memory.wf s.bm → Memory.wf s.em →
    ∃ t, hostAction (.writeThenReset v) s = .next t ∧
      (∀ n, readRegister t n = 0) ∧ t.acc = 0 ∧ t.rem = 0 ∧ t.running = none ∧
      t.hostQueue = s.hostQueue ∧ t.replies = s.replies ∧
      (readsBytesOnly (decodeCommand v) = true → t.bm = s.bm) ∧
      (∀ a, s.limit.toNat ≤ a → Memory.read t.bm a = Memory.read s.bm a) ∧
      (writesElems (decodeCommand v) = false → t.em = s.em) ∧
      ∀ j, (s.elim.toNat ≤ j ∨
          (decodeCommand v = .decRow ∧
            (j < s.eidx.toNat ∨ s.eidx.toNat + (s.blkw.toNat - 1) ≤ j)) ∨
          (decodeCommand v = .decBlock ∧
            (j < s.eidx.toNat ∨ s.eidx.toNat + s.blkw.toNat ≤ j)) ∨
          (decodeCommand v = .decode ∧ s.blkw.toNat * s.blkc.toNat ≤ j)) →
        Memory.read t.em j = Memory.read s.em j

/-- A step takes the host's oldest pending action: a write to CMD runs the command its low byte decodes
to as one transition (R5, R100), any other action is `hostAction`'s, and with nothing pending the engine
waits. The queue of host actions, and that a step takes its oldest one, are the model's choice (log
entry 1); the second clause says that `step` is nothing more than that. -/
def Obligations.StepRunsDecodedCommand : Prop :=
  (∀ (s : State) (v : Word64) (rest : List HostAct), s.hostQueue = .write 0 v :: rest →
    step s = exec (decodeCommand v) { s with hostQueue := rest }) ∧
  (∀ (s : State) (a : HostAct) (rest : List HostAct), s.hostQueue = a :: rest →
    step s = hostAction a { s with hostQueue := rest }) ∧
  ∀ s : State, s.hostQueue = [] → step s = .next s

/-- While BUSY = 0 a host write to a register other than CMD takes effect at once on the bits that
exist and on nothing else, and a read returns the register; STATUS is read-only (R20, R37, R38). A fill
of a byte or of an element cell, below the limits or not, changes that byte or cell alone, and an
inspection answers what the byte or the cell holds and changes nothing (R104, R232). That the answer is
kept, zero-extended to 64 bits, in a list of replies is the model's choice (log entry 12). -/
def Obligations.HostWriteThenRead : Prop :=
  (∀ (s : State) (n : BitVec 4) (v : Word64), s.status.busy = false → n ≠ 0 →
    ∃ t, hostAction (.write n v) s = .next t ∧
      (n ≠ 1 → readRegister t n = v &&& registerMask n) ∧
      (∀ m, m ≠ n ∨ n = 1 → readRegister t m = readRegister s m) ∧
      t.bm = s.bm ∧ t.em = s.em ∧ t.acc = s.acc ∧ t.rem = s.rem ∧ t.running = s.running ∧
      t.hostQueue = s.hostQueue ∧
      t.replies = s.replies ∧ t.freeDraws = s.freeDraws ∧
      ∀ m, hostAction (.read m) t = .next { t with replies := readRegister t m :: t.replies }) ∧
  ∀ s : State, s.status.busy = false → Memory.wf s.bm → Memory.wf s.em →
    (∀ a, hostAction (.getByte a) s =
      .next { s with replies := (Memory.read s.bm a).setWidth 64 :: s.replies }) ∧
    (∀ j, hostAction (.getElem j) s =
      .next { s with replies := (Memory.read s.em j).setWidth 64 :: s.replies }) ∧
    (∀ (a : Nat) (b : Byte), ∃ t, hostAction (.setByte a b) s = .next t ∧
      t = { s with bm := t.bm } ∧ Memory.wf t.bm ∧
      ∀ k, hostAction (.getByte k) t = .next { t with
        replies := (if k = a then b else Memory.read s.bm k).setWidth 64 :: t.replies }) ∧
    ∀ (j : Nat) (x : Elem), ∃ t, hostAction (.setElem j x) s = .next t ∧
      t = { s with em := t.em } ∧ Memory.wf t.em ∧
      ∀ k, hostAction (.getElem k) t = .next { t with
        replies := (if k = j then x else Memory.read s.em k).setWidth 64 :: t.replies }

/-- While BUSY = 1 a host write to any register is ignored, STATUS reads as it is, any other register
reads as some value of the bits it has (whatever the free value is), the numbers 14 and 15 and the
reserved bits read 0 (R37), and the host may not touch the bytes below LIMIT or the cells below ELIM but
may fill and inspect the rest (R38, R63, R232). The free value (for CMD too, which R21 says reads 0), the
refusal and the list of replies are the model's choices (U6, U7: log entries 10, 12). -/
def Obligations.BusyHostAccess : Prop :=
  ∀ s : State, s.status.busy = true →
    (∀ n v, hostAction (.write n v) s = .next s) ∧
    hostAction (.read 1) s = .next { s with replies := s.status.word.setWidth 64 :: s.replies } ∧
    (∀ n, n = 14 ∨ n = 15 → hostAction (.read n) s = .next { s with replies := 0 :: s.replies }) ∧
    (∀ n, n ≠ 1 → n ≠ 14 → n ≠ 15 → ∃ v, hostAction (.read n) s =
        .next { s with replies := v :: s.replies, freeDraws := s.freeDraws + 1 } ∧
      v &&& (if n = 0 then 0xFF else registerMask n) = v) ∧
    (∀ a b, a < s.limit.toNat → hostAction (.setByte a b) s = .refused .hostMemoryWhileBusy ∧
      hostAction (.getByte a) s = .refused .hostMemoryWhileBusy) ∧
    (∀ i x, i < s.elim.toNat → hostAction (.setElem i x) s = .refused .hostMemoryWhileBusy ∧
      hostAction (.getElem i) s = .refused .hostMemoryWhileBusy) ∧
    (∀ a b, s.limit.toNat ≤ a →
      hostAction (.setByte a b) s = .next { s with bm := Memory.write s.bm a b }) ∧
    (∀ i x, s.elim.toNat ≤ i →
      hostAction (.setElem i x) s = .next { s with em := Memory.write s.em i x }) ∧
    (∀ a, s.limit.toNat ≤ a → hostAction (.getByte a) s =
      .next { s with replies := (Memory.read s.bm a).setWidth 64 :: s.replies }) ∧
    ∀ i, s.elim.toNat ≤ i → hostAction (.getElem i) s =
      .next { s with replies := (Memory.read s.em i).setWidth 64 :: s.replies }

/-- While STATUS.FAULT = 1 a write to CMD of anything but CLR_FAULT is ignored, so a fault is never
overwritten; host reads, and writes to registers other than CMD, work as when idle (R228). -/
def Obligations.FaultLatch : Prop :=
  ∀ s : State, s.status.fault = true →
    (∀ v : Word64, v.truncate 8 ≠ 1#8 → hostAction (.write 0 v) s = .next s) ∧
    (∀ i, isCommand i = true → i ≠ .clrFault → exec i s = .next s) ∧
    (s.status.busy = false → ∀ n v, n ≠ 0 →
      hostAction (.write n v) s = .next (writeRegister s n v) ∧
      hostAction (.read n) s = .next { s with replies := readRegister s n :: s.replies })

/-- CLR_FAULT clears FAULT, ERR and SUB and changes nothing else (R229). -/
def Obligations.ClrFaultReturns : Prop :=
  ∀ s : State, s.status.busy = false →
    exec .clrFault s =
      .next { s with status := { s.status with fault := false, err := 0, sub := 0 } }

/-- A write to CMD of an opcode that R101 does not list raises InvalidParameter(BadOpcode) and changes
nothing else (R102, R218). -/
def Obligations.ReservedOpcodeFaults : Prop :=
  ∀ s : State, s.ready →
    (∀ op : BitVec 8, exec (.cmdReserved op) s = .next (s.withFault .badOpcode)) ∧
    ∀ v : Word64, v.truncate 8 ∉ opcodes →
      hostAction (.write 0 v) s = .next (s.withFault .badOpcode)

/-- The STATUS word of every fault, with FOUND = 0 and with FOUND = 1, and that no instruction produces
any other pair of ERR and SUB (R226). -/
def Obligations.FaultStatusWords : Prop :=
  (∀ (c : Cause) (s : State), (takeFault c s).status.word =
    (takeFault c { s with status := { s.status with found := false } }).status.word +
      (if s.status.found then 4 else 0)) ∧
  (∀ s : State, s.status.found = false →
    (takeFault .outOfSpace s).status.word = 0x0012 ∧
    (takeFault .readPastEnd s).status.word = 0x0122 ∧
    (takeFault .badUnary s).status.word = 0x0222 ∧
    (takeFault .badEscape s).status.word = 0x0322 ∧
    (takeFault .badMarker s).status.word = 0x0422 ∧
    (takeFault .runOverrun s).status.word = 0x0522 ∧
    (takeFault .sizeMismatch s).status.word = 0x0622 ∧
    (takeFault .badOpcode s).status.word = 0x0132 ∧
    (takeFault .badType s).status.word = 0x0232 ∧
    (takeFault .badSlice s).status.word = 0x0332 ∧
    (takeFault .badGeometry s).status.word = 0x0432 ∧
    (takeFault .elemBufferTooSmall s).status.word = 0x0532 ∧
    (takeFault .badWidth s).status.word = 0x0632 ∧
    (takeFault .misaligned s).status.word = 0x0732 ∧
    (takeFault .headerMismatch s).status.word = 0x0832) ∧
  ∀ (i : Instr) (s t : State), s.status.legal → exec i s = .next t → t.status.legal

/-- Every instruction answers a next state; a command the engine accepts ends, with BUSY = 0, a legal
STATUS and no temporary left (R180, R210, R226). -/
def Obligations.EveryCommandEnds : Prop :=
  ∀ (i : Instr) (s : State), ∃ t, exec i s = .next t ∧
    (isCommand i = true → i ≠ .clrFault → s.ready →
      t.status.busy = false ∧ t.running = none ∧ t.status.legal ∧ t.acc = 0 ∧ t.rem = 0)

/-! ## What a command may touch -/

/-- No instruction changes a byte at or above LIMIT or a cell at or above ELIM, no decoding command
changes the byte memory, no command but the row, block and stream decoders changes the element memory,
and none changes LIMIT, ELIM, BLKW, BLKC or WIDTH; with a fault or without (R61, R67, R227 (a)). Nor
does any read there: in two states with the same registers, the same bytes below LIMIT and the same
cells below ELIM an instruction leaves two such states, whatever the memories hold elsewhere
(R61). -/
def Obligations.AccessesStayInBounds : Prop :=
  (∀ (i : Instr) (s t : State), Memory.wf s.bm → Memory.wf s.em → exec i s = .next t →
    (∀ a, s.limit.toNat ≤ a → Memory.read t.bm a = Memory.read s.bm a) ∧
    (∀ j, s.elim.toNat ≤ j → Memory.read t.em j = Memory.read s.em j) ∧
    (readsBytesOnly i = true → t.bm = s.bm) ∧ (writesElems i = false → t.em = s.em) ∧
    t.limit = s.limit ∧ t.elim = s.elim ∧ t.blkw = s.blkw ∧ t.blkc = s.blkc ∧
    t.width = s.width) ∧
  ∀ (i : Instr) (s s' t t' : State), Memory.wf s.bm → Memory.wf s.em → Memory.wf s'.bm →
    Memory.wf s'.em → agreeBelow s s' → exec i s = .next t → exec i s' = .next t' → agreeBelow t t'

/-- A register that the table of R39 does not let a command write keeps its value, with a fault or
without. -/
def Obligations.UnlistedRegistersKeepTheirValue : Prop :=
  ∀ (i : Instr) (s t : State) (n : BitVec 4), exec i s = .next t → n ≠ 1 →
    n ∉ registersWritten i → readRegister t n = readRegister s n

/-- FOUND is written by SCAN_ZEROS alone (R23). -/
def Obligations.OnlyScanZerosWritesFound : Prop :=
  ∀ (i : Instr) (s t : State), exec i s = .next t → i ≠ .scanZeros →
    t.status.found = s.status.found

/-! ## BitCursor -/

/-- WRITE_BITS: a width above 64 is BadWidth, a field that is not wholly below the limit is OutOfSpace,
and then nothing but STATUS has changed; otherwise it stores the low WIDTH bits of VAL at the cursor,
moves the cursor past them and changes no other bit and no other register (R121). -/
def Obligations.WriteBitsStoresField : Prop :=
  ∀ s : State, s.ready → Memory.wf s.bm →
    if 64 < s.width.toNat then exec .writeBits s = .next (s.withFault .badWidth)
    else if s.width ≠ 0 ∧ 8 * s.limit.toNat < s.bitpos.toNat + s.width.toNat then
      exec .writeBits s = .next (s.withFault .outOfSpace)
    else ∃ t, exec .writeBits s = .next t ∧
      t = { s.atRest with bm := t.bm, bitpos := s.bitpos + BitVec.ofNat 64 s.width.toNat } ∧
      storesBits s.bm t.bm s.bitpos.toNat ((List.range s.width.toNat).map s.val.getLsbD)

/-- READ_BITS: a width above 64 is BadWidth, a field that is not wholly below the limit is ReadPastEnd,
and then nothing but STATUS has changed; otherwise it puts the field at the cursor, zero-extended, into
VAL and moves the cursor past it; the memory is not changed (R122). -/
def Obligations.ReadBitsReturnsField : Prop :=
  ∀ s : State, s.ready →
    if 64 < s.width.toNat then exec .readBits s = .next (s.withFault .badWidth)
    else if s.width ≠ 0 ∧ 8 * s.limit.toNat < s.bitpos.toNat + s.width.toNat then
      exec .readBits s = .next (s.withFault .readPastEnd)
    else ∃ t, exec .readBits s = .next t ∧
      t = { s.atRest with val := t.val, bitpos := s.bitpos + BitVec.ofNat 64 s.width.toNat } ∧
      ∀ i, i < 64 →
        t.val.getLsbD i = (decide (i < s.width.toNat) && bitRead s.bm (s.bitpos.toNat + i))

/-- SET_BIT sets the bit at the cursor and moves the cursor by one; beyond the limit it is OutOfSpace
and nothing but STATUS has changed (R123). -/
def Obligations.SetBitStoresOne : Prop :=
  ∀ s : State, s.ready → Memory.wf s.bm →
    if 8 * s.limit.toNat < s.bitpos.toNat + 1 then exec .setBit s = .next (s.withFault .outOfSpace)
    else ∃ t, exec .setBit s = .next t ∧
      t = { s.atRest with bm := t.bm, bitpos := s.bitpos + 1 } ∧
      storesBits s.bm t.bm s.bitpos.toNat [true]

/-- ALIGN_WR stores zeros up to the next byte boundary and moves the cursor there; an aligned cursor is
left alone; an unaligned one beyond the limit is OutOfSpace and nothing but STATUS has changed
(R124). -/
def Obligations.AlignWrPadsWithZeros : Prop :=
  ∀ s : State, s.ready → Memory.wf s.bm →
    if s.bitpos.toNat % 8 ≠ 0 ∧ 8 * s.limit.toNat < s.bitpos.toNat then
      exec .alignWr s = .next (s.withFault .outOfSpace)
    else ∃ t, exec .alignWr s = .next t ∧
      t = { s.atRest with bm := t.bm, bitpos := t.bitpos } ∧
      t.bitpos.toNat = (s.bitpos.toNat + 7) / 8 * 8 ∧
      storesBits s.bm t.bm s.bitpos.toNat
        (List.replicate ((s.bitpos.toNat + 7) / 8 * 8 - s.bitpos.toNat) false)

/-- ALIGN_RD moves the cursor up to the next byte boundary, modulo 2^64, and touches nothing else
(R125). -/
def Obligations.AlignRdRoundsUp : Prop :=
  ∀ s : State, s.ready →
    ∃ t, exec .alignRd s = .next t ∧ t = { s.atRest with bitpos := t.bitpos } ∧
      t.bitpos.toNat = ((s.bitpos.toNat + 7) / 8 * 8) % 2 ^ 64

/-- SCAN_ZEROS: a width above 64 is BadWidth. Otherwise it counts the zero bits before the first one
bit, consumes that bit and sets FOUND (the window may reach beyond the limit); with no one bit among
the WIDTH bits it consumes them all and clears FOUND; needing a bit at or beyond the limit first is
ReadPastEnd, and then nothing but STATUS has changed (R126). -/
def Obligations.ScanZerosCounts : Prop :=
  ∀ s : State, s.ready →
    (64 < s.width.toNat → exec .scanZeros s = .next (s.withFault .badWidth)) ∧
    (s.width.toNat ≤ 64 →
      ∀ z, z ≤ s.width.toNat →
      (∀ j, j < z → bitRead s.bm (s.bitpos.toNat + j) = false ∧
        s.bitpos.toNat + j < 8 * s.limit.toNat) →
      if z = s.width.toNat then
        exec .scanZeros s = .next { s.atRest with
          val := BitVec.ofNat 64 z, bitpos := s.bitpos + BitVec.ofNat 64 z,
          status := { s.atRest.status with found := false } }
      else if 8 * s.limit.toNat ≤ s.bitpos.toNat + z then
        exec .scanZeros s = .next (s.withFault .readPastEnd)
      else bitRead s.bm (s.bitpos.toNat + z) = true →
        exec .scanZeros s = .next { s.atRest with
          val := BitVec.ofNat 64 z, bitpos := s.bitpos + BitVec.ofNat 64 (z + 1),
          status := { s.atRest.status with found := true } })

/-- Fields written at consecutive cursors and read back in the same widths from the first cursor are
the values modulo `2^n`, in order, and both leave the same cursor (R127). -/
def Obligations.FieldsReadBack : Prop :=
  ∀ (fields : List (Nat × Nat)) (s : State), Memory.wf s.bm → (∀ f ∈ fields, f.2 ≤ 64) →
    s.bitpos.toNat + (fields.map Prod.snd).sum ≤ 8 * s.limit.toNat →
    ∃ t u, writeFields fields s = .ok () t ∧
      t.bitpos.toNat = s.bitpos.toNat + (fields.map Prod.snd).sum ∧
      readFields (fields.map Prod.snd) { t with bitpos := s.bitpos } =
        .ok (fields.map fun f => f.1 % 2 ^ f.2) u ∧
      u.bitpos = t.bitpos

/-- Reading `n1` bits and then `n2` bits sees the bits of one read of `n1 + n2`, and a byte read as an
aligned 8-bit field is that byte (R56). -/
def Obligations.MixedWidthReads : Prop :=
  (∀ (m : Memory 8) (o n1 n2 : Nat),
    fieldRead m o (n1 + n2) = fieldRead m o n1 + fieldRead m (o + n1) n2 * 2 ^ n1) ∧
  ∀ (m : Memory 8) (a : Nat), fieldRead m (8 * a) 8 = (Memory.read m a).toNat

/-- PAD: the decoder skips the pad bits, whatever they are; with the number of bits the cursor calls
for that is what ALIGN_RD does (R97, R125;
an item's meaning as an instruction of its own is the model's, log entry 7). -/
def Obligations.PadItemSkips : Prop :=
  ∀ (s : State) (p : BitVec 3), s.status.fault = false →
    exec (.pad p) s = .next { s with bitpos := s.bitpos + BitVec.ofNat 64 p.toNat } ∧
    (p.toNat = (s.bitpos.toNat + 7) / 8 * 8 - s.bitpos.toNat →
      exec (.pad p) s = .next (alignRead s))

/-! ## DifferenceCodec -/

/-- ENC_CW stores the codeword of `sext_(W+1)(VAL)` at the cursor and changes nothing else (R143); a
codeword that does not fit below the limit is OutOfSpace, after which only BITPOS and the bytes below
LIMIT may differ (R211, R227 (d)). -/
def Obligations.EncCwWritesCodeword : Prop :=
  ∀ s : State, s.ready → Memory.wf s.bm → s.codecLegal →
    ∀ bits, bits = codewordBits s.ctx s.valDiff →
    if s.bitpos.toNat + bits.length ≤ 8 * s.limit.toNat then
      ∃ t, exec .encCw s = .next t ∧
        t = { s.atRest with bm := t.bm, bitpos := s.bitpos + BitVec.ofNat 64 bits.length } ∧
        storesBits s.bm t.bm s.bitpos.toNat bits
    else
      ∃ t, exec .encCw s = .next t ∧
        t = { s.withFault .outOfSpace with
          bm := t.bm, bitpos := t.bitpos, freeDraws := s.freeDraws + 1 } ∧
        ∀ a, s.limit.toNat ≤ a → Memory.read t.bm a = Memory.read s.bm a

/-- DEC_CW reads the codeword at the cursor: VAL is its difference in 64 bits, the cursor moves past
it, nothing else changes (R86, R144). -/
def Obligations.DecCwReadsCodeword : Prop :=
  ∀ (s : State) (i : Instr), s.ready → s.codecLegal → i.format = .codeword → i.wf s.ctx = true →
    holdsBits s.bm s.bitpos.toNat (encode s.ctx i) →
    s.bitpos.toNat + (encode s.ctx i).length ≤ 8 * s.limit.toNat →
    exec .decCw s = .next { s.atRest with
      val := BitVec.ofInt 64 (codewordDiff s.ctx i),
      bitpos := s.bitpos + BitVec.ofNat 64 (encode s.ctx i).length }

/-- What the decoders refuse: a codeword with exactly 31 zero bits (BadUnary), an escape the encoder
would not have written (BadEscape), a codeword, marker or field that does not end below the limit
(ReadPastEnd; of what stands at or beyond the limit nothing is assumed). In DEC_CW and DEC_DIFF at the
cursor; in DEC_ROW, in DEC_BLOCK and in any block of DECODE after anything legal (R212, R213, R214, R144,
R166, R188, R192; a marker or raw element of DECODE that the limit cuts is DecodeOfCutStreamReadsPastEnd's).
Only the registers R227 (d) names and the cells of the range may differ then, but for PREV, which DEC_DIFF
keeps ("on a fault PREV is unchanged", R146, log entry 5), and CFG is the header's after DECODE. -/
def Obligations.DecCwRefusesBadCodewords : Prop :=
  (∀ (s : State) (e : Cause), s.ready → s.codecLegal → codewordFails s s.bitpos.toNat e →
    ∀ i ∈ [Instr.decCw, .decDiff], ∃ t, exec i s = .next t ∧
      t = { s.withFault e with
        bitpos := t.bitpos, val := t.val, freeDraws := s.freeDraws + 1 }) ∧
  (∀ (s : State) (e : Cause), s.ready → Memory.wf s.em → s.codecLegal → s.blkw ≠ 0 →
    s.eidx.toNat + s.blkw.toNat ≤ s.elim.toNat + 1 →
    ((∃ bits, beforeCodeword s.ctx true (s.blkw.toNat - 1) bits ∧
        holdsBelow s.bm (8 * s.limit.toNat) s.bitpos.toNat bits ∧
        codewordFails s (s.bitpos.toNat + bits.length) e) ∨
      (e = .readPastEnd ∧ ∃ bits, rowPrefix s.ctx (s.blkw.toNat - 1) bits ∧
        cutByLimit s s.bitpos.toNat bits)) →
    ∃ t, exec .decRow s = .next t ∧ afterRowFault s (s.blkw.toNat - 1) e t) ∧
  (∀ (s : State) (e : Cause), s.ready → Memory.wf s.em → s.codecLegal → s.blkw ≠ 0 →
    s.eidx.toNat + s.blkw.toNat ≤ s.elim.toNat → s.bitpos.toNat % 8 = 0 →
    ((∃ bits, beforeCodeword s.ctx s.runLength (s.blkw.toNat - 1) bits ∧
        holdsBelow s.bm (8 * s.limit.toNat) (s.bitpos.toNat + s.w) bits ∧
        codewordFails s (s.bitpos.toNat + s.w + bits.length) e) ∨
      (e = .readPastEnd ∧ (8 * s.limit.toNat < s.bitpos.toNat + s.w ∨
        (s.runLength = true ∧ ∃ bits, rowPrefix s.ctx (s.blkw.toNat - 1) bits ∧
          cutByLimit s (s.bitpos.toNat + s.w) bits)))) →
    ∃ t, exec .decBlock s = .next t ∧ afterBlockFault s e t) ∧
  ∀ (s u : State) (total : BitVec 32) (slice tag : BitVec 8) (o : Nat) (e : Cause), s.ready →
    Memory.wf s.em → reachesBlock s total slice tag o → u = s.withHeader slice tag →
    (∃ bits, beforeCodeword u.ctx u.runLength (s.blkw.toNat - 1) bits ∧
      holdsBelow s.bm (8 * s.limit.toNat) (o + s.w) bits ∧
      codewordFails u (o + s.w + bits.length) e) →
    ∃ t, exec .decode s = .next t ∧ afterDecodeFault s u.cfg e t

/-- ENC_DIFF stores the codeword of the exact difference of VAL and PREV, and PREV becomes the element
(R141, R145); a codeword that does not fit below the limit is OutOfSpace, after which only BITPOS,
PREV and the bytes below LIMIT may differ (R211, R227 (d); log entry 5). -/
def Obligations.EncDiffWritesDifference : Prop :=
  ∀ s : State, s.ready → Memory.wf s.bm → s.codecLegal →
    ∀ bits, bits = codewordBits s.ctx (s.valElem - s.pv) →
    if s.bitpos.toNat + bits.length ≤ 8 * s.limit.toNat then
      ∃ t, exec .encDiff s = .next t ∧
        t = { s.atRest with
          bm := t.bm, bitpos := s.bitpos + BitVec.ofNat 64 bits.length,
          prev := BitVec.ofNat 32 (zext s.w s.valElem) } ∧
        storesBits s.bm t.bm s.bitpos.toNat bits
    else
      ∃ t, exec .encDiff s = .next t ∧
        t = { s.withFault .outOfSpace with
          bm := t.bm, bitpos := t.bitpos, prev := t.prev,
          freeDraws := s.freeDraws + 1 } ∧
        ∀ a, s.limit.toNat ≤ a → Memory.read t.bm a = Memory.read s.bm a

/-- DEC_DIFF reads the codeword at the cursor and adds it to PREV, wrapping to `W` bits: VAL is the
element in 64 bits and PREV its `W` bits (R146). -/
def Obligations.DecDiffReconstructs : Prop :=
  ∀ (s : State) (i : Instr), s.ready → s.codecLegal → i.format = .codeword → i.wf s.ctx = true →
    holdsBits s.bm s.bitpos.toNat (encode s.ctx i) →
    s.bitpos.toNat + (encode s.ctx i).length ≤ 8 * s.limit.toNat →
    exec .decDiff s = .next { s.atRest with
      val := BitVec.ofInt 64 (sext s.w (s.pv + codewordDiff s.ctx i)),
      prev := BitVec.ofNat 32 (zext s.w (s.pv + codewordDiff s.ctx i)),
      bitpos := s.bitpos + BitVec.ofNat 64 (encode s.ctx i).length }

/-- The inverse law of the codec: ENC_CW then DEC_CW from the same cursor returns the difference,
ENC_DIFF then DEC_DIFF with the same PREV returns the element, and both end at the same cursor; and
DEC_CW succeeds only where the codeword the encoder's formulas give for the value it returns stands at
the cursor and ends at or below the limit (R147). -/
def Obligations.CodewordRoundTrip : Prop :=
  ∀ s : State, s.ready → Memory.wf s.bm → s.codecLegal →
    (s.bitpos.toNat + (codewordBits s.ctx s.valDiff).length ≤ 8 * s.limit.toNat →
      ∃ t u, exec .encCw s = .next t ∧ exec .decCw { t with bitpos := s.bitpos } = .next u ∧
        u.status.fault = false ∧ u.val = BitVec.ofInt 64 s.valDiff ∧ u.bitpos = t.bitpos) ∧
    (s.bitpos.toNat + (codewordBits s.ctx (s.valElem - s.pv)).length ≤ 8 * s.limit.toNat →
      ∃ t u, exec .encDiff s = .next t ∧
        exec .decDiff { t with bitpos := s.bitpos, prev := s.prev } = .next u ∧
        u.status.fault = false ∧ u.val = BitVec.ofInt 64 s.valElem ∧ u.prev = t.prev ∧
        u.bitpos = t.bitpos) ∧
    ∀ t, exec .decCw s = .next t → t.status.fault = false →
      holdsBits s.bm s.bitpos.toNat (codewordBits s.ctx t.val.toInt) ∧
        s.bitpos.toNat + (codewordBits s.ctx t.val.toInt).length ≤ 8 * s.limit.toNat ∧
        t.bitpos = s.bitpos + BitVec.ofNat 64 (codewordBits s.ctx t.val.toInt).length

/-- CW_UNARY and CW_ESCAPE, met at the cursor by the decoder: the item's bits are consumed and its
difference is taken; 31 zeros and an escape the encoder would not have written are refused (R86 to
R90;
an item's meaning as an instruction of its own is the model's, log entry 7). -/
def Obligations.CodewordItemsTakeDifference : Prop :=
  ∀ (s : State) (lit : BitVec 32), s.status.fault = false → s.codecLegal →
    (∀ m : BitVec 5, s.bitpos.toNat + (s.sw + m.toNat + 1) ≤ 8 * s.limit.toNat →
      (m.toNat < 31 → exec (.cwUnary lit m) s = .next { s with
        acc := BitVec.ofInt 64 (unzig m.toNat * 2 ^ s.sw + lit.toNat),
        bitpos := s.bitpos + BitVec.ofNat 64 (s.sw + m.toNat + 1) }) ∧
      (m.toNat = 31 → ∃ t, exec (.cwUnary lit m) s = .next t ∧
        t = { s.withFault .badUnary with
          bitpos := t.bitpos, val := t.val, freeDraws := s.freeDraws + 1 })) ∧
    ∀ e : BitVec 33, s.bitpos.toNat + (s.sw + s.w + 33) ≤ 8 * s.limit.toNat →
      if 31 ≤ zig (asr (sext (s.w + 1) e.toNat) s.sw) ∧
          zext s.sw (sext (s.w + 1) e.toNat) = lit.toNat then
        exec (.cwEscape lit e) s = .next { s with
          acc := BitVec.ofInt 64 (sext (s.w + 1) e.toNat),
          bitpos := s.bitpos + BitVec.ofNat 64 (s.sw + s.w + 33) }
      else
        ∃ t, exec (.cwEscape lit e) s = .next t ∧
          t = { s.withFault .badEscape with
            bitpos := t.bitpos, val := t.val, freeDraws := s.freeDraws + 1 }

/-- A reserved CFG.TYPE is BadType, else a slice width above `W` is BadSlice, before anything changes,
in the ten commands that read both; RD_HEADER and DECODE refuse a reserved TYPE (R142, R219, R220,
R227 (b), R230). -/
def Obligations.CodecParameterFaults : Prop :=
  ∀ s : State, s.ready →
    (typeReserved s.cfg.typ = true → ∀ i ∈ [Instr.encCw, .decCw, .encDiff, .decDiff, .encRow, .decRow,
        .encBlock, .decBlock, .wrHeader, .encode, .rdHeader, .decode],
      exec i s = .next (s.withFault .badType)) ∧
    (typeReserved s.cfg.typ = false → s.w < s.sw → ∀ i ∈ [Instr.encCw, .decCw, .encDiff, .decDiff,
        .encRow, .decRow, .encBlock, .decBlock, .wrHeader, .encode],
      exec i s = .next (s.withFault .badSlice))

/-- BadGeometry, then ElemBufferTooSmall, then Misaligned, before anything changes (R182, R183, R185,
R190, R221, R222, R224, R227 (b), R230). RD_HEADER and DECODE ask for a legal CFG.TYPE alone and ignore
CFG.SLICE (R183), the other commands ask for a legal slice width too, and PATCH_SIZE for neither. -/
def Obligations.GeometryFaults : Prop :=
  ∀ s : State, s.ready →
    (typeReserved s.cfg.typ = false → ∀ i, (i ∈ [Instr.rdHeader, .decode] ∨ s.sw ≤ s.w) →
      (s.blkw = 0 → i ∈ [Instr.encRow, .decRow, .encBlock, .decBlock, .wrHeader, .rdHeader, .encode,
          .decode] →
        exec i s = .next (s.withFault .badGeometry)) ∧
      (2 ^ 32 ≤ s.blkw.toNat * s.blkc.toNat → i ∈ [Instr.wrHeader, .rdHeader, .encode, .decode] →
        exec i s = .next (s.withFault .badGeometry)) ∧
      (s.blkw ≠ 0 → s.elim.toNat < s.eidx.toNat + s.blkw.toNat - 1 → i ∈ [Instr.encRow, .decRow] →
        exec i s = .next (s.withFault .elemBufferTooSmall)) ∧
      (s.blkw ≠ 0 → s.elim.toNat < s.eidx.toNat + s.blkw.toNat → i ∈ [Instr.encBlock, .decBlock] →
        exec i s = .next (s.withFault .elemBufferTooSmall)) ∧
      (s.blkw ≠ 0 → s.blkw.toNat * s.blkc.toNat < 2 ^ 32 →
        s.elim.toNat < s.blkw.toNat * s.blkc.toNat →
        i ∈ [Instr.wrHeader, .rdHeader, .encode, .decode] →
        exec i s = .next (s.withFault .elemBufferTooSmall)) ∧
      (s.bitpos.toNat % 8 ≠ 0 → s.blkw ≠ 0 → s.eidx.toNat + s.blkw.toNat ≤ s.elim.toNat →
        i ∈ [Instr.encBlock, .decBlock] → exec i s = .next (s.withFault .misaligned))) ∧
    (s.bitpos.toNat % 8 ≠ 0 → exec .patchSize s = .next (s.withFault .misaligned))

/-! ## RunCodec -/

/-- The segments of a row stand for the row, and each is one the format has: literal runs of 1 to 127,
constant runs of 2 to 128 (R162, R91). -/
def Obligations.SegmentsCoverRow : Prop :=
  ∀ ds : List Int, (segments ds).flatMap segmentDiffs = ds ∧
    ∀ seg ∈ segments ds, match seg with
      | .literal es => 1 ≤ es.length ∧ es.length ≤ 127
      | .constant n _ => 2 ≤ n ∧ n ≤ 128
      | .continued _ => True

/-- The machine's segmentation is the pseudocode of R162, index by index. -/
def Obligations.SegmentsFollowPseudocode : Prop :=
  ∀ ds : List Int, segments ds = segmentLoop ds ds.length 0 0

/-- ENC_ROW stores the segments of the row's differences at the cursor, advances EIDX by `BLKW - 1` and
leaves the last element in PREV; an empty row changes nothing (R161, R163). A row that is not empty and
does not fit below the limit is OutOfSpace, after which only BITPOS, PREV, EIDX and the bytes below
LIMIT may differ (R211, R227 (d)). -/
def Obligations.EncRowWritesSegments : Prop :=
  ∀ s : State, s.ready → Memory.wf s.bm → s.codecLegal → s.blkw ≠ 0 →
    s.eidx.toNat + s.blkw.toNat ≤ s.elim.toNat + 1 →
    ∀ n xs bits, n = s.blkw.toNat - 1 → xs = elemsAt s n → bits = rowBits s.ctx (rowDiffs s.pv xs) →
    if n = 0 ∨ s.bitpos.toNat + bits.length ≤ 8 * s.limit.toNat then
      ∃ t, exec .encRow s = .next t ∧
        t = { s.atRest with
          bm := t.bm, bitpos := s.bitpos + BitVec.ofNat 64 bits.length,
          prev := if n = 0 then s.prev else BitVec.ofNat 32 (zext s.w (xs.getLastD 0)),
          eidx := s.eidx + BitVec.ofNat 32 n } ∧
        storesBits s.bm t.bm s.bitpos.toNat bits
    else
      ∃ t, exec .encRow s = .next t ∧
        t = { s.withFault .outOfSpace with
          bm := t.bm, bitpos := t.bitpos, prev := t.prev, eidx := t.eidx,
          freeDraws := s.freeDraws + 1 } ∧
        ∀ a, s.limit.toNat ≤ a → Memory.read t.bm a = Memory.read s.bm a

/-- DEC_ROW accepts any sequence of legal segments whose counts add up to `BLKW - 1`: it stores the
running sums from EIDX on, leaves the last one in PREV and the cursor after the last segment (R164,
R165). For an empty row only the value `pv` of PREV is said (log entry 6). -/
def Obligations.DecRowAcceptsSegments : Prop :=
  ∀ (s : State) (segs : List Segment), s.ready → Memory.wf s.em → s.codecLegal → s.blkw ≠ 0 →
    s.eidx.toNat + s.blkw.toNat ≤ s.elim.toNat + 1 → (∀ seg ∈ segs, segmentLegal s.ctx seg) →
    ∀ xs bits, xs = runningElems s.w s.pv (segs.flatMap segmentDiffs) →
    bits = segs.flatMap (segmentBits s.ctx) → xs.length = s.blkw.toNat - 1 →
    holdsBits s.bm s.bitpos.toNat bits →
    (segs = [] ∨ s.bitpos.toNat + bits.length ≤ 8 * s.limit.toNat) →
    ∃ t, exec .decRow s = .next t ∧
      t = { s.atRest with
        em := t.em, bitpos := s.bitpos + BitVec.ofNat 64 bits.length, prev := t.prev,
        eidx := s.eidx + BitVec.ofNat 32 xs.length } ∧
      t.pv = xs.getLastD s.pv ∧
      (segs ≠ [] → t.prev = BitVec.ofNat 32 (zext s.w (xs.getLastD s.pv))) ∧
      storesElems s.em t.em s.eidx.toNat xs

/-- The inverse law of rows: DEC_ROW from the cursor ENC_ROW started at, with the same CFG, BLKW and
previous value, writes back the row's elements wherever EIDX points, ends at the same cursor and with
the same previous value (R167; for an empty row only the value `pv` of PREV is said, log entry 6). -/
def Obligations.RowRoundTrip : Prop :=
  ∀ s t u : State, s.ready → Memory.wf s.bm → Memory.wf s.em → exec .encRow s = .next t →
    t.status.fault = false → u.ready → Memory.wf u.em → u.bm = t.bm → u.limit = s.limit →
    u.cfg = s.cfg → u.blkw = s.blkw → u.prev = s.prev → u.bitpos = s.bitpos →
    u.eidx.toNat + s.blkw.toNat ≤ u.elim.toNat + 1 →
    ∃ v, exec .decRow u = .next v ∧ v.status.fault = false ∧ v.bitpos = t.bitpos ∧ v.pv = t.pv ∧
      (s.blkw ≠ 1 → v.prev = t.prev) ∧
      (∀ k, k < s.blkw.toNat - 1 →
        elemRead s.w v.em (u.eidx.toNat + k) = elemRead s.w s.em (s.eidx.toNat + k)) ∧
      ∀ j, j < u.eidx.toNat ∨ u.eidx.toNat + (s.blkw.toNat - 1) ≤ j →
        Memory.read v.em j = Memory.read u.em j

/-- A marker met at the cursor by the row decoder, with its data after it: the segment's elements are
stored from EIDX on, PREV holds the last, and the block lacks so many fewer (R92, R93, R94, R165,
R166;
an item's meaning as an instruction of its own is the model's, log entry 7). -/
def Obligations.MarkerItemsProduceSegments : Prop :=
  ∀ (s : State) (seg : Segment), s.status.fault = false → Memory.wf s.em → s.codecLegal →
    s.eidx.toNat + s.rem.toNat ≤ s.elim.toNat → segmentLegal s.ctx seg →
    (segmentDiffs seg).length ≤ s.rem.toNat →
    holdsBits s.bm (s.bitpos.toNat + 8) (segmentData s.ctx seg) →
    s.bitpos.toNat + (segmentBits s.ctx seg).length ≤ 8 * s.limit.toNat →
    ∀ xs, xs = runningElems s.w s.pv (segmentDiffs seg) →
    ∃ t, exec (segmentMarker seg) s = .next t ∧
      t = { s with
        em := t.em, acc := t.acc,
        bitpos := s.bitpos + BitVec.ofNat 64 (segmentBits s.ctx seg).length,
        prev := BitVec.ofNat 32 (zext s.w (xs.getLastD s.pv)),
        eidx := s.eidx + BitVec.ofNat 32 xs.length,
        rem := s.rem - BitVec.ofNat 32 xs.length } ∧
      storesElems s.em t.em s.eidx.toNat xs

/-- The marker byte 0 is BadMarker, and a marker whose count exceeds the elements still missing is
RunOverrun, whatever stands after the marker, be it the limit: at the item, and for any marker, after any
legal segments, of DEC_ROW, of DEC_BLOCK in run-length mode after the raw element, and of any block of
DECODE in run-length mode after any legal blocks. Only the registers R227 (d) names and the cells of the
range may have changed, and CFG is the header's after DECODE (R95, R166, R188, R192, R215, R216, R227; the
item as an instruction of its own is the model's, log entry 7). -/
def Obligations.BadMarkersFault : Prop :=
  (∀ s : State, s.status.fault = false → Memory.wf s.em → s.codecLegal →
    s.eidx.toNat + s.rem.toNat ≤ s.elim.toNat → s.bitpos.toNat + 8 ≤ 8 * s.limit.toNat →
    ∀ i e, ((i = .markReserved ∧ e = Cause.badMarker) ∨
        (e = Cause.runOverrun ∧ ∃ seg, i = segmentMarker seg ∧ segmentLegal s.ctx seg ∧
          s.rem.toNat < (segmentDiffs seg).length)) →
      ∃ t, exec i s = .next t ∧ afterRowFault s s.rem.toNat e t) ∧
  (∀ (s : State) (e : Cause), s.ready → Memory.wf s.em → s.codecLegal → s.blkw ≠ 0 →
    s.eidx.toNat + s.blkw.toNat ≤ s.elim.toNat + 1 →
    rowMarkerFails s (s.blkw.toNat - 1) s.bitpos.toNat e →
    ∃ t, exec .decRow s = .next t ∧ afterRowFault s (s.blkw.toNat - 1) e t) ∧
  (∀ (s : State) (e : Cause), s.ready → Memory.wf s.em → s.codecLegal → s.blkw ≠ 0 →
    s.eidx.toNat + s.blkw.toNat ≤ s.elim.toNat → s.bitpos.toNat % 8 = 0 → s.runLength = true →
    rowMarkerFails s (s.blkw.toNat - 1) (s.bitpos.toNat + s.w) e →
    ∃ t, exec .decBlock s = .next t ∧ afterBlockFault s e t) ∧
  ∀ (s u : State) (total : BitVec 32) (slice tag : BitVec 8) (o : Nat) (e : Cause), s.ready →
    Memory.wf s.em → reachesBlock s total slice tag o → u = s.withHeader slice tag →
    u.runLength = true → rowMarkerFails u (s.blkw.toNat - 1) (o + s.w) e →
    ∃ t, exec .decode s = .next t ∧ afterDecodeFault s u.cfg e t

/-- LITDIFF met at the cursor by the row decoder: `W + 1` bits are consumed and `sext_(W+1)` of them is
the difference taken (R96;
an item's meaning as an instruction of its own is the model's, log entry 7). -/
def Obligations.LitDiffItemTakesDifference : Prop :=
  ∀ (s : State) (d : BitVec 33), s.status.fault = false → s.codecLegal →
    s.eidx.toNat + s.rem.toNat ≤ s.elim.toNat →
    s.bitpos.toNat + (s.w + 1) ≤ 8 * s.limit.toNat →
    exec (.litDiff d) s = .next { s with
      acc := BitVec.ofInt 64 (sext (s.w + 1) d.toNat),
      bitpos := s.bitpos + BitVec.ofNat 64 (s.w + 1) }

/-! ## BlockFramer -/

/-- WR_HEADER stores the 14 header bytes with a total size of 0, leaves the cursor at 112 and clears
EIDX, BLK and TOTAL; with LIMIT below 14 it is OutOfSpace (R81, R181). -/
def Obligations.WrHeaderStoresHeader : Prop :=
  ∀ s : State, s.ready → Memory.wf s.bm → s.codecLegal → s.geometryLegal →
    (14 ≤ s.limit.toNat →
      ∃ t, exec .wrHeader s = .next t ∧
        t = { s.atRest with bm := t.bm, bitpos := 112, eidx := 0, blk := 0, total := 0 } ∧
        storesBits s.bm t.bm 0 (encode s.ctx (headerOf s 0))) ∧
    (s.limit.toNat < 14 →
      ∃ t, exec .wrHeader s = .next t ∧
        t = { s.withFault .outOfSpace with
          bm := t.bm, bitpos := t.bitpos, eidx := t.eidx, blk := t.blk, total := t.total,
          freeDraws := s.freeDraws + 1 } ∧
        ∀ a, s.limit.toNat ≤ a → Memory.read t.bm a = Memory.read s.bm a)

/-- RD_HEADER with a header that agrees with BLKC, BLKW and the host's element width loads TOTAL,
CFG.TYPE and CFG.SLICE from it, leaves the cursor at 112 and clears EIDX and BLK (R184). -/
def Obligations.RdHeaderLoadsHeader : Prop :=
  ∀ (s : State) (total : BitVec 32) (slice tag : BitVec 8), s.ready →
    typeReserved s.cfg.typ = false → s.geometryLegal → 14 ≤ s.limit.toNat →
    (Instr.hdr total s.blkc s.blkw slice tag).wf s.ctx = true → tagWidth (tag.truncate 3) = s.w →
    holdsBits s.bm 0 (encode s.ctx (.hdr total s.blkc s.blkw slice tag)) →
    exec .rdHeader s = .next { s.atRest with
      cfg := { typ := tag.truncate 3, slice := slice.truncate 6 },
      total := total, bitpos := 112, eidx := 0, blk := 0 }

/-- What RD_HEADER and DECODE refuse in the header, in their order: a header shorter than 14 bytes, a
reserved tag, a width or geometry that differs from the host's, a slice width above the element width.
CFG is as the host wrote it; RD_HEADER leaves the memories alone, and of DECODE only the cells of the
array may differ (R184, R192, R227, R230). -/
def Obligations.RdHeaderRefusesInOrder : Prop :=
  ∀ (s : State) (total count width : BitVec 32) (slice tag : BitVec 8) (c : Cause), s.ready →
    typeReserved s.cfg.typ = false → s.geometryLegal →
    (if s.limit.toNat < 14 then c = .readPastEnd
     else holdsBits s.bm 0 (encode s.ctx (.hdr total count width slice tag)) ∧
       if tagByteReserved tag = true then c = .badType
       else if tagWidth (tag.truncate 3) ≠ s.w ∨ count ≠ s.blkc ∨ width ≠ s.blkw then
         c = .headerMismatch
       else tagWidth (tag.truncate 3) < slice.toNat ∧ c = .badSlice) →
    (∃ t, exec .rdHeader s = .next t ∧
      t = { s.withFault c with
        bitpos := t.bitpos, eidx := t.eidx, blk := t.blk, total := t.total,
        freeDraws := s.freeDraws + 1 }) ∧
    (Memory.wf s.em → ∃ t, exec .decode s = .next t ∧ afterDecodeFault s s.cfg c t)

/-- ENC_BLOCK stores the block of the next BLKW elements at an aligned cursor, its padding included,
and moves BITPOS, EIDX, PREV and BLK on; in plain and in run-length mode (R83, R186). A block that does
not fit below the limit is OutOfSpace, after which only these four registers and the bytes below LIMIT
may differ (R211, R227 (d)). -/
def Obligations.EncBlockStoresBlock : Prop :=
  ∀ s : State, s.ready → Memory.wf s.bm → s.codecLegal → s.blkw ≠ 0 →
    s.eidx.toNat + s.blkw.toNat ≤ s.elim.toNat → s.bitpos.toNat % 8 = 0 →
    ∀ xs bits, xs = elemsAt s s.blkw.toNat → bits = blockBits s.ctx s.runLength xs →
    if s.bitpos.toNat + bits.length ≤ 8 * s.limit.toNat then
      ∃ t, exec .encBlock s = .next t ∧
        t = { s.atRest with
          bm := t.bm, bitpos := s.bitpos + BitVec.ofNat 64 bits.length,
          prev := BitVec.ofNat 32 (zext s.w (xs.getLastD 0)),
          eidx := s.eidx + s.blkw, blk := s.blk + 1 } ∧
        storesBits s.bm t.bm s.bitpos.toNat bits
    else
      ∃ t, exec .encBlock s = .next t ∧
        t = { s.withFault .outOfSpace with
          bm := t.bm, bitpos := t.bitpos, prev := t.prev, eidx := t.eidx, blk := t.blk,
          freeDraws := s.freeDraws + 1 } ∧
        ∀ a, s.limit.toNat ≤ a → Memory.read t.bm a = Memory.read s.bm a

/-- DEC_BLOCK at an aligned cursor where a legal block stands, the encoder's or not, whatever its pad
bits are: a raw element, then codewords of any codable differences (plain mode) or any legal segments
(run-length mode) for the other `BLKW - 1`. It stores the raw element and the running sums, each wrapped
to `W` bits, from EIDX on and moves BITPOS, EIDX, PREV and BLK on (R90, R97, R164, R188). -/
def Obligations.DecBlockReadsBlock : Prop :=
  ∀ (s : State) (b : CodedBlock), s.ready → Memory.wf s.em → s.codecLegal →
    s.eidx.toNat + s.blkw.toNat ≤ s.elim.toNat → s.bitpos.toNat % 8 = 0 →
    b.legal s.ctx s.runLength s.blkw.toNat → holdsBits s.bm s.bitpos.toNat (b.body s.ctx) →
    s.bitpos.toNat + (b.body s.ctx).length ≤ 8 * s.limit.toNat →
    ∃ t, exec .decBlock s = .next t ∧
      t = { s.atRest with
        em := t.em,
        bitpos := s.bitpos + BitVec.ofNat 64 (b.bits s.ctx).length,
        prev := BitVec.ofNat 32 (zext s.w ((b.elems s.w).getLastD 0)),
        eidx := s.eidx + s.blkw, blk := s.blk + 1 } ∧
      storesElems s.em t.em s.eidx.toNat (b.elems s.w)

/-- PATCH_SIZE stores the cursor's byte position in bytes 0 to 3, little-endian, and in TOTAL, and
moves nothing; on an unaligned cursor it is Misaligned, without room OutOfSpace, and then nothing but
STATUS has changed (R190). -/
def Obligations.PatchSizeStoresTotal : Prop :=
  ∀ s : State, s.ready → Memory.wf s.bm →
    if s.bitpos.toNat % 8 ≠ 0 then exec .patchSize s = .next (s.withFault .misaligned)
    else if s.limit.toNat < 4 ∨ 8 * s.limit.toNat < s.bitpos.toNat then
      exec .patchSize s = .next (s.withFault .outOfSpace)
    else ∃ t, exec .patchSize s = .next t ∧
      t = { s.atRest with bm := t.bm, total := BitVec.ofNat 32 (s.bitpos.toNat / 8) } ∧
      storesBits s.bm t.bm 0 (bitsOf (s.bitpos.toNat / 8) 32) ∧
      ∀ k, k < 4 → (Memory.read t.bm k).toNat = s.bitpos.toNat / 8 / 256 ^ k % 256

/-- ENCODE with room for the stream stores exactly the stream of the array, header and patched size
included, and changes no other byte; TOTAL is the bytes written, and one byte less of room is
OutOfSpace (R80, R82, R191). -/
def Obligations.EncodeStoresStream : Prop :=
  ∀ s : State, s.ready → Memory.wf s.bm → s.codecLegal → s.geometryLegal →
    ∀ n, n = streamBytes (blocksBits s.ctx s.runLength s.rows) →
    (n ≤ s.limit.toNat →
      ∃ t, exec .encode s = .next t ∧
        t = { s.atRest with
          bm := t.bm, bitpos := BitVec.ofNat 64 (8 * n),
          prev := if s.blkc = 0 then s.prev
            else BitVec.ofNat 32 (zext s.w (s.rows.flatten.getLastD 0)),
          eidx := s.blkw * s.blkc, total := BitVec.ofNat 32 n, blk := s.blkc } ∧
        storesBits s.bm t.bm 0 (streamBits s)) ∧
    (s.limit.toNat < n →
      ∃ t, exec .encode s = .next t ∧ t.status = (s.withFault .outOfSpace).status ∧ t.cfg = s.cfg ∧
        t.em = s.em ∧ t.val = s.val ∧
        ∀ a, s.limit.toNat ≤ a → Memory.read t.bm a = Memory.read s.bm a)

/-- DECODE of a stream (an accepted header and BLKC legal blocks in the mode its tag and slice width
say, the encoder's or not, each with any pad bits, R97, R164) stores the elements in cells 0 to
`BLKW * BLKC - 1`, loads CFG from the header, and ends at the end of the stream; a header whose total size
is another one gives the same state with SizeMismatch recorded (R188, R189, R192, R227 (e)). -/
def Obligations.DecodeReadsStream : Prop :=
  ∀ (s u : State) (blocks : List CodedBlock) (total : BitVec 32) (slice tag : BitVec 8), s.ready →
    Memory.wf s.em → headerAccepted s total slice tag → u = s.withHeader slice tag →
    ∀ (n : Nat) (xs : List Int), n = streamBytes (blocks.flatMap (CodedBlock.bits u.ctx)) →
    xs = blocks.flatMap (CodedBlock.elems s.w) → n ≤ s.limit.toNat → blocks.length = s.blkc.toNat →
    (∀ b ∈ blocks, b.legal u.ctx u.runLength s.blkw.toNat) →
    holdsStream s.bm (8 * s.limit.toNat) u.ctx (.hdr total s.blkc s.blkw slice tag) blocks →
    ∃ t, exec .decode s = .next t ∧
      t = { (if total.toNat = n then s.atRest else s.withFault .sizeMismatch) with
        em := t.em, cfg := u.cfg, bitpos := BitVec.ofNat 64 (8 * n),
        prev := if s.blkc = 0 then s.prev else BitVec.ofNat 32 (zext s.w (xs.getLastD 0)),
        eidx := s.blkw * s.blkc, total := total, blk := s.blkc } ∧
      storesElems s.em t.em 0 xs

/-- DECODE of a stream of legal blocks that the limit cuts short is CorruptStream(ReadPastEnd): never a
wrong value and never an access beyond the limit, where nothing is assumed of what the memory holds. CFG
is the header's if the header was wholly inside the limit; only the registers DECODE writes and the cells
of the array may differ (R61, R212, R227). -/
def Obligations.DecodeOfCutStreamReadsPastEnd : Prop :=
  ∀ (s u : State) (blocks : List CodedBlock) (total : BitVec 32) (slice tag : BitVec 8), s.ready →
    Memory.wf s.em → headerAccepted s total slice tag → u = s.withHeader slice tag →
    s.limit.toNat < streamBytes (blocks.flatMap (CodedBlock.bits u.ctx)) →
    blocks.length = s.blkc.toNat → (∀ b ∈ blocks, b.legal u.ctx u.runLength s.blkw.toNat) →
    holdsStream s.bm (8 * s.limit.toNat) u.ctx (.hdr total s.blkc s.blkw slice tag) blocks →
    ∃ t, exec .decode s = .next t ∧
      afterDecodeFault s (if s.limit.toNat < 14 then s.cfg else u.cfg) .readPastEnd t

/-- ENCODE leaves exactly what the host gets by issuing WR_HEADER, ENC_BLOCK for each of BLKC blocks,
and PATCH_SIZE (R105, R191). -/
def Obligations.EncodeIsHostLoop : Prop :=
  ∀ s t : State, s.ready → exec .encode s = .next t → t.status.fault = false →
    execAll (.wrHeader :: (List.replicate s.blkc.toNat .encBlock ++ [.patchSize])) s = .next t

/-- DECODE leaves exactly what the host gets by issuing RD_HEADER and DEC_BLOCK for each of BLKC
blocks, and the cursor is then at TOTAL (R105, R192). -/
def Obligations.DecodeIsHostLoop : Prop :=
  ∀ s t : State, s.ready → exec .decode s = .next t → t.status.fault = false →
    execAll (.rdHeader :: List.replicate s.blkc.toNat .decBlock) s = .next t ∧
      t.bitpos.toNat / 8 = t.total.toNat

/-- The round trip: if ENCODE succeeds, then DECODE on the bytes it wrote, with the same BLKW and BLKC,
a CFG.TYPE of the same width and limits that are large enough, succeeds, restores exactly the elements
and ends with the same TOTAL and BITPOS (R193). -/
def Obligations.StreamRoundTrip : Prop :=
  ∀ s t u : State, s.ready → Memory.wf s.bm → exec .encode s = .next t → t.status.fault = false →
    u.ready → Memory.wf u.em → (∀ a, a < t.total.toNat → Memory.read u.bm a = Memory.read t.bm a) →
    u.blkw = s.blkw → u.blkc = s.blkc → typeReserved u.cfg.typ = false → u.w = s.w →
    t.total.toNat ≤ u.limit.toNat → s.blkw.toNat * s.blkc.toNat ≤ u.elim.toNat →
    ∃ v, exec .decode u = .next v ∧ v.status.fault = false ∧ v.total = t.total ∧
      v.bitpos = t.bitpos ∧
      ∀ i, i < s.blkw.toNat * s.blkc.toNat → elemRead s.w v.em i = elemRead s.w s.em i

/-- HDR met by the decoder: the fields it read are tested and loaded as RD_HEADER does (R81, R184;
an item's meaning as an instruction of its own is the model's, log entry 7). -/
def Obligations.HeaderItemLoads : Prop :=
  ∀ (s : State) (total : BitVec 32) (slice tag : BitVec 8), s.status.fault = false →
    typeReserved s.cfg.typ = false → s.geometryLegal → 14 ≤ s.limit.toNat →
    (Instr.hdr total s.blkc s.blkw slice tag).wf s.ctx = true → tagWidth (tag.truncate 3) = s.w →
    exec (.hdr total s.blkc s.blkw slice tag) s = .next { s with
      cfg := { typ := tag.truncate 3, slice := slice.truncate 6 },
      total := total, bitpos := 112, eidx := 0, blk := 0 }

/-- RAW met at the start of a block: the decoder consumes `W` bits and stores the element in cell EIDX,
sign-extended, with PREV, EIDX and the cursor moved on (R84, R188;
an item's meaning as an instruction of its own is the model's, log entry 7). -/
def Obligations.RawItemProducesElement : Prop :=
  ∀ (s : State) (x : BitVec 32), s.status.fault = false → Memory.wf s.em → s.codecLegal →
    s.blkw ≠ 0 → s.eidx.toNat + s.blkw.toNat ≤ s.elim.toNat → s.bitpos.toNat % 8 = 0 →
    s.bitpos.toNat + s.w ≤ 8 * s.limit.toNat →
    ∃ t, exec (.raw x) s = .next t ∧
      t = { s with
        em := t.em, bitpos := s.bitpos + BitVec.ofNat 64 s.w,
        prev := BitVec.ofNat 32 (x.toNat % 2 ^ s.w), eidx := s.eidx + 1 } ∧
      storesElems s.em t.em s.eidx.toNat [sext s.w x.toNat]

/-- The type tags met by the header decoder: a tag of the host's element width is loaded into CFG.TYPE,
one of another width is HeaderMismatch, a reserved one is BadType (R98, R99, R184;
an item's meaning as an instruction of its own is the model's, log entry 7). -/
def Obligations.TagItemsSelectWidth : Prop :=
  ∀ s : State, s.status.fault = false → typeReserved s.cfg.typ = false →
    s.bitpos.toNat + 8 ≤ 8 * s.limit.toNat →
    (∀ (i : Instr) (k : BitVec 3) (w : Nat), (i, k, w) ∈ [(Instr.tag0, 0#3, 16), (.tag1, 1#3, 8),
        (.tag2, 2#3, 16), (.tag3, 3#3, 8), (.tag4, 4#3, 32), (.tag6, 6#3, 32)] →
      if s.w = w then
        exec i s = .next { s with cfg := { s.cfg with typ := k }, bitpos := s.bitpos + 8 }
      else ∃ t, exec i s = .next t ∧
        t = { s.withFault .headerMismatch with
          bitpos := t.bitpos, eidx := t.eidx, blk := t.blk, total := t.total,
          freeDraws := s.freeDraws + 1 }) ∧
    ∀ b : BitVec 8, (Instr.tagReserved b).wf s.ctx = true →
      ∃ t, exec (.tagReserved b) s = .next t ∧
        t = { s.withFault .badType with
          bitpos := t.bitpos, eidx := t.eidx, blk := t.blk, total := t.total,
          freeDraws := s.freeDraws + 1 }
end

