-- ==== Sys2Proof/Laws/State.lean ====
section
/-! SUPPORT. What each update of the state does to each field: one lemma per field and update, true by
`rfl`, so that no later proof unfolds a record update. -/

namespace Sys2Proof.Machine

/-! ## `setPrev` -/

@[simp] theorem setPrev_status (x : Int) (s : State) :
    (setPrev x s).status = s.status := rfl

@[simp] theorem setPrev_cfg (x : Int) (s : State) :
    (setPrev x s).cfg = s.cfg := rfl

@[simp] theorem setPrev_blkw (x : Int) (s : State) :
    (setPrev x s).blkw = s.blkw := rfl

@[simp] theorem setPrev_blkc (x : Int) (s : State) :
    (setPrev x s).blkc = s.blkc := rfl

@[simp] theorem setPrev_limit (x : Int) (s : State) :
    (setPrev x s).limit = s.limit := rfl

@[simp] theorem setPrev_elim (x : Int) (s : State) :
    (setPrev x s).elim = s.elim := rfl

@[simp] theorem setPrev_bitpos (x : Int) (s : State) :
    (setPrev x s).bitpos = s.bitpos := rfl

@[simp] theorem setPrev_prev (x : Int) (s : State) :
    (setPrev x s).prev = BitVec.ofNat 32 (zext s.w x) := rfl

@[simp] theorem setPrev_eidx (x : Int) (s : State) :
    (setPrev x s).eidx = s.eidx := rfl

@[simp] theorem setPrev_val (x : Int) (s : State) :
    (setPrev x s).val = s.val := rfl

@[simp] theorem setPrev_width (x : Int) (s : State) :
    (setPrev x s).width = s.width := rfl

@[simp] theorem setPrev_total (x : Int) (s : State) :
    (setPrev x s).total = s.total := rfl

@[simp] theorem setPrev_blk (x : Int) (s : State) :
    (setPrev x s).blk = s.blk := rfl

@[simp] theorem setPrev_bm (x : Int) (s : State) :
    (setPrev x s).bm = s.bm := rfl

@[simp] theorem setPrev_em (x : Int) (s : State) :
    (setPrev x s).em = s.em := rfl

@[simp] theorem setPrev_acc (x : Int) (s : State) :
    (setPrev x s).acc = s.acc := rfl

@[simp] theorem setPrev_rem (x : Int) (s : State) :
    (setPrev x s).rem = s.rem := rfl

@[simp] theorem setPrev_running (x : Int) (s : State) :
    (setPrev x s).running = s.running := rfl

@[simp] theorem setPrev_hostQueue (x : Int) (s : State) :
    (setPrev x s).hostQueue = s.hostQueue := rfl

@[simp] theorem setPrev_replies (x : Int) (s : State) :
    (setPrev x s).replies = s.replies := rfl

@[simp] theorem setPrev_freeDraws (x : Int) (s : State) :
    (setPrev x s).freeDraws = s.freeDraws := rfl

@[simp] theorem setPrev_w (x : Int) (s : State) : (setPrev x s).w = s.w := rfl

@[simp] theorem setPrev_sw (x : Int) (s : State) : (setPrev x s).sw = s.sw := rfl

@[simp] theorem setPrev_ctx (x : Int) (s : State) : (setPrev x s).ctx = s.ctx := rfl

@[simp] theorem setPrev_runLength (x : Int) (s : State) : (setPrev x s).runLength = s.runLength := rfl

@[simp] theorem setPrev_limitBits (x : Int) (s : State) : (setPrev x s).limitBits = s.limitBits := rfl

/-! ## `setVal` -/

@[simp] theorem setVal_status (x : Int) (s : State) :
    (setVal x s).status = s.status := rfl

@[simp] theorem setVal_cfg (x : Int) (s : State) :
    (setVal x s).cfg = s.cfg := rfl

@[simp] theorem setVal_blkw (x : Int) (s : State) :
    (setVal x s).blkw = s.blkw := rfl

@[simp] theorem setVal_blkc (x : Int) (s : State) :
    (setVal x s).blkc = s.blkc := rfl

@[simp] theorem setVal_limit (x : Int) (s : State) :
    (setVal x s).limit = s.limit := rfl

@[simp] theorem setVal_elim (x : Int) (s : State) :
    (setVal x s).elim = s.elim := rfl

@[simp] theorem setVal_bitpos (x : Int) (s : State) :
    (setVal x s).bitpos = s.bitpos := rfl

@[simp] theorem setVal_prev (x : Int) (s : State) :
    (setVal x s).prev = s.prev := rfl

@[simp] theorem setVal_eidx (x : Int) (s : State) :
    (setVal x s).eidx = s.eidx := rfl

@[simp] theorem setVal_val (x : Int) (s : State) :
    (setVal x s).val = BitVec.ofInt 64 x := rfl

@[simp] theorem setVal_width (x : Int) (s : State) :
    (setVal x s).width = s.width := rfl

@[simp] theorem setVal_total (x : Int) (s : State) :
    (setVal x s).total = s.total := rfl

@[simp] theorem setVal_blk (x : Int) (s : State) :
    (setVal x s).blk = s.blk := rfl

@[simp] theorem setVal_bm (x : Int) (s : State) :
    (setVal x s).bm = s.bm := rfl

@[simp] theorem setVal_em (x : Int) (s : State) :
    (setVal x s).em = s.em := rfl

@[simp] theorem setVal_acc (x : Int) (s : State) :
    (setVal x s).acc = s.acc := rfl

@[simp] theorem setVal_rem (x : Int) (s : State) :
    (setVal x s).rem = s.rem := rfl

@[simp] theorem setVal_running (x : Int) (s : State) :
    (setVal x s).running = s.running := rfl

@[simp] theorem setVal_hostQueue (x : Int) (s : State) :
    (setVal x s).hostQueue = s.hostQueue := rfl

@[simp] theorem setVal_replies (x : Int) (s : State) :
    (setVal x s).replies = s.replies := rfl

@[simp] theorem setVal_freeDraws (x : Int) (s : State) :
    (setVal x s).freeDraws = s.freeDraws := rfl

@[simp] theorem setVal_w (x : Int) (s : State) : (setVal x s).w = s.w := rfl

@[simp] theorem setVal_sw (x : Int) (s : State) : (setVal x s).sw = s.sw := rfl

@[simp] theorem setVal_ctx (x : Int) (s : State) : (setVal x s).ctx = s.ctx := rfl

@[simp] theorem setVal_runLength (x : Int) (s : State) : (setVal x s).runLength = s.runLength := rfl

@[simp] theorem setVal_limitBits (x : Int) (s : State) : (setVal x s).limitBits = s.limitBits := rfl

@[simp] theorem setVal_pv (x : Int) (s : State) : (setVal x s).pv = s.pv := rfl

/-! ## `advance` -/

@[simp] theorem advance_status (n : Nat) (s : State) :
    (advance n s).status = s.status := rfl

@[simp] theorem advance_cfg (n : Nat) (s : State) :
    (advance n s).cfg = s.cfg := rfl

@[simp] theorem advance_blkw (n : Nat) (s : State) :
    (advance n s).blkw = s.blkw := rfl

@[simp] theorem advance_blkc (n : Nat) (s : State) :
    (advance n s).blkc = s.blkc := rfl

@[simp] theorem advance_limit (n : Nat) (s : State) :
    (advance n s).limit = s.limit := rfl

@[simp] theorem advance_elim (n : Nat) (s : State) :
    (advance n s).elim = s.elim := rfl

@[simp] theorem advance_bitpos (n : Nat) (s : State) :
    (advance n s).bitpos = s.bitpos := rfl

@[simp] theorem advance_prev (n : Nat) (s : State) :
    (advance n s).prev = s.prev := rfl

@[simp] theorem advance_eidx (n : Nat) (s : State) :
    (advance n s).eidx = s.eidx + BitVec.ofNat 32 n := rfl

@[simp] theorem advance_val (n : Nat) (s : State) :
    (advance n s).val = s.val := rfl

@[simp] theorem advance_width (n : Nat) (s : State) :
    (advance n s).width = s.width := rfl

@[simp] theorem advance_total (n : Nat) (s : State) :
    (advance n s).total = s.total := rfl

@[simp] theorem advance_blk (n : Nat) (s : State) :
    (advance n s).blk = s.blk := rfl

@[simp] theorem advance_bm (n : Nat) (s : State) :
    (advance n s).bm = s.bm := rfl

@[simp] theorem advance_em (n : Nat) (s : State) :
    (advance n s).em = s.em := rfl

@[simp] theorem advance_acc (n : Nat) (s : State) :
    (advance n s).acc = s.acc := rfl

@[simp] theorem advance_rem (n : Nat) (s : State) :
    (advance n s).rem = s.rem := rfl

@[simp] theorem advance_running (n : Nat) (s : State) :
    (advance n s).running = s.running := rfl

@[simp] theorem advance_hostQueue (n : Nat) (s : State) :
    (advance n s).hostQueue = s.hostQueue := rfl

@[simp] theorem advance_replies (n : Nat) (s : State) :
    (advance n s).replies = s.replies := rfl

@[simp] theorem advance_freeDraws (n : Nat) (s : State) :
    (advance n s).freeDraws = s.freeDraws := rfl

@[simp] theorem advance_w (n : Nat) (s : State) : (advance n s).w = s.w := rfl

@[simp] theorem advance_sw (n : Nat) (s : State) : (advance n s).sw = s.sw := rfl

@[simp] theorem advance_ctx (n : Nat) (s : State) : (advance n s).ctx = s.ctx := rfl

@[simp] theorem advance_runLength (n : Nat) (s : State) : (advance n s).runLength = s.runLength := rfl

@[simp] theorem advance_limitBits (n : Nat) (s : State) : (advance n s).limitBits = s.limitBits := rfl

@[simp] theorem advance_pv (n : Nat) (s : State) : (advance n s).pv = s.pv := rfl

/-! ## `takeDiff` -/

@[simp] theorem takeDiff_status (d : Int) (s : State) :
    (takeDiff d s).status = s.status := rfl

@[simp] theorem takeDiff_cfg (d : Int) (s : State) :
    (takeDiff d s).cfg = s.cfg := rfl

@[simp] theorem takeDiff_blkw (d : Int) (s : State) :
    (takeDiff d s).blkw = s.blkw := rfl

@[simp] theorem takeDiff_blkc (d : Int) (s : State) :
    (takeDiff d s).blkc = s.blkc := rfl

@[simp] theorem takeDiff_limit (d : Int) (s : State) :
    (takeDiff d s).limit = s.limit := rfl

@[simp] theorem takeDiff_elim (d : Int) (s : State) :
    (takeDiff d s).elim = s.elim := rfl

@[simp] theorem takeDiff_bitpos (d : Int) (s : State) :
    (takeDiff d s).bitpos = s.bitpos := rfl

@[simp] theorem takeDiff_prev (d : Int) (s : State) :
    (takeDiff d s).prev = s.prev := rfl

@[simp] theorem takeDiff_eidx (d : Int) (s : State) :
    (takeDiff d s).eidx = s.eidx := rfl

@[simp] theorem takeDiff_val (d : Int) (s : State) :
    (takeDiff d s).val = s.val := rfl

@[simp] theorem takeDiff_width (d : Int) (s : State) :
    (takeDiff d s).width = s.width := rfl

@[simp] theorem takeDiff_total (d : Int) (s : State) :
    (takeDiff d s).total = s.total := rfl

@[simp] theorem takeDiff_blk (d : Int) (s : State) :
    (takeDiff d s).blk = s.blk := rfl

@[simp] theorem takeDiff_bm (d : Int) (s : State) :
    (takeDiff d s).bm = s.bm := rfl

@[simp] theorem takeDiff_em (d : Int) (s : State) :
    (takeDiff d s).em = s.em := rfl

@[simp] theorem takeDiff_acc (d : Int) (s : State) :
    (takeDiff d s).acc = BitVec.ofInt 64 d := rfl

@[simp] theorem takeDiff_rem (d : Int) (s : State) :
    (takeDiff d s).rem = s.rem := rfl

@[simp] theorem takeDiff_running (d : Int) (s : State) :
    (takeDiff d s).running = s.running := rfl

@[simp] theorem takeDiff_hostQueue (d : Int) (s : State) :
    (takeDiff d s).hostQueue = s.hostQueue := rfl

@[simp] theorem takeDiff_replies (d : Int) (s : State) :
    (takeDiff d s).replies = s.replies := rfl

@[simp] theorem takeDiff_freeDraws (d : Int) (s : State) :
    (takeDiff d s).freeDraws = s.freeDraws := rfl

@[simp] theorem takeDiff_w (d : Int) (s : State) : (takeDiff d s).w = s.w := rfl

@[simp] theorem takeDiff_sw (d : Int) (s : State) : (takeDiff d s).sw = s.sw := rfl

@[simp] theorem takeDiff_ctx (d : Int) (s : State) : (takeDiff d s).ctx = s.ctx := rfl

@[simp] theorem takeDiff_runLength (d : Int) (s : State) : (takeDiff d s).runLength = s.runLength := rfl

@[simp] theorem takeDiff_limitBits (d : Int) (s : State) : (takeDiff d s).limitBits = s.limitBits := rfl

@[simp] theorem takeDiff_pv (d : Int) (s : State) : (takeDiff d s).pv = s.pv := rfl

/-! ## `produce` -/

@[simp] theorem produce_status (x : Int) (s : State) :
    (produce x s).status = s.status := rfl

@[simp] theorem produce_cfg (x : Int) (s : State) :
    (produce x s).cfg = s.cfg := rfl

@[simp] theorem produce_blkw (x : Int) (s : State) :
    (produce x s).blkw = s.blkw := rfl

@[simp] theorem produce_blkc (x : Int) (s : State) :
    (produce x s).blkc = s.blkc := rfl

@[simp] theorem produce_limit (x : Int) (s : State) :
    (produce x s).limit = s.limit := rfl

@[simp] theorem produce_elim (x : Int) (s : State) :
    (produce x s).elim = s.elim := rfl

@[simp] theorem produce_bitpos (x : Int) (s : State) :
    (produce x s).bitpos = s.bitpos := rfl

@[simp] theorem produce_prev (x : Int) (s : State) :
    (produce x s).prev = BitVec.ofNat 32 (zext s.w x) := rfl

@[simp] theorem produce_eidx (x : Int) (s : State) :
    (produce x s).eidx = s.eidx + BitVec.ofNat 32 1 := rfl

@[simp] theorem produce_val (x : Int) (s : State) :
    (produce x s).val = s.val := rfl

@[simp] theorem produce_width (x : Int) (s : State) :
    (produce x s).width = s.width := rfl

@[simp] theorem produce_total (x : Int) (s : State) :
    (produce x s).total = s.total := rfl

@[simp] theorem produce_blk (x : Int) (s : State) :
    (produce x s).blk = s.blk := rfl

@[simp] theorem produce_bm (x : Int) (s : State) :
    (produce x s).bm = s.bm := rfl

@[simp] theorem produce_em (x : Int) (s : State) :
    (produce x s).em = elemWrite s.em s.eidx.toNat x := rfl

@[simp] theorem produce_acc (x : Int) (s : State) :
    (produce x s).acc = s.acc := rfl

@[simp] theorem produce_rem (x : Int) (s : State) :
    (produce x s).rem = s.rem := rfl

@[simp] theorem produce_running (x : Int) (s : State) :
    (produce x s).running = s.running := rfl

@[simp] theorem produce_hostQueue (x : Int) (s : State) :
    (produce x s).hostQueue = s.hostQueue := rfl

@[simp] theorem produce_replies (x : Int) (s : State) :
    (produce x s).replies = s.replies := rfl

@[simp] theorem produce_freeDraws (x : Int) (s : State) :
    (produce x s).freeDraws = s.freeDraws := rfl

@[simp] theorem produce_w (x : Int) (s : State) : (produce x s).w = s.w := rfl

@[simp] theorem produce_sw (x : Int) (s : State) : (produce x s).sw = s.sw := rfl

@[simp] theorem produce_ctx (x : Int) (s : State) : (produce x s).ctx = s.ctx := rfl

@[simp] theorem produce_runLength (x : Int) (s : State) : (produce x s).runLength = s.runLength := rfl

@[simp] theorem produce_limitBits (x : Int) (s : State) : (produce x s).limitBits = s.limitBits := rfl

/-! ## `moveOn` -/

@[simp] theorem moveOn_status (n : Nat) (s : State) :
    (moveOn n s).status = s.status := rfl

@[simp] theorem moveOn_cfg (n : Nat) (s : State) :
    (moveOn n s).cfg = s.cfg := rfl

@[simp] theorem moveOn_blkw (n : Nat) (s : State) :
    (moveOn n s).blkw = s.blkw := rfl

@[simp] theorem moveOn_blkc (n : Nat) (s : State) :
    (moveOn n s).blkc = s.blkc := rfl

@[simp] theorem moveOn_limit (n : Nat) (s : State) :
    (moveOn n s).limit = s.limit := rfl

@[simp] theorem moveOn_elim (n : Nat) (s : State) :
    (moveOn n s).elim = s.elim := rfl

@[simp] theorem moveOn_bitpos (n : Nat) (s : State) :
    (moveOn n s).bitpos = s.bitpos + BitVec.ofNat 64 n := rfl

@[simp] theorem moveOn_prev (n : Nat) (s : State) :
    (moveOn n s).prev = s.prev := rfl

@[simp] theorem moveOn_eidx (n : Nat) (s : State) :
    (moveOn n s).eidx = s.eidx := rfl

@[simp] theorem moveOn_val (n : Nat) (s : State) :
    (moveOn n s).val = s.val := rfl

@[simp] theorem moveOn_width (n : Nat) (s : State) :
    (moveOn n s).width = s.width := rfl

@[simp] theorem moveOn_total (n : Nat) (s : State) :
    (moveOn n s).total = s.total := rfl

@[simp] theorem moveOn_blk (n : Nat) (s : State) :
    (moveOn n s).blk = s.blk := rfl

@[simp] theorem moveOn_bm (n : Nat) (s : State) :
    (moveOn n s).bm = s.bm := rfl

@[simp] theorem moveOn_em (n : Nat) (s : State) :
    (moveOn n s).em = s.em := rfl

@[simp] theorem moveOn_acc (n : Nat) (s : State) :
    (moveOn n s).acc = s.acc := rfl

@[simp] theorem moveOn_rem (n : Nat) (s : State) :
    (moveOn n s).rem = s.rem := rfl

@[simp] theorem moveOn_running (n : Nat) (s : State) :
    (moveOn n s).running = s.running := rfl

@[simp] theorem moveOn_hostQueue (n : Nat) (s : State) :
    (moveOn n s).hostQueue = s.hostQueue := rfl

@[simp] theorem moveOn_replies (n : Nat) (s : State) :
    (moveOn n s).replies = s.replies := rfl

@[simp] theorem moveOn_freeDraws (n : Nat) (s : State) :
    (moveOn n s).freeDraws = s.freeDraws := rfl

@[simp] theorem moveOn_w (n : Nat) (s : State) : (moveOn n s).w = s.w := rfl

@[simp] theorem moveOn_sw (n : Nat) (s : State) : (moveOn n s).sw = s.sw := rfl

@[simp] theorem moveOn_ctx (n : Nat) (s : State) : (moveOn n s).ctx = s.ctx := rfl

@[simp] theorem moveOn_runLength (n : Nat) (s : State) : (moveOn n s).runLength = s.runLength := rfl

@[simp] theorem moveOn_limitBits (n : Nat) (s : State) : (moveOn n s).limitBits = s.limitBits := rfl

@[simp] theorem moveOn_pv (n : Nat) (s : State) : (moveOn n s).pv = s.pv := rfl

/-! ## `alignRead` -/

@[simp] theorem alignRead_status (s : State) :
    (alignRead s).status = s.status := rfl

@[simp] theorem alignRead_cfg (s : State) :
    (alignRead s).cfg = s.cfg := rfl

@[simp] theorem alignRead_blkw (s : State) :
    (alignRead s).blkw = s.blkw := rfl

@[simp] theorem alignRead_blkc (s : State) :
    (alignRead s).blkc = s.blkc := rfl

@[simp] theorem alignRead_limit (s : State) :
    (alignRead s).limit = s.limit := rfl

@[simp] theorem alignRead_elim (s : State) :
    (alignRead s).elim = s.elim := rfl

@[simp] theorem alignRead_bitpos (s : State) :
    (alignRead s).bitpos = s.bitpos + BitVec.ofNat 64 (padBits s.bitpos.toNat) := rfl

@[simp] theorem alignRead_prev (s : State) :
    (alignRead s).prev = s.prev := rfl

@[simp] theorem alignRead_eidx (s : State) :
    (alignRead s).eidx = s.eidx := rfl

@[simp] theorem alignRead_val (s : State) :
    (alignRead s).val = s.val := rfl

@[simp] theorem alignRead_width (s : State) :
    (alignRead s).width = s.width := rfl

@[simp] theorem alignRead_total (s : State) :
    (alignRead s).total = s.total := rfl

@[simp] theorem alignRead_blk (s : State) :
    (alignRead s).blk = s.blk := rfl

@[simp] theorem alignRead_bm (s : State) :
    (alignRead s).bm = s.bm := rfl

@[simp] theorem alignRead_em (s : State) :
    (alignRead s).em = s.em := rfl

@[simp] theorem alignRead_acc (s : State) :
    (alignRead s).acc = s.acc := rfl

@[simp] theorem alignRead_rem (s : State) :
    (alignRead s).rem = s.rem := rfl

@[simp] theorem alignRead_running (s : State) :
    (alignRead s).running = s.running := rfl

@[simp] theorem alignRead_hostQueue (s : State) :
    (alignRead s).hostQueue = s.hostQueue := rfl

@[simp] theorem alignRead_replies (s : State) :
    (alignRead s).replies = s.replies := rfl

@[simp] theorem alignRead_freeDraws (s : State) :
    (alignRead s).freeDraws = s.freeDraws := rfl

@[simp] theorem alignRead_w (s : State) : (alignRead s).w = s.w := rfl

@[simp] theorem alignRead_sw (s : State) : (alignRead s).sw = s.sw := rfl

@[simp] theorem alignRead_ctx (s : State) : (alignRead s).ctx = s.ctx := rfl

@[simp] theorem alignRead_runLength (s : State) : (alignRead s).runLength = s.runLength := rfl

@[simp] theorem alignRead_limitBits (s : State) : (alignRead s).limitBits = s.limitBits := rfl

@[simp] theorem alignRead_pv (s : State) : (alignRead s).pv = s.pv := rfl

/-! ## `lessRem` -/

@[simp] theorem lessRem_status (c : Nat) (s : State) :
    (lessRem c s).status = s.status := rfl

@[simp] theorem lessRem_cfg (c : Nat) (s : State) :
    (lessRem c s).cfg = s.cfg := rfl

@[simp] theorem lessRem_blkw (c : Nat) (s : State) :
    (lessRem c s).blkw = s.blkw := rfl

@[simp] theorem lessRem_blkc (c : Nat) (s : State) :
    (lessRem c s).blkc = s.blkc := rfl

@[simp] theorem lessRem_limit (c : Nat) (s : State) :
    (lessRem c s).limit = s.limit := rfl

@[simp] theorem lessRem_elim (c : Nat) (s : State) :
    (lessRem c s).elim = s.elim := rfl

@[simp] theorem lessRem_bitpos (c : Nat) (s : State) :
    (lessRem c s).bitpos = s.bitpos := rfl

@[simp] theorem lessRem_prev (c : Nat) (s : State) :
    (lessRem c s).prev = s.prev := rfl

@[simp] theorem lessRem_eidx (c : Nat) (s : State) :
    (lessRem c s).eidx = s.eidx := rfl

@[simp] theorem lessRem_val (c : Nat) (s : State) :
    (lessRem c s).val = s.val := rfl

@[simp] theorem lessRem_width (c : Nat) (s : State) :
    (lessRem c s).width = s.width := rfl

@[simp] theorem lessRem_total (c : Nat) (s : State) :
    (lessRem c s).total = s.total := rfl

@[simp] theorem lessRem_blk (c : Nat) (s : State) :
    (lessRem c s).blk = s.blk := rfl

@[simp] theorem lessRem_bm (c : Nat) (s : State) :
    (lessRem c s).bm = s.bm := rfl

@[simp] theorem lessRem_em (c : Nat) (s : State) :
    (lessRem c s).em = s.em := rfl

@[simp] theorem lessRem_acc (c : Nat) (s : State) :
    (lessRem c s).acc = s.acc := rfl

@[simp] theorem lessRem_rem (c : Nat) (s : State) :
    (lessRem c s).rem = s.rem - BitVec.ofNat 32 c := rfl

@[simp] theorem lessRem_running (c : Nat) (s : State) :
    (lessRem c s).running = s.running := rfl

@[simp] theorem lessRem_hostQueue (c : Nat) (s : State) :
    (lessRem c s).hostQueue = s.hostQueue := rfl

@[simp] theorem lessRem_replies (c : Nat) (s : State) :
    (lessRem c s).replies = s.replies := rfl

@[simp] theorem lessRem_freeDraws (c : Nat) (s : State) :
    (lessRem c s).freeDraws = s.freeDraws := rfl

@[simp] theorem lessRem_w (c : Nat) (s : State) : (lessRem c s).w = s.w := rfl

@[simp] theorem lessRem_sw (c : Nat) (s : State) : (lessRem c s).sw = s.sw := rfl

@[simp] theorem lessRem_ctx (c : Nat) (s : State) : (lessRem c s).ctx = s.ctx := rfl

@[simp] theorem lessRem_runLength (c : Nat) (s : State) : (lessRem c s).runLength = s.runLength := rfl

@[simp] theorem lessRem_limitBits (c : Nat) (s : State) : (lessRem c s).limitBits = s.limitBits := rfl

@[simp] theorem lessRem_pv (c : Nat) (s : State) : (lessRem c s).pv = s.pv := rfl

/-! ## `rewind` -/

@[simp] theorem rewind_status (s : State) :
    (rewind s).status = s.status := rfl

@[simp] theorem rewind_cfg (s : State) :
    (rewind s).cfg = s.cfg := rfl

@[simp] theorem rewind_blkw (s : State) :
    (rewind s).blkw = s.blkw := rfl

@[simp] theorem rewind_blkc (s : State) :
    (rewind s).blkc = s.blkc := rfl

@[simp] theorem rewind_limit (s : State) :
    (rewind s).limit = s.limit := rfl

@[simp] theorem rewind_elim (s : State) :
    (rewind s).elim = s.elim := rfl

@[simp] theorem rewind_bitpos (s : State) :
    (rewind s).bitpos = 0 := rfl

@[simp] theorem rewind_prev (s : State) :
    (rewind s).prev = s.prev := rfl

@[simp] theorem rewind_eidx (s : State) :
    (rewind s).eidx = 0 := rfl

@[simp] theorem rewind_val (s : State) :
    (rewind s).val = s.val := rfl

@[simp] theorem rewind_width (s : State) :
    (rewind s).width = s.width := rfl

@[simp] theorem rewind_total (s : State) :
    (rewind s).total = s.total := rfl

@[simp] theorem rewind_blk (s : State) :
    (rewind s).blk = 0 := rfl

@[simp] theorem rewind_bm (s : State) :
    (rewind s).bm = s.bm := rfl

@[simp] theorem rewind_em (s : State) :
    (rewind s).em = s.em := rfl

@[simp] theorem rewind_acc (s : State) :
    (rewind s).acc = s.acc := rfl

@[simp] theorem rewind_rem (s : State) :
    (rewind s).rem = s.rem := rfl

@[simp] theorem rewind_running (s : State) :
    (rewind s).running = s.running := rfl

@[simp] theorem rewind_hostQueue (s : State) :
    (rewind s).hostQueue = s.hostQueue := rfl

@[simp] theorem rewind_replies (s : State) :
    (rewind s).replies = s.replies := rfl

@[simp] theorem rewind_freeDraws (s : State) :
    (rewind s).freeDraws = s.freeDraws := rfl

@[simp] theorem rewind_w (s : State) : (rewind s).w = s.w := rfl

@[simp] theorem rewind_sw (s : State) : (rewind s).sw = s.sw := rfl

@[simp] theorem rewind_ctx (s : State) : (rewind s).ctx = s.ctx := rfl

@[simp] theorem rewind_runLength (s : State) : (rewind s).runLength = s.runLength := rfl

@[simp] theorem rewind_limitBits (s : State) : (rewind s).limitBits = s.limitBits := rfl

@[simp] theorem rewind_pv (s : State) : (rewind s).pv = s.pv := rfl

/-! ## `countBlock` -/

@[simp] theorem countBlock_status (s : State) :
    (countBlock s).status = s.status := rfl

@[simp] theorem countBlock_cfg (s : State) :
    (countBlock s).cfg = s.cfg := rfl

@[simp] theorem countBlock_blkw (s : State) :
    (countBlock s).blkw = s.blkw := rfl

@[simp] theorem countBlock_blkc (s : State) :
    (countBlock s).blkc = s.blkc := rfl

@[simp] theorem countBlock_limit (s : State) :
    (countBlock s).limit = s.limit := rfl

@[simp] theorem countBlock_elim (s : State) :
    (countBlock s).elim = s.elim := rfl

@[simp] theorem countBlock_bitpos (s : State) :
    (countBlock s).bitpos = s.bitpos := rfl

@[simp] theorem countBlock_prev (s : State) :
    (countBlock s).prev = s.prev := rfl

@[simp] theorem countBlock_eidx (s : State) :
    (countBlock s).eidx = s.eidx := rfl

@[simp] theorem countBlock_val (s : State) :
    (countBlock s).val = s.val := rfl

@[simp] theorem countBlock_width (s : State) :
    (countBlock s).width = s.width := rfl

@[simp] theorem countBlock_total (s : State) :
    (countBlock s).total = s.total := rfl

@[simp] theorem countBlock_blk (s : State) :
    (countBlock s).blk = s.blk + 1 := rfl

@[simp] theorem countBlock_bm (s : State) :
    (countBlock s).bm = s.bm := rfl

@[simp] theorem countBlock_em (s : State) :
    (countBlock s).em = s.em := rfl

@[simp] theorem countBlock_acc (s : State) :
    (countBlock s).acc = s.acc := rfl

@[simp] theorem countBlock_rem (s : State) :
    (countBlock s).rem = s.rem := rfl

@[simp] theorem countBlock_running (s : State) :
    (countBlock s).running = s.running := rfl

@[simp] theorem countBlock_hostQueue (s : State) :
    (countBlock s).hostQueue = s.hostQueue := rfl

@[simp] theorem countBlock_replies (s : State) :
    (countBlock s).replies = s.replies := rfl

@[simp] theorem countBlock_freeDraws (s : State) :
    (countBlock s).freeDraws = s.freeDraws := rfl

@[simp] theorem countBlock_w (s : State) : (countBlock s).w = s.w := rfl

@[simp] theorem countBlock_sw (s : State) : (countBlock s).sw = s.sw := rfl

@[simp] theorem countBlock_ctx (s : State) : (countBlock s).ctx = s.ctx := rfl

@[simp] theorem countBlock_runLength (s : State) : (countBlock s).runLength = s.runLength := rfl

@[simp] theorem countBlock_limitBits (s : State) : (countBlock s).limitBits = s.limitBits := rfl

@[simp] theorem countBlock_pv (s : State) : (countBlock s).pv = s.pv := rfl

/-! ## `start` -/

@[simp] theorem start_status (i : Instr) (s : State) :
    (start i s).status = { s.status with busy := true } := rfl

@[simp] theorem start_cfg (i : Instr) (s : State) :
    (start i s).cfg = s.cfg := rfl

@[simp] theorem start_blkw (i : Instr) (s : State) :
    (start i s).blkw = s.blkw := rfl

@[simp] theorem start_blkc (i : Instr) (s : State) :
    (start i s).blkc = s.blkc := rfl

@[simp] theorem start_limit (i : Instr) (s : State) :
    (start i s).limit = s.limit := rfl

@[simp] theorem start_elim (i : Instr) (s : State) :
    (start i s).elim = s.elim := rfl

@[simp] theorem start_bitpos (i : Instr) (s : State) :
    (start i s).bitpos = s.bitpos := rfl

@[simp] theorem start_prev (i : Instr) (s : State) :
    (start i s).prev = s.prev := rfl

@[simp] theorem start_eidx (i : Instr) (s : State) :
    (start i s).eidx = s.eidx := rfl

@[simp] theorem start_val (i : Instr) (s : State) :
    (start i s).val = s.val := rfl

@[simp] theorem start_width (i : Instr) (s : State) :
    (start i s).width = s.width := rfl

@[simp] theorem start_total (i : Instr) (s : State) :
    (start i s).total = s.total := rfl

@[simp] theorem start_blk (i : Instr) (s : State) :
    (start i s).blk = s.blk := rfl

@[simp] theorem start_bm (i : Instr) (s : State) :
    (start i s).bm = s.bm := rfl

@[simp] theorem start_em (i : Instr) (s : State) :
    (start i s).em = s.em := rfl

@[simp] theorem start_acc (i : Instr) (s : State) :
    (start i s).acc = s.acc := rfl

@[simp] theorem start_rem (i : Instr) (s : State) :
    (start i s).rem = s.rem := rfl

@[simp] theorem start_running (i : Instr) (s : State) :
    (start i s).running = some i := rfl

@[simp] theorem start_hostQueue (i : Instr) (s : State) :
    (start i s).hostQueue = s.hostQueue := rfl

@[simp] theorem start_replies (i : Instr) (s : State) :
    (start i s).replies = s.replies := rfl

@[simp] theorem start_freeDraws (i : Instr) (s : State) :
    (start i s).freeDraws = s.freeDraws := rfl

@[simp] theorem start_w (i : Instr) (s : State) : (start i s).w = s.w := rfl

@[simp] theorem start_sw (i : Instr) (s : State) : (start i s).sw = s.sw := rfl

@[simp] theorem start_ctx (i : Instr) (s : State) : (start i s).ctx = s.ctx := rfl

@[simp] theorem start_runLength (i : Instr) (s : State) : (start i s).runLength = s.runLength := rfl

@[simp] theorem start_limitBits (i : Instr) (s : State) : (start i s).limitBits = s.limitBits := rfl

@[simp] theorem start_pv (i : Instr) (s : State) : (start i s).pv = s.pv := rfl

/-! ## `complete` -/

@[simp] theorem complete_status (s : State) :
    (complete s).status = s.status.completed := rfl

@[simp] theorem complete_cfg (s : State) :
    (complete s).cfg = s.cfg := rfl

@[simp] theorem complete_blkw (s : State) :
    (complete s).blkw = s.blkw := rfl

@[simp] theorem complete_blkc (s : State) :
    (complete s).blkc = s.blkc := rfl

@[simp] theorem complete_limit (s : State) :
    (complete s).limit = s.limit := rfl

@[simp] theorem complete_elim (s : State) :
    (complete s).elim = s.elim := rfl

@[simp] theorem complete_bitpos (s : State) :
    (complete s).bitpos = s.bitpos := rfl

@[simp] theorem complete_prev (s : State) :
    (complete s).prev = s.prev := rfl

@[simp] theorem complete_eidx (s : State) :
    (complete s).eidx = s.eidx := rfl

@[simp] theorem complete_val (s : State) :
    (complete s).val = s.val := rfl

@[simp] theorem complete_width (s : State) :
    (complete s).width = s.width := rfl

@[simp] theorem complete_total (s : State) :
    (complete s).total = s.total := rfl

@[simp] theorem complete_blk (s : State) :
    (complete s).blk = s.blk := rfl

@[simp] theorem complete_bm (s : State) :
    (complete s).bm = s.bm := rfl

@[simp] theorem complete_em (s : State) :
    (complete s).em = s.em := rfl

@[simp] theorem complete_acc (s : State) :
    (complete s).acc = 0 := rfl

@[simp] theorem complete_rem (s : State) :
    (complete s).rem = 0 := rfl

@[simp] theorem complete_running (s : State) :
    (complete s).running = none := rfl

@[simp] theorem complete_hostQueue (s : State) :
    (complete s).hostQueue = s.hostQueue := rfl

@[simp] theorem complete_replies (s : State) :
    (complete s).replies = s.replies := rfl

@[simp] theorem complete_freeDraws (s : State) :
    (complete s).freeDraws = s.freeDraws := rfl

@[simp] theorem complete_w (s : State) : (complete s).w = s.w := rfl

@[simp] theorem complete_sw (s : State) : (complete s).sw = s.sw := rfl

@[simp] theorem complete_ctx (s : State) : (complete s).ctx = s.ctx := rfl

@[simp] theorem complete_runLength (s : State) : (complete s).runLength = s.runLength := rfl

@[simp] theorem complete_limitBits (s : State) : (complete s).limitBits = s.limitBits := rfl

@[simp] theorem complete_pv (s : State) : (complete s).pv = s.pv := rfl

/-! ## `takeFault` -/

@[simp] theorem takeFault_status (c : Cause) (s : State) :
    (takeFault c s).status = s.status.faulted c := rfl

@[simp] theorem takeFault_cfg (c : Cause) (s : State) :
    (takeFault c s).cfg = s.cfg := rfl

@[simp] theorem takeFault_blkw (c : Cause) (s : State) :
    (takeFault c s).blkw = s.blkw := rfl

@[simp] theorem takeFault_blkc (c : Cause) (s : State) :
    (takeFault c s).blkc = s.blkc := rfl

@[simp] theorem takeFault_limit (c : Cause) (s : State) :
    (takeFault c s).limit = s.limit := rfl

@[simp] theorem takeFault_elim (c : Cause) (s : State) :
    (takeFault c s).elim = s.elim := rfl

@[simp] theorem takeFault_bitpos (c : Cause) (s : State) :
    (takeFault c s).bitpos = s.bitpos := rfl

@[simp] theorem takeFault_prev (c : Cause) (s : State) :
    (takeFault c s).prev = s.prev := rfl

@[simp] theorem takeFault_eidx (c : Cause) (s : State) :
    (takeFault c s).eidx = s.eidx := rfl

@[simp] theorem takeFault_val (c : Cause) (s : State) :
    (takeFault c s).val = s.val := rfl

@[simp] theorem takeFault_width (c : Cause) (s : State) :
    (takeFault c s).width = s.width := rfl

@[simp] theorem takeFault_total (c : Cause) (s : State) :
    (takeFault c s).total = s.total := rfl

@[simp] theorem takeFault_blk (c : Cause) (s : State) :
    (takeFault c s).blk = s.blk := rfl

@[simp] theorem takeFault_bm (c : Cause) (s : State) :
    (takeFault c s).bm = s.bm := rfl

@[simp] theorem takeFault_em (c : Cause) (s : State) :
    (takeFault c s).em = s.em := rfl

@[simp] theorem takeFault_acc (c : Cause) (s : State) :
    (takeFault c s).acc = 0 := rfl

@[simp] theorem takeFault_rem (c : Cause) (s : State) :
    (takeFault c s).rem = 0 := rfl

@[simp] theorem takeFault_running (c : Cause) (s : State) :
    (takeFault c s).running = none := rfl

@[simp] theorem takeFault_hostQueue (c : Cause) (s : State) :
    (takeFault c s).hostQueue = s.hostQueue := rfl

@[simp] theorem takeFault_replies (c : Cause) (s : State) :
    (takeFault c s).replies = s.replies := rfl

@[simp] theorem takeFault_freeDraws (c : Cause) (s : State) :
    (takeFault c s).freeDraws = s.freeDraws := rfl

@[simp] theorem takeFault_w (c : Cause) (s : State) : (takeFault c s).w = s.w := rfl

@[simp] theorem takeFault_sw (c : Cause) (s : State) : (takeFault c s).sw = s.sw := rfl

@[simp] theorem takeFault_ctx (c : Cause) (s : State) : (takeFault c s).ctx = s.ctx := rfl

@[simp] theorem takeFault_runLength (c : Cause) (s : State) : (takeFault c s).runLength = s.runLength := rfl

@[simp] theorem takeFault_limitBits (c : Cause) (s : State) : (takeFault c s).limitBits = s.limitBits := rfl

@[simp] theorem takeFault_pv (c : Cause) (s : State) : (takeFault c s).pv = s.pv := rfl

/-! ## `returnFromFault` -/

@[simp] theorem returnFromFault_status (s : State) :
    (returnFromFault s).status = s.status.cleared := rfl

@[simp] theorem returnFromFault_cfg (s : State) :
    (returnFromFault s).cfg = s.cfg := rfl

@[simp] theorem returnFromFault_blkw (s : State) :
    (returnFromFault s).blkw = s.blkw := rfl

@[simp] theorem returnFromFault_blkc (s : State) :
    (returnFromFault s).blkc = s.blkc := rfl

@[simp] theorem returnFromFault_limit (s : State) :
    (returnFromFault s).limit = s.limit := rfl

@[simp] theorem returnFromFault_elim (s : State) :
    (returnFromFault s).elim = s.elim := rfl

@[simp] theorem returnFromFault_bitpos (s : State) :
    (returnFromFault s).bitpos = s.bitpos := rfl

@[simp] theorem returnFromFault_prev (s : State) :
    (returnFromFault s).prev = s.prev := rfl

@[simp] theorem returnFromFault_eidx (s : State) :
    (returnFromFault s).eidx = s.eidx := rfl

@[simp] theorem returnFromFault_val (s : State) :
    (returnFromFault s).val = s.val := rfl

@[simp] theorem returnFromFault_width (s : State) :
    (returnFromFault s).width = s.width := rfl

@[simp] theorem returnFromFault_total (s : State) :
    (returnFromFault s).total = s.total := rfl

@[simp] theorem returnFromFault_blk (s : State) :
    (returnFromFault s).blk = s.blk := rfl

@[simp] theorem returnFromFault_bm (s : State) :
    (returnFromFault s).bm = s.bm := rfl

@[simp] theorem returnFromFault_em (s : State) :
    (returnFromFault s).em = s.em := rfl

@[simp] theorem returnFromFault_acc (s : State) :
    (returnFromFault s).acc = s.acc := rfl

@[simp] theorem returnFromFault_rem (s : State) :
    (returnFromFault s).rem = s.rem := rfl

@[simp] theorem returnFromFault_running (s : State) :
    (returnFromFault s).running = s.running := rfl

@[simp] theorem returnFromFault_hostQueue (s : State) :
    (returnFromFault s).hostQueue = s.hostQueue := rfl

@[simp] theorem returnFromFault_replies (s : State) :
    (returnFromFault s).replies = s.replies := rfl

@[simp] theorem returnFromFault_freeDraws (s : State) :
    (returnFromFault s).freeDraws = s.freeDraws := rfl

@[simp] theorem returnFromFault_w (s : State) : (returnFromFault s).w = s.w := rfl

@[simp] theorem returnFromFault_sw (s : State) : (returnFromFault s).sw = s.sw := rfl

@[simp] theorem returnFromFault_ctx (s : State) : (returnFromFault s).ctx = s.ctx := rfl

@[simp] theorem returnFromFault_runLength (s : State) : (returnFromFault s).runLength = s.runLength := rfl

@[simp] theorem returnFromFault_limitBits (s : State) : (returnFromFault s).limitBits = s.limitBits := rfl

@[simp] theorem returnFromFault_pv (s : State) : (returnFromFault s).pv = s.pv := rfl

/-! ## The state after reset, and the two ways a command ends -/

@[simp] theorem complete_start (i : Instr) (s : State) : complete (start i s) = complete s := rfl

@[simp] theorem takeFault_start (c : Cause) (i : Instr) (s : State) :
    takeFault c (start i s) = takeFault c s := rfl

end Sys2Proof.Machine
end

