-- ==== Sys2Proof/Laws/Res.lean ====
section
/-! SUPPORT. How operations combine, and how a command runs: the lemmas that later proofs cite instead of
unfolding `andThen`, `times`, `each`, `runCommand`, `runItem` and `faultState`. -/

namespace Sys2Proof.Machine

variable {α β : Type}

/-! ## Combining -/

@[simp] theorem Res.andThen_ok (a : α) (s : State) (f : α → State → Res β) :
    (Res.ok a s).andThen f = f a s := rfl

@[simp] theorem Res.andThen_raise (c : Cause) (s : State) (f : α → State → Res β) :
    (Res.raise c s : Res α).andThen f = .raise c s := rfl

theorem Res.andThen_assoc {γ : Type} (r : Res α) (f : α → State → Res β) (g : β → State → Res γ) :
    (r.andThen f).andThen g = r.andThen fun a s => (f a s).andThen g := by
  cases r <;> rfl

theorem Res.andThen_eq_ok {r : Res α} {f : α → State → Res β} {b : β} {t : State} :
    r.andThen f = .ok b t ↔ ∃ a s, r = .ok a s ∧ f a s = .ok b t := by
  cases r <;> simp

theorem Res.andThen_eq_raise {r : Res α} {f : α → State → Res β} {c : Cause} {t : State} :
    r.andThen f = .raise c t ↔ r = .raise c t ∨ ∃ a s, r = .ok a s ∧ f a s = .raise c t := by
  cases r <;> simp

@[simp] theorem Res.times_zero (f : State → Res Unit) (s : State) :
    Res.times f 0 s = .ok () s := rfl

theorem Res.times_succ (f : State → Res Unit) (n : Nat) (s : State) :
    Res.times f (n + 1) s = (f s).andThen fun _ s => Res.times f n s := rfl

@[simp] theorem Res.each_nil (f : α → State → Res Unit) (s : State) :
    Res.each f [] s = .ok () s := rfl

theorem Res.each_cons (f : α → State → Res Unit) (x : α) (xs : List α) (s : State) :
    Res.each f (x :: xs) s = (f x s).andThen fun _ s => Res.each f xs s := rfl

/-! ## Where an operation ends -/

/-- The state an operation ends in, whether it raises or not. -/
def Res.state : Res α → State
  | .ok _ s => s
  | .raise _ s => s

@[simp] theorem Res.state_ok (a : α) (s : State) : (Res.ok a s).state = s := rfl

@[simp] theorem Res.state_raise (c : Cause) (s : State) : (Res.raise c s : Res α).state = s := rfl

/-- If every part of a sequence keeps a transitive relation to its start, so does the sequence. -/
theorem Res.andThen_rel {R : State → State → Prop} (trans : ∀ s t u, R s t → R t u → R s u)
    {r : Res α} {f : α → State → Res β} {s : State} (h : R s r.state)
    (hf : ∀ a t, r = .ok a t → R t (f a t).state) : R s (r.andThen f).state := by
  cases r with
  | ok a t => exact trans _ _ _ h (hf a t rfl)
  | raise c t => exact h

theorem Res.times_rel {R : State → State → Prop} (refl : ∀ s, R s s)
    (trans : ∀ s t u, R s t → R t u → R s u) {f : State → Res Unit} (hf : ∀ s, R s (f s).state)
    (n : Nat) (s : State) : R s (Res.times f n s).state := by
  induction n generalizing s with
  | zero => exact refl s
  | succ n ih => exact Res.andThen_rel trans (hf s) fun _ t _ => ih t

theorem Res.each_rel {R : State → State → Prop} (refl : ∀ s, R s s)
    (trans : ∀ s t u, R s t → R t u → R s u) {f : α → State → Res Unit}
    (hf : ∀ x s, R s (f x s).state) (xs : List α) (s : State) : R s (Res.each f xs s).state := by
  induction xs generalizing s with
  | nil => exact refl s
  | cons x xs ih => exact Res.andThen_rel trans (hf x s) fun _ t _ => ih t

/-! ## Running a command -/

variable {i : Instr} {u : Option Unspec} {check : State → Option Cause} {body : State → Res Unit}
  {s r : State}

/-- A command is ignored while one runs or a fault is recorded (R38, R228). -/
theorem runCommand_ignored (h : accepts s = false) : runCommand i u body s = .next s := by
  simp [runCommand, h]

/-- A fault of the opening checks is precise (R227 (b)). -/
theorem runCommand_check {c : Cause} (ha : accepts s = true) (hc : openingCheck i s = some c) :
    runCommand i u body s = .next (takeFault c s) := by
  simp [runCommand, ha, hc]

theorem runCommand_ok (ha : accepts s = true) (hc : openingCheck i s = none)
    (hb : body (start i s) = .ok () r) : runCommand i u body s = .next (complete r) := by
  simp [runCommand, ha, hc, hb]

theorem runCommand_raise {c : Cause} (ha : accepts s = true) (hc : openingCheck i s = none)
    (hb : body (start i s) = .raise c r) :
    runCommand i u body s = .next (faultState u c s r) := by
  simp [runCommand, ha, hc, hb]

/-- All a command can do: it is ignored, or its opening checks fault, or its body completes or
raises. -/
theorem runCommand_cases {t : State} (h : runCommand i u body s = .next t) :
    (accepts s = false ∧ t = s) ∨
    (accepts s = true ∧ ∃ c, openingCheck i s = some c ∧ t = takeFault c s) ∨
    (accepts s = true ∧ openingCheck i s = none ∧ ∃ r, body (start i s) = .ok () r ∧ t = complete r) ∨
    (accepts s = true ∧ openingCheck i s = none ∧
      ∃ c r, body (start i s) = .raise c r ∧ t = faultState u c s r) := by
  unfold runCommand at h
  split at h
  · split at h
    · cases h; simp_all
    · split at h <;> cases h <;> simp_all
  · cases h; simp_all

/-- A command always answers a next state. -/
theorem runCommand_next (i : Instr) (u : Option Unspec) (body : State → Res Unit) (s : State) :
    ∃ t, runCommand i u body s = .next t := by
  unfold runCommand
  split
  · split
    · exact ⟨_, rfl⟩
    · split <;> exact ⟨_, rfl⟩
  · exact ⟨_, rfl⟩

theorem runItem_ignored (h : s.status.fault = true) : runItem u check body s = .next s := by
  simp [runItem, h]

theorem runItem_check {c : Cause} (hf : s.status.fault = false) (hc : check s = some c) :
    runItem u check body s = .next (takeFault c s) := by
  simp [runItem, hf, hc]

theorem runItem_ok (hf : s.status.fault = false) (hc : check s = none)
    (hb : body s = .ok () r) : runItem u check body s = .next r := by
  simp [runItem, hf, hc, hb]

theorem runItem_raise {c : Cause} (hf : s.status.fault = false) (hc : check s = none)
    (hb : body s = .raise c r) : runItem u check body s = .next (faultState u c s r) := by
  simp [runItem, hf, hc, hb]

/-- All a stream item can do. -/
theorem runItem_cases {t : State} (h : runItem u check body s = .next t) :
    (s.status.fault = true ∧ t = s) ∨
    (s.status.fault = false ∧ ∃ c, check s = some c ∧ t = takeFault c s) ∨
    (s.status.fault = false ∧ check s = none ∧ body s = .ok () t) ∨
    (s.status.fault = false ∧ check s = none ∧
      ∃ c r, body s = .raise c r ∧ t = faultState u c s r) := by
  unfold runItem at h
  split at h
  · cases h; simp_all
  · split at h
    · cases h; simp_all
    · split at h <;> cases h <;> simp_all

/-- A stream item always answers a next state. -/
theorem runItem_next (u : Option Unspec) (check : State → Option Cause)
    (body : State → Res Unit) (s : State) : ∃ t, runItem u check body s = .next t := by
  unfold runItem
  split
  · exact ⟨_, rfl⟩
  · split
    · exact ⟨_, rfl⟩
    · split <;> exact ⟨_, rfl⟩

/-! ## After a fault -/

/-- A precise fault changes nothing but STATUS (R227 (b)). -/
@[simp] theorem faultState_precise (c : Cause) (s r : State) :
    faultState none c s r = takeFault c s := rfl

/-- An imprecise fault leaves free values (R227 (d)). -/
theorem faultState_imprecise (u : Unspec) {c : Cause} (h : c ≠ .sizeMismatch) (s r : State) :
    faultState (some u) c s r = takeFault c (unspecify u s r) := by
  simp [faultState, h]

/-- SizeMismatch leaves what the body reached (R227 (e)). -/
theorem faultState_sizeMismatch (u : Unspec) (s r : State) :
    faultState (some u) .sizeMismatch s r = takeFault .sizeMismatch r := by
  simp [faultState]

/-- What no fault makes unspecified (R227 (a)). -/
theorem unspecify_kept (u : Unspec) (s r : State) :
    (unspecify u s r).status = s.status ∧ (unspecify u s r).blkw = s.blkw ∧
    (unspecify u s r).blkc = s.blkc ∧ (unspecify u s r).limit = s.limit ∧
    (unspecify u s r).elim = s.elim ∧ (unspecify u s r).width = s.width ∧
    (unspecify u s r).acc = s.acc ∧ (unspecify u s r).rem = s.rem ∧
    (unspecify u s r).running = s.running ∧
    (unspecify u s r).hostQueue = s.hostQueue ∧ (unspecify u s r).replies = s.replies ∧
    (unspecify u s r).freeDraws = s.freeDraws + 1 :=
  ⟨rfl, rfl, rfl, rfl, rfl, rfl, rfl, rfl, rfl, rfl, rfl, rfl⟩

end Sys2Proof.Machine
end

