-- ==== Sys2Proof/Laws/Checks.lean ====
section
/-! SUPPORT. When the opening checks pass (R142, R182, R183, R185, R223), and when a command is
accepted. -/

namespace Sys2Proof.Machine

variable {s : State}

/-- An idle engine without a fault starts a command (R38, R228). -/
theorem accepts_of_ready (h : s.ready) : accepts s = true := by
  simp [accepts, h.1, h.2]

theorem ready_of_accepts (h : accepts s = true) : s.ready := by
  simpa [accepts, State.ready] using h

theorem checkWidth_none (h : s.width.toNat ≤ 64) : checkWidth s = none :=
  if_neg (by simpa using h)

theorem checkWidth_bad (h : 64 < s.width.toNat) : checkWidth s = some .badWidth :=
  if_pos h

/-- R142 passes exactly where CFG is legal. -/
theorem checkCodec_none_iff : checkCodec s = none ↔ s.codecLegal := by
  unfold checkCodec State.codecLegal
  split
  · simp_all
  · split <;> simp_all

theorem checkGeometry_none_iff : checkGeometry s = none ↔ s.geometryLegal := by
  unfold checkGeometry State.geometryLegal
  split
  · rename_i h
    simp only [reduceCtorEq, false_iff, not_and]
    intro h1 h2
    rcases h with h | h
    · exact absurd h h1
    · omega
  · rename_i h
    rw [not_or] at h
    split
    · simp only [reduceCtorEq, false_iff, not_and]
      omega
    · simp only [true_iff]
      exact ⟨h.1, by omega, by omega⟩

theorem or_eq_none {a b : Option Cause} : a.or b = none ↔ a = none ∧ b = none := by
  cases a <;> simp

/-- `ValidateEncode()` passes (R182). -/
theorem checkEncode_none_iff : checkEncode s = none ↔ s.codecLegal ∧ s.geometryLegal := by
  rw [checkEncode, or_eq_none, checkCodec_none_iff, checkGeometry_none_iff]

/-- `ValidateDecodeHost()` passes (R183). -/
theorem checkDecode_none_iff :
    checkDecode s = none ↔ typeReserved s.cfg.typ = false ∧ s.geometryLegal := by
  rw [checkDecode, ← checkGeometry_none_iff]
  split <;> simp_all

/-- `ValidateBlock()` passes (R185). -/
theorem checkBlock_none_iff : checkBlock s = none ↔ s.codecLegal ∧ s.blkw ≠ 0 ∧
    s.eidx.toNat + s.blkw.toNat ≤ s.elim.toNat ∧ s.bitpos.toNat % 8 = 0 := by
  rw [checkBlock, or_eq_none, checkCodec_none_iff]
  refine and_congr_right fun _ => ?_
  split
  · simp_all
  · split
    · simp only [reduceCtorEq, false_iff, not_and]; omega
    · split
      · simp only [reduceCtorEq, false_iff, not_and]; omega
      · simp only [true_iff]
        exact ⟨‹_›, by omega, by omega⟩

/-- The checks of the row commands pass (R163, R166). -/
theorem checkRow_none_iff : checkRow s = none ↔ s.codecLegal ∧ s.blkw ≠ 0 ∧
    s.eidx.toNat + (s.blkw.toNat - 1) ≤ s.elim.toNat := by
  rw [checkRow, or_eq_none, checkCodec_none_iff]
  refine and_congr_right fun _ => ?_
  split
  · simp_all
  · split
    · simp only [reduceCtorEq, false_iff, not_and]; omega
    · simp only [true_iff]
      exact ⟨‹_›, by omega⟩

theorem checkRowItem_none_iff : checkRowItem s = none ↔ s.codecLegal ∧
    s.eidx.toNat + s.rem.toNat ≤ s.elim.toNat := by
  rw [checkRowItem, or_eq_none, checkCodec_none_iff]
  refine and_congr_right fun _ => ?_
  split <;> simp <;> omega

end Sys2Proof.Machine
end

