-- ==== Sys2Proof/Laws/Arith.lean ====
section
/-! SUPPORT. The integer functions of 00_scope.md R9 to R11: `zig` and `unzig` are inverse, a slice and a
quotient make up a difference, `sext` is the identity on values that fit. -/

namespace Sys2Proof.Machine

/-! ## Two's complement -/

theorem zext_eq_emod (n : Nat) (v : Int) : (zext n v : Int) = v % 2 ^ n := by
  have h : (0 : Int) < ((2 ^ n : Nat) : Int) := by exact_mod_cast Nat.two_pow_pos n
  rw [zext, Int.toNat_of_nonneg (Int.emod_nonneg _ (ne_of_gt h))]
  norm_cast

theorem zext_lt (n : Nat) (v : Int) : zext n v < 2 ^ n := by
  have h : (0 : Int) < 2 ^ n := by positivity
  have := Int.emod_lt_of_pos v h
  have e := zext_eq_emod n v
  have : (zext n v : Int) < 2 ^ n := by omega
  exact_mod_cast this

theorem zext_natCast (n v : Nat) : zext n v = v % 2 ^ n := by
  have e := zext_eq_emod n v
  exact_mod_cast e

theorem zext_of_lt {n v : Nat} (h : v < 2 ^ n) : zext n v = v := by
  rw [zext_natCast, Nat.mod_eq_of_lt h]

/-- `sext` is the balanced remainder modulo `2^n`. -/
theorem sext_eq_bmod (n : Nat) (v : Int) : sext (n + 1) v = v.bmod (2 ^ (n + 1)) := by
  have h2 : (2 ^ (n + 1) : Nat) = 2 * 2 ^ n := by rw [pow_succ, Nat.mul_comm]
  have hd : ((2 ^ (n + 1) : Nat) + 1) / 2 = 2 ^ n := by omega
  simp only [sext, Int.bmod, Nat.add_sub_cancel]
  have : (((2 ^ (n + 1) : Nat) : Int) + 1) / 2 = ((2 ^ n : Nat) : Int) := by
    exact_mod_cast hd
  rw [this]

theorem sext_range {n : Nat} (h : 0 < n) (v : Int) :
    -(2 ^ (n - 1) : Nat) ≤ sext n v ∧ sext n v < (2 ^ (n - 1) : Nat) := by
  obtain ⟨k, rfl⟩ : ∃ k, n = k + 1 := ⟨n - 1, by omega⟩
  have h2 : ((2 ^ (k + 1) : Nat) : Int) = 2 * (2 ^ k : Nat) := by push_cast; ring
  have hp : (0 : Int) < (2 ^ k : Nat) := by exact_mod_cast Nat.two_pow_pos k
  have h0 := Int.emod_nonneg v (b := ((2 ^ (k + 1) : Nat) : Int)) (by omega)
  have h1 := Int.emod_lt_of_pos v (b := ((2 ^ (k + 1) : Nat) : Int)) (by omega)
  simp only [sext, Nat.add_sub_cancel]
  split <;> omega

theorem sext_of_range {n : Nat} (h : 0 < n) {v : Int} (hl : -(2 ^ (n - 1) : Nat) ≤ v)
    (hu : v < (2 ^ (n - 1) : Nat)) : sext n v = v := by
  obtain ⟨k, rfl⟩ : ∃ k, n = k + 1 := ⟨n - 1, by omega⟩
  simp only [Nat.add_sub_cancel] at hl hu
  have h2 : ((2 ^ (k + 1) : Nat) : Int) = 2 * (2 ^ k : Nat) := by push_cast; ring
  have hp : (0 : Int) < (2 ^ k : Nat) := by exact_mod_cast Nat.two_pow_pos k
  simp only [sext, Nat.add_sub_cancel]
  by_cases h0 : 0 ≤ v
  · rw [Int.emod_eq_of_lt h0 (by omega), if_pos hu]
  · have hm : v % ((2 ^ (k + 1) : Nat) : Int) = v + (2 ^ (k + 1) : Nat) := by
      rw [← Int.add_mul_emod_self_left v _ 1, Int.mul_one, Int.emod_eq_of_lt (by omega) (by omega)]
    rw [hm, if_neg (by omega)]
    omega

/-- An integer is an `n`-bit signed value exactly when it is in the two's-complement range. -/
theorem isElem_iff {n : Nat} (h : 0 < n) (v : Int) :
    isElem n v ↔ -(2 ^ (n - 1) : Nat) ≤ v ∧ v < (2 ^ (n - 1) : Nat) :=
  ⟨fun e => e ▸ sext_range h v, fun ⟨a, b⟩ => sext_of_range h a b⟩

theorem isElem_sext {n : Nat} (h : 0 < n) (v : Int) : isElem n (sext n v) :=
  (isElem_iff h _).mpr (sext_range h v)

theorem sext_emod (n : Nat) (v : Int) : sext n (v % 2 ^ n) = sext n v := by
  simp only [sext]
  push_cast
  rw [Int.emod_emod_of_dvd _ (dvd_refl _)]

theorem sext_zext (n : Nat) (v : Int) : sext n (zext n v) = sext n v := by
  rw [zext_eq_emod, sext_emod]

theorem zext_sext (n : Nat) (v : Int) : zext n (sext n v) = zext n v := by
  have : (sext n v) % (2 ^ n : Nat) = v % (2 ^ n : Nat) := by
    simp only [sext]
    split
    · rw [Int.emod_emod_of_dvd _ (dvd_refl _)]
    · rw [Int.sub_emod, Int.emod_self, Int.sub_zero, Int.emod_emod_of_dvd _ (dvd_refl _),
        Int.emod_emod_of_dvd _ (dvd_refl _)]
  simp only [zext, this]

/-- The exact difference of two elements has `W + 1` bits (R141). -/
theorem isElem_sub {w : Nat} (h : 0 < w) {x y : Int} (hx : isElem w x) (hy : isElem w y) :
    isElem (w + 1) (x - y) := by
  rw [isElem_iff h] at hx hy
  rw [isElem_iff (by omega), Nat.add_sub_cancel]
  have : ((2 ^ w : Nat) : Int) = 2 * (2 ^ (w - 1) : Nat) := by
    obtain ⟨k, rfl⟩ : ∃ k, w = k + 1 := ⟨w - 1, by omega⟩
    simp only [Nat.add_sub_cancel]; push_cast; ring
  omega

/-! ## Slice, quotient, zig-zag -/

theorem zig_unzig (m : Nat) : zig (unzig m) = m := by
  unfold zig unzig
  split <;> split <;> omega

theorem unzig_zig (q : Int) : unzig (zig q) = q := by
  unfold zig unzig
  split <;> split <;> omega

/-- `d = q * 2^s + lit` (R86). -/
theorem asr_mul_add_zext (s : Nat) (d : Int) : asr d s * (2 ^ s : Nat) + zext s d = d := by
  rw [zext_eq_emod, asr]
  push_cast
  rw [mul_comm]
  exact Int.mul_ediv_add_emod d (2 ^ s)

theorem asr_mul_add {s lit : Nat} (h : lit < 2 ^ s) (q : Int) :
    asr (q * (2 ^ s : Nat) + lit) s = q := by
  have hp : (0 : Int) < (2 ^ s : Nat) := by exact_mod_cast Nat.two_pow_pos s
  rw [asr, Int.add_comm, Int.add_mul_ediv_right _ _ (ne_of_gt hp)]
  have : (lit : Int) / (2 ^ s : Nat) = 0 := by
    rw [Int.ediv_eq_zero_of_lt (by omega) (by exact_mod_cast h)]
  omega

theorem zext_mul_add {s lit : Nat} (h : lit < 2 ^ s) (q : Int) :
    zext s (q * (2 ^ s : Nat) + lit) = lit := by
  have e := zext_eq_emod s (q * (2 ^ s : Nat) + lit)
  push_cast at e
  rw [Int.add_comm, Int.add_mul_emod_self_right] at e
  have hl : (lit : Int) % 2 ^ s = lit := by
    exact_mod_cast Nat.mod_eq_of_lt h
  rw [hl] at e
  push_cast
  rw [Int.add_comm]
  exact_mod_cast e

/-- The unary form of a difference stands for it (R86). -/
theorem unaryDiff_zext (s : Nat) (d : Int) : unaryDiff s (zext s d) (zig (asr d s)) = d := by
  rw [unaryDiff, unzig_zig, asr_mul_add_zext]

theorem asr_unaryDiff {s lit : Nat} (h : lit < 2 ^ s) (m : Nat) :
    zig (asr (unaryDiff s lit m) s) = m := by
  rw [unaryDiff, asr_mul_add h, zig_unzig]

theorem zext_unaryDiff {s lit : Nat} (h : lit < 2 ^ s) (m : Nat) :
    zext s (unaryDiff s lit m) = lit :=
  zext_mul_add h _

/-! ## Widths -/

theorem tagWidth_cases (t : BitVec 3) : tagWidth t = 8 ∨ tagWidth t = 16 ∨ tagWidth t = 32 := by
  unfold tagWidth
  split <;> try split
  all_goals simp

theorem State.w_cases (s : State) : s.w = 8 ∨ s.w = 16 ∨ s.w = 32 :=
  tagWidth_cases _

theorem State.w_pos (s : State) : 0 < s.w := by
  rcases s.w_cases with h | h | h <;> omega

theorem State.w_le (s : State) : s.w ≤ 32 := by
  rcases s.w_cases with h | h | h <;> omega

theorem padBits_eq (o : Nat) : padBits o = (o + 7) / 8 * 8 - o := by
  unfold padBits; omega

theorem padBits_lt (o : Nat) : padBits o < 8 := by
  unfold padBits; omega

end Sys2Proof.Machine
end

