-- ==== Sys2Proof/Laws/Bits.lean ====
section
/-! SUPPORT. Bit strings: how long fields are, what they hold, and that they concatenate. -/

namespace Sys2Proof

@[simp] theorem bitsOf_length (v n : Nat) : (bitsOf v n).length = n := by
  simp [bitsOf]

@[simp] theorem bitsOf_getElem (v n i : Nat) (h : i < (bitsOf v n).length) :
    (bitsOf v n)[i] = v.testBit i := by
  simp [bitsOf]

theorem bitsOf_zero (v : Nat) : bitsOf v 0 = [] := rfl

theorem fieldBits_nil : fieldBits [] = [] := rfl

theorem fieldBits_cons (v n : Nat) (fs : List (Nat × Nat)) :
    fieldBits ((v, n) :: fs) = bitsOf v n ++ fieldBits fs := by
  simp [fieldBits]

/-- Fields laid end to end are as long as their widths together. -/
theorem fieldBits_length (fs : List (Nat × Nat)) :
    (fieldBits fs).length = (fs.map Prod.snd).sum := by
  induction fs with
  | nil => rfl
  | cons f fs ih => simp [fieldBits]

end Sys2Proof
end

