-- ==== Sys2Proof/Laws/Memory.lean ====
section
/-! SUPPORT. The laws of the two memories: read after write, the canonical form, and the bit fields of
the byte memory (20_memory.md R52, R53, R56, R59). -/

namespace Sys2Proof.Machine

/-! ## Cells -/

@[simp] theorem Memory.read_nil {w : Nat} (a : Nat) : Memory.read ([] : Memory w) a = 0#w := rfl

theorem Memory.read_cons {w : Nat} (b : Nat) (x : BitVec w) (m : Memory w) (a : Nat) :
    Memory.read ((b, x) :: m) a = if a = b then x else Memory.read m a := rfl

/-- A canonical memory lists no index below its first one. -/
theorem Memory.read_below {w : Nat} (m : Memory w) (a : Nat) (h : ∀ c ∈ m, a < c.1) :
    Memory.read m a = 0#w := by
  induction m with
  | nil => rfl
  | cons c m ih =>
    obtain ⟨b, x⟩ := c
    have hb : a < b := h (b, x) (by simp)
    rw [Memory.read_cons, if_neg (by omega)]
    exact ih fun c hc => h c (by simp [hc])

theorem Memory.wf_tail {w : Nat} {c : Nat × BitVec w} {m : Memory w} (h : Memory.wf (c :: m)) :
    Memory.wf m :=
  ⟨(List.pairwise_cons.1 h.1).2, fun d hd => h.2 d (by simp [hd])⟩

/-- What a write leaves to be read, on canonical memories. -/
theorem Memory.read_write {w : Nat} {m : Memory w} (h : Memory.wf m) (a : Nat) (v : BitVec w)
    (b : Nat) : Memory.read (Memory.write m a v) b = if b = a then v else Memory.read m b := by
  induction m with
  | nil =>
    by_cases hv : v = 0#w
    · simp [Memory.write, hv]
    · simp [Memory.write, hv, Memory.read_cons]
  | cons c m ih =>
    obtain ⟨k, x⟩ := c
    have hlt : ∀ c ∈ m, k < c.1 := (List.pairwise_cons.1 h.1).1
    have ih := ih (Memory.wf_tail h)
    unfold Memory.write
    rcases lt_trichotomy a k with hak | hak | hak
    · have hbelow : Memory.read ((k, x) :: m) a = 0#w :=
        Memory.read_below _ _ (by
          intro c hc
          rcases List.mem_cons.1 hc with rfl | hc
          · exact hak
          · have := hlt c hc; omega)
      rw [if_pos hak]
      by_cases hv : v = 0#w
      · rw [if_pos hv]
        by_cases hb : b = a
        · rw [if_pos hb, hb, hbelow, hv]
        · rw [if_neg hb]
      · rw [if_neg hv, Memory.read_cons]
    · subst hak
      have hbelow : Memory.read m a = 0#w := Memory.read_below _ _ hlt
      rw [if_neg (by omega), if_pos rfl]
      by_cases hv : v = 0#w
      · rw [if_pos hv, Memory.read_cons]
        by_cases hb : b = a
        · rw [if_pos hb, hb, hbelow, hv]
        · rw [if_neg hb, if_neg hb]
      · rw [if_neg hv, Memory.read_cons, Memory.read_cons]
        by_cases hb : b = a
        · rw [if_pos hb, if_pos hb]
        · rw [if_neg hb, if_neg hb, if_neg hb]
    · rw [if_neg (by omega), if_neg (by omega), Memory.read_cons, Memory.read_cons, ih]
      by_cases hb : b = k
      · rw [if_pos hb, if_pos hb, if_neg (by omega)]
      · rw [if_neg hb, if_neg hb]

/-- Where a write can leave an entry. -/
theorem Memory.mem_write {w : Nat} {m : Memory w} {a : Nat} {v : BitVec w} {c : Nat × BitVec w}
    (h : c ∈ Memory.write m a v) : (c = (a, v) ∧ v ≠ 0#w) ∨ c ∈ m := by
  induction m with
  | nil =>
    by_cases hv : v = 0#w
    · simp [Memory.write, hv] at h
    · simp only [Memory.write, hv, if_false, List.mem_singleton] at h
      exact .inl ⟨h, hv⟩
  | cons d m ih =>
    obtain ⟨k, x⟩ := d
    unfold Memory.write at h
    split at h
    · split at h
      · exact .inr h
      · rename_i hv
        rcases List.mem_cons.1 h with h | h
        · exact .inl ⟨h, hv⟩
        · exact .inr h
    · split at h
      · split at h
        · exact .inr (List.mem_cons_of_mem _ h)
        · rename_i hv
          rcases List.mem_cons.1 h with h | h
          · exact .inl ⟨h, hv⟩
          · exact .inr (List.mem_cons_of_mem _ h)
      · rcases List.mem_cons.1 h with h | h
        · exact .inr (by simp [h])
        · rcases ih h with h | h
          · exact .inl h
          · exact .inr (List.mem_cons_of_mem _ h)

/-- A write keeps the canonical form. -/
theorem Memory.write_wf {w : Nat} {m : Memory w} (h : Memory.wf m) (a : Nat) (v : BitVec w) :
    Memory.wf (Memory.write m a v) := by
  refine ⟨?_, fun c hc => ?_⟩
  · induction m with
    | nil => by_cases hv : v = 0#w <;> simp [Memory.write, hv]
    | cons d m ih =>
      obtain ⟨k, x⟩ := d
      have hlt : ∀ c ∈ m, k < c.1 := (List.pairwise_cons.1 h.1).1
      have hm : m.Pairwise (fun x y => x.1 < y.1) := (List.pairwise_cons.1 h.1).2
      unfold Memory.write
      rcases lt_trichotomy a k with hak | hak | hak
      · rw [if_pos hak]
        split
        · exact h.1
        · refine List.pairwise_cons.2 ⟨fun c hc => ?_, h.1⟩
          rcases List.mem_cons.1 hc with rfl | hc
          · exact hak
          · exact lt_trans hak (hlt c hc)
      · subst hak
        rw [if_neg (by omega), if_pos rfl]
        split
        · exact hm
        · exact List.pairwise_cons.2 ⟨hlt, hm⟩
      · rw [if_neg (by omega), if_neg (by omega)]
        refine List.pairwise_cons.2 ⟨fun c hc => ?_, ih (Memory.wf_tail h)⟩
        rcases Memory.mem_write hc with ⟨rfl, -⟩ | hc
        · exact hak
        · exact hlt c hc
  · rcases Memory.mem_write hc with ⟨rfl, hv⟩ | hc
    · exact hv
    · exact h.2 c hc

/-- Canonical memories that read alike are equal data. -/
theorem Memory.ext_of_read {w : Nat} {m m' : Memory w} (h : Memory.wf m) (h' : Memory.wf m')
    (hr : ∀ a, Memory.read m a = Memory.read m' a) : m = m' := by
  induction m generalizing m' with
  | nil =>
    cases m' with
    | nil => rfl
    | cons c m' =>
      obtain ⟨k, x⟩ := c
      have hx := hr k
      rw [Memory.read_nil, Memory.read_cons, if_pos rfl] at hx
      exact absurd hx.symm (h'.2 (k, x) (by simp))
  | cons c m ih =>
    obtain ⟨k, x⟩ := c
    have hx0 : x ≠ 0#w := h.2 (k, x) (by simp)
    cases m' with
    | nil =>
      have hx := hr k
      rw [Memory.read_nil, Memory.read_cons, if_pos rfl] at hx
      exact absurd hx hx0
    | cons c' m' =>
      obtain ⟨k', x'⟩ := c'
      have hx0' : x' ≠ 0#w := h'.2 (k', x') (by simp)
      have hlt : ∀ c ∈ m, k < c.1 := (List.pairwise_cons.1 h.1).1
      have hlt' : ∀ c ∈ m', k' < c.1 := (List.pairwise_cons.1 h'.1).1
      have hk : k = k' := by
        rcases lt_trichotomy k k' with hk | hk | hk
        · have hx := hr k
          rw [Memory.read_cons, if_pos rfl, Memory.read_cons, if_neg (by omega),
            Memory.read_below m' k fun c hc => lt_trans hk (hlt' c hc)] at hx
          exact absurd hx hx0
        · exact hk
        · have hx := hr k'
          rw [Memory.read_cons, if_neg (by omega), Memory.read_cons, if_pos rfl,
            Memory.read_below m k' fun c hc => lt_trans hk (hlt c hc)] at hx
          exact absurd hx.symm hx0'
      subst hk
      have hx := hr k
      rw [Memory.read_cons, if_pos rfl, Memory.read_cons, if_pos rfl] at hx
      subst hx
      congr 1
      refine ih (Memory.wf_tail h) (Memory.wf_tail h') fun a => ?_
      by_cases ha : a = k
      · rw [ha, Memory.read_below m k hlt, Memory.read_below m' k hlt']
      · have := hr a
        rwa [Memory.read_cons, if_neg ha, Memory.read_cons, if_neg ha] at this

/-! ## Bits -/

theorem byteWithBit_getLsbD (x : Byte) (i j : Nat) (b : Bool) (hi : i < 8) :
    (byteWithBit x i b).getLsbD j = if j = i then b else x.getLsbD j := by
  have h1 : (1#8 <<< i).getLsbD j = decide (j = i) := by
    rw [BitVec.getLsbD_shiftLeft]
    by_cases hj : j < 8
    · by_cases hji : j < i
      · simp [hji]; omega
      · simp [hj, hji, BitVec.getLsbD_one]; omega
    · simp [hj]; omega
  unfold byteWithBit
  by_cases hj : j = i
  · subst hj
    cases b <;> simp [hi]
  · cases b <;> simp [h1, hj]
    intro hx
    exact BitVec.lt_of_getLsbD hx

/-- What a bit write leaves to be read (R52). -/
theorem bitRead_bitWrite {m : Memory 8} (h : Memory.wf m) (o : Nat) (b : Bool) (p : Nat) :
    bitRead (bitWrite m o b) p = if p = o then b else bitRead m p := by
  unfold bitRead bitWrite
  rw [Memory.read_write h]
  by_cases hb : p / 8 = o / 8
  · rw [if_pos hb, byteWithBit_getLsbD _ _ _ _ (Nat.mod_lt _ (by omega)), hb]
    by_cases hm : p % 8 = o % 8
    · rw [if_pos hm, if_pos (by omega)]
    · rw [if_neg hm, if_neg (by omega)]
  · rw [if_neg hb, if_neg (by rintro rfl; exact hb rfl)]

theorem bitWrite_wf {m : Memory 8} (h : Memory.wf m) (o : Nat) (b : Bool) :
    Memory.wf (bitWrite m o b) :=
  Memory.write_wf h _ _

theorem fieldWrite_wf {m : Memory 8} (h : Memory.wf m) (o v n : Nat) :
    Memory.wf (fieldWrite m o v n) := by
  induction n with
  | zero => exact h
  | succ n ih => exact bitWrite_wf ih _ _

/-- A field write stores bit `i` of the value at offset `o + i` and changes no other bit (R53, R59). -/
theorem bitRead_fieldWrite {m : Memory 8} (h : Memory.wf m) (o v n p : Nat) :
    bitRead (fieldWrite m o v n) p =
      if o ≤ p ∧ p < o + n then v.testBit (p - o) else bitRead m p := by
  induction n with
  | zero => rw [if_neg (by omega)]; rfl
  | succ n ih =>
    rw [fieldWrite, bitRead_bitWrite (fieldWrite_wf h o v n), ih]
    by_cases hp : p = o + n
    · rw [if_pos hp, if_pos (by omega), hp, Nat.add_sub_cancel_left]
    · rw [if_neg hp]
      by_cases hq : o ≤ p ∧ p < o + n
      · rw [if_pos hq, if_pos (by omega)]
      · rw [if_neg hq, if_neg (by omega)]

/-- A byte that the field does not reach into is as before. -/
theorem read_fieldWrite_outside {m : Memory 8} (h : Memory.wf m) (o v n a : Nat)
    (ha : 8 * a + 8 ≤ o ∨ o + n ≤ 8 * a) :
    Memory.read (fieldWrite m o v n) a = Memory.read m a := by
  refine BitVec.eq_of_getLsbD_eq fun i hi => ?_
  have hbit := bitRead_fieldWrite h o v n (8 * a + i)
  rw [if_neg (by omega)] at hbit
  have hdiv : (8 * a + i) / 8 = a := by omega
  have hmod : (8 * a + i) % 8 = i := by omega
  simpa [bitRead, hdiv, hmod] using hbit

theorem fieldRead_lt (m : Memory 8) (o n : Nat) : fieldRead m o n < 2 ^ n := by
  induction n with
  | zero => simp [fieldRead]
  | succ n ih =>
    have : (bitRead m (o + n)).toNat ≤ 1 := by cases bitRead m (o + n) <;> simp
    have h2 : (bitRead m (o + n)).toNat * 2 ^ n ≤ 2 ^ n := by
      simpa using Nat.mul_le_mul_right (2 ^ n) this
    rw [fieldRead, pow_succ]
    omega

/-- Bit `i` of a field is the bit at offset `o + i` (R53). -/
theorem testBit_fieldRead (m : Memory 8) (o n i : Nat) :
    (fieldRead m o n).testBit i = (decide (i < n) && bitRead m (o + i)) := by
  induction n with
  | zero => simp [fieldRead]
  | succ n ih =>
    rw [fieldRead]
    have hlt := fieldRead_lt m o n
    rcases lt_trichotomy i n with hi | hi | hi
    · rw [Nat.add_comm, Nat.mul_comm, Nat.testBit_two_pow_mul_add _ hlt, if_pos hi, ih]
      simp [hi, Nat.lt_succ_of_lt hi]
    · subst hi
      rw [Nat.add_comm, Nat.mul_comm, Nat.testBit_two_pow_mul_add _ hlt, if_neg (lt_irrefl _)]
      cases bitRead m (o + i) <;> simp
    · rw [Nat.add_comm, Nat.mul_comm, Nat.testBit_two_pow_mul_add _ hlt, if_neg (by omega)]
      have h1 : ¬ i < n + 1 := by omega
      have h2 : (bitRead m (o + n)).toNat < 2 ^ (i - n) :=
        lt_of_le_of_lt (Bool.toNat_le _) (Nat.one_lt_two_pow (by omega))
      rw [Nat.testBit_lt_two_pow h2]
      simp [h1]

/-- A field read after it was written is the value's low `n` bits (R127). -/
theorem fieldRead_fieldWrite {m : Memory 8} (h : Memory.wf m) (o v n : Nat) :
    fieldRead (fieldWrite m o v n) o n = v % 2 ^ n := by
  refine Nat.eq_of_testBit_eq fun i => ?_
  rw [testBit_fieldRead, Nat.testBit_mod_two_pow, bitRead_fieldWrite h]
  by_cases hi : i < n
  · simp [hi]
  · simp [hi]

/-- Reading depends on the bits of the field alone. -/
theorem fieldRead_congr {m m' : Memory 8} {o n : Nat}
    (h : ∀ i, i < n → bitRead m' (o + i) = bitRead m (o + i)) :
    fieldRead m' o n = fieldRead m o n := by
  refine Nat.eq_of_testBit_eq fun i => ?_
  rw [testBit_fieldRead, testBit_fieldRead]
  by_cases hi : i < n
  · simp [hi, h i hi]
  · simp [hi]

/-! ## Free values -/

theorem freeBytes_wf {m : Memory 8} (h : Memory.wf m) (k lo n : Nat) :
    Memory.wf (freeBytes k m lo n) := by
  induction n with
  | zero => exact h
  | succ n ih => exact Memory.write_wf ih _ _

theorem freeCells_wf {m : Memory 32} (h : Memory.wf m) (k lo n : Nat) :
    Memory.wf (freeCells k m lo n) := by
  induction n with
  | zero => exact h
  | succ n ih => exact Memory.write_wf ih _ _

/-- Inside the range every byte holds its free value, outside nothing changed. -/
theorem read_freeBytes {m : Memory 8} (h : Memory.wf m) (k lo n a : Nat) :
    Memory.read (freeBytes k m lo n) a =
      if lo ≤ a ∧ a < lo + n then Config.freeByte k a else Memory.read m a := by
  induction n with
  | zero => rw [if_neg (by omega)]; rfl
  | succ n ih =>
    rw [freeBytes, Memory.read_write (freeBytes_wf h k lo n), ih]
    by_cases ha : a = lo + n
    · rw [if_pos ha, if_pos (by omega), ha]
    · rw [if_neg ha]
      by_cases hr : lo ≤ a ∧ a < lo + n
      · rw [if_pos hr, if_pos (by omega)]
      · rw [if_neg hr, if_neg (by omega)]

/-- Inside the range every cell holds its free value, outside nothing changed. -/
theorem read_freeCells {m : Memory 32} (h : Memory.wf m) (k lo n a : Nat) :
    Memory.read (freeCells k m lo n) a =
      if lo ≤ a ∧ a < lo + n then Config.freeElem k a else Memory.read m a := by
  induction n with
  | zero => rw [if_neg (by omega)]; rfl
  | succ n ih =>
    rw [freeCells, Memory.read_write (freeCells_wf h k lo n), ih]
    by_cases ha : a = lo + n
    · rw [if_pos ha, if_pos (by omega), ha]
    · rw [if_neg ha]
      by_cases hr : lo ≤ a ∧ a < lo + n
      · rw [if_pos hr, if_pos (by omega)]
      · rw [if_neg hr, if_neg (by omega)]

/-! ## Elements -/

theorem elemWrite_wf {m : Memory 32} (h : Memory.wf m) (i : Nat) (x : Int) :
    Memory.wf (elemWrite m i x) :=
  Memory.write_wf h _ _

end Sys2Proof.Machine
end

