-- ==== Sys2Proof/Laws/Fields.lean ====
section
/-! SUPPORT. What the functions of BitCursor do, said once in terms of bit strings: `Writes` for an
operation that stores bits at the cursor, `Reads` for one that consumes bits there, and how they
combine. -/

namespace Sys2Proof.Machine

/-! ## Bit strings in the byte memory -/

theorem holdsBits_nil (m : Memory 8) (o : Nat) : holdsBits m o [] :=
  fun _ h => absurd h (Nat.not_lt_zero _)

theorem holdsBits_append {m : Memory 8} {o : Nat} {b1 b2 : List Bool} :
    holdsBits m o (b1 ++ b2) ↔ holdsBits m o b1 ∧ holdsBits m (o + b1.length) b2 := by
  constructor
  · intro h
    refine ⟨fun i hi => ?_, fun i hi => ?_⟩
    · have := h i (by simp; omega)
      rw [this, List.getElem_append_left hi]
    · have := h (b1.length + i) (by simp; omega)
      rw [← Nat.add_assoc] at this
      rw [this, List.getElem_append_right (by omega)]
      simp
  · rintro ⟨h1, h2⟩ i hi
    by_cases hl : i < b1.length
    · rw [List.getElem_append_left hl, h1 i hl]
    · rw [List.getElem_append_right (by omega)]
      have := h2 (i - b1.length) (by simp at hi; omega)
      rw [← this]
      congr 1
      omega

/-- Reading the bits of `holdsBits` depends on those bits alone. -/
theorem holdsBits_congr {m m' : Memory 8} {o : Nat} {bits : List Bool}
    (h : ∀ i, i < bits.length → bitRead m' (o + i) = bitRead m (o + i)) (hb : holdsBits m o bits) :
    holdsBits m' o bits :=
  fun i hi => (h i hi).trans (hb i hi)

/-! ### Bits below a bound -/

theorem holdsBits.below {m : Memory 8} {o : Nat} {bits : List Bool} (h : holdsBits m o bits)
    (lim : Nat) : holdsBelow m lim o bits :=
  fun i hi _ => h i hi

theorem holdsBelow.bits {m : Memory 8} {lim o : Nat} {bits : List Bool}
    (h : holdsBelow m lim o bits) (hl : o + bits.length ≤ lim) : holdsBits m o bits :=
  fun i hi => h i hi (by omega)

theorem holdsBelow_append {m : Memory 8} {lim o : Nat} {b1 b2 : List Bool} :
    holdsBelow m lim o (b1 ++ b2) ↔
      holdsBelow m lim o b1 ∧ holdsBelow m lim (o + b1.length) b2 := by
  constructor
  · intro h
    refine ⟨fun i hi hl => ?_, fun i hi hl => ?_⟩
    · rw [h i (by simp; omega) hl, List.getElem_append_left hi]
    · have := h (b1.length + i) (by simp; omega) (by omega)
      rw [← Nat.add_assoc] at this
      rw [this, List.getElem_append_right (by omega)]
      simp
  · rintro ⟨h1, h2⟩ i hi hl
    by_cases hb : i < b1.length
    · rw [List.getElem_append_left hb, h1 i hb hl]
    · rw [List.getElem_append_right (by omega)]
      have := h2 (i - b1.length) (by simp at hi; omega) (by omega)
      rw [← this]
      congr 1
      omega

theorem storesBits_nil (m : Memory 8) (o : Nat) : storesBits m m o [] :=
  ⟨holdsBits_nil m o, fun _ _ => rfl, fun _ _ => rfl⟩

theorem storesBits_append {m m1 m2 : Memory 8} {o : Nat} {b1 b2 : List Bool}
    (h1 : storesBits m m1 o b1) (h2 : storesBits m1 m2 (o + b1.length) b2) :
    storesBits m m2 o (b1 ++ b2) := by
  obtain ⟨hh1, ho1, hr1⟩ := h1
  obtain ⟨hh2, ho2, hr2⟩ := h2
  refine ⟨holdsBits_append.mpr ⟨?_, hh2⟩, fun p hp => ?_, fun a ha => ?_⟩
  · exact holdsBits_congr (fun i hi => ho2 _ (.inl (by omega))) hh1
  · simp only [List.length_append] at hp
    rw [ho2 p (by omega), ho1 p (by omega)]
  · simp only [List.length_append] at ha
    rw [hr2 a (by omega), hr1 a (by omega)]

/-- A field write stores the field and nothing else (R53, R59). -/
theorem fieldWrite_storesBits {m : Memory 8} (h : Memory.wf m) (o v n : Nat) :
    storesBits m (fieldWrite m o v n) o (bitsOf v n) := by
  refine ⟨fun i hi => ?_, fun p hp => ?_, fun a ha => ?_⟩
  · simp only [bitsOf_length] at hi
    rw [bitRead_fieldWrite h, if_pos (by omega), bitsOf_getElem, Nat.add_sub_cancel_left]
  · rw [bitsOf_length] at hp
    rw [bitRead_fieldWrite h, if_neg (by omega)]
  · rw [bitsOf_length] at ha
    exact read_fieldWrite_outside h o v n a ha

/-- A field read is the number its bits stand for (R53). -/
theorem fieldRead_of_holdsBits {m : Memory 8} {o v n : Nat} (h : holdsBits m o (bitsOf v n)) :
    fieldRead m o n = v % 2 ^ n := by
  refine Nat.eq_of_testBit_eq fun i => ?_
  rw [testBit_fieldRead, Nat.testBit_mod_two_pow]
  by_cases hi : i < n
  · have := h i (by simpa using hi)
    rw [bitsOf_getElem] at this
    simp [hi, this]
  · simp [hi]

/-- The bits at an offset are the bits of the field read there. -/
theorem holdsBits_fieldRead (m : Memory 8) (o n : Nat) :
    holdsBits m o (bitsOf (fieldRead m o n) n) := by
  intro i hi
  rw [bitsOf_length] at hi
  rw [bitsOf_getElem, testBit_fieldRead]
  simp [hi]

/-! ## Room at the cursor -/

/-- A field of `n` bits at the cursor is inside the limit (R61). -/
def room (n : Nat) (s : State) : Prop :=
  n = 0 ∨ s.bitpos.toNat + n ≤ s.limitBits

theorem fits_iff {n : Nat} {s : State} : fits n s = true ↔ room n s := by
  simp [fits, room]

theorem limitBits_lt (s : State) : s.limitBits < 2 ^ 36 := by
  have := s.limit.isLt
  unfold State.limitBits
  omega

theorem bitpos_add {s : State} {n : Nat} (h : room n s) :
    (s.bitpos + BitVec.ofNat 64 n).toNat = s.bitpos.toNat + n := by
  have := limitBits_lt s
  have := s.bitpos.isLt
  rw [BitVec.toNat_add, BitVec.toNat_ofNat]
  rcases h with rfl | h <;> omega

theorem moveOn_moveOn (a b : Nat) (s : State) : moveOn b (moveOn a s) = moveOn (a + b) s := by
  simp [moveOn, BitVec.add_assoc, BitVec.ofNat_add]

theorem moveOn_zero (s : State) : moveOn 0 s = s := by
  simp [moveOn]

/-! ## Writing -/

/-- The same registers over another byte memory. -/
def State.setBm (m : Memory 8) (s : State) : State :=
  { s with bm := m }

@[simp] theorem setBm_bm (m : Memory 8) (s : State) : (s.setBm m).bm = m := rfl
@[simp] theorem setBm_status (m : Memory 8) (s : State) : (s.setBm m).status = s.status := rfl
@[simp] theorem setBm_cfg (m : Memory 8) (s : State) : (s.setBm m).cfg = s.cfg := rfl
@[simp] theorem setBm_blkw (m : Memory 8) (s : State) : (s.setBm m).blkw = s.blkw := rfl
@[simp] theorem setBm_blkc (m : Memory 8) (s : State) : (s.setBm m).blkc = s.blkc := rfl
@[simp] theorem setBm_limit (m : Memory 8) (s : State) : (s.setBm m).limit = s.limit := rfl
@[simp] theorem setBm_elim (m : Memory 8) (s : State) : (s.setBm m).elim = s.elim := rfl
@[simp] theorem setBm_bitpos (m : Memory 8) (s : State) : (s.setBm m).bitpos = s.bitpos := rfl
@[simp] theorem setBm_prev (m : Memory 8) (s : State) : (s.setBm m).prev = s.prev := rfl
@[simp] theorem setBm_eidx (m : Memory 8) (s : State) : (s.setBm m).eidx = s.eidx := rfl
@[simp] theorem setBm_val (m : Memory 8) (s : State) : (s.setBm m).val = s.val := rfl
@[simp] theorem setBm_width (m : Memory 8) (s : State) : (s.setBm m).width = s.width := rfl
@[simp] theorem setBm_total (m : Memory 8) (s : State) : (s.setBm m).total = s.total := rfl
@[simp] theorem setBm_blk (m : Memory 8) (s : State) : (s.setBm m).blk = s.blk := rfl
@[simp] theorem setBm_em (m : Memory 8) (s : State) : (s.setBm m).em = s.em := rfl
@[simp] theorem setBm_acc (m : Memory 8) (s : State) : (s.setBm m).acc = s.acc := rfl
@[simp] theorem setBm_rem (m : Memory 8) (s : State) : (s.setBm m).rem = s.rem := rfl
@[simp] theorem setBm_running (m : Memory 8) (s : State) : (s.setBm m).running = s.running := rfl
@[simp] theorem setBm_hostQueue (m : Memory 8) (s : State) : (s.setBm m).hostQueue = s.hostQueue := rfl
@[simp] theorem setBm_replies (m : Memory 8) (s : State) : (s.setBm m).replies = s.replies := rfl
@[simp] theorem setBm_freeDraws (m : Memory 8) (s : State) : (s.setBm m).freeDraws = s.freeDraws := rfl
@[simp] theorem setBm_ctx (m : Memory 8) (s : State) : (s.setBm m).ctx = s.ctx := rfl
@[simp] theorem setBm_sw (m : Memory 8) (s : State) : (s.setBm m).sw = s.sw := rfl
@[simp] theorem setBm_w (m : Memory 8) (s : State) : (s.setBm m).w = s.w := rfl
@[simp] theorem setBm_pv (m : Memory 8) (s : State) : (s.setBm m).pv = s.pv := rfl
@[simp] theorem setBm_runLength (m : Memory 8) (s : State) : (s.setBm m).runLength = s.runLength := rfl
@[simp] theorem setBm_limitBits (m : Memory 8) (s : State) : (s.setBm m).limitBits = s.limitBits := rfl
@[simp] theorem setBm_setBm (m m' : Memory 8) (s : State) : (s.setBm m).setBm m' = s.setBm m' := rfl
@[simp] theorem elemAt_setBm (m : Memory 8) (s : State) (k : Nat) :
    elemAt (s.setBm m) k = elemAt s k := rfl
@[simp] theorem elemsAt_setBm (m : Memory 8) (s : State) (n : Nat) :
    elemsAt (s.setBm m) n = elemsAt s n := rfl
theorem moveOn_setBm (n : Nat) (m : Memory 8) (s : State) :
    moveOn n (s.setBm m) = (moveOn n s).setBm m := rfl
theorem room_setBm {n : Nat} {m : Memory 8} {s : State} : room n (s.setBm m) ↔ room n s := Iff.rfl

/-- `r` is what an operation does in `s` that stores `bits` at the cursor: with room it completes and
leaves `base`, but for the memory, in which exactly these bits were stored; without room it is
OutOfSpace. -/
def Writes (s : State) (r : Res Unit) (bits : List Bool) (base : State) : Prop :=
  (room bits.length s →
    ∃ m, Memory.wf m ∧ storesBits s.bm m s.bitpos.toNat bits ∧ r = .ok () (base.setBm m)) ∧
  (¬room bits.length s → ∃ t, r = .raise .outOfSpace t)

/-- Two operations that write, one after the other. -/
theorem Writes.andThen {s base1 base2 : State} {r : Res Unit} {f : Unit → State → Res Unit}
    {b1 b2 : List Bool} (h1 : Writes s r b1 base1)
    (hp : base1.bitpos = s.bitpos + BitVec.ofNat 64 b1.length) (hl : base1.limit = s.limit)
    (h2 : room b1.length s → ∀ m, Memory.wf m →
      Writes (base1.setBm m) (f () (base1.setBm m)) b2 base2) :
    Writes s (r.andThen f) (b1 ++ b2) base2 := by
  have hlim : base1.limitBits = s.limitBits := by rw [State.limitBits, hl, State.limitBits]
  constructor
  · intro hr
    have hr1 : room b1.length s := by
      rcases hr with h | h
      · left; simp at h; simp [h.1]
      · right; simp at h; omega
    obtain ⟨m, hm, hs, rfl⟩ := h1.1 hr1
    have hpos : base1.bitpos.toNat = s.bitpos.toNat + b1.length := by rw [hp, bitpos_add hr1]
    have hr2 : room b2.length (base1.setBm m) := by
      rcases hr with h | h
      · left; simp at h; simp [h.2]
      · right
        simp only [List.length_append] at h
        show base1.bitpos.toNat + _ ≤ base1.limitBits
        omega
    obtain ⟨m2, hm2, hs2, he⟩ := (h2 hr1 m hm).1 hr2
    refine ⟨m2, hm2, storesBits_append hs ?_, ?_⟩
    · rw [← hpos]; exact hs2
    · rw [Res.andThen_ok, he]
  · intro hr
    by_cases hr1 : room b1.length s
    · obtain ⟨m, hm, hs, rfl⟩ := h1.1 hr1
      have hpos : base1.bitpos.toNat = s.bitpos.toNat + b1.length := by rw [hp, bitpos_add hr1]
      have hr2 : ¬room b2.length (base1.setBm m) := by
        rintro (h | h)
        · apply hr
          simp only [room, List.length_append, h, Nat.add_zero] at hr1 ⊢
          exact hr1
        · apply hr
          right
          change base1.bitpos.toNat + _ ≤ base1.limitBits at h
          simp only [List.length_append]
          omega
      obtain ⟨t, ht⟩ := (h2 hr1 m hm).2 hr2
      exact ⟨t, by rw [Res.andThen_ok, ht]⟩
    · obtain ⟨t, rfl⟩ := h1.2 hr1
      exact ⟨t, rfl⟩

/-- An operation that writes, and an update of registers after it. -/
theorem Writes.then_ok {s base1 base2 : State} {r : Res Unit} {f : Unit → State → Res Unit}
    {bits : List Bool} (h1 : Writes s r bits base1)
    (h2 : room bits.length s → ∀ m, Memory.wf m →
      f () (base1.setBm m) = .ok () (base2.setBm m)) :
    Writes s (r.andThen f) bits base2 := by
  constructor
  · intro hr
    obtain ⟨m, hm, hs, rfl⟩ := h1.1 hr
    exact ⟨m, hm, hs, by rw [Res.andThen_ok, h2 hr m hm]⟩
  · intro hr
    obtain ⟨t, rfl⟩ := h1.2 hr
    exact ⟨t, rfl⟩

/-- The memory of the state an operation leaves is not read off `base`. -/
theorem Writes.base_setBm {s base : State} {r : Res Unit} {bits : List Bool} {m : Memory 8} :
    Writes s r bits (base.setBm m) ↔ Writes s r bits base := Iff.rfl

/-- Writing nothing. -/
theorem Writes.nothing {s : State} (hw : Memory.wf s.bm) : Writes s (.ok () s) [] s :=
  ⟨fun _ => ⟨s.bm, hw, storesBits_nil _ _, rfl⟩, fun h => absurd (Or.inl rfl) h⟩

/-- `WriteBits(v, n)` (R121). -/
theorem writeField_writes {s : State} (hw : Memory.wf s.bm) (v n : Nat) :
    Writes s (writeField v n s) (bitsOf v n) (moveOn n s) := by
  constructor
  · intro hr
    rw [bitsOf_length] at hr
    refine ⟨_, fieldWrite_wf hw s.bitpos.toNat v n, fieldWrite_storesBits hw _ v n, ?_⟩
    rw [writeField, if_pos (fits_iff.mpr hr)]
    rfl
  · intro hr
    rw [bitsOf_length] at hr
    exact ⟨s, by rw [writeField, if_neg (fun h => hr (fits_iff.mp h))]⟩

/-- Writing by a list, one element's bits after the other's, where each moves the cursor only. -/
theorem Writes.each {α : Type} {f : α → State → Res Unit} {bits : α → List Bool} {P : State → Prop}
    (hP : ∀ s n m, P s → P ((moveOn n s).setBm m))
    (xs : List α) (h : ∀ x ∈ xs, ∀ s, P s → Memory.wf s.bm →
      Writes s (f x s) (bits x) (moveOn (bits x).length s))
    {s : State} (hs : P s) (hw : Memory.wf s.bm) :
    Writes s (Res.each f xs s) (xs.flatMap bits) (moveOn (xs.flatMap bits).length s) := by
  induction xs generalizing s with
  | nil => simpa [moveOn_zero] using Writes.nothing hw
  | cons x xs ih =>
    rw [List.flatMap_cons, List.length_append, ← moveOn_moveOn, Res.each_cons]
    refine Writes.andThen (h x (by simp) s hs hw) rfl rfl fun _ m hm => ?_
    exact ih (fun y hy => h y (by simp [hy])) (hP s _ m hs) hm

/-! ## Reading -/

/-- `r` is what an operation does in `s` that consumes `n` bits at the cursor: inside the limit it
completes with `a` and leaves `t`; otherwise it is ReadPastEnd. -/
def Reads {α : Type} (s : State) (r : Res α) (n : Nat) (a : α) (t : State) : Prop :=
  (room n s → r = .ok a t) ∧ (¬room n s → ∃ u, r = .raise .readPastEnd u)

/-- Two operations that read, one after the other. -/
theorem Reads.andThen {α β : Type} {s t u : State} {r : Res α} {f : α → State → Res β} {n1 n2 : Nat}
    {a : α} {b : β} (h1 : Reads s r n1 a t) (hp : t.bitpos = s.bitpos + BitVec.ofNat 64 n1)
    (hl : t.limit = s.limit) (h2 : room n1 s → Reads t (f a t) n2 b u) :
    Reads s (r.andThen f) (n1 + n2) b u := by
  have hlim : t.limitBits = s.limitBits := by rw [State.limitBits, hl, State.limitBits]
  constructor
  · intro hr
    have hr1 : room n1 s := by
      rcases hr with h | h
      · left; omega
      · right; omega
    have hpos : t.bitpos.toNat = s.bitpos.toNat + n1 := by rw [hp, bitpos_add hr1]
    have hr2 : room n2 t := by
      rcases hr with h | h
      · left; omega
      · right; omega
    rw [h1.1 hr1, Res.andThen_ok, (h2 hr1).1 hr2]
  · intro hr
    by_cases hr1 : room n1 s
    · have hpos : t.bitpos.toNat = s.bitpos.toNat + n1 := by rw [hp, bitpos_add hr1]
      have hr2 : ¬room n2 t := by
        rintro (h | h)
        · apply hr
          subst h
          exact hr1
        · apply hr
          right
          omega
      rw [h1.1 hr1, Res.andThen_ok]
      exact (h2 hr1).2 hr2
    · obtain ⟨v, rfl⟩ := h1.2 hr1
      exact ⟨v, rfl⟩

/-- An operation that reads, and an update after it. -/
theorem Reads.then_ok {α β : Type} {s t u : State} {r : Res α} {f : α → State → Res β} {n : Nat}
    {a : α} {b : β} (h1 : Reads s r n a t) (h2 : f a t = .ok b u) :
    Reads s (r.andThen f) n b u := by
  constructor
  · intro hr
    rw [h1.1 hr, Res.andThen_ok, h2]
  · intro hr
    obtain ⟨v, rfl⟩ := h1.2 hr
    exact ⟨v, rfl⟩

/-- `ReadBits(n)` (R122), whatever the bits are. -/
theorem readField_reads (s : State) (n : Nat) :
    Reads s (readField n s) n (fieldRead s.bm s.bitpos.toNat n) (moveOn n s) :=
  ⟨fun hr => by rw [readField, if_pos (fits_iff.mpr hr)],
    fun hr => ⟨s, by rw [readField, if_neg (fun h => hr (fits_iff.mp h))]⟩⟩

/-- `ReadBits(n)` (R122) where the field of a value stands. -/
theorem readField_reads_value {s : State} {v n : Nat} (hv : v < 2 ^ n)
    (h : holdsBelow s.bm s.limitBits s.bitpos.toNat (bitsOf v n)) :
    Reads s (readField n s) n v (moveOn n s) := by
  refine ⟨fun hr => ?_, (readField_reads s n).2⟩
  have hb : holdsBits s.bm s.bitpos.toNat (bitsOf v n) := by
    rcases hr with rfl | hr
    · exact holdsBits_nil _ _
    · exact h.bits (by rw [bitsOf_length]; exact hr)
  rw [(readField_reads s n).1 hr, fieldRead_of_holdsBits hb, Nat.mod_eq_of_lt hv]

/-! ## Scanning -/

theorem scanFrom_found {m : Memory 8} {lim o k n z : Nat} (hk : n < k) (hl : o + z + n < lim)
    (hz : ∀ j, j < n → bitRead m (o + z + j) = false) (h1 : bitRead m (o + z + n) = true) :
    scanFrom m lim o k z = some (z + n, true) := by
  induction n generalizing k z with
  | zero =>
    obtain ⟨k, rfl⟩ : ∃ j, k = j + 1 := ⟨k - 1, by omega⟩
    rw [scanFrom, if_neg (by omega), if_pos (by simpa using h1)]
    rfl
  | succ n ih =>
    obtain ⟨k, rfl⟩ : ∃ j, k = j + 1 := ⟨k - 1, by omega⟩
    have h0 := hz 0 (by omega)
    rw [Nat.add_zero] at h0
    have hz' : ∀ j, j < n → bitRead m (o + (z + 1) + j) = false := fun j hj => by
      have := hz (j + 1) (by omega)
      rwa [show o + (z + 1) + j = o + z + (j + 1) by omega]
    rw [show o + z + (n + 1) = o + (z + 1) + n by omega] at h1
    rw [scanFrom, if_neg (by omega), if_neg (by simp [h0]), ih (by omega) (by omega) hz' h1]
    congr 2; omega

theorem scanFrom_none {m : Memory 8} {lim o k z : Nat} (hl : k = 0 ∨ o + z + k ≤ lim)
    (hz : ∀ j, j < k → bitRead m (o + z + j) = false) :
    scanFrom m lim o k z = some (z + k, false) := by
  induction k generalizing z with
  | zero => rfl
  | succ k ih =>
    have h0 := hz 0 (by omega)
    rw [Nat.add_zero] at h0
    rw [scanFrom, if_neg (by omega), if_neg (by simp [h0]), ih (by omega) (fun j hj => ?_)]
    · congr 2; omega
    · have := hz (j + 1) (by omega)
      rwa [show o + (z + 1) + j = o + z + (j + 1) by omega]

theorem scanFrom_end {m : Memory 8} {lim o k n z : Nat} (hk : n < k) (hl : lim ≤ o + z + n)
    (hz : ∀ j, j < n → bitRead m (o + z + j) = false) :
    scanFrom m lim o k z = none := by
  induction n generalizing k z with
  | zero =>
    obtain ⟨k, rfl⟩ : ∃ j, k = j + 1 := ⟨k - 1, by omega⟩
    rw [scanFrom, if_pos (by omega)]
  | succ n ih =>
    obtain ⟨k, rfl⟩ : ∃ j, k = j + 1 := ⟨k - 1, by omega⟩
    have h0 := hz 0 (by omega)
    rw [Nat.add_zero] at h0
    rw [scanFrom]
    split
    · rfl
    · rw [if_neg (by simp [h0]), ih (by omega) (by omega) (fun j hj => ?_)]
      have := hz (j + 1) (by omega)
      rwa [show o + (z + 1) + j = o + z + (j + 1) by omega]

/-- A scan that meets zero bits only, up to the limit (R126). -/
theorem scanZeros_end {s : State} {n z : Nat} (hz : z < n)
    (h0 : ∀ j, j < z → s.bitpos.toNat + j < s.limitBits →
      bitRead s.bm (s.bitpos.toNat + 0 + j) = false)
    (hl : s.limitBits ≤ s.bitpos.toNat + z) : scanZeros n s = .raise .readPastEnd s := by
  rw [scanZeros]
  by_cases hle : s.limitBits ≤ s.bitpos.toNat
  · rw [scanFrom_end (n := 0) (by omega) (by omega) (fun j hj => absurd hj (by omega))]
  · rw [scanFrom_end (n := s.limitBits - s.bitpos.toNat) (by omega) (by omega)
      (fun j hj => h0 j (by omega) (by omega))]

/-- `ScanZeros(n)` (R126) where `z < n` zero bits and a one bit stand. -/
theorem scanZeros_found {s : State} {n z : Nat} (hz : z < n)
    (h : holdsBelow s.bm s.limitBits s.bitpos.toNat (List.replicate z false ++ [true])) :
    Reads s (scanZeros n s) (z + 1) (z, true) (moveOn (z + 1) s) := by
  rw [holdsBelow_append] at h
  have h0 : ∀ j, j < z → s.bitpos.toNat + j < s.limitBits →
      bitRead s.bm (s.bitpos.toNat + 0 + j) = false := fun j hj hl => by
    rw [Nat.add_zero, h.1 j (by simpa using hj) hl, List.getElem_replicate]
  constructor
  · rintro (h' | hr)
    · omega
    · have h1 := h.2 0 (by simp) (by simp; omega)
      rw [List.length_replicate, Nat.add_zero] at h1
      rw [scanZeros, scanFrom_found hz (by omega) (fun j hj => h0 j hj (by omega)) (by simpa using h1)]
      simp
  · intro hr
    exact ⟨s, scanZeros_end hz h0 (by by_contra hc; exact hr (.inr (by omega)))⟩

/-- `ScanZeros(n)` (R126) where `n` zero bits stand. -/
theorem scanZeros_none {s : State} {n : Nat}
    (h : holdsBelow s.bm s.limitBits s.bitpos.toNat (List.replicate n false)) :
    Reads s (scanZeros n s) n (n, false) (moveOn n s) := by
  have h0 : ∀ j, j < n → s.bitpos.toNat + j < s.limitBits →
      bitRead s.bm (s.bitpos.toNat + 0 + j) = false := fun j hj hl => by
    rw [Nat.add_zero, h j (by simpa using hj) hl, List.getElem_replicate]
  constructor
  · intro hr
    rw [scanZeros, scanFrom_none (by rcases hr with h | h <;> omega)
      (fun j hj => h0 j hj (by rcases hr with h | h <;> omega))]
    simp
  · intro hr
    have hn : n ≠ 0 ∧ s.limitBits < s.bitpos.toNat + n :=
      ⟨fun h => hr (.inl h), by by_contra hc; exact hr (.inr (by omega))⟩
    exact ⟨s, scanZeros_end (z := n - 1) (by omega) (fun j hj => h0 j (by omega)) (by omega)⟩

/-- All `ScanZeros(n)` can do. -/
theorem scanZeros_cases (s : State) (n : Nat) :
    (∃ z, z < n ∧ holdsBits s.bm s.bitpos.toNat (List.replicate z false ++ [true]) ∧
      s.bitpos.toNat + z < s.limitBits ∧ scanZeros n s = .ok (z, true) (moveOn (z + 1) s)) ∨
    (holdsBits s.bm s.bitpos.toNat (List.replicate n false) ∧ room n s ∧
      scanZeros n s = .ok (n, false) (moveOn n s)) ∨
    scanZeros n s = .raise .readPastEnd s := by
  have key : ∀ k z, match scanFrom s.bm s.limitBits s.bitpos.toNat k z with
      | none => True
      | some (y, true) => z ≤ y ∧ y < z + k ∧ s.bitpos.toNat + y < s.limitBits ∧
          bitRead s.bm (s.bitpos.toNat + y) = true ∧
          ∀ j, z ≤ j → j < y → bitRead s.bm (s.bitpos.toNat + j) = false
      | some (y, false) => y = z + k ∧ (k = 0 ∨ s.bitpos.toNat + y ≤ s.limitBits) ∧
          ∀ j, z ≤ j → j < y → bitRead s.bm (s.bitpos.toNat + j) = false := by
    intro k
    induction k with
    | zero => intro z; simp only [scanFrom]; exact ⟨rfl, .inl trivial, fun j h1 h2 => absurd h1 (by omega)⟩
    | succ k ih =>
      intro z
      rw [scanFrom]
      by_cases hl : s.bitpos.toNat + z ≥ s.limitBits
      · rw [if_pos hl]; trivial
      · rw [if_neg hl]
        by_cases hb : bitRead s.bm (s.bitpos.toNat + z) = true
        · rw [if_pos hb]
          exact ⟨le_refl _, by omega, by omega, hb, fun j h1 h2 => absurd h1 (by omega)⟩
        · rw [if_neg hb]
          have hz : ∀ j, z ≤ j → j < z + 1 → bitRead s.bm (s.bitpos.toNat + j) = false := by
            intro j h1 h2
            obtain rfl : j = z := by omega
            simpa using hb
          have := ih (z + 1)
          revert this
          generalize scanFrom s.bm s.limitBits s.bitpos.toNat k (z + 1) = r
          match r with
          | none => exact id
          | some (y, true) =>
            rintro ⟨h1, h2, h3, h4, h5⟩
            exact ⟨by omega, by omega, h3, h4, fun j a b =>
              if hj : j < z + 1 then hz j a hj else h5 j (by omega) b⟩
          | some (y, false) =>
            rintro ⟨h1, h2, h5⟩
            exact ⟨by omega, .inr (by omega), fun j a b =>
              if hj : j < z + 1 then hz j a hj else h5 j (by omega) b⟩
  have h := key n 0
  unfold scanZeros
  revert h
  generalize scanFrom s.bm s.limitBits s.bitpos.toNat n 0 = r
  match r with
  | none => intro _; right; right; rfl
  | some (y, true) =>
    rintro ⟨-, h2, h3, h4, h5⟩
    refine .inl ⟨y, by omega, fun i hi => ?_, h3, rfl⟩
    simp only [List.length_append, List.length_replicate, List.length_singleton] at hi
    by_cases hy : i < y
    · rw [List.getElem_append_left (by simpa using hy), h5 i (by omega) hy]
      simp
    · obtain rfl : i = y := by omega
      rw [List.getElem_append_right (by simp), h4]
      simp
  | some (y, false) =>
    rintro ⟨h1, h2, h5⟩
    obtain rfl : y = n := by omega
    refine .inr (.inl ⟨fun i hi => ?_, h2, rfl⟩)
    simp only [List.length_replicate] at hi
    rw [h5 i (by omega) hi]
    simp

end Sys2Proof.Machine
end

