-- ==== Sys2Proof/Laws/Codec.lean ====
section
/-! SUPPORT. What `EncCodeword` and `DecCodeword` do (41_differencecodec.md R143, R144), in terms of the
bits the formats give a difference (30_encoding.md R85 to R90). -/

namespace Sys2Proof.Machine

/-! ## The bits of a codeword -/

theorem bitsOf_zero_value (n : Nat) : bitsOf 0 n = List.replicate n false := by
  refine List.ext_getElem (by simp) fun i h1 h2 => ?_
  rw [bitsOf_getElem]
  simp

/-- A unary code: `m` zero bits followed by a one bit (R53). -/
theorem bitsOf_two_pow (m : Nat) : bitsOf (2 ^ m) (m + 1) = List.replicate m false ++ [true] := by
  refine List.ext_getElem (by simp) fun i h1 h2 => ?_
  rw [bitsOf_getElem, Nat.testBit_two_pow]
  simp only [bitsOf_length] at h1
  by_cases h : i < m
  · rw [List.getElem_append_left (by simpa using h)]
    simp; omega
  · rw [List.getElem_append_right (by simpa using h)]
    simp; omega

theorem codewordBits_unary {c : Ctx} {d : Int} (hs : c.s ≤ 32)
    (h : zig (asr d c.s) < Config.unaryLimit) :
    codewordBits c d =
      bitsOf (zext c.s d) c.s ++ bitsOf (2 ^ zig (asr d c.s)) (zig (asr d c.s) + 1) := by
  have h1 : zext c.s d < 2 ^ 32 :=
    lt_of_lt_of_le (zext_lt _ _) (Nat.pow_le_pow_right (by omega) hs)
  have h2 : zig (asr d c.s) % 32 = zig (asr d c.s) := by
    have : Config.unaryLimit = 31 := rfl
    omega
  simp only [codewordBits, codewordItem, if_pos h, Sys2Proof.encode, encodeFields, fieldBits_cons,
    fieldBits_nil, List.append_nil, BitVec.toNat_ofNat, Nat.mod_eq_of_lt h1]
  norm_num [h2]

theorem codewordBits_escape {c : Ctx} {d : Int} (hs : c.s ≤ 32) (hw : c.w ≤ 32)
    (h : ¬zig (asr d c.s) < Config.unaryLimit) :
    codewordBits c d =
      bitsOf (zext c.s d) c.s ++
        (bitsOf 0 Config.escPrefix ++ bitsOf (zext (c.w + 1) d) (c.w + 1)) := by
  have h1 : zext c.s d < 2 ^ 32 :=
    lt_of_lt_of_le (zext_lt _ _) (Nat.pow_le_pow_right (by omega) hs)
  have h2 : zext (c.w + 1) d < 2 ^ 33 :=
    lt_of_lt_of_le (zext_lt _ _) (Nat.pow_le_pow_right (by omega) (by omega))
  simp only [codewordBits, codewordItem, if_neg h, Sys2Proof.encode, encodeFields, fieldBits_cons,
    fieldBits_nil, List.append_nil, BitVec.toNat_ofNat, Nat.mod_eq_of_lt h1, Nat.mod_eq_of_lt h2]

theorem litDiffBits_eq {c : Ctx} (hw : c.w ≤ 32) (d : Int) :
    litDiffBits c d = bitsOf (zext (c.w + 1) d) (c.w + 1) := by
  have h2 : zext (c.w + 1) d < 2 ^ 33 :=
    lt_of_lt_of_le (zext_lt _ _) (Nat.pow_le_pow_right (by omega) (by omega))
  simp only [litDiffBits, Sys2Proof.encode, encodeFields, fieldBits_cons,
    fieldBits_nil, List.append_nil, BitVec.toNat_ofNat, Nat.mod_eq_of_lt h2]

/-! ## The accumulator -/

/-- A difference with a codeword fits the accumulator (R203). -/
theorem codable_fits {c : Ctx} {d : Int} (hw : c.w ≤ 32) (hs : c.s ≤ 32) (h : codable c d) :
    -(2 ^ 63) ≤ d ∧ d < 2 ^ 63 := by
  rcases h with h | h
  · rw [isElem_iff (by omega), Nat.add_sub_cancel] at h
    have : ((2 ^ c.w : Nat) : Int) ≤ 2 ^ 32 := by
      exact_mod_cast Nat.pow_le_pow_right (by omega) hw
    omega
  · have hz := asr_mul_add_zext c.s d
    have hl : (zext c.s d : Int) < 2 ^ 32 := by
      exact_mod_cast lt_of_lt_of_le (zext_lt _ _) (Nat.pow_le_pow_right (by omega) hs)
    have hp : ((2 ^ c.s : Nat) : Int) ≤ 2 ^ 32 := by
      exact_mod_cast Nat.pow_le_pow_right (by omega) hs
    have hp0 : (0 : Int) < ((2 ^ c.s : Nat) : Int) := by exact_mod_cast Nat.two_pow_pos _
    generalize asr d c.s = q at h hz
    have hq : -16 ≤ q ∧ q ≤ 16 := by
      have : Config.unaryLimit = 31 := rfl
      unfold zig at h
      split at h <;> omega
    have h1 : -16 * (2 ^ 32 : Int) ≤ q * (2 ^ c.s : Nat) := by nlinarith
    have h2 : q * (2 ^ c.s : Nat) ≤ 16 * (2 ^ 32 : Int) := by nlinarith
    omega

theorem toInt_ofInt_64 {d : Int} (h : -(2 ^ 63) ≤ d ∧ d < 2 ^ 63) :
    (BitVec.ofInt 64 d).toInt = d := by
  rw [BitVec.toInt_ofInt, Int.bmod_eq_of_le] <;> norm_num <;> omega

theorem codable_acc {c : Ctx} {d : Int} (hw : c.w ≤ 32) (hs : c.s ≤ 32) (h : codable c d) :
    (BitVec.ofInt 64 d).toInt = d :=
  toInt_ofInt_64 (codable_fits hw hs h)

/-! ## EncCodeword and DecCodeword -/

/-- `EncCodeword(d)` stores the codeword of `d` (R143). -/
theorem encCodeword_writes {s : State} (hw : Memory.wf s.bm) (hc : s.sw ≤ s.w) (d : Int) :
    Writes s (encCodeword d s) (codewordBits s.ctx d)
      (moveOn (codewordBits s.ctx d).length s) := by
  have hs : s.ctx.s ≤ 32 := le_trans hc s.w_le
  have field : ∀ (t : State) (m : Memory 8), Memory.wf m → ∀ v n,
      Writes (t.setBm m) (writeField v n (t.setBm m)) (bitsOf v n) (moveOn n t) := by
    intro t m hm v n
    have := writeField_writes (s := t.setBm m) hm v n
    rwa [moveOn_setBm, Writes.base_setBm] at this
  unfold encCodeword
  by_cases h : zig (asr d s.sw) < Config.unaryLimit
  · rw [codewordBits_unary (c := s.ctx) hs h, List.length_append, ← moveOn_moveOn]
    refine Writes.andThen (writeField_writes hw _ _) (by rw [bitsOf_length]; rfl) rfl
      fun _ m hm => ?_
    rw [bitsOf_length, bitsOf_length]
    have h' : zig (asr d ((moveOn s.sw s).setBm m).sw) < Config.unaryLimit := h
    rw [if_pos h']
    exact field _ m hm _ _
  · rw [codewordBits_escape (c := s.ctx) hs s.w_le h, List.length_append, ← moveOn_moveOn]
    refine Writes.andThen (writeField_writes hw _ _) (by rw [bitsOf_length]; rfl) rfl
      fun _ m hm => ?_
    rw [bitsOf_length, List.length_append, bitsOf_length, bitsOf_length, ← moveOn_moveOn]
    have h' : ¬zig (asr d ((moveOn s.sw s).setBm m).sw) < Config.unaryLimit := h
    rw [if_neg h']
    refine Writes.andThen (field _ m hm _ _) (by rw [bitsOf_length]; rfl) rfl
      fun _ m' hm' => ?_
    exact field _ m' hm' _ _

/-- The escape test accepts the encoder's escapes (R90). -/
theorem escapeValid_of_codable {c : Ctx} {d : Int} (h : codable c d)
    (hu : ¬zig (asr d c.s) < Config.unaryLimit) :
    isElem (c.w + 1) d ∧ escapeValid c.s (zext c.s d) d = true := by
  refine ⟨h.resolve_right hu, ?_⟩
  simp only [escapeValid, Bool.and_eq_true, decide_eq_true_eq]
  exact ⟨not_lt.mp hu, trivial⟩

/-- `DecCodeword()` takes the difference whose codeword stands at the cursor (R144); a codeword that the
limit cuts short is ReadPastEnd. -/
theorem decCodeword_reads {s : State} {d : Int} (hc : s.sw ≤ s.w) (hd : codable s.ctx d)
    (h : holdsBelow s.bm s.limitBits s.bitpos.toNat (codewordBits s.ctx d)) :
    Reads s (decCodeword s) (codewordBits s.ctx d).length ()
      (takeDiff d (moveOn (codewordBits s.ctx d).length s)) := by
  have hs : s.ctx.s ≤ 32 := le_trans hc s.w_le
  unfold decCodeword
  by_cases hu : zig (asr d s.sw) < Config.unaryLimit
  · rw [codewordBits_unary (c := s.ctx) hs hu] at h ⊢
    rw [holdsBelow_append, bitsOf_length, bitsOf_two_pow] at h
    rw [List.length_append, bitsOf_length, bitsOf_length, ← moveOn_moveOn]
    refine Reads.andThen (readField_reads_value (zext_lt s.sw d) h.1) rfl rfl fun hr => ?_
    refine Reads.then_ok (scanZeros_found (lt_trans hu (by decide)) ?_) ?_
    · rw [show (moveOn s.sw s).bitpos.toNat = s.bitpos.toNat + s.sw from bitpos_add hr]
      exact h.2
    · rw [if_pos rfl, unaryForm]
      refine (if_pos hu).trans ?_
      exact congrArg (fun e => Res.ok () (takeDiff e _)) (unaryDiff_zext s.sw d)
  · obtain ⟨he, hv⟩ := escapeValid_of_codable hd hu
    rw [codewordBits_escape (c := s.ctx) hs s.w_le hu] at h ⊢
    rw [holdsBelow_append, holdsBelow_append, bitsOf_length, bitsOf_length, bitsOf_zero_value] at h
    rw [List.length_append, List.length_append, bitsOf_length, bitsOf_length, bitsOf_length,
      ← moveOn_moveOn, ← moveOn_moveOn]
    refine Reads.andThen (readField_reads_value (zext_lt s.sw d) h.1) rfl rfl fun hr => ?_
    have hp : (moveOn s.sw s).bitpos.toNat = s.bitpos.toNat + s.sw := bitpos_add hr
    refine Reads.andThen (scanZeros_none (by rw [hp]; exact h.2.1)) rfl rfl fun hr' => ?_
    have hp' : (moveOn Config.escPrefix (moveOn s.sw s)).bitpos.toNat =
        s.bitpos.toNat + s.sw + Config.escPrefix := hp ▸ bitpos_add hr'
    refine Reads.then_ok (readField_reads_value (v := zext (s.w + 1) d) (zext_lt (s.w + 1) d)
      (by rw [hp']; exact h.2.2)) ?_
    have hd' : sext (s.w + 1) (zext (s.w + 1) d) = d := (sext_zext _ d).trans he
    simp only [escapeForm]
    refine (if_pos ?_).trans ?_
    · exact (congrArg (escapeValid s.sw (zext s.sw d)) hd').trans hv
    · exact congrArg (fun e => Res.ok () (takeDiff e _)) hd'

/-- Where `DecCodeword()` succeeds, the codeword of the difference it takes stands at the cursor
(R147). -/
theorem decCodeword_ok {s t : State} (hc : s.sw ≤ s.w) (h : decCodeword s = .ok () t) :
    ∃ d, codable s.ctx d ∧ holdsBits s.bm s.bitpos.toNat (codewordBits s.ctx d) ∧
      room (codewordBits s.ctx d).length s ∧
      t = takeDiff d (moveOn (codewordBits s.ctx d).length s) := by
  have hs : s.ctx.s ≤ 32 := le_trans hc s.w_le
  unfold decCodeword at h
  by_cases hr1 : room s.sw s
  swap
  · obtain ⟨v, hv⟩ := (readField_reads s s.sw).2 hr1
    rw [hv] at h
    cases h
  rw [(readField_reads s s.sw).1 hr1, Res.andThen_ok] at h
  have hlit := fieldRead_lt s.bm s.bitpos.toNat s.sw
  have hbits := holdsBits_fieldRead s.bm s.bitpos.toNat s.sw
  generalize fieldRead s.bm s.bitpos.toNat s.sw = lit at h hlit hbits
  have hp : (moveOn s.sw s).bitpos.toNat = s.bitpos.toNat + s.sw := bitpos_add hr1
  rcases scanZeros_cases (moveOn s.sw s) Config.escPrefix with
    ⟨z, -, hz, hroom, he⟩ | ⟨hz, hr2, he⟩ | he
  · rw [he, Res.andThen_ok, if_pos rfl, unaryForm] at h
    split at h
    · rename_i hu
      have ha : zig (asr (unaryDiff s.sw lit z) s.sw) = z := asr_unaryDiff hlit z
      have hl : zext s.sw (unaryDiff s.sw lit z) = lit := zext_unaryDiff hlit z
      have hcw := codewordBits_unary (c := s.ctx) (d := unaryDiff s.sw lit z) hs
        (by show zig (asr _ s.sw) < _; rw [ha]; exact hu)
      rw [show zext s.ctx.s _ = lit from hl, show zig (asr _ s.ctx.s) = z from ha] at hcw
      refine ⟨unaryDiff s.sw lit z, .inr (by show zig (asr _ s.sw) < _; rw [ha]; exact hu), ?_, ?_, ?_⟩
      · rw [hcw, holdsBits_append, bitsOf_length, bitsOf_two_pow]
        exact ⟨hbits, hp ▸ hz⟩
      · rw [hcw, List.length_append, bitsOf_length, bitsOf_length]
        right
        rw [hp] at hroom
        change _ < s.limitBits at hroom
        show _ + (s.sw + _) ≤ _
        omega
      · rw [hcw, List.length_append, bitsOf_length, bitsOf_length, ← moveOn_moveOn]
        cases h
        rfl
    · cases h
  · rw [he, Res.andThen_ok, if_neg (by simp)] at h
    by_cases hr3 : room (s.w + 1) (moveOn Config.escPrefix (moveOn s.sw s))
    swap
    · obtain ⟨v, hv⟩ := (readField_reads (moveOn Config.escPrefix (moveOn s.sw s)) (s.w + 1)).2 hr3
      erw [hv] at h
      cases h
    erw [(readField_reads (moveOn Config.escPrefix (moveOn s.sw s)) (s.w + 1)).1 hr3,
      Res.andThen_ok] at h
    have hp' : (moveOn Config.escPrefix (moveOn s.sw s)).bitpos.toNat =
        s.bitpos.toNat + s.sw + Config.escPrefix := hp ▸ bitpos_add hr2
    have hebits := holdsBits_fieldRead s.bm (s.bitpos.toNat + s.sw + Config.escPrefix) (s.w + 1)
    have helt := fieldRead_lt s.bm (s.bitpos.toNat + s.sw + Config.escPrefix) (s.w + 1)
    rw [hp'] at h
    change escapeForm lit (fieldRead s.bm _ _) _ = _ at h
    generalize fieldRead s.bm (s.bitpos.toNat + s.sw + Config.escPrefix) (s.w + 1) = e
      at h hebits helt
    simp only [escapeForm] at h
    split at h
    · rename_i hv
      have hd := isElem_sext (n := s.w + 1) (by omega) (e : Int)
      have hze : zext (s.w + 1) (sext (s.w + 1) e) = e := by
        rw [zext_sext, zext_of_lt helt]
      change escapeValid s.sw lit (sext (s.w + 1) e) = true at hv
      have hv' := hv
      simp only [escapeValid, Bool.and_eq_true, decide_eq_true_eq] at hv'
      have hcw := codewordBits_escape (c := s.ctx) (d := sext (s.w + 1) e) hs s.w_le
        (not_lt.mpr hv'.1)
      rw [show zext s.ctx.s _ = lit from hv'.2,
        show zext (s.ctx.w + 1) _ = e from hze] at hcw
      refine ⟨sext (s.w + 1) e, .inl hd, ?_, ?_, ?_⟩
      · rw [hcw, holdsBits_append, holdsBits_append, bitsOf_length, bitsOf_length,
          bitsOf_zero_value]
        exact ⟨hbits, hp ▸ hz, hebits⟩
      · rw [hcw, List.length_append, List.length_append, bitsOf_length, bitsOf_length,
          bitsOf_length]
        rcases hr3 with hr3 | hr3
        · omega
        · right
          rw [hp'] at hr3
          change _ ≤ s.limitBits at hr3
          show _ + (s.sw + (_ + (s.w + 1))) ≤ _
          omega
      · rw [hcw, List.length_append, List.length_append, bitsOf_length, bitsOf_length,
          bitsOf_length, ← moveOn_moveOn, ← moveOn_moveOn]
        cases h
        rfl
    · cases h
  · rw [he] at h
    cases h

end Sys2Proof.Machine
end

