-- ==== Sys2Proof/Laws/Rows.lean ====
section
/-! SUPPORT. What the row coder does (42_runcodec.md): the segmentation, `EncRow`, and the decoder of
segments. -/

namespace Sys2Proof.Machine

/-! ## Segmentation -/

/-- The runs of a row, end to end, are the row. -/
theorem runsOf_flatMap (ds : List Int) :
    (runsOf ds).flatMap (fun r => List.replicate r.2 r.1) = ds := by
  induction ds with
  | nil => rfl
  | cons d ds ih =>
    simp only [runsOf]
    split
    · rename_i h
      rw [h] at ih
      simp only [List.flatMap_nil] at ih
      simp [← ih]
    · rename_i e r rs h
      rw [h, List.flatMap_cons] at ih
      split
      · rename_i hd
        rw [List.flatMap_cons, ← ih, hd]
        rfl
      · rw [List.flatMap_cons, List.flatMap_cons, ih]
        rfl

theorem runsOf_pos (ds : List Int) : ∀ r ∈ runsOf ds, 1 ≤ r.2 := by
  induction ds with
  | nil => simp [runsOf]
  | cons d ds ih =>
    simp only [runsOf]
    split
    · simp
    · rename_i e r rs h
      rw [h] at ih
      split
      · intro x hx
        rcases List.mem_cons.mp hx with rfl | hx
        · exact Nat.le_add_left 1 r
        · exact ih x (by simp [hx])
      · intro x hx
        rcases List.mem_cons.mp hx with rfl | hx
        · exact le_refl 1
        · exact ih x hx

/-- The runs that the format has a marker for (R91). -/
def Segment.marked : Segment → Prop
  | .literal ds => 1 ≤ ds.length ∧ ds.length ≤ Config.litRunMax
  | .constant n _ => 2 ≤ n ∧ n ≤ Config.constRunMax
  | .continued _ => True

theorem flushLiterals_spec (fuel : Nat) (ds : List Int) (h : ds.length ≤ fuel) :
    (flushLiterals fuel ds).flatMap segmentDiffs = ds ∧
      ∀ seg ∈ flushLiterals fuel ds, seg.marked := by
  induction fuel generalizing ds with
  | zero =>
    obtain rfl : ds = [] := List.eq_nil_of_length_eq_zero (by omega)
    simp [flushLiterals]
  | succ fuel ih =>
    rw [flushLiterals]
    split
    · rename_i hd
      simp [hd]
    · rename_i hd
      have hpos : 0 < ds.length := List.length_pos_of_ne_nil hd
      have hk : Config.litRunMax = 127 := rfl
      obtain ⟨h1, h2⟩ := ih (ds.drop Config.litRunMax) (by simp; omega)
      refine ⟨?_, ?_⟩
      · rw [List.flatMap_cons, h1]
        exact List.take_append_drop _ ds
      · intro seg hs
        rcases List.mem_cons.mp hs with rfl | hs
        · simp only [Segment.marked, List.length_take]
          omega
        · exact h2 seg hs

theorem chainRest_spec {r : Nat} (h : 0 < r) :
    r = Config.constRunMax * ((r - 1) / Config.constRunMax) + chainRest r ∧ 1 ≤ chainRest r ∧
      chainRest r ≤ Config.constRunMax := by
  show r = 128 * ((r - 1) / 128) + (r - 128 * ((r - 1) / 128)) ∧
    1 ≤ r - 128 * ((r - 1) / 128) ∧ r - 128 * ((r - 1) / 128) ≤ 128
  omega

theorem continued_flatMap (k : Nat) (d : Int) :
    (List.replicate k (Segment.continued d)).flatMap segmentDiffs =
      List.replicate (Config.constRunMax * k) d := by
  induction k with
  | zero => rfl
  | succ k ih =>
    rw [List.replicate_succ, List.flatMap_cons, ih, segmentDiffs, List.replicate_append_replicate]
    congr 1
    ring

/-- What the segmentation gives: its segments stand for the pending literals and the runs, and each has
a marker (R162). -/
theorem segmentsFrom_spec (runs : List (Int × Nat)) (hr : ∀ r ∈ runs, 1 ≤ r.2)
    (pending : List Int) :
    (segmentsFrom pending runs).flatMap segmentDiffs =
        pending ++ runs.flatMap (fun r => List.replicate r.2 r.1) ∧
      ∀ seg ∈ segmentsFrom pending runs, seg.marked := by
  induction runs generalizing pending with
  | nil =>
    obtain ⟨h1, h2⟩ := flushLiterals_spec pending.length pending (le_refl _)
    simp [segmentsFrom, h1]
    exact h2
  | cons x rs ih =>
    obtain ⟨d, r⟩ := x
    have ih' := fun p => ih (fun x hx => hr x (by simp [hx])) p
    have hr1 : 1 ≤ r := hr (d, r) (by simp)
    rw [segmentsFrom]
    split
    · obtain ⟨h1, h2⟩ := ih' (pending ++ List.replicate r d)
      exact ⟨by rw [h1]; simp, h2⟩
    · obtain ⟨f1, f2⟩ := flushLiterals_spec pending.length pending (le_refl _)
      obtain ⟨c1, c2, c3⟩ := chainRest_spec hr1
      have hrep : List.replicate r d =
          List.replicate (Config.constRunMax * ((r - 1) / Config.constRunMax)) d ++
            List.replicate (chainRest r) d := by
        rw [List.replicate_append_replicate, ← c1]
      rw [List.flatMap_cons, hrep]
      split
      · obtain ⟨h1, h2⟩ := ih' (List.replicate (chainRest r) d)
        refine ⟨?_, ?_⟩
        · rw [List.flatMap_append, List.flatMap_append, f1, continued_flatMap, h1]
          simp only [List.append_assoc]
        · intro seg hs
          rcases List.mem_append.mp hs with hs | hs
          · exact f2 seg hs
          · rcases List.mem_append.mp hs with hs | hs
            · rw [List.eq_of_mem_replicate hs]; trivial
            · exact h2 seg hs
      · rename_i hlt
        obtain ⟨h1, h2⟩ := ih' []
        refine ⟨?_, ?_⟩
        · rw [List.flatMap_append, List.flatMap_append, f1, continued_flatMap, List.flatMap_cons,
            h1]
          simp only [List.append_assoc, segmentDiffs, List.nil_append]
        · intro seg hs
          rcases List.mem_append.mp hs with hs | hs
          · exact f2 seg hs
          · rcases List.mem_append.mp hs with hs | hs
            · rw [List.eq_of_mem_replicate hs]; trivial
            · rcases List.mem_cons.mp hs with rfl | hs
              · exact ⟨by omega, c3⟩
              · exact h2 seg hs

theorem segments_marked (ds : List Int) : ∀ seg ∈ segments ds, seg.marked :=
  (segmentsFrom_spec _ (runsOf_pos ds) []).2

theorem rowDiffs_length (p : Int) (xs : List Int) : (rowDiffs p xs).length = xs.length := by
  induction xs generalizing p with
  | nil => rfl
  | cons x xs ih => simp [rowDiffs, ih]

/-- The differences of elements have `W + 1` bits (R141). -/
theorem isElem_rowDiffs {w : Nat} (h : 0 < w) {p : Int} {xs : List Int} (hp : isElem w p)
    (hx : ∀ x ∈ xs, isElem w x) : ∀ d ∈ rowDiffs p xs, isElem (w + 1) d := by
  induction xs generalizing p with
  | nil => simp [rowDiffs]
  | cons x xs ih =>
    intro d hd
    rcases List.mem_cons.mp hd with rfl | hd
    · exact isElem_sub h (hx x (by simp)) hp
    · exact ih (hx x (by simp)) (fun y hy => hx y (by simp [hy])) d hd

/-- Adding up the differences of elements gives the elements back (R146, R161). -/
theorem runningElems_rowDiffs {w : Nat} {p : Int} {xs : List Int} (hx : ∀ x ∈ xs, isElem w x) :
    runningElems w p (rowDiffs p xs) = xs := by
  induction xs generalizing p with
  | nil => rfl
  | cons x xs ih =>
    have e : sext w (p + (x - p)) = x := by
      rw [show p + (x - p) = x by ring]; exact hx x (by simp)
    rw [rowDiffs, runningElems, e, ih fun y hy => hx y (by simp [hy])]

theorem runningElems_length (w : Nat) (p : Int) (ds : List Int) :
    (runningElems w p ds).length = ds.length := by
  induction ds generalizing p with
  | nil => rfl
  | cons d ds ih => simp [runningElems, ih]

theorem runningElems_append (w : Nat) (p : Int) (d1 d2 : List Int) :
    runningElems w p (d1 ++ d2) =
      runningElems w p d1 ++ runningElems w ((runningElems w p d1).getLastD p) d2 := by
  induction d1 generalizing p with
  | nil => rfl
  | cons d ds ih =>
    rw [List.cons_append, runningElems, runningElems, ih, List.cons_append, List.getLastD_cons]

/-- A marked segment of differences that their fields hold is legal (R91). -/
theorem segmentLegal_of_marked {c : Ctx} {seg : Segment} (hm : seg.marked)
    (hd : ∀ d ∈ segmentDiffs seg, isElem (c.w + 1) d) : segmentLegal c seg := by
  cases seg with
  | literal ds => exact ⟨hm.1, hm.2, fun d h => .inl (hd d h)⟩
  | constant n d =>
    refine ⟨hm.1, hm.2, hd d ?_⟩
    have : 2 ≤ n := hm.1
    exact List.mem_replicate.mpr ⟨by omega, rfl⟩
  | continued d => exact hd d (List.mem_replicate.mpr ⟨by decide, rfl⟩)

theorem marked_of_segmentLegal {c : Ctx} {seg : Segment} (h : segmentLegal c seg) :
    seg.marked := by
  cases seg with
  | literal ds => exact ⟨h.1, h.2.1⟩
  | constant n d => exact ⟨h.1, h.2.1⟩
  | continued d => trivial

/-! ## Encoding a row -/

/-- The marker byte of a segment (R91). -/
def markerByte : Segment → Nat
  | .literal ds => ds.length
  | .constant n _ => 257 - n
  | .continued _ => Config.continuedMarker

theorem markerByte_lt {seg : Segment} (h : seg.marked) : markerByte seg < 2 ^ 8 := by
  have h1 : Config.litRunMax = 127 := rfl
  have h2 : Config.continuedMarker = 128 := rfl
  cases seg <;> simp only [Segment.marked] at h <;> simp only [markerByte] <;> omega

theorem segmentBits_eq {c : Ctx} {seg : Segment} (h : seg.marked) :
    segmentBits c seg = bitsOf (markerByte seg) 8 ++ segmentData c seg := by
  have h1 : Config.litRunMax = 127 := rfl
  have h2 : Config.constRunMax = 128 := rfl
  cases seg with
  | literal ds =>
    have : ds.length % 128 = ds.length := by
      have := h.2
      omega
    simp only [segmentBits, segmentMarker, Sys2Proof.encode, encodeFields, fieldBits_cons,
      fieldBits_nil, List.append_nil, BitVec.toNat_ofNat, markerByte]
    norm_num [this]
  | constant n d =>
    have : (257 - n) % 256 = 257 - n := by
      have := h.1
      omega
    simp only [segmentBits, segmentMarker, Sys2Proof.encode, encodeFields, fieldBits_cons,
      fieldBits_nil, List.append_nil, BitVec.toNat_ofNat, markerByte]
    norm_num [this]
  | continued d =>
    simp only [segmentBits, segmentMarker, Sys2Proof.encode, encodeFields, fieldBits_cons,
      fieldBits_nil, List.append_nil, markerByte]

theorem encLitDiff_writes {s : State} (hw : Memory.wf s.bm) (d : Int) :
    Writes s (encLitDiff d s) (litDiffBits s.ctx d) (moveOn (litDiffBits s.ctx d).length s) := by
  rw [litDiffBits_eq (c := s.ctx) s.w_le, bitsOf_length]
  exact writeField_writes hw _ _

/-- One segment is written as its marker and its data (R163). -/
theorem encSegment_writes {s : State} (hw : Memory.wf s.bm) (hc : s.sw ≤ s.w) {seg : Segment}
    (h : seg.marked) :
    Writes s (encSegment seg s) (segmentBits s.ctx seg)
      (moveOn (segmentBits s.ctx seg).length s) := by
  have lit : ∀ (m : Memory 8), Memory.wf m → ∀ d,
      Writes ((moveOn 8 s).setBm m) (encLitDiff d ((moveOn 8 s).setBm m)) (litDiffBits s.ctx d)
        (moveOn (litDiffBits s.ctx d).length (moveOn 8 s)) := by
    intro m hm d
    have := encLitDiff_writes (s := (moveOn 8 s).setBm m) hm d
    rwa [moveOn_setBm, Writes.base_setBm] at this
  rw [segmentBits_eq h, List.length_append, ← moveOn_moveOn]
  cases seg with
  | literal ds =>
    refine Writes.andThen (writeField_writes hw _ _) (by rw [bitsOf_length]; rfl) rfl
      fun _ m hm => ?_
    rw [bitsOf_length]
    have := Writes.each (P := fun t => t.ctx = s.ctx ∧ t.sw ≤ t.w) (fun t n m h => h) ds
      (fun d _ t ht hwt => by
        have := encCodeword_writes hwt ht.2 d
        rwa [ht.1] at this) (s := (moveOn 8 s).setBm m) ⟨rfl, hc⟩ hm
    rwa [moveOn_setBm, Writes.base_setBm] at this
  | constant n d =>
    refine Writes.andThen (writeField_writes hw _ _) (by rw [bitsOf_length]; rfl) rfl
      fun _ m hm => ?_
    rw [bitsOf_length]
    exact lit m hm d
  | continued d =>
    refine Writes.andThen (writeField_writes hw _ _) (by rw [bitsOf_length]; rfl) rfl
      fun _ m hm => ?_
    rw [bitsOf_length]
    exact lit m hm d

/-- Where `EncRow(n)` leaves the registers after `k` bits (R163). -/
def afterEncRow (n k : Nat) (s : State) : State :=
  advance n (if n > 0 then setPrev (elemAt s (n - 1)) (moveOn k s) else moveOn k s)

theorem afterEncRow_setBm (n k : Nat) (m : Memory 8) (s : State) :
    afterEncRow n k (s.setBm m) = (afterEncRow n k s).setBm m := by
  unfold afterEncRow
  split <;> rfl

/-- `EncRow(n)` stores the row's segments (R163). -/
theorem encRow_writes {s : State} (hw : Memory.wf s.bm) (hc : s.sw ≤ s.w) (n : Nat) :
    Writes s (encRow n s) (rowBits s.ctx (rowDiffs s.pv (elemsAt s n)))
      (afterEncRow n (rowBits s.ctx (rowDiffs s.pv (elemsAt s n))).length s) := by
  unfold encRow
  refine Writes.then_ok (Writes.each (P := fun t => t.ctx = s.ctx ∧ t.sw ≤ t.w)
    (bits := segmentBits s.ctx) (fun t n m h => h) _ (fun seg hs t ht hwt => ?_) ⟨rfl, hc⟩ hw) ?_
  · have := encSegment_writes hwt ht.2 (segments_marked _ seg hs)
    rwa [ht.1] at this
  · intro _ m hm
    by_cases hn : n > 0 <;> simp only [afterEncRow, hn, if_true, if_false] <;> rfl

/-! ## Decoding segments -/

/-- What the decoder has done after it took the differences `ds` one by one and put out an element for
each (R165, R166). -/
def consume : List Int → State → State
  | [], s => s
  | d :: ds, s => consume ds (produce (sext s.w (s.pv + d)) (takeDiff d s))

theorem consume_append (d1 d2 : List Int) (s : State) :
    consume (d1 ++ d2) s = consume d2 (consume d1 s) := by
  induction d1 generalizing s with
  | nil => rfl
  | cons d ds ih => exact ih _

/-- What taking differences leaves alone. -/
theorem consume_frame (ds : List Int) (s : State) :
    consume ds s = { s with
      em := (consume ds s).em, acc := (consume ds s).acc, prev := (consume ds s).prev
      eidx := s.eidx + BitVec.ofNat 32 ds.length } := by
  induction ds generalizing s with
  | nil => simp [consume]
  | cons d ds ih =>
    have h := ih (produce (sext s.w (s.pv + d)) (takeDiff d s))
    rw [consume, h]
    simp only [produce, advance, setPrev, takeDiff, List.length_cons]
    congr 1
    rw [BitVec.add_assoc, ← BitVec.ofNat_add, Nat.add_comm]

@[simp] theorem consume_status (ds : List Int) (s : State) : (consume ds s).status = s.status := by
  rw [consume_frame]

@[simp] theorem consume_cfg (ds : List Int) (s : State) : (consume ds s).cfg = s.cfg := by
  rw [consume_frame]

@[simp] theorem consume_blkw (ds : List Int) (s : State) : (consume ds s).blkw = s.blkw := by
  rw [consume_frame]

@[simp] theorem consume_blkc (ds : List Int) (s : State) : (consume ds s).blkc = s.blkc := by
  rw [consume_frame]

@[simp] theorem consume_limit (ds : List Int) (s : State) : (consume ds s).limit = s.limit := by
  rw [consume_frame]

@[simp] theorem consume_limitBits (ds : List Int) (s : State) :
    (consume ds s).limitBits = s.limitBits := by
  rw [State.limitBits, consume_limit, State.limitBits]

@[simp] theorem consume_elim (ds : List Int) (s : State) : (consume ds s).elim = s.elim := by
  rw [consume_frame]

@[simp] theorem consume_bitpos (ds : List Int) (s : State) : (consume ds s).bitpos = s.bitpos := by
  rw [consume_frame]

@[simp] theorem consume_val (ds : List Int) (s : State) : (consume ds s).val = s.val := by
  rw [consume_frame]

@[simp] theorem consume_width (ds : List Int) (s : State) : (consume ds s).width = s.width := by
  rw [consume_frame]

@[simp] theorem consume_total (ds : List Int) (s : State) : (consume ds s).total = s.total := by
  rw [consume_frame]

@[simp] theorem consume_blk (ds : List Int) (s : State) : (consume ds s).blk = s.blk := by
  rw [consume_frame]

@[simp] theorem consume_bm (ds : List Int) (s : State) : (consume ds s).bm = s.bm := by
  rw [consume_frame]

@[simp] theorem consume_rem (ds : List Int) (s : State) : (consume ds s).rem = s.rem := by
  rw [consume_frame]

@[simp] theorem consume_running (ds : List Int) (s : State) : (consume ds s).running = s.running := by
  rw [consume_frame]

@[simp] theorem consume_hostQueue (ds : List Int) (s : State) : (consume ds s).hostQueue = s.hostQueue := by
  rw [consume_frame]

@[simp] theorem consume_replies (ds : List Int) (s : State) : (consume ds s).replies = s.replies := by
  rw [consume_frame]

@[simp] theorem consume_freeDraws (ds : List Int) (s : State) : (consume ds s).freeDraws = s.freeDraws := by
  rw [consume_frame]

@[simp] theorem consume_ctx (ds : List Int) (s : State) : (consume ds s).ctx = s.ctx := by
  rw [consume_frame]; rfl

@[simp] theorem consume_sw (ds : List Int) (s : State) : (consume ds s).sw = s.sw := by
  rw [consume_frame]; rfl

@[simp] theorem consume_w (ds : List Int) (s : State) : (consume ds s).w = s.w := by
  rw [consume_frame]; rfl

@[simp] theorem consume_runLength (ds : List Int) (s : State) : (consume ds s).runLength = s.runLength := by
  rw [consume_frame]; rfl

@[simp] theorem consume_eidx (ds : List Int) (s : State) :
    (consume ds s).eidx = s.eidx + BitVec.ofNat 32 ds.length := by
  rw [consume_frame]

theorem consume_moveOn (ds : List Int) (n : Nat) (s : State) :
    consume ds (moveOn n s) = moveOn n (consume ds s) := by
  induction ds generalizing s with
  | nil => rfl
  | cons d ds ih => exact ih (produce (sext s.w (s.pv + d)) (takeDiff d s))

theorem consume_lessRem (ds : List Int) (n : Nat) (s : State) :
    consume ds (lessRem n s) = lessRem n (consume ds s) := by
  induction ds generalizing s with
  | nil => rfl
  | cons d ds ih => exact ih (produce (sext s.w (s.pv + d)) (takeDiff d s))

theorem consume_takeDiff (d : Int) {ds : List Int} (h : ds ≠ []) (s : State) :
    consume ds (takeDiff d s) = consume ds s := by
  cases ds with
  | nil => exact absurd rfl h
  | cons e es => rfl

theorem produce_pv {x : Int} (s : State) (hx : isElem s.w x) : (produce x s).pv = x := by
  have h : (produce x s).prev.toNat = zext s.w x := by
    show (zext s.w x) % 2 ^ 32 = zext s.w x
    exact Nat.mod_eq_of_lt (lt_of_lt_of_le (zext_lt _ _) (Nat.pow_le_pow_right (by omega) s.w_le))
  show sext s.w (produce x s).prev.toNat = x
  rw [h, sext_zext, hx]

/-- The value of PREV after taking differences is the last running element (R165). -/
theorem consume_pv (ds : List Int) (s : State) :
    (consume ds s).pv = (runningElems s.w s.pv ds).getLastD s.pv := by
  induction ds generalizing s with
  | nil => rfl
  | cons d ds ih =>
    have hx := isElem_sext s.w_pos (s.pv + d)
    have hp : (produce (sext s.w (s.pv + d)) (takeDiff d s)).pv = sext s.w (s.pv + d) :=
      produce_pv (takeDiff d s) hx
    have := ih (produce (sext s.w (s.pv + d)) (takeDiff d s))
    rw [hp] at this
    rw [consume, this, runningElems, List.getLastD_cons]
    rfl

theorem consume_prev {ds : List Int} (h : ds ≠ []) (s : State) :
    (consume ds s).prev =
      BitVec.ofNat 32 (zext s.w ((runningElems s.w s.pv ds).getLastD s.pv)) := by
  induction ds generalizing s with
  | nil => exact absurd rfl h
  | cons d ds ih =>
    have hx := isElem_sext s.w_pos (s.pv + d)
    have hp : (produce (sext s.w (s.pv + d)) (takeDiff d s)).pv = sext s.w (s.pv + d) :=
      produce_pv (takeDiff d s) hx
    rw [consume, runningElems, List.getLastD_cons]
    by_cases hd : ds = []
    · subst hd; rfl
    · have := ih hd (produce (sext s.w (s.pv + d)) (takeDiff d s))
      rw [hp] at this
      exact this

theorem storesElems_cons {m m' : Memory 32} {i : Nat} {x : Int} {xs : List Int}
    (hw : Memory.wf m) (h : storesElems (elemWrite m i x) m' (i + 1) xs) :
    storesElems m m' i (x :: xs) := by
  obtain ⟨h1, h2⟩ := h
  refine ⟨fun k hk => ?_, fun j hj => ?_⟩
  · cases k with
    | zero =>
      rw [Nat.add_zero, h2 i (.inl (by omega)), elemWrite, Memory.read_write hw, if_pos rfl]
      rfl
    | succ k =>
      have := h1 k (by simpa using hk)
      rw [show i + (k + 1) = i + 1 + k by omega, this]
      rfl
  · simp only [List.length_cons] at hj
    rw [h2 j (by omega), elemWrite, Memory.read_write hw, if_neg (by omega)]

/-- Taking differences stores the running elements from EIDX on (R165). -/
theorem consume_em (ds : List Int) (s : State) (hw : Memory.wf s.em)
    (he : s.eidx.toNat + ds.length ≤ 2 ^ 32) :
    Memory.wf (consume ds s).em ∧
      storesElems s.em (consume ds s).em s.eidx.toNat (runningElems s.w s.pv ds) := by
  induction ds generalizing s with
  | nil => exact ⟨hw, fun k hk => absurd hk (Nat.not_lt_zero _), fun _ _ => rfl⟩
  | cons d ds ih =>
    have hx := isElem_sext s.w_pos (s.pv + d)
    have hp : (produce (sext s.w (s.pv + d)) (takeDiff d s)).pv = sext s.w (s.pv + d) :=
      produce_pv (takeDiff d s) hx
    simp only [List.length_cons] at he
    by_cases hd : ds = []
    · subst hd
      refine ⟨elemWrite_wf hw _ _, ?_⟩
      exact storesElems_cons hw ⟨fun k hk => absurd hk (Nat.not_lt_zero _), fun _ _ => rfl⟩
    · have hl : 0 < ds.length := List.length_pos_of_ne_nil hd
      have hi : (produce (sext s.w (s.pv + d)) (takeDiff d s)).eidx.toNat = s.eidx.toNat + 1 := by
        show (s.eidx + BitVec.ofNat 32 1).toNat = _
        rw [BitVec.toNat_add, BitVec.toNat_ofNat]
        omega
      obtain ⟨h1, h2⟩ := ih (produce (sext s.w (s.pv + d)) (takeDiff d s)) (elemWrite_wf hw _ _)
        (by rw [hi]; omega)
      rw [hi, hp] at h2
      exact ⟨h1, storesElems_cons hw h2⟩

/-- One codeword of a literal run (R166). -/
theorem decElem_reads {s : State} {d : Int} (hc : s.sw ≤ s.w) (hd : codable s.ctx d)
    (h : holdsBelow s.bm s.limitBits s.bitpos.toNat (codewordBits s.ctx d)) :
    Reads s (decElem s) (codewordBits s.ctx d).length ()
      (consume [d] (moveOn (codewordBits s.ctx d).length s)) := by
  refine Reads.then_ok (decCodeword_reads hc hd h) ?_
  have ha : (BitVec.ofInt 64 d).toInt = d :=
    codable_acc (c := s.ctx) s.w_le (le_trans hc s.w_le) hd
  show Res.ok () (produce (sext s.w (s.pv + (BitVec.ofInt 64 d).toInt)) _) = _
  rw [ha]
  rfl

/-- The codewords of a literal run (R166). -/
theorem decElems_reads (ds : List Int) {s : State} (hc : s.sw ≤ s.w)
    (hd : ∀ d ∈ ds, codable s.ctx d)
    (h : holdsBelow s.bm s.limitBits s.bitpos.toNat (ds.flatMap (codewordBits s.ctx))) :
    Reads s (Res.times decElem ds.length s) (ds.flatMap (codewordBits s.ctx)).length ()
      (consume ds (moveOn (ds.flatMap (codewordBits s.ctx)).length s)) := by
  induction ds generalizing s with
  | nil =>
    refine ⟨fun _ => ?_, fun hr => absurd (Or.inl rfl) hr⟩
    simp [moveOn_zero, consume]
  | cons d ds ih =>
    rw [List.flatMap_cons, holdsBelow_append] at h
    rw [List.flatMap_cons, List.length_append, List.length_cons, Res.times_succ, ← moveOn_moveOn]
    refine Reads.andThen (decElem_reads hc (hd d (by simp)) h.1) rfl rfl fun hr => ?_
    have hx : (consume [d] (moveOn (codewordBits s.ctx d).length s)).ctx = s.ctx :=
      consume_ctx _ _
    have hb := h.2
    rw [← bitpos_add hr] at hb
    have := ih (s := consume [d] (moveOn (codewordBits s.ctx d).length s))
      (by rw [consume_sw, consume_w]; exact hc)
      (by rw [hx]; exact fun e he => hd e (by simp [he]))
      (by rw [hx, consume_bm, consume_limitBits, consume_bitpos]; exact hb)
    rw [hx, ← consume_moveOn, ← consume_append] at this
    exact this

/-- The literal difference of a run (R96). -/
theorem decLitDiff_reads {s : State} {d : Int} (hd : isElem (s.w + 1) d)
    (h : holdsBelow s.bm s.limitBits s.bitpos.toNat (litDiffBits s.ctx d)) :
    Reads s (decLitDiff s) (litDiffBits s.ctx d).length ()
      (takeDiff d (moveOn (litDiffBits s.ctx d).length s)) := by
  rw [litDiffBits_eq (c := s.ctx) s.w_le] at h ⊢
  rw [bitsOf_length]
  refine Reads.then_ok (readField_reads_value (v := zext (s.w + 1) d) (zext_lt _ d) h) ?_
  exact congrArg (fun e => Res.ok () (takeDiff e _)) ((sext_zext _ d).trans hd)

/-- Repeating the difference in the accumulator (R165). -/
theorem repeat_produce (c : Nat) {s : State} {d : Int} (ha : s.acc = BitVec.ofInt 64 d)
    (hd : (BitVec.ofInt 64 d).toInt = d) :
    Res.times (fun s => .ok () (produce s.nextElem s)) c s =
      .ok () (consume (List.replicate c d) s) := by
  induction c generalizing s with
  | zero => rfl
  | succ c ih =>
    have hn : s.nextElem = sext s.w (s.pv + d) := by rw [State.nextElem, ha, hd]
    have ht : takeDiff d s = s := by rw [takeDiff, ← ha]
    rw [Res.times_succ, Res.andThen_ok, hn, ih (s := produce _ s) ha, List.replicate_succ, consume,
      ht]

theorem isElem_acc {w : Nat} (hw : w ≤ 32) {d : Int} (h : isElem (w + 1) d) :
    (BitVec.ofInt 64 d).toInt = d :=
  codable_acc (c := ⟨w, 0⟩) hw (Nat.zero_le _) (.inl h)

theorem checkCount_ok {c : Nat} {s : State} (h : c ≤ s.rem.toNat) : checkCount c s = .ok () s := by
  rw [checkCount, if_neg (by omega)]

theorem checkCount_overrun {c : Nat} {s : State} (h : s.rem.toNat < c) :
    checkCount c s = .raise .runOverrun s := by
  rw [checkCount, if_pos h]

/-- After a legal segment's marker: its data is read and its elements are put out (R166). -/
theorem afterMarker_reads {s : State} {seg : Segment} (hc : s.sw ≤ s.w)
    (hl : segmentLegal s.ctx seg) (hr : (segmentDiffs seg).length ≤ s.rem.toNat)
    (h : holdsBelow s.bm s.limitBits s.bitpos.toNat (segmentData s.ctx seg)) :
    Reads s (afterMarker (markerByte seg) s) (segmentData s.ctx seg).length ()
      (lessRem (segmentDiffs seg).length
        (consume (segmentDiffs seg) (moveOn (segmentData s.ctx seg).length s))) := by
  have h1 : Config.litRunMax = 127 := rfl
  have h2 : Config.constRunMax = 128 := rfl
  have h3 : Config.continuedMarker = 128 := rfl
  have run : ∀ (c : Nat) (d : Int), 0 < c → c ≤ s.rem.toNat → isElem (s.w + 1) d →
      holdsBelow s.bm s.limitBits s.bitpos.toNat (litDiffBits s.ctx d) →
      Reads s (repeatedRun c s) (litDiffBits s.ctx d).length ()
        (lessRem c (consume (List.replicate c d)
          (moveOn (litDiffBits s.ctx d).length s))) := by
    intro c d hc0 hcr hd hb
    rw [repeatedRun, checkCount_ok hcr, Res.andThen_ok]
    refine Reads.then_ok (decLitDiff_reads hd hb) ?_
    rw [repeat_produce (d := d) c rfl (isElem_acc s.w_le hd), Res.andThen_ok, consume_takeDiff]
    simp; omega
  cases seg with
  | literal ds =>
    obtain ⟨hl1, hl2, hl3⟩ := hl
    rw [markerByte, afterMarker, if_neg (by omega), if_pos hl2, literalRun,
      checkCount_ok (c := ds.length) hr, Res.andThen_ok]
    exact Reads.then_ok (decElems_reads ds hc hl3 h) rfl
  | constant n d =>
    obtain ⟨hl1, hl2, hl3⟩ := hl
    simp only [segmentDiffs, List.length_replicate] at hr
    rw [markerByte, afterMarker, if_neg (by omega), if_neg (by omega), if_neg (by omega),
      show constantRunLength (257 - n) = n by unfold constantRunLength; omega]
    simpa [segmentDiffs, segmentData] using run n d (by omega) hr hl3 h
  | continued d =>
    simp only [segmentDiffs, List.length_replicate] at hr
    rw [markerByte, afterMarker, if_neg (by omega), if_neg (by omega), if_pos rfl]
    rw [show (segmentDiffs (.continued d)).length = Config.constRunMax from List.length_replicate]
    exact run Config.constRunMax d (by decide) hr hl h

/-- One segment at the cursor is read (R166). -/
theorem decSegment_reads {s : State} {seg : Segment} (hc : s.sw ≤ s.w)
    (hl : segmentLegal s.ctx seg) (hr : (segmentDiffs seg).length ≤ s.rem.toNat)
    (h : holdsBelow s.bm s.limitBits s.bitpos.toNat (segmentBits s.ctx seg)) :
    Reads s (decSegment s) (segmentBits s.ctx seg).length ()
      (lessRem (segmentDiffs seg).length
        (consume (segmentDiffs seg) (moveOn (segmentBits s.ctx seg).length s))) := by
  rw [segmentBits_eq (marked_of_segmentLegal hl), holdsBelow_append, bitsOf_length] at h
  rw [segmentBits_eq (marked_of_segmentLegal hl), List.length_append, bitsOf_length,
    ← moveOn_moveOn]
  refine Reads.andThen
    (readField_reads_value (markerByte_lt (marked_of_segmentLegal hl)) h.1) rfl rfl fun hr8 => ?_
  refine afterMarker_reads (s := moveOn 8 s) hc hl hr ?_
  rw [show (moveOn 8 s).bitpos.toNat = s.bitpos.toNat + 8 from bitpos_add hr8]
  exact h.2

theorem segmentDiffs_pos {c : Ctx} {seg : Segment} (h : segmentLegal c seg) :
    0 < (segmentDiffs seg).length := by
  cases seg with
  | literal ds => exact h.1
  | constant n d =>
    have := h.1
    simp only [segmentDiffs, List.length_replicate]
    omega
  | continued d => simp [segmentDiffs]

/-- The same state with another count of missing elements. -/
def State.setRem (r : BitVec 32) (s : State) : State :=
  { s with rem := r }

theorem consume_setRem (ds : List Int) (r : BitVec 32) (s : State) :
    consume ds (s.setRem r) = (consume ds s).setRem r := by
  induction ds generalizing s with
  | nil => rfl
  | cons d ds ih => exact ih (produce (sext s.w (s.pv + d)) (takeDiff d s))

/-- The loop of `DecRow` reads any legal segments that add up to the missing elements (R164, R166). -/
theorem decSegments_reads (segs : List Segment) (fuel : Nat) {s : State} (hc : s.sw ≤ s.w)
    (hl : ∀ seg ∈ segs, segmentLegal s.ctx seg)
    (hr : s.rem.toNat = (segs.flatMap segmentDiffs).length)
    (hf : (segs.flatMap segmentDiffs).length ≤ fuel)
    (h : holdsBelow s.bm s.limitBits s.bitpos.toNat (segs.flatMap (segmentBits s.ctx))) :
    Reads s (decSegments fuel s) (segs.flatMap (segmentBits s.ctx)).length ()
      ((consume (segs.flatMap segmentDiffs)
          (moveOn (segs.flatMap (segmentBits s.ctx)).length s)).setRem 0) := by
  induction segs generalizing s fuel with
  | nil =>
    have h0 : s.rem = 0 := by
      apply BitVec.eq_of_toNat_eq
      simpa using hr
    refine ⟨fun _ => ?_, fun hr => absurd (Or.inl rfl) hr⟩
    have : decSegments fuel s = .ok () s := by
      cases fuel with
      | zero => rfl
      | succ f => rw [decSegments, if_pos h0]
    rw [this]
    simp only [List.flatMap_nil, List.length_nil, consume, moveOn_zero]
    rw [← h0]
    rfl
  | cons seg segs ih =>
    have hlt := s.rem.isLt
    have hpos := segmentDiffs_pos (hl seg (by simp))
    rw [List.flatMap_cons, List.length_append] at hr hf
    rw [List.flatMap_cons, holdsBelow_append] at h
    obtain ⟨f, rfl⟩ : ∃ f, fuel = f + 1 := ⟨fuel - 1, by omega⟩
    rw [List.flatMap_cons, List.flatMap_cons, List.length_append, consume_append, ← moveOn_moveOn,
      consume_moveOn, decSegments, if_neg (by rintro h0; rw [h0] at hr; simp at hr; omega)]
    refine Reads.andThen (decSegment_reads hc (hl seg (by simp)) (by omega) h.1)
      (consume_bitpos _ _) (consume_limit _ _) fun hr1 => ?_
    have hx : (lessRem (segmentDiffs seg).length (consume (segmentDiffs seg)
        (moveOn (segmentBits s.ctx seg).length s))).ctx = s.ctx := consume_ctx _ _
    have hb := h.2
    rw [← bitpos_add hr1] at hb
    have := ih f (s := lessRem (segmentDiffs seg).length (consume (segmentDiffs seg)
      (moveOn (segmentBits s.ctx seg).length s)))
      (by
        show (consume _ _).sw ≤ (consume _ _).w
        rw [consume_sw, consume_w]; exact hc)
      (by rw [hx]; exact fun g hg => hl g (by simp [hg]))
      (by
        show ((consume _ _).rem - BitVec.ofNat 32 _).toNat = _
        rw [consume_rem, BitVec.toNat_sub, BitVec.toNat_ofNat]
        show (_ + s.rem.toNat) % _ = _
        omega)
      (by omega)
      (by
        rw [hx]
        show holdsBelow (consume _ _).bm (consume _ _).limitBits (consume _ _).bitpos.toNat _
        rw [consume_bm, consume_limitBits, consume_bitpos]; exact hb)
    rw [hx] at this
    convert this using 1
    simp only [consume_moveOn, consume_lessRem]
    rfl

end Sys2Proof.Machine
end

