-- ==== Sys2Proof/Laws/Blocks.lean ====
section
/-! SUPPORT. What the functions of BlockFramer do (43_blockframer.md): rows inside a block, the block with
its padding, and the header. -/

namespace Sys2Proof.Machine

/-! ## Elements -/

theorem isElem_elemAt (s : State) (k : Nat) : isElem s.w (elemAt s k) :=
  isElem_sext s.w_pos _

theorem isElem_elemsAt (s : State) (n : Nat) : ∀ x ∈ elemsAt s n, isElem s.w x := by
  intro x hx
  obtain ⟨k, -, rfl⟩ := List.mem_map.mp hx
  exact isElem_elemAt s k

@[simp] theorem elemsAt_length (s : State) (n : Nat) : (elemsAt s n).length = n := by
  simp [elemsAt]

theorem elemsAt_getLastD (s : State) {n : Nat} (h : 0 < n) (d : Int) :
    (elemsAt s n).getLastD d = elemAt s (n - 1) := by
  obtain ⟨k, rfl⟩ : ∃ k, n = k + 1 := ⟨n - 1, by omega⟩
  simp [elemsAt, List.range_succ]

/-- The elements from EIDX on, the first one apart. -/
theorem elemsAt_succ {s t : State} (n : Nat) (hw : t.w = s.w) (hm : t.em = s.em)
    (he : t.eidx.toNat = s.eidx.toNat + 1) :
    elemsAt s (n + 1) = elemAt s 0 :: elemsAt t n := by
  rw [elemsAt, List.range_succ_eq_map, List.map_cons, List.map_map, elemsAt]
  congr 1
  refine List.map_congr_left fun k _ => ?_
  show elemAt s (k + 1) = elemAt t k
  rw [elemAt, elemAt, hw, hm, he]
  congr 1
  omega

theorem setPrev_pv (x : Int) (s : State) (hx : isElem s.w x) : (setPrev x s).pv = x :=
  produce_pv (x := x) s hx

/-- PREV as commands leave it has no bits above `W` (R30). -/
theorem setPrev_pv_self {s : State} {x : Int} (h : s.prev = BitVec.ofNat 32 (zext s.w x)) :
    setPrev s.pv s = s := by
  have h1 : s.prev.toNat = zext s.w x := by
    rw [h, BitVec.toNat_ofNat]
    exact Nat.mod_eq_of_lt (lt_of_lt_of_le (zext_lt _ _) (Nat.pow_le_pow_right (by omega) s.w_le))
  have h2 : BitVec.ofNat 32 (zext s.w s.pv) = s.prev := by
    rw [State.pv, h1, sext_zext, zext_sext, h]
  rw [setPrev, h2]

/-! ## Rows inside a block -/

theorem advance_eidx_toNat {s : State} {n : Nat} (h : s.eidx.toNat + n < 2 ^ 32) :
    (s.eidx + BitVec.ofNat 32 n).toNat = s.eidx.toNat + n := by
  rw [BitVec.toNat_add, BitVec.toNat_ofNat]
  omega

/-- `s` after the encoder's next element `x`: PREV holds it, EIDX has moved on (R186). -/
theorem afterEncRow_succ {s t : State} {n j k : Nat} {x : Int}
    (ht : t = advance 1 (setPrev x (moveOn j s))) (hx : x = elemAt s 0)
    (hte : t.eidx.toNat = s.eidx.toNat + 1) :
    afterEncRow (n + 1) (j + k) s = afterEncRow n k t := by
  have hem : t.em = s.em := by rw [ht]; rfl
  have hw : t.w = s.w := by rw [ht]; rfl
  simp only [afterEncRow, Nat.succ_pos, gt_iff_lt, if_true, ← moveOn_moveOn]
  by_cases hn : 0 < n
  · have hl : elemAt s (n + 1 - 1) = elemAt t (n - 1) := by
      rw [elemAt, elemAt, hte, hem, hw]
      congr 1
      omega
    rw [if_pos hn, hl, ht]
    simp only [advance, setPrev, moveOn]
    congr 1
    rw [BitVec.add_assoc, ← BitVec.ofNat_add, Nat.add_comm]
  · obtain rfl : n = 0 := by omega
    rw [if_neg hn, ht, hx]
    simp [advance, setPrev, moveOn]
    rfl

theorem takeElem_setBm (m : Memory 8) (k : Nat) (s : State) :
    advance 1 (setPrev (elemAt ((moveOn k s).setBm m) 0) ((moveOn k s).setBm m)) =
      (advance 1 (setPrev (elemAt s 0) (moveOn k s))).setBm m := by
  have h : elemAt ((moveOn k s).setBm m) 0 = elemAt s 0 := rfl
  rw [h]
  generalize elemAt s 0 = x
  rfl

/-- What taking an element keeps (R186). -/
theorem takeElem_keeps {s t : State} {x : Int} {k : Nat}
    (ht : t = advance 1 (setPrev x (moveOn k s))) :
    t.ctx = s.ctx ∧ t.sw = s.sw ∧ t.w = s.w ∧ t.em = s.em ∧ t.limit = s.limit ∧
      t.blkw = s.blkw ∧ t.runLength = s.runLength ∧
      t.bitpos = s.bitpos + BitVec.ofNat 64 k ∧ t.eidx = s.eidx + 1 := by
  subst ht
  exact ⟨rfl, rfl, rfl, rfl, rfl, rfl, rfl, rfl, rfl⟩

/-- The rest of a plain block is the codewords of its differences (R186). -/
theorem encElems_writes (n : Nat) {s : State} (hw : Memory.wf s.bm) (hc : s.sw ≤ s.w)
    (he : s.eidx.toNat + n < 2 ^ 32) :
    Writes s (Res.times encElem n s)
      ((rowDiffs s.pv (elemsAt s n)).flatMap (codewordBits s.ctx))
      (afterEncRow n ((rowDiffs s.pv (elemsAt s n)).flatMap (codewordBits s.ctx)).length s) := by
  induction n generalizing s with
  | zero =>
    have : afterEncRow 0 0 s = s := by
      simp only [afterEncRow, moveOn_zero, advance]
      simp
    simpa [elemsAt, rowDiffs, this] using Writes.nothing hw
  | succ n ih =>
    obtain ⟨t, ht⟩ : ∃ t, t = advance 1 (setPrev (elemAt s 0)
      (moveOn (codewordBits s.ctx (elemAt s 0 - s.pv)).length s)) := ⟨_, rfl⟩
    obtain ⟨hctx, htc, htw, htem, htl, htb, hrl, htp, htx⟩ := takeElem_keeps ht
    have hpv : t.pv = elemAt s 0 := by
      rw [ht]
      exact setPrev_pv (elemAt s 0) (moveOn _ s) (isElem_elemAt s 0)
    have hte : t.eidx.toNat = s.eidx.toNat + 1 := by
      rw [htx]
      exact advance_eidx_toNat (s := s) (n := 1) (by omega)
    have hels : elemsAt s (n + 1) = elemAt s 0 :: elemsAt t n :=
      elemsAt_succ n htw htem hte
    have h1 : Writes s (encElem s) (codewordBits s.ctx (elemAt s 0 - s.pv)) t := by
      rw [ht]
      unfold encElem
      refine Writes.then_ok (encCodeword_writes hw hc (elemAt s 0 - s.pv)) fun _ m _ => ?_
      rw [takeElem_setBm]
    rw [hels, rowDiffs, List.flatMap_cons, List.length_append, Res.times_succ,
      afterEncRow_succ ht rfl hte]
    refine Writes.andThen h1 htp htl fun _ m hm => ?_
    have h2 := ih (s := t.setBm m) hm (by rw [setBm_sw, setBm_w, htc, htw]; exact hc)
      (by rw [setBm_eidx, hte]; omega)
    rw [setBm_pv, setBm_ctx, elemsAt_setBm, afterEncRow_setBm, Writes.base_setBm, hpv, hctx] at h2
    exact h2

/-- `DecRow(n)` reads any legal segments that add up to `n` (R164, R166). -/
theorem decRow_reads {s : State} {segs : List Segment} {n : Nat} (hc : s.sw ≤ s.w)
    (hl : ∀ seg ∈ segs, segmentLegal s.ctx seg) (hn : (segs.flatMap segmentDiffs).length = n)
    (hlt : n < 2 ^ 32) (h : holdsBelow s.bm s.limitBits s.bitpos.toNat (segs.flatMap (segmentBits s.ctx))) :
    Reads s (decRow n s) (segs.flatMap (segmentBits s.ctx)).length ()
      (setPrev (consume (segs.flatMap segmentDiffs) s).pv
        ((consume (segs.flatMap segmentDiffs)
            (moveOn (segs.flatMap (segmentBits s.ctx)).length s)).setRem 0)) := by
  have h1 := decSegments_reads segs n (s := s.setRem (BitVec.ofNat 32 n)) hc hl
    (by
      show (BitVec.ofNat 32 n).toNat = _
      rw [BitVec.toNat_ofNat, hn]; omega) (le_of_eq hn) h
  have hm : ∀ k, consume (segs.flatMap segmentDiffs) (moveOn k (s.setRem (BitVec.ofNat 32 n))) =
      (consume (segs.flatMap segmentDiffs) (moveOn k s)).setRem (BitVec.ofNat 32 n) :=
    fun k => consume_setRem _ _ (moveOn k s)
  rw [hm] at h1
  have hp : ∀ k, (consume (segs.flatMap segmentDiffs) (moveOn k s)).pv =
      (consume (segs.flatMap segmentDiffs) s).pv := by
    intro k
    rw [consume_moveOn]; rfl
  refine Reads.then_ok h1 ?_
  rw [← hp (segs.flatMap (segmentBits s.ctx)).length]
  rfl

/-! ## The block -/

theorem rawBits_eq (c : Ctx) (hw : c.w ≤ 32) (x : Int) :
    Sys2Proof.encode c (.raw (BitVec.ofNat 32 (zext c.w x))) = bitsOf (zext c.w x) c.w := by
  have : zext c.w x < 2 ^ 32 :=
    lt_of_lt_of_le (zext_lt _ _) (Nat.pow_le_pow_right (by omega) hw)
  simp only [Sys2Proof.encode, encodeFields, fieldBits_cons, fieldBits_nil, List.append_nil,
    BitVec.toNat_ofNat, Nat.mod_eq_of_lt this]

theorem padding_eq (n : Nat) : padding n = bitsOf 0 (padBits n) := by
  have : padBits n % 8 = padBits n := Nat.mod_eq_of_lt (padBits_lt n)
  simp only [padding, Sys2Proof.encode, encodeFields, fieldBits_cons, fieldBits_nil,
    List.append_nil, BitVec.toNat_ofNat]
  norm_num [this]

theorem padBits_add {o n : Nat} (h : o % 8 = 0) : padBits (o + n) = padBits n := by
  unfold padBits; omega

/-- A block takes whole bytes (R97). -/
theorem blockBits_length_mod (c : Ctx) (rl : Bool) (xs : List Int) :
    (blockBits c rl xs).length % 8 = 0 := by
  rw [blockBits, List.length_append, padding_eq, bitsOf_length]
  unfold padBits; omega

/-- What a block's rest is in the two modes (R83). -/
def restBits (c : Ctx) (rl : Bool) (ds : List Int) : List Bool :=
  if rl then rowBits c ds else ds.flatMap (codewordBits c)

theorem blockBody_cons (c : Ctx) (hw : c.w ≤ 32) (rl : Bool) (x : Int) (xs : List Int) :
    blockBody c rl (x :: xs) = bitsOf (zext c.w x) c.w ++ restBits c rl (rowDiffs x xs) := by
  rw [blockBody, rawBits_eq c hw]
  rfl

/-- The encoder's row in either mode. -/
theorem encRest_writes {s : State} (hw : Memory.wf s.bm) (hc : s.sw ≤ s.w) (n : Nat)
    (he : s.eidx.toNat + n < 2 ^ 32) :
    Writes s (if s.runLength then encRow n s else Res.times encElem n s)
      (restBits s.ctx s.runLength (rowDiffs s.pv (elemsAt s n)))
      (afterEncRow n (restBits s.ctx s.runLength (rowDiffs s.pv (elemsAt s n))).length s) := by
  unfold restBits
  split
  · exact encRow_writes hw hc n
  · exact encElems_writes n hw hc he

/-- Where `EncBlock()` leaves the registers after `k` bits (R186). -/
def afterEncBlock (k : Nat) (s : State) : State :=
  { s with
    bitpos := s.bitpos + BitVec.ofNat 64 k
    prev := BitVec.ofNat 32 (zext s.w (elemAt s (s.blkw.toNat - 1)))
    eidx := s.eidx + s.blkw
    blk := s.blk + 1 }

theorem afterEncRow_bitpos (n k : Nat) (s : State) :
    (afterEncRow n k s).bitpos = s.bitpos + BitVec.ofNat 64 k := by
  unfold afterEncRow; split <;> rfl

theorem afterEncRow_limit (n k : Nat) (s : State) : (afterEncRow n k s).limit = s.limit := by
  unfold afterEncRow; split <;> rfl

/-- The whole row, counted from its first element, leaves the registers so. -/
theorem afterEncRow_block {s : State} {k p : Nat} (hb : s.blkw ≠ 0) :
    countBlock (moveOn p (afterEncRow s.blkw.toNat k s)) = afterEncBlock (k + p) s := by
  have hn : 0 < s.blkw.toNat := by
    by_contra h
    exact hb (BitVec.eq_of_toNat_eq (by simpa using h))
  have he : BitVec.ofNat 32 s.blkw.toNat = s.blkw := by simp
  simp only [afterEncRow, if_pos hn, countBlock, moveOn, advance, setPrev, afterEncBlock,
    BitVec.ofNat_add, BitVec.add_assoc, he]
  rfl

/-- `EncBlock()` stores a block, padding included (R186). -/
theorem encBlock_writes {s : State} (hw : Memory.wf s.bm) (hc : s.sw ≤ s.w) (hb : s.blkw ≠ 0)
    (he : s.eidx.toNat + s.blkw.toNat < 2 ^ 32) (ha : s.bitpos.toNat % 8 = 0) :
    Writes s (encBlock s) (blockBits s.ctx s.runLength (elemsAt s s.blkw.toNat))
      (afterEncBlock (blockBits s.ctx s.runLength (elemsAt s s.blkw.toNat)).length s) := by
  have hn : s.blkw.toNat ≠ 0 := fun h => hb (BitVec.eq_of_toNat_eq h)
  obtain ⟨n, hn1⟩ : ∃ n, s.blkw.toNat = n + 1 := ⟨s.blkw.toNat - 1, by omega⟩
  obtain ⟨t, ht⟩ : ∃ t, t = advance 1 (setPrev (elemAt s 0) (moveOn s.w s)) := ⟨_, rfl⟩
  obtain ⟨hctx, htc, htw, htem, htl, htb, hrl, htp, htx⟩ := takeElem_keeps ht
  have hpv : t.pv = elemAt s 0 := by
    rw [ht]
    exact setPrev_pv (elemAt s 0) (moveOn _ s) (isElem_elemAt s 0)
  have hte : t.eidx.toNat = s.eidx.toNat + 1 := by
    rw [htx]
    exact advance_eidx_toNat (s := s) (n := 1) (by omega)
  have hels : elemsAt s s.blkw.toNat = elemAt s 0 :: elemsAt t n := by
    rw [hn1]
    exact elemsAt_succ n htw htem hte
  obtain ⟨rest, hrest⟩ : ∃ rest, rest =
    restBits s.ctx s.runLength (rowDiffs (elemAt s 0) (elemsAt t n)) := ⟨_, rfl⟩
  obtain ⟨body, hbody⟩ : ∃ body, body =
    blockBody s.ctx s.runLength (elemsAt s s.blkw.toNat) := ⟨_, rfl⟩
  have hbr : body = bitsOf (zext s.w (elemAt s 0)) s.w ++ rest := by
    rw [hbody, hels, blockBody_cons _ s.w_le, hrest]
    rfl
  have hlen : body.length = s.w + rest.length := by
    rw [hbr, List.length_append, bitsOf_length]
  have h1 : Writes s (encFirst s) (bitsOf (zext s.w (elemAt s 0)) s.w) t := by
    rw [ht]
    unfold encFirst
    refine Writes.then_ok (writeField_writes hw _ _) fun _ m _ => ?_
    rw [takeElem_setBm]
  have hrow : afterEncRow n rest.length t = afterEncRow s.blkw.toNat body.length s := by
    rw [hn1, hlen, afterEncRow_succ ht rfl hte]
  have h12 : Writes s ((encFirst s).andThen fun _ s =>
      if s.runLength then encRow (s.blkw.toNat - 1) s
      else Res.times encElem (s.blkw.toNat - 1) s) body
      (afterEncRow s.blkw.toNat body.length s) := by
    rw [← hrow, hbr]
    refine Writes.andThen h1 (by rw [bitsOf_length, htp]) htl
      fun _ m hm => ?_
    have h2 := encRest_writes (s := t.setBm m) hm (by rw [setBm_sw, setBm_w, htc, htw]; exact hc) n
      (by rw [setBm_eidx, hte]; omega)
    rw [setBm_pv, setBm_ctx, elemsAt_setBm, afterEncRow_setBm, Writes.base_setBm, hpv, hctx,
      setBm_runLength, hrl, ← hrest] at h2
    have hk : (t.setBm m).blkw.toNat - 1 = n := by
      rw [setBm_blkw, htb, hn1]
      rfl
    rw [hk, setBm_runLength, hrl]
    exact h2
  have hbits : blockBits s.ctx s.runLength (elemsAt s s.blkw.toNat) =
      body ++ bitsOf 0 (padBits body.length) := by
    rw [blockBits, padding_eq, hbody]
  rw [hbits, List.length_append, bitsOf_length, ← afterEncRow_block hb]
  unfold encBlock
  rw [← Res.andThen_assoc]
  refine Writes.andThen h12 (afterEncRow_bitpos _ _ _) (afterEncRow_limit _ _ _)
    fun hr m hm => ?_
  have hp : ((afterEncRow s.blkw.toNat body.length s).setBm m).bitpos.toNat =
      s.bitpos.toNat + body.length := by
    rw [setBm_bitpos, afterEncRow_bitpos, bitpos_add hr]
  refine Writes.then_ok (base1 := moveOn (padBits body.length)
    (afterEncRow s.blkw.toNat body.length s)) ?_ fun _ m' _ => rfl
  have h3 := writeField_writes (s := (afterEncRow s.blkw.toNat body.length s).setBm m) hm 0
    (padBits body.length)
  rw [moveOn_setBm, Writes.base_setBm] at h3
  rw [alignWrite, hp, padBits_add ha]
  exact h3

end Sys2Proof.Machine
end

