-- ==== Sys2Proof/Laws/Stream.lean ====
section
/-! SUPPORT. What `DecBlock`, the header functions and whole sequences of blocks do
(43_blockframer.md). -/

namespace Sys2Proof.Machine

/-! ## Operations that read and store elements -/

/-- `r` is what an operation does in `s` that consumes `n` bits at the cursor: inside the limit it
completes with a state that has `P`; otherwise it is ReadPastEnd. -/
def ReadsTo {α : Type} (s : State) (r : Res α) (n : Nat) (a : α) (P : State → Prop) : Prop :=
  (room n s → ∃ t, r = .ok a t ∧ P t) ∧ (¬room n s → ∃ u, r = .raise .readPastEnd u)

theorem ReadsTo.of_reads {α : Type} {s t : State} {r : Res α} {n : Nat} {a : α}
    {P : State → Prop} (h : Reads s r n a t) (hp : P t) : ReadsTo s r n a P :=
  ⟨fun hr => ⟨t, h.1 hr, hp⟩, h.2⟩

theorem ReadsTo.mono {α : Type} {s : State} {r : Res α} {n : Nat} {a : α} {P Q : State → Prop}
    (h : ReadsTo s r n a P) (hpq : room n s → ∀ t, P t → Q t) : ReadsTo s r n a Q :=
  ⟨fun hr => (h.1 hr).imp fun t ht => ⟨ht.1, hpq hr t ht.2⟩, h.2⟩

/-- Two such operations, one after the other. -/
theorem ReadsTo.andThen {α β : Type} {s : State} {r : Res α} {f : α → State → Res β} {n1 n2 : Nat}
    {a : α} {b : β} {P Q : State → Prop} (h1 : ReadsTo s r n1 a P)
    (hp : ∀ t, P t → t.bitpos = s.bitpos + BitVec.ofNat 64 n1 ∧ t.limit = s.limit)
    (h2 : room n1 s → ∀ t, P t → ReadsTo t (f a t) n2 b Q) :
    ReadsTo s (r.andThen f) (n1 + n2) b Q := by
  have move : room n1 s → ∀ t, P t → (room n2 t ↔ room (n1 + n2) s) := by
    intro hr1 t ht
    obtain ⟨hb, hl⟩ := hp t ht
    have hlim : t.limitBits = s.limitBits := by rw [State.limitBits, hl, State.limitBits]
    have hpos : t.bitpos.toNat = s.bitpos.toNat + n1 := by rw [hb, bitpos_add hr1]
    unfold room at hr1 ⊢
    omega
  constructor
  · intro hr
    have hr1 : room n1 s := by
      rcases hr with h | h
      · left; omega
      · right; omega
    obtain ⟨t, rfl, ht⟩ := h1.1 hr1
    exact (h2 hr1 t ht).1 ((move hr1 t ht).mpr hr)
  · intro hr
    by_cases hr1 : room n1 s
    · obtain ⟨t, rfl, ht⟩ := h1.1 hr1
      exact (h2 hr1 t ht).2 fun h => hr ((move hr1 t ht).mp h)
    · obtain ⟨u, rfl⟩ := h1.2 hr1
      exact ⟨u, rfl⟩

/-- Elements stored one list after the other. -/
theorem storesElems_append {m m1 m2 : Memory 32} {i : Nat} {xs ys : List Int}
    (h1 : storesElems m m1 i xs) (h2 : storesElems m1 m2 (i + xs.length) ys) :
    storesElems m m2 i (xs ++ ys) := by
  obtain ⟨a1, b1⟩ := h1
  obtain ⟨a2, b2⟩ := h2
  refine ⟨fun k hk => ?_, fun j hj => ?_⟩
  · by_cases hx : k < xs.length
    · rw [b2 _ (.inl (by omega)), a1 k hx, List.getElem_append_left hx]
    · rw [List.length_append] at hk
      have := a2 (k - xs.length) (by omega)
      rw [List.getElem_append_right (by omega), ← this]
      congr 1
      omega
  · rw [List.length_append] at hj
    rw [b2 j (by omega), b1 j (by omega)]

theorem storesElems_nil (m : Memory 32) (i : Nat) : storesElems m m i [] :=
  ⟨fun _ hk => absurd hk (Nat.not_lt_zero _), fun _ _ => rfl⟩

/-! ## Blocks -/

theorem room_pad {s : State} {n : Nat} (ha : s.bitpos.toNat % 8 = 0) :
    room (n + padBits n) s ↔ room n s := by
  have hl : s.limitBits % 8 = 0 := by unfold State.limitBits; omega
  unfold room padBits
  omega

theorem CodedBlock.body_eq {c : Ctx} (hw : c.w ≤ 32) (b : CodedBlock) :
    b.body c = bitsOf (zext c.w b.first) c.w ++ b.rest := by
  rw [CodedBlock.body, rawBits_eq c hw]

theorem CodedBlock.bits_length (c : Ctx) (b : CodedBlock) :
    (b.bits c).length = (b.body c).length + padBits (b.body c).length := by
  rw [CodedBlock.bits, List.length_append, padding_eq, bitsOf_length]

/-- A block takes whole bytes (R97). -/
theorem CodedBlock.bits_length_mod (c : Ctx) (b : CodedBlock) : (b.bits c).length % 8 = 0 := by
  rw [CodedBlock.bits_length]
  unfold padBits
  omega

theorem CodedBlock.elems_length (w : Nat) (b : CodedBlock) :
    (b.elems w).length = b.diffs.length + 1 := by
  rw [CodedBlock.elems, List.length_cons, runningElems_length]

theorem blockBits_length (c : Ctx) (rl : Bool) (xs : List Int) :
    (blockBits c rl xs).length = (blockBody c rl xs).length + padBits (blockBody c rl xs).length := by
  rw [blockBits, List.length_append, padding_eq, bitsOf_length]

/-- The rest of a block, in either mode: what the decoder reads, and the elements it stores (R188). -/
theorem decRest_reads {s : State} (hw : Memory.wf s.em) (hc : s.sw ≤ s.w) {x : Int} {ds : List Int}
    {bits : List Bool} (hpv : s.pv = x) (hp : s.prev = BitVec.ofNat 32 (zext s.w x))
    (hcd : codes s.ctx s.runLength ds bits) (he : s.eidx.toNat + ds.length ≤ 2 ^ 32)
    (hn : ds.length < 2 ^ 32) (h : holdsBelow s.bm s.limitBits s.bitpos.toNat bits) :
    ReadsTo s (if s.runLength then decRow ds.length s else Res.times decElem ds.length s)
      bits.length () fun t =>
        t = { s with
          em := t.em, acc := t.acc, rem := t.rem
          bitpos := s.bitpos + BitVec.ofNat 64 bits.length
          prev := BitVec.ofNat 32 (zext s.w ((runningElems s.w x ds).getLastD x))
          eidx := s.eidx + BitVec.ofNat 32 ds.length } ∧
        Memory.wf t.em ∧ storesElems s.em t.em s.eidx.toNat (runningElems s.w x ds) := by
  subst hpv
  have hem := consume_em ds s hw he
  have hpv' := consume_pv ds s
  obtain ⟨y, hy⟩ : ∃ y, y = (runningElems s.w s.pv ds).getLastD s.pv := ⟨_, rfl⟩
  rw [← hy] at hpv' ⊢
  have hprev : (consume ds s).prev = BitVec.ofNat 32 (zext s.w y) := by
    by_cases h0 : ds = []
    · subst h0
      rw [hy]
      exact hp
    · rw [consume_prev h0, ← hy]
  obtain ⟨u, hu⟩ : ∃ u, u = consume ds s := ⟨_, rfl⟩
  have hframe : u = { s with
      em := u.em, acc := u.acc, prev := BitVec.ofNat 32 (zext s.w y)
      eidx := s.eidx + BitVec.ofNat 32 ds.length } := by
    rw [← hprev, hu]
    exact consume_frame _ _
  rw [← hu] at hem hpv'
  have huw : u.w = s.w := by rw [hu, consume_w]
  unfold codes at hcd
  by_cases hrl : s.runLength
  · simp only [hrl, if_true] at hcd ⊢
    obtain ⟨segs, hl, hds, rfl⟩ := hcd
    have hr := decRow_reads (n := ds.length) hc hl (by rw [← hds]) hn h
    rw [← hds, consume_moveOn, ← hu] at hr
    refine ReadsTo.of_reads hr ⟨?_, hem.1, hem.2⟩
    rw [hpv']
    generalize (segs.flatMap (segmentBits s.ctx)).length = k
    rw [setPrev, show ((moveOn k u).setRem 0).w = s.w from huw, hframe]
    rfl
  · simp only [hrl, Bool.false_eq_true, if_false] at hcd ⊢
    obtain ⟨hd, rfl⟩ := hcd
    have hr := decElems_reads ds hc hd h
    rw [consume_moveOn, ← hu] at hr
    refine ReadsTo.of_reads hr ⟨?_, hem.1, hem.2⟩
    generalize (ds.flatMap (codewordBits s.ctx)).length = k
    rw [hframe]
    rfl

/-- `t` is `s` after the decoder read `k` bits that held `rows`: the elements stand in the cells from
EIDX on, and the registers have moved on (R188). -/
def Decoded (s t : State) (k : Nat) (rows : List (List Int)) : Prop :=
  t = { s with
    em := t.em, acc := t.acc, rem := t.rem
    bitpos := s.bitpos + BitVec.ofNat 64 k
    prev := if rows = [] then s.prev else BitVec.ofNat 32 (zext s.w (rows.flatten.getLastD 0))
    eidx := s.eidx + BitVec.ofNat 32 (s.blkw.toNat * rows.length)
    blk := s.blk + BitVec.ofNat 32 rows.length } ∧
  Memory.wf t.em ∧ storesElems s.em t.em s.eidx.toNat rows.flatten

/-- `DecBlock()` where a legal block stands at an aligned cursor, whatever its pad bits (R188, R97). -/
theorem decBlock_reads {s : State} (hw : Memory.wf s.em) (hc : s.sw ≤ s.w) {b : CodedBlock}
    (hl : b.legal s.ctx s.runLength s.blkw.toNat) (he : s.eidx.toNat + s.blkw.toNat < 2 ^ 32)
    (ha : s.bitpos.toNat % 8 = 0) (h : holdsBelow s.bm s.limitBits s.bitpos.toNat (b.body s.ctx)) :
    ReadsTo s (decBlock s) (b.bits s.ctx).length () fun t =>
      Decoded s t (b.bits s.ctx).length [b.elems s.w] := by
  obtain ⟨x, ds, rest⟩ := b
  obtain ⟨hx, hlen, hcd⟩ := hl
  simp only at hx hlen hcd
  rw [CodedBlock.body_eq s.w_le, holdsBelow_append, bitsOf_length] at h
  have hbody : (CodedBlock.body s.ctx ⟨x, ds, rest⟩).length = s.w + rest.length := by
    rw [CodedBlock.body_eq s.w_le, List.length_append, bitsOf_length]
    rfl
  rw [show CodedBlock.elems s.w ⟨x, ds, rest⟩ = x :: runningElems s.w x ds from rfl]
  obtain ⟨xs, hxs⟩ : ∃ xs, xs = runningElems s.w x ds := ⟨_, rfl⟩
  have hxl : xs.length = ds.length := by rw [hxs, runningElems_length]
  rw [← hxs]
  obtain ⟨t, ht⟩ : ∃ t, t = produce x (moveOn s.w s) := ⟨_, rfl⟩
  have h1 : Reads s (decFirst s) s.w () t := by
    refine Reads.then_ok (readField_reads_value (zext_lt _ x) h.1) ?_
    show Res.ok () (produce (sext s.w (zext s.w x)) (moveOn s.w s)) = _
    rw [sext_zext, show sext s.w x = x from hx, ht]
  have htw : t.w = s.w := by rw [ht]; rfl
  have htc : t.sw = s.sw := by rw [ht]; rfl
  have htx : t.ctx = s.ctx := by rw [ht]; rfl
  have htr : t.runLength = s.runLength := by rw [ht]; rfl
  have htb : t.bitpos = s.bitpos + BitVec.ofNat 64 s.w := by rw [ht]; rfl
  have htl : t.limit = s.limit := by rw [ht]; rfl
  have htm : t.bm = s.bm := by rw [ht]; rfl
  have htk : t.blkw = s.blkw := by rw [ht]; rfl
  have hpv : t.pv = x := by
    rw [ht]; exact produce_pv (moveOn s.w s) hx
  have hpr : t.prev = BitVec.ofNat 32 (zext t.w x) := by rw [htw, ht]; rfl
  have hem : t.em = elemWrite s.em s.eidx.toNat x := by rw [ht]; rfl
  have hti : t.eidx = s.eidx + BitVec.ofNat 32 1 := by rw [ht]; rfl
  have hbl := s.blkw.isLt
  have hst : ∀ m, storesElems t.em m (s.eidx.toNat + 1) xs →
      storesElems s.em m s.eidx.toNat (x :: xs) := by
    intro m hm
    rw [hem] at hm
    exact storesElems_cons hw hm
  have hti' : t.eidx.toNat = s.eidx.toNat + 1 := by
    rw [hti]
    exact advance_eidx_toNat (s := s) (n := 1) (by omega)
  have hrd : ReadsTo s ((decFirst s).andThen fun _ s =>
      if s.runLength then decRow (s.blkw.toNat - 1) s
      else Res.times decElem (s.blkw.toNat - 1) s) (s.w + rest.length) () fun u =>
        u = { s with
          em := u.em, acc := u.acc, rem := u.rem
          bitpos := s.bitpos + BitVec.ofNat 64 (s.w + rest.length)
          prev := BitVec.ofNat 32 (zext s.w ((x :: xs).getLastD 0))
          eidx := s.eidx + s.blkw } ∧
        Memory.wf u.em ∧ storesElems s.em u.em s.eidx.toNat (x :: xs) := by
    refine ReadsTo.andThen (ReadsTo.of_reads (P := fun v => v = t) h1 rfl)
      (fun v hv => by rw [hv]; exact ⟨htb, htl⟩) fun hr v hv => ?_
    subst hv
    rw [show v.blkw.toNat - 1 = ds.length by rw [htk]; omega]
    have hz := decRest_reads (s := v) (x := x) (ds := ds) (bits := rest)
      (by rw [hem]; exact elemWrite_wf hw _ _)
      (by rw [htc, htw]; exact hc) hpv hpr (by rw [htx, htr]; exact hcd)
      (by rw [hti']; omega) (by omega)
      (by rw [htm, htb, State.limitBits, htl, bitpos_add hr]; exact h.2)
    rw [htr, htw, htb, hti', hti, ← hxs] at hz
    rw [htr]
    refine hz.mono fun _ u hu => ?_
    obtain ⟨hu1, hu2, hu3⟩ := hu
    refine ⟨?_, hu2, hst _ hu3⟩
    have hbl : BitVec.ofNat 32 ds.length = s.blkw - 1 := by
      apply BitVec.eq_of_toNat_eq
      rw [BitVec.toNat_sub, BitVec.toNat_ofNat]
      show _ = (2 ^ 32 - 1 + _) % _
      omega
    have he1 : s.eidx + BitVec.ofNat 32 1 + BitVec.ofNat 32 ds.length = s.eidx + s.blkw := by
      rw [hbl, BitVec.add_assoc]
      congr 1
      show 1 + (s.blkw - 1) = s.blkw
      rw [BitVec.add_comm, BitVec.sub_add_cancel]
    rw [he1, BitVec.add_assoc, ← BitVec.ofNat_add] at hu1
    rw [List.getLastD_cons]
    generalize xs.getLastD x = y at hu1 ⊢
    rw [hu1, ht]
    rfl
  rw [CodedBlock.bits_length, hbody]
  unfold decBlock
  rw [← Res.andThen_assoc]
  have hpad : ∀ u : State, u.bitpos = s.bitpos + BitVec.ofNat 64 (s.w + rest.length) →
      padBits u.bitpos.toNat = padBits (s.w + rest.length) := by
    intro u hu
    rw [hu, BitVec.toNat_add, BitVec.toNat_ofNat]
    unfold padBits
    omega
  have key : ∀ u : State, (u = { s with
          em := u.em, acc := u.acc, rem := u.rem
          bitpos := s.bitpos + BitVec.ofNat 64 (s.w + rest.length)
          prev := BitVec.ofNat 32 (zext s.w ((x :: xs).getLastD 0))
          eidx := s.eidx + s.blkw } ∧
        Memory.wf u.em ∧ storesElems s.em u.em s.eidx.toNat (x :: xs)) →
      Decoded s (countBlock (alignRead u)) (s.w + rest.length + padBits (s.w + rest.length))
        [x :: xs] := by
    rintro u ⟨hu1, hu2, hu3⟩
    refine ⟨?_, hu2, by simpa using hu3⟩
    have hp := hpad u (by rw [hu1])
    rw [alignRead, hp]
    have e1 : s.blkw.toNat * [x :: xs].length = s.blkw.toNat := by simp
    have e2 : [x :: xs].flatten.getLastD 0 = (x :: xs).getLastD 0 := by simp
    rw [e1, e2, if_neg (by simp), BitVec.ofNat_add, ← BitVec.add_assoc, BitVec.ofNat_toNat,
      BitVec.setWidth_eq]
    generalize (x :: xs).getLastD 0 = y at hu1 ⊢
    generalize padBits (s.w + rest.length) = p
    rw [hu1]
    rfl
  constructor
  · intro hr
    obtain ⟨u, hu, hP⟩ := hrd.1 ((room_pad ha).mp hr)
    exact ⟨_, by rw [hu]; rfl, key u hP⟩
  · intro hr
    obtain ⟨u, hu⟩ := hrd.2 fun h => hr ((room_pad ha).mpr h)
    exact ⟨u, by rw [hu]; rfl⟩

/-! ## Sequences of blocks -/

theorem Decoded.cons {s t u : State} {k1 k2 : Nat} {xs : List Int} {rows : List (List Int)}
    (h1 : Decoded s t k1 [xs]) (h2 : Decoded t u k2 rows) (hl : xs.length = s.blkw.toNat)
    (hr : ∀ ys ∈ rows, ys ≠ []) (he : s.eidx.toNat + s.blkw.toNat < 2 ^ 32) :
    Decoded s u (k1 + k2) (xs :: rows) := by
  obtain ⟨a1, b1, c1⟩ := h1
  obtain ⟨a2, b2, c2⟩ := h2
  have hti : t.eidx = s.eidx + BitVec.ofNat 32 s.blkw.toNat := by
    rw [a1]
    simp
  have hti' : t.eidx.toNat = s.eidx.toNat + xs.length := by
    rw [hti, advance_eidx_toNat he, hl]
  have htw : t.w = s.w := by rw [a1]; rfl
  have htk : t.blkw = s.blkw := by rw [a1]
  rw [hti'] at c2
  simp only [List.flatten_cons, List.flatten_nil, List.append_nil] at c1
  refine ⟨?_, b2, storesElems_append c1 c2⟩
  have hp : (if rows = [] then t.prev else BitVec.ofNat 32 (zext t.w (rows.flatten.getLastD 0))) =
      BitVec.ofNat 32 (zext s.w ((xs :: rows).flatten.getLastD 0)) := by
    by_cases h0 : rows = []
    · rw [if_pos h0, h0, a1]
      simp
    · rw [if_neg h0, htw, List.flatten_cons]
      have hne : rows.flatten ≠ [] := by
        obtain ⟨ys, zs, rfl⟩ := List.exists_cons_of_ne_nil h0
        have := hr ys (by simp)
        simp [this]
      rw [List.getLastD_eq_getLast?, List.getLastD_eq_getLast?, List.getLast?_append,
        List.getLast?_eq_some_getLast hne]
      rfl
  rw [hp, hti, htk, show t.bitpos = s.bitpos + BitVec.ofNat 64 k1 by rw [a1],
    show t.blk = s.blk + BitVec.ofNat 32 1 by rw [a1]; rfl] at a2
  rw [if_neg (by simp), List.length_cons, Nat.mul_add, Nat.mul_one, BitVec.ofNat_add, BitVec.ofNat_add,
    BitVec.ofNat_add]
  generalize (xs :: rows).flatten.getLastD 0 = y at a2 ⊢
  rw [BitVec.add_comm (BitVec.ofNat 32 (s.blkw.toNat * rows.length)),
    BitVec.add_comm (BitVec.ofNat 32 rows.length), ← BitVec.add_assoc, ← BitVec.add_assoc,
    ← BitVec.add_assoc]
  rw [a2]
  conv_lhs => rw [a1]

/-- `repeat BLKC times DecBlock()` where legal blocks stand (R192). -/
theorem decBlocks_reads (blocks : List CodedBlock) {s : State} (hw : Memory.wf s.em) (hc : s.sw ≤ s.w)
    (hl : ∀ b ∈ blocks, b.legal s.ctx s.runLength s.blkw.toNat)
    (he : s.eidx.toNat + s.blkw.toNat * blocks.length < 2 ^ 32) (ha : s.bitpos.toNat % 8 = 0)
    (h : holdsBlocks s.bm s.limitBits s.ctx s.bitpos.toNat blocks) :
    ReadsTo s (Res.times decBlock blocks.length s)
      (blocks.flatMap (CodedBlock.bits s.ctx)).length () fun t =>
      Decoded s t (blocks.flatMap (CodedBlock.bits s.ctx)).length
        (blocks.map (CodedBlock.elems s.w)) := by
  induction blocks generalizing s with
  | nil =>
    refine ⟨fun _ => ⟨s, rfl, ?_, hw, storesElems_nil _ _⟩, fun hr => absurd (Or.inl rfl) hr⟩
    simp
  | cons b blocks ih =>
    have hb := hl b (by simp)
    rw [List.length_cons, Nat.mul_add, Nat.mul_one] at he
    rw [List.flatMap_cons, List.length_append, List.length_cons, Res.times_succ, List.map_cons]
    refine ReadsTo.andThen (decBlock_reads hw hc hb (by omega) ha h.1)
      (fun t ht => ⟨by rw [ht.1], by rw [ht.1]⟩) fun hr t ht => ?_
    obtain ⟨h1, h2, h3⟩ := ht
    have htw : t.w = s.w := by rw [h1]; rfl
    have htc : t.sw = s.sw := by rw [h1]; rfl
    have htx : t.ctx = s.ctx := by rw [h1]; rfl
    have htr : t.runLength = s.runLength := by rw [h1]; rfl
    have htb : t.bitpos.toNat = s.bitpos.toNat + (b.bits s.ctx).length := by
      rw [h1]; exact bitpos_add hr
    have htm : t.bm = s.bm := by rw [h1]
    have htl : t.limit = s.limit := by rw [h1]
    have htk : t.blkw = s.blkw := by rw [h1]
    have hti : t.eidx.toNat = s.eidx.toNat + s.blkw.toNat := by
      rw [h1]
      simp only [List.length_singleton, Nat.mul_one]
      exact advance_eidx_toNat (by omega)
    have := ih (s := t) h2 (by rw [htc, htw]; exact hc)
      (by rw [htk, htx, htr]; exact fun b' hb' => hl b' (by simp [hb']))
      (by rw [hti, htk]; omega)
      (by rw [htb]; have := b.bits_length_mod s.ctx; omega)
      (by rw [htx, htm, htb, State.limitBits, htl]; exact h.2)
    rw [htx, htw] at this
    refine this.mono fun _ u hu => Decoded.cons ⟨h1, h2, h3⟩ hu
      ((b.elems_length s.w).trans hb.2.1) (fun ys hy h0 => ?_) (by omega)
    obtain ⟨b', -, rfl⟩ := List.mem_map.mp hy
    exact absurd h0 (List.cons_ne_nil _ _)

/-! ## The encoder's blocks are blocks -/

/-- The block the encoder writes for the elements `x :: xs` (R186). -/
def encodedBlock (c : Ctx) (rl : Bool) (x : Int) (xs : List Int) : CodedBlock :=
  { first := x, diffs := rowDiffs x xs, rest := restBits c rl (rowDiffs x xs) }

theorem encodedBlock_body (c : Ctx) (rl : Bool) (x : Int) (xs : List Int) :
    (encodedBlock c rl x xs).body c = blockBody c rl (x :: xs) := rfl

theorem encodedBlock_bits (c : Ctx) (rl : Bool) (x : Int) (xs : List Int) :
    (encodedBlock c rl x xs).bits c = blockBits c rl (x :: xs) := rfl

theorem encodedBlock_elems {w : Nat} (c : Ctx) (rl : Bool) (x : Int) {xs : List Int}
    (hxs : ∀ y ∈ xs, isElem w y) : (encodedBlock c rl x xs).elems w = x :: xs := by
  rw [CodedBlock.elems, encodedBlock, runningElems_rowDiffs hxs]

/-- The encoder's segments of a row code its differences (R162, R163). -/
theorem codes_rowDiffs {c : Ctx} (hw : 0 < c.w) (rl : Bool) {x : Int} {xs : List Int}
    (hx : isElem c.w x) (hxs : ∀ y ∈ xs, isElem c.w y) :
    codes c rl (rowDiffs x xs) (restBits c rl (rowDiffs x xs)) := by
  have hd := isElem_rowDiffs hw hx hxs
  have hflat : (segments (rowDiffs x xs)).flatMap segmentDiffs = rowDiffs x xs := by
    have := (segmentsFrom_spec _ (runsOf_pos (rowDiffs x xs)) []).1
    rwa [List.nil_append, runsOf_flatMap] at this
  unfold codes restBits
  cases rl with
  | false => exact ⟨fun d hdm => .inl (hd d hdm), rfl⟩
  | true =>
    refine ⟨segments (rowDiffs x xs), fun seg hs => ?_, hflat.symm, rfl⟩
    refine segmentLegal_of_marked (segments_marked _ seg hs) fun d hdm => hd d ?_
    rw [← hflat]
    exact List.mem_flatMap.mpr ⟨seg, hs, hdm⟩

/-- The encoder's block is one a decoder accepts (R186, R188). -/
theorem encodedBlock_legal {c : Ctx} (hw : 0 < c.w) (rl : Bool) {x : Int} {xs : List Int}
    (hx : isElem c.w x) (hxs : ∀ y ∈ xs, isElem c.w y) :
    (encodedBlock c rl x xs).legal c rl (x :: xs).length :=
  ⟨hx, by rw [encodedBlock, rowDiffs_length, List.length_cons], codes_rowDiffs hw rl hx hxs⟩

/-- Blocks with zero pad bits, as the encoder writes them, are blocks (R97). -/
theorem holdsBlocks_of_holdsBits {m : Memory 8} {c : Ctx} {blocks : List CodedBlock} {o : Nat}
    (h : holdsBits m o (blocks.flatMap (CodedBlock.bits c))) (lim : Nat) :
    holdsBlocks m lim c o blocks := by
  induction blocks generalizing o with
  | nil => trivial
  | cons b blocks ih =>
    rw [List.flatMap_cons, holdsBits_append] at h
    refine ⟨?_, ih h.2⟩
    have h1 := h.1
    rw [CodedBlock.bits, holdsBits_append] at h1
    exact h1.1.below lim

/-- Where `n` turns of `EncBlock()` leave the registers after `k` bits (R191). -/
def afterEncBlocks (n k : Nat) (s : State) : State :=
  { s with
    bitpos := s.bitpos + BitVec.ofNat 64 k
    prev := if n = 0 then s.prev
      else BitVec.ofNat 32 (zext s.w (elemAt s (n * s.blkw.toNat - 1)))
    eidx := s.eidx + BitVec.ofNat 32 (s.blkw.toNat * n)
    blk := s.blk + BitVec.ofNat 32 n }

/-- The next `n` rows of elements from EIDX on (R31, R62). -/
def rowsAt (s : State) (n : Nat) : List (List Int) :=
  (List.range n).map fun b => (List.range s.blkw.toNat).map fun k => elemAt s (b * s.blkw.toNat + k)

theorem rowsAt_succ {s t : State} (n : Nat) (hw : t.w = s.w) (hk : t.blkw = s.blkw)
    (hm : t.em = s.em) (he : t.eidx.toNat = s.eidx.toNat + s.blkw.toNat) :
    rowsAt s (n + 1) = elemsAt s s.blkw.toNat :: rowsAt t n := by
  rw [rowsAt, List.range_succ_eq_map, List.map_cons, List.map_map, rowsAt]
  congr 1
  · simp [elemsAt]
  · refine List.map_congr_left fun b _ => ?_
    rw [hk]
    refine List.map_congr_left fun k _ => ?_
    rw [elemAt, elemAt, hw, hm, he]
    congr 1
    rw [Nat.succ_mul]
    omega

theorem afterEncBlock_eidx {s : State} {k : Nat} (he : s.eidx.toNat + s.blkw.toNat < 2 ^ 32) :
    (afterEncBlock k s).eidx.toNat = s.eidx.toNat + s.blkw.toNat := by
  show (s.eidx + s.blkw).toNat = _
  rw [BitVec.toNat_add]
  omega

theorem afterEncBlocks_succ {s : State} {n j k : Nat} (hb : s.blkw ≠ 0)
    (he : s.eidx.toNat + s.blkw.toNat < 2 ^ 32) :
    afterEncBlocks n k (afterEncBlock j s) = afterEncBlocks (n + 1) (j + k) s := by
  obtain ⟨t, ht⟩ : ∃ t, t = afterEncBlock j s := ⟨_, rfl⟩
  have hn : 0 < s.blkw.toNat := by
    by_contra h0
    exact hb (BitVec.eq_of_toNat_eq (by simpa using h0))
  have hti : t.eidx.toNat = s.eidx.toNat + s.blkw.toNat := by rw [ht]; exact afterEncBlock_eidx he
  have htw : t.w = s.w := by rw [ht]; rfl
  have htm : t.em = s.em := by rw [ht]; rfl
  have htk : t.blkw = s.blkw := by rw [ht]; rfl
  have hp : (if n = 0 then t.prev
      else BitVec.ofNat 32 (zext t.w (elemAt t (n * t.blkw.toNat - 1)))) =
      BitVec.ofNat 32 (zext s.w (elemAt s ((n + 1) * s.blkw.toNat - 1))) := by
    split
    · rename_i h0
      rw [ht, h0, Nat.zero_add, Nat.one_mul]
      rfl
    · rename_i h0
      have : 0 < n * s.blkw.toNat := Nat.mul_pos (by omega) hn
      rw [htw, htk, elemAt, elemAt, htw, htm, hti, Nat.succ_mul]
      congr 3
      omega
  have hbp : t.bitpos + BitVec.ofNat 64 k = s.bitpos + BitVec.ofNat 64 (j + k) := by
    rw [BitVec.ofNat_add, ← BitVec.add_assoc, ht]
    rfl
  have hei : t.eidx + BitVec.ofNat 32 (t.blkw.toNat * n) =
      s.eidx + BitVec.ofNat 32 (s.blkw.toNat * (n + 1)) := by
    have : t.eidx = s.eidx + s.blkw := by rw [ht]; rfl
    rw [this, htk, Nat.mul_add, Nat.mul_one, Nat.add_comm, BitVec.ofNat_add, ← BitVec.add_assoc]
    simp
  have hbk : t.blk + BitVec.ofNat 32 n = s.blk + BitVec.ofNat 32 (n + 1) := by
    have : t.blk = s.blk + BitVec.ofNat 32 1 := by rw [ht]; rfl
    rw [this, Nat.add_comm n 1, BitVec.ofNat_add, BitVec.add_assoc]
  rw [← ht, afterEncBlocks, hp, afterEncBlocks, if_neg (by omega), hbp, hei, hbk]
  generalize elemAt s ((n + 1) * s.blkw.toNat - 1) = x
  rw [ht]
  rfl

/-- `repeat BLKC times EncBlock()` (R191). -/
theorem encBlocks_writes (n : Nat) {s : State} (hw : Memory.wf s.bm) (hc : s.sw ≤ s.w)
    (hb : s.blkw ≠ 0) (he : s.eidx.toNat + s.blkw.toNat * n < 2 ^ 32)
    (ha : s.bitpos.toNat % 8 = 0) :
    Writes s (Res.times encBlock n s) (blocksBits s.ctx s.runLength (rowsAt s n))
      (afterEncBlocks n (blocksBits s.ctx s.runLength (rowsAt s n)).length s) := by
  induction n generalizing s with
  | zero =>
    have : afterEncBlocks 0 0 s = s := by simp [afterEncBlocks]
    simpa [rowsAt, blocksBits, this] using Writes.nothing hw
  | succ n ih =>
    rw [Nat.mul_add, Nat.mul_one] at he
    obtain ⟨bits, hbits⟩ : ∃ bits, bits = blockBits s.ctx s.runLength (elemsAt s s.blkw.toNat) :=
      ⟨_, rfl⟩
    have h1 := encBlock_writes hw hc hb (by omega) ha
    rw [← hbits] at h1
    obtain ⟨t, ht⟩ : ∃ t, t = afterEncBlock bits.length s := ⟨_, rfl⟩
    rw [← ht] at h1
    have hti : t.eidx.toNat = s.eidx.toNat + s.blkw.toNat := by
      rw [ht]; exact afterEncBlock_eidx (by omega)
    have htw : t.w = s.w := by rw [ht]; rfl
    have htc : t.sw = s.sw := by rw [ht]; rfl
    have htm : t.em = s.em := by rw [ht]; rfl
    have htk : t.blkw = s.blkw := by rw [ht]; rfl
    have htx : t.ctx = s.ctx := by rw [ht]; rfl
    have htr : t.runLength = s.runLength := by rw [ht]; rfl
    have htb : t.bitpos = s.bitpos + BitVec.ofNat 64 bits.length := by rw [ht]; rfl
    have htl : t.limit = s.limit := by rw [ht]; rfl
    have hx0 : blocksBits s.ctx s.runLength (rowsAt s (n + 1)) =
        bits ++ blocksBits s.ctx s.runLength (rowsAt t n) := by
      rw [rowsAt_succ n htw htk htm hti, hbits]
      simp [blocksBits]
    have hm8 : bits.length % 8 = 0 := by rw [hbits]; exact blockBits_length_mod _ _ _
    rw [hx0, List.length_append, Res.times_succ, ← afterEncBlocks_succ hb (by omega), ← ht]
    refine Writes.andThen h1 htb htl fun hr m hm => ?_
    have := ih (s := t.setBm m) hm (by rw [setBm_sw, setBm_w, htc, htw]; exact hc)
      (by rw [setBm_blkw, htk]; exact hb) (by rw [setBm_eidx, setBm_blkw, hti, htk]; omega)
      (by rw [setBm_bitpos, htb, bitpos_add hr]; omega)
    have hrow : rowsAt (t.setBm m) n = rowsAt t n := rfl
    have haft : ∀ k, afterEncBlocks n k (t.setBm m) = (afterEncBlocks n k t).setBm m := fun _ => rfl
    rw [setBm_ctx, setBm_runLength, hrow, haft, Writes.base_setBm, htx, htr] at this
    exact this

/-! ## The header -/

theorem encode_hdr (c : Ctx) (total count width : BitVec 32) (slice tag : BitVec 8) :
    Sys2Proof.encode c (.hdr total count width slice tag) =
      bitsOf total.toNat 32 ++ (bitsOf count.toNat 32 ++ (bitsOf width.toNat 32 ++
        (bitsOf slice.toNat 8 ++ bitsOf tag.toNat 8))) := by
  simp only [Sys2Proof.encode, encodeFields, fieldBits_cons, fieldBits_nil, List.append_nil]

theorem encode_hdr_length (c : Ctx) (total count width : BitVec 32) (slice tag : BitVec 8) :
    (Sys2Proof.encode c (.hdr total count width slice tag)).length = 112 := by
  simp [encode_hdr]

/-- The cursor, EIDX and BLK at the start of a stream, TOTAL at 0 (R181). -/
def headerStart (s : State) : State :=
  { rewind s with total := 0 }

/-- `WrHeader()` stores the header (R181). -/
theorem wrHeader_writes {s : State} (hw : Memory.wf s.bm) :
    Writes (headerStart s) (wrHeader s) (Sys2Proof.encode s.ctx (headerOf s 0))
      (moveOn 112 (headerStart s)) := by
  have hs : (BitVec.ofNat 8 s.sw).toNat = s.sw := by
    rw [BitVec.toNat_ofNat]
    have : s.sw < 2 ^ 6 := s.cfg.slice.isLt
    omega
  have ht : (BitVec.ofNat 8 s.cfg.typ.toNat).toNat = s.cfg.typ.toNat := by
    rw [BitVec.toNat_ofNat]
    have := s.cfg.typ.isLt
    omega
  have h0 : (BitVec.ofNat 32 0).toNat = 0 := rfl
  rw [headerOf, encode_hdr, hs, ht, h0]
  have field : ∀ (t : State) (m : Memory 8), Memory.wf m → ∀ v n,
      Writes (t.setBm m) (writeField v n (t.setBm m)) (bitsOf v n) (moveOn n t) := by
    intro t m hm v n
    have := writeField_writes (s := t.setBm m) hm v n
    rwa [moveOn_setBm, Writes.base_setBm] at this
  have step : ∀ (base : State) (m : Memory 8), Memory.wf m → ∀ v n bits t (f : State → Res Unit),
      (∀ m', Memory.wf m' → Writes ((moveOn n base).setBm m') (f ((moveOn n base).setBm m')) bits t) →
      Writes (base.setBm m) ((writeField v n (base.setBm m)).andThen fun _ s => f s)
        (bitsOf v n ++ bits) t := by
    intro base m hm v n bits t f h
    refine Writes.andThen (field base m hm v n) (by rw [bitsOf_length]; rfl) rfl
      fun _ m' hm' => h m' hm'
  have tail : ∀ (b : State) (m : Memory 8), Memory.wf m →
      Writes (b.setBm m) ((writeField b.sw 8 (b.setBm m)).andThen fun _ s =>
        writeField s.cfg.typ.toNat 8 s) (bitsOf b.sw 8 ++ bitsOf b.cfg.typ.toNat 8)
        (moveOn 8 (moveOn 8 b)) := by
    intro b m hm
    refine step b m hm b.sw 8 _ _ (fun s => writeField s.cfg.typ.toNat 8 s) fun m' hm' => ?_
    exact field (moveOn 8 b) m' hm' b.cfg.typ.toNat 8
  have e : moveOn 112 (headerStart s) =
      moveOn 8 (moveOn 8 (moveOn 32 (moveOn 32 (moveOn 32 (headerStart s))))) := by
    simp only [moveOn_moveOn]
  rw [e]
  unfold wrHeader
  refine step (headerStart s) s.bm hw 0 32 _ _
    (fun s => (writeField s.blkc.toNat 32 s).andThen fun _ s =>
      (writeField s.blkw.toNat 32 s).andThen fun _ s =>
      (writeField s.sw 8 s).andThen fun _ s => writeField s.cfg.typ.toNat 8 s) fun m1 h1 => ?_
  refine step (moveOn 32 (headerStart s)) m1 h1 s.blkc.toNat 32 _ _
    (fun s => (writeField s.blkw.toNat 32 s).andThen fun _ s =>
      (writeField s.sw 8 s).andThen fun _ s => writeField s.cfg.typ.toNat 8 s) fun m2 h2 => ?_
  refine step (moveOn 32 (moveOn 32 (headerStart s))) m2 h2 s.blkw.toNat 32 _ _
    (fun s => (writeField s.sw 8 s).andThen fun _ s => writeField s.cfg.typ.toNat 8 s)
    fun m3 h3 => ?_
  exact tail (moveOn 32 (moveOn 32 (moveOn 32 (headerStart s)))) m3 h3

/-- `RdHeader()` where a header stands: its fields are tested and taken, or the limit cuts it short
(R184). -/
theorem rdHeader_reads {s : State} {c : Ctx} {total count width : BitVec 32} {slice tag : BitVec 8}
    (h : holdsBelow s.bm s.limitBits 0 (Sys2Proof.encode c (.hdr total count width slice tag))) :
    (14 ≤ s.limit.toNat → rdHeader s =
      acceptHeader total.toNat count.toNat width.toNat slice.toNat tag.toNat
        (moveOn 112 (rewind s))) ∧
    (s.limit.toNat < 14 → ∃ u, rdHeader s = .raise .readPastEnd u) := by
  rw [encode_hdr, holdsBelow_append, holdsBelow_append, holdsBelow_append, holdsBelow_append] at h
  simp only [bitsOf_length] at h
  obtain ⟨h1, h2, h3, h4, h5⟩ := h
  have step : ∀ k v n, v < 2 ^ n → k < 2 ^ 64 → holdsBelow s.bm s.limitBits k (bitsOf v n) →
      Reads (moveOn k (rewind s)) (readField n (moveOn k (rewind s))) n v
        (moveOn (k + n) (rewind s)) := by
    intro k v n hv hk hb
    have hp : (moveOn k (rewind s)).bitpos.toNat = k := by
      show (0 + BitVec.ofNat 64 k).toNat = k
      simp; omega
    have := readField_reads_value (s := moveOn k (rewind s)) hv (by rw [hp]; exact hb)
    rwa [moveOn_moveOn] at this
  have r1 := step 0 total.toNat 32 total.isLt (by omega) h1
  have r2 := step 32 count.toNat 32 count.isLt (by omega) h2
  have r3 := step 64 width.toNat 32 width.isLt (by omega) h3
  have r4 := step 96 slice.toNat 8 slice.isLt (by omega) h4
  have r5 := step 104 tag.toNat 8 tag.isLt (by omega) h5
  rw [moveOn_zero] at r1
  have hroom : ∀ k n, n ≠ 0 → k < 2 ^ 64 →
      (room n (moveOn k (rewind s)) ↔ k + n ≤ 8 * s.limit.toNat) := by
    intro k n hn hk
    have hp : (moveOn k (rewind s)).bitpos.toNat = k := by
      show (0 + BitVec.ofNat 64 k).toNat = k
      simp; omega
    unfold room
    rw [hp]
    show n = 0 ∨ k + n ≤ 8 * s.limit.toNat ↔ _
    omega
  have c1 := hroom 0 32 (by omega) (by omega)
  have c2 := hroom 32 32 (by omega) (by omega)
  have c3 := hroom 64 32 (by omega) (by omega)
  have c4 := hroom 96 8 (by omega) (by omega)
  have c5 := hroom 104 8 (by omega) (by omega)
  rw [moveOn_zero] at c1
  unfold rdHeader
  refine ⟨fun hl => ?_, fun hl => ?_⟩
  · rw [r1.1 (c1.mpr (by omega)), Res.andThen_ok, r2.1 (c2.mpr (by omega)), Res.andThen_ok,
      r3.1 (c3.mpr (by omega)), Res.andThen_ok, r4.1 (c4.mpr (by omega)), Res.andThen_ok,
      r5.1 (c5.mpr (by omega)), Res.andThen_ok]
  · have fail : ∀ {α β : Type} {r : Res α} (f : α → State → Res β),
        (∃ u, r = .raise .readPastEnd u) → ∃ u, r.andThen f = .raise .readPastEnd u := by
      rintro α β r f ⟨u, rfl⟩
      exact ⟨u, rfl⟩
    by_cases l1 : 4 ≤ s.limit.toNat
    · rw [r1.1 (c1.mpr (by omega)), Res.andThen_ok]
      by_cases l2 : 8 ≤ s.limit.toNat
      · rw [r2.1 (c2.mpr (by omega)), Res.andThen_ok]
        by_cases l3 : 12 ≤ s.limit.toNat
        · rw [r3.1 (c3.mpr (by omega)), Res.andThen_ok]
          by_cases l4 : 13 ≤ s.limit.toNat
          · rw [r4.1 (c4.mpr (by omega)), Res.andThen_ok]
            exact fail _ (r5.2 fun h => by have := c5.mp h; omega)
          · exact fail _ (r4.2 fun h => by have := c4.mp h; omega)
        · exact fail _ (r3.2 fun h => by have := c3.mp h; omega)
      · exact fail _ (r2.2 fun h => by have := c2.mp h; omega)
    · exact fail _ (r1.2 fun h => by have := c1.mp h; omega)

/-- What an accepted header leaves (R184). -/
def headerLoaded (total : BitVec 32) (slice tag : BitVec 8) (s : State) : State :=
  { moveOn 112 (rewind (s.withHeader slice tag)) with total := total }

/-- An accepted header's slice width is legal, and the registers hold it whole (R184). -/
theorem headerAccepted_slice {s : State} {total : BitVec 32} {slice tag : BitVec 8}
    (h : headerAccepted s total slice tag) :
    (s.withHeader slice tag).sw = slice.toNat ∧ slice.toNat ≤ s.w := by
  obtain ⟨-, -, hwf, htw⟩ := h
  simp only [Instr.wf, Bool.and_eq_true, Bool.not_eq_true', decide_eq_true_eq] at hwf
  have hle : slice.toNat ≤ s.w := htw ▸ hwf.2
  have := s.w_le
  refine ⟨?_, hle⟩
  show (slice.truncate 6).toNat = _
  rw [BitVec.toNat_setWidth]
  omega

theorem withHeader_w {s : State} {slice tag : BitVec 8} (h : tagWidth (tag.truncate 3) = s.w) :
    (s.withHeader slice tag).w = s.w := h

/-- `RdHeader()` where an accepted header stands inside the limit (R184). -/
theorem rdHeader_accepted {s : State} {c : Ctx} {total : BitVec 32} {slice tag : BitVec 8}
    (h : headerAccepted s total slice tag)
    (hb : holdsBelow s.bm s.limitBits 0 (Sys2Proof.encode c (.hdr total s.blkc s.blkw slice tag)))
    (hl : 14 ≤ s.limit.toNat) : rdHeader s = .ok () (headerLoaded total slice tag s) := by
  obtain ⟨-, -, hwf, htw⟩ := h
  rw [(rdHeader_reads hb).1 hl]
  simp only [Instr.wf, Bool.and_eq_true, Bool.not_eq_true', decide_eq_true_eq] at hwf
  have e1 : BitVec.ofNat 8 tag.toNat = tag := by simp
  have e2 : BitVec.ofNat 3 tag.toNat = tag.truncate 3 := by simp
  have e3 : BitVec.ofNat 32 total.toNat = total := by simp
  have e4 : BitVec.ofNat 6 slice.toNat = slice.truncate 6 := by simp
  have hch : checkHeader s.blkc.toNat s.blkw.toNat slice.toNat tag.toNat (moveOn 112 (rewind s)) =
      none := by
    unfold checkHeader
    simp only [e1, e2]
    rw [if_neg (by simp [hwf.1]), if_neg, if_neg (by omega)]
    rintro (h | h | h)
    · exact h htw
    · exact h rfl
    · exact h rfl
  unfold acceptHeader
  rw [hch]
  simp only [e2, e3, e4]
  rfl

/-- The header step and then the blocks of a stream, in the state the header step leaves (R192). -/
theorem decodeBlocks_reads {s u : State} {total : BitVec 32} {slice tag : BitVec 8}
    {blocks : List CodedBlock} (hw : Memory.wf s.em) (h : headerAccepted s total slice tag)
    (hu : u = s.withHeader slice tag) (hn : blocks.length ≤ s.blkc.toNat)
    (hl : ∀ b ∈ blocks, b.legal u.ctx u.runLength s.blkw.toNat) (h14 : 14 ≤ s.limit.toNat)
    (hb : holdsStream s.bm s.limitBits u.ctx (.hdr total s.blkc s.blkw slice tag) blocks) :
    ReadsTo (headerLoaded total slice tag s)
      ((rdHeader s).andThen fun _ s => Res.times decBlock blocks.length s)
      (blocks.flatMap (CodedBlock.bits u.ctx)).length () fun t =>
      Decoded (headerLoaded total slice tag s) t (blocks.flatMap (CodedBlock.bits u.ctx)).length
        (blocks.map (CodedBlock.elems s.w)) := by
  rw [rdHeader_accepted h hb.1 h14, Res.andThen_ok]
  obtain ⟨hsw, hle⟩ := headerAccepted_slice h
  obtain ⟨-, hg, -, htw⟩ := h
  subst hu
  have hmul : s.blkw.toNat * blocks.length ≤ s.blkw.toNat * s.blkc.toNat := Nat.mul_le_mul_left _ hn
  have := decBlocks_reads blocks (s := headerLoaded total slice tag s) hw
    (by
      show (s.withHeader slice tag).sw ≤ (s.withHeader slice tag).w
      rw [hsw, withHeader_w htw]
      exact hle)
    hl
    (by
      show 0 + s.blkw.toNat * blocks.length < _
      have := hg.2.1
      omega)
    (show 112 % 8 = 0 by decide) hb.2
  rw [show (headerLoaded total slice tag s).w = s.w from htw] at this
  exact this

end Sys2Proof.Machine
end

