-- ==== Sys2Proof/Laws/Frames.lean ====
section
/-! SUPPORT. What each operation leaves alone, whether it completes or raises (`Keeps`), and which cells
a decoding operation that completes has stored to (`Fills`). -/

namespace Sys2Proof.Machine

/-! ## Registers and bytes -/

/-- What an operation may change beside BITPOS and the hidden temporaries. -/
structure Touch where
  cfg : Bool := false
  prev : Bool := false
  eidx : Bool := false
  total : Bool := false
  blk : Bool := false
  bytes : Bool := false
  cells : Bool := false

/-- One is allowed no more than the other. -/
def Touch.le (u v : Touch) : Bool :=
  (!u.cfg || v.cfg) && (!u.prev || v.prev) && (!u.eidx || v.eidx) && (!u.total || v.total) &&
    (!u.blk || v.blk) && (!u.bytes || v.bytes) && (!u.cells || v.cells)

/-- From `s` to `t` nothing changed but what `u` allows, BITPOS and the hidden temporaries, and no byte
at or above LIMIT (R61, R67). -/
structure Keeps (u : Touch) (s t : State) : Prop where
  status : t.status = s.status
  blkw : t.blkw = s.blkw
  blkc : t.blkc = s.blkc
  limit : t.limit = s.limit
  elim : t.elim = s.elim
  val : t.val = s.val
  width : t.width = s.width
  running : t.running = s.running
  hostQueue : t.hostQueue = s.hostQueue
  replies : t.replies = s.replies
  freeDraws : t.freeDraws = s.freeDraws
  cfg : u.cfg = false → t.cfg = s.cfg
  prev : u.prev = false → t.prev = s.prev
  eidx : u.eidx = false → t.eidx = s.eidx
  total : u.total = false → t.total = s.total
  blk : u.blk = false → t.blk = s.blk
  bm : u.bytes = false → t.bm = s.bm
  em : u.cells = false → t.em = s.em
  wf : Memory.wf s.bm → Memory.wf t.bm
  outside : Memory.wf s.bm → ∀ a, s.limit.toNat ≤ a → Memory.read t.bm a = Memory.read s.bm a

variable {u v : Touch}

theorem Keeps.refl (s : State) : Keeps u s s := by
  constructor <;> intros <;> first | rfl | assumption

theorem Keeps.trans (s t r : State) (h : Keeps u s t) (g : Keeps u t r) : Keeps u s r where
  status := g.status.trans h.status
  blkw := g.blkw.trans h.blkw
  blkc := g.blkc.trans h.blkc
  limit := g.limit.trans h.limit
  elim := g.elim.trans h.elim
  val := g.val.trans h.val
  width := g.width.trans h.width
  running := g.running.trans h.running
  hostQueue := g.hostQueue.trans h.hostQueue
  replies := g.replies.trans h.replies
  freeDraws := g.freeDraws.trans h.freeDraws
  cfg := fun e => (g.cfg e).trans (h.cfg e)
  prev := fun e => (g.prev e).trans (h.prev e)
  eidx := fun e => (g.eidx e).trans (h.eidx e)
  total := fun e => (g.total e).trans (h.total e)
  blk := fun e => (g.blk e).trans (h.blk e)
  bm := fun e => (g.bm e).trans (h.bm e)
  em := fun e => (g.em e).trans (h.em e)
  wf := fun w => g.wf (h.wf w)
  outside := fun w a ha => (g.outside (h.wf w) a (by rw [h.limit]; exact ha)).trans (h.outside w a ha)

theorem Keeps.mono {s t : State} (h : Keeps u s t) (hl : u.le v = true) : Keeps v s t := by
  simp only [Touch.le, Bool.and_eq_true, Bool.or_eq_true, Bool.not_eq_true'] at hl
  have weak : ∀ {a b : Bool}, a = false ∨ b = true → b = false → a = false := by decide
  obtain ⟨⟨⟨⟨⟨⟨h1, h2⟩, h3⟩, h4⟩, h5⟩, h6⟩, h7⟩ := hl
  exact { h with
    cfg := fun e => h.cfg (weak h1 e)
    prev := fun e => h.prev (weak h2 e)
    eidx := fun e => h.eidx (weak h3 e)
    total := fun e => h.total (weak h4 e)
    blk := fun e => h.blk (weak h5 e)
    bm := fun e => h.bm (weak h6 e)
    em := fun e => h.em (weak h7 e) }

/-- Nothing is claimed of what may change. -/
theorem touched {p : Prop} (e : true = false) : p :=
  Bool.noConfusion e

/-- An update of registers: every byte is kept. -/
theorem Keeps.of_bm {s t : State} (hb : t.bm = s.bm)
    (h : t.status = s.status ∧ t.blkw = s.blkw ∧ t.blkc = s.blkc ∧ t.limit = s.limit ∧
      t.elim = s.elim ∧ t.val = s.val ∧ t.width = s.width ∧ t.running = s.running ∧
      t.hostQueue = s.hostQueue ∧ t.replies = s.replies ∧ t.freeDraws = s.freeDraws)
    (g : (u.cfg = false → t.cfg = s.cfg) ∧ (u.prev = false → t.prev = s.prev) ∧
      (u.eidx = false → t.eidx = s.eidx) ∧ (u.total = false → t.total = s.total) ∧
      (u.blk = false → t.blk = s.blk) ∧ (u.cells = false → t.em = s.em)) : Keeps u s t := by
  obtain ⟨h1, h2, h3, h4, h5, h6, h7, h8, h9, h10, h11⟩ := h
  obtain ⟨g1, g2, g3, g4, g5, g6⟩ := g
  exact ⟨h1, h2, h3, h4, h5, h6, h7, h8, h9, h10, h11, g1, g2, g3, g4, g5, fun _ => hb, g6,
    fun w => by rw [hb]; exact w, fun _ a _ => by rw [hb]⟩

theorem Keeps.andThen {α β : Type} {r : Res α} {f : α → State → Res β} {s : State}
    (h : Keeps u s r.state) (hf : ∀ a t, Keeps u t (f a t).state) : Keeps u s (r.andThen f).state :=
  Res.andThen_rel Keeps.trans h fun a t _ => hf a t

theorem moveOn_keeps (n : Nat) (s : State) : Keeps u s (moveOn n s) :=
  Keeps.of_bm rfl ⟨rfl, rfl, rfl, rfl, rfl, rfl, rfl, rfl, rfl, rfl, rfl⟩
    ⟨fun _ => rfl, fun _ => rfl, fun _ => rfl, fun _ => rfl, fun _ => rfl, fun _ => rfl⟩

theorem takeDiff_keeps (d : Int) (s : State) : Keeps u s (takeDiff d s) :=
  Keeps.of_bm rfl ⟨rfl, rfl, rfl, rfl, rfl, rfl, rfl, rfl, rfl, rfl, rfl⟩
    ⟨fun _ => rfl, fun _ => rfl, fun _ => rfl, fun _ => rfl, fun _ => rfl, fun _ => rfl⟩

theorem setRem_keeps (r : BitVec 32) (s : State) : Keeps u s (s.setRem r) :=
  Keeps.of_bm rfl ⟨rfl, rfl, rfl, rfl, rfl, rfl, rfl, rfl, rfl, rfl, rfl⟩
    ⟨fun _ => rfl, fun _ => rfl, fun _ => rfl, fun _ => rfl, fun _ => rfl, fun _ => rfl⟩

theorem setPrev_keeps (x : Int) (s : State) : Keeps { prev := true } s (setPrev x s) :=
  Keeps.of_bm rfl ⟨rfl, rfl, rfl, rfl, rfl, rfl, rfl, rfl, rfl, rfl, rfl⟩
    ⟨fun _ => rfl, touched, fun _ => rfl, fun _ => rfl, fun _ => rfl, fun _ => rfl⟩

theorem advance_keeps (n : Nat) (s : State) : Keeps { eidx := true } s (advance n s) :=
  Keeps.of_bm rfl ⟨rfl, rfl, rfl, rfl, rfl, rfl, rfl, rfl, rfl, rfl, rfl⟩
    ⟨fun _ => rfl, fun _ => rfl, touched, fun _ => rfl, fun _ => rfl, fun _ => rfl⟩

theorem countBlock_keeps (s : State) : Keeps { blk := true } s (countBlock s) :=
  Keeps.of_bm rfl ⟨rfl, rfl, rfl, rfl, rfl, rfl, rfl, rfl, rfl, rfl, rfl⟩
    ⟨fun _ => rfl, fun _ => rfl, fun _ => rfl, fun _ => rfl, touched, fun _ => rfl⟩

theorem produce_keeps (x : Int) (s : State) :
    Keeps { prev := true, eidx := true, cells := true } s (produce x s) :=
  Keeps.of_bm rfl ⟨rfl, rfl, rfl, rfl, rfl, rfl, rfl, rfl, rfl, rfl, rfl⟩
    ⟨fun _ => rfl, touched, touched, fun _ => rfl, fun _ => rfl,
      touched⟩

/-! ### BitCursor -/

theorem writeField_keeps (x n : Nat) (s : State) :
    Keeps { bytes := true } s (writeField x n s).state := by
  unfold writeField
  split
  · rename_i h
    refine ⟨rfl, rfl, rfl, rfl, rfl, rfl, rfl, rfl, rfl, rfl, rfl, fun _ => rfl, fun _ => rfl,
      fun _ => rfl, fun _ => rfl, fun _ => rfl, touched, fun _ => rfl,
      fun w => fieldWrite_wf w _ _ _, fun w a ha => ?_⟩
    rcases fits_iff.mp h with h0 | h0
    · subst h0; rfl
    · unfold State.limitBits at h0
      exact read_fieldWrite_outside w _ _ _ a (by omega)
  · exact Keeps.refl s

theorem readField_keeps (n : Nat) (s : State) : Keeps u s (readField n s).state := by
  unfold readField
  split
  · exact moveOn_keeps n s
  · exact Keeps.refl s

theorem scanZeros_keeps (n : Nat) (s : State) : Keeps u s (scanZeros n s).state := by
  unfold scanZeros
  split
  · exact Keeps.refl s
  · exact moveOn_keeps _ s

theorem alignWrite_keeps (s : State) : Keeps { bytes := true } s (alignWrite s).state :=
  writeField_keeps _ _ s

/-! ### DifferenceCodec -/

theorem encCodeword_keeps (d : Int) (s : State) :
    Keeps { bytes := true } s (encCodeword d s).state := by
  unfold encCodeword
  refine Keeps.andThen (writeField_keeps _ _ s) fun _ t => ?_
  dsimp only
  split
  · exact writeField_keeps _ _ t
  · exact Keeps.andThen (writeField_keeps _ _ t) fun _ t => writeField_keeps _ _ t

theorem unaryForm_keeps (lit z : Nat) (s : State) : Keeps u s (unaryForm lit z s).state := by
  unfold unaryForm
  split
  · exact takeDiff_keeps _ s
  · exact Keeps.refl s

theorem escapeForm_keeps (lit e : Nat) (s : State) : Keeps u s (escapeForm lit e s).state := by
  unfold escapeForm
  dsimp only
  split
  · exact takeDiff_keeps _ s
  · exact Keeps.refl s

theorem decCodeword_keeps (s : State) : Keeps u s (decCodeword s).state := by
  unfold decCodeword
  refine Keeps.andThen (readField_keeps _ s) fun lit t => ?_
  refine Keeps.andThen (scanZeros_keeps _ t) fun r t => ?_
  split
  · exact unaryForm_keeps _ _ t
  · exact Keeps.andThen (readField_keeps _ t) fun e t => escapeForm_keeps _ _ t

/-! ### RunCodec -/

theorem encSegment_keeps (seg : Segment) (s : State) :
    Keeps { bytes := true } s (encSegment seg s).state := by
  cases seg with
  | literal ds =>
    exact Keeps.andThen (writeField_keeps _ _ s) fun _ t =>
      Res.each_rel Keeps.refl Keeps.trans encCodeword_keeps ds t
  | constant n d =>
    exact Keeps.andThen (writeField_keeps _ _ s) fun _ t => writeField_keeps _ _ t
  | continued d =>
    exact Keeps.andThen (writeField_keeps _ _ s) fun _ t => writeField_keeps _ _ t

theorem encRow_keeps (n : Nat) (s : State) :
    Keeps { bytes := true, prev := true, eidx := true } s (encRow n s).state := by
  unfold encRow
  refine Keeps.andThen (Keeps.mono (Res.each_rel Keeps.refl Keeps.trans encSegment_keeps _ s) rfl)
    fun _ t => ?_
  refine Keeps.trans _ _ _ ?_ (Keeps.mono (advance_keeps n _) rfl)
  split
  · exact Keeps.mono (setPrev_keeps _ t) rfl
  · exact Keeps.refl t

theorem checkCount_keeps (c : Nat) (s : State) : Keeps u s (checkCount c s).state := by
  unfold checkCount
  split <;> exact Keeps.refl s

theorem decElem_keeps (s : State) :
    Keeps { prev := true, eidx := true, cells := true } s (decElem s).state :=
  Keeps.andThen (decCodeword_keeps s) fun _ t => produce_keeps _ t

theorem decLitDiff_keeps (s : State) : Keeps u s (decLitDiff s).state :=
  Keeps.andThen (readField_keeps _ s) fun _ t => takeDiff_keeps _ t

theorem lessRem_keeps (c : Nat) (s : State) : Keeps u s (lessRem c s) :=
  setRem_keeps _ s

theorem literalRun_keeps (c : Nat) (s : State) :
    Keeps { prev := true, eidx := true, cells := true } s (literalRun c s).state :=
  Keeps.andThen (checkCount_keeps c s) fun _ t =>
    Keeps.andThen (Res.times_rel Keeps.refl Keeps.trans decElem_keeps c t) fun _ t =>
      lessRem_keeps c t

theorem repeatedRun_keeps (c : Nat) (s : State) :
    Keeps { prev := true, eidx := true, cells := true } s (repeatedRun c s).state :=
  Keeps.andThen (checkCount_keeps c s) fun _ t =>
    Keeps.andThen (decLitDiff_keeps t) fun _ t =>
      Keeps.andThen (Res.times_rel Keeps.refl Keeps.trans (fun s => produce_keeps s.nextElem s) c t)
        fun _ t => lessRem_keeps c t

theorem afterMarker_keeps (b : Nat) (s : State) :
    Keeps { prev := true, eidx := true, cells := true } s (afterMarker b s).state := by
  unfold afterMarker
  split
  · exact Keeps.refl s
  · split
    · exact literalRun_keeps b s
    · split
      · exact repeatedRun_keeps _ s
      · exact repeatedRun_keeps _ s

theorem decSegments_keeps (fuel : Nat) (s : State) :
    Keeps { prev := true, eidx := true, cells := true } s (decSegments fuel s).state := by
  induction fuel generalizing s with
  | zero => exact Keeps.refl s
  | succ f ih =>
    rw [decSegments]
    split
    · exact Keeps.refl s
    · exact Keeps.andThen (Keeps.andThen (readField_keeps 8 s) fun b t => afterMarker_keeps b t)
        fun _ t => ih t

theorem decRow_keeps (n : Nat) (s : State) :
    Keeps { prev := true, eidx := true, cells := true } s (decRow n s).state :=
  Keeps.andThen (Keeps.trans _ _ _ (setRem_keeps (BitVec.ofNat 32 n) s) (decSegments_keeps n _))
    fun _ t => Keeps.mono (setPrev_keeps _ t) rfl

/-! ### BlockFramer -/

theorem takeElem_keeps' (x : Int) (s : State) :
    Keeps { prev := true, eidx := true } s (advance 1 (setPrev x s)) :=
  Keeps.trans _ _ _ (Keeps.mono (setPrev_keeps x s) rfl) (Keeps.mono (advance_keeps 1 _) rfl)

theorem encElem_keeps (s : State) :
    Keeps { bytes := true, prev := true, eidx := true } s (encElem s).state :=
  Keeps.andThen (Keeps.mono (encCodeword_keeps _ s) rfl) fun _ t =>
    Keeps.mono (takeElem_keeps' _ t) rfl

theorem encBlock_keeps (s : State) :
    Keeps { bytes := true, prev := true, eidx := true, blk := true } s (encBlock s).state := by
  unfold encBlock
  refine Keeps.andThen (Keeps.andThen (Keeps.mono (writeField_keeps _ _ s) rfl) fun _ t =>
    Keeps.mono (takeElem_keeps' _ t) rfl) fun _ t => ?_
  refine Keeps.andThen ?_ fun _ t => ?_
  · split
    · exact Keeps.mono (encRow_keeps _ t) rfl
    · exact Keeps.mono (Res.times_rel Keeps.refl Keeps.trans encElem_keeps _ t) rfl
  · exact Keeps.andThen (Keeps.mono (alignWrite_keeps t) rfl) fun _ t =>
      Keeps.mono (countBlock_keeps t) rfl

theorem wrHeader_keeps (s : State) :
    Keeps { bytes := true, eidx := true, total := true, blk := true } s (wrHeader s).state := by
  have field : ∀ x n t, Keeps { bytes := true, eidx := true, total := true, blk := true } t
      (writeField x n t).state := fun x n t => Keeps.mono (writeField_keeps x n t) rfl
  refine Keeps.andThen (Keeps.trans _ (headerStart s) _ (Keeps.of_bm rfl
    ⟨rfl, rfl, rfl, rfl, rfl, rfl, rfl, rfl, rfl, rfl, rfl⟩
    ⟨fun _ => rfl, fun _ => rfl, touched, touched, touched,
      fun _ => rfl⟩) (field _ _ _)) fun _ t => ?_
  exact Keeps.andThen (field _ _ t) fun _ t => Keeps.andThen (field _ _ t) fun _ t =>
    Keeps.andThen (field _ _ t) fun _ t => field _ _ t

theorem patchSize_keeps (s : State) :
    Keeps { bytes := true, total := true } s (patchSize s).state := by
  unfold patchSize
  split
  · exact Keeps.refl s
  · rename_i h
    have hw : Memory.wf s.bm → Memory.wf (fieldWrite s.bm 0 (s.bitpos.toNat / 8) 32) :=
      fun w => fieldWrite_wf w _ _ _
    have ho : Memory.wf s.bm → ∀ a, s.limit.toNat ≤ a →
        Memory.read (fieldWrite s.bm 0 (s.bitpos.toNat / 8) 32) a = Memory.read s.bm a :=
      fun w a ha => read_fieldWrite_outside w _ _ _ a (by omega)
    revert hw ho
    generalize fieldWrite s.bm 0 (s.bitpos.toNat / 8) 32 = m
    intro hw ho
    exact ⟨rfl, rfl, rfl, rfl, rfl, rfl, rfl, rfl, rfl, rfl, rfl, fun _ => rfl, fun _ => rfl,
      fun _ => rfl, touched, fun _ => rfl, touched,
      fun _ => rfl, hw, ho⟩

theorem encodeStream_keeps (s : State) :
    Keeps { bytes := true, prev := true, eidx := true, total := true, blk := true } s
      (encodeStream s).state :=
  Keeps.andThen (Keeps.mono (wrHeader_keeps s) rfl) fun _ t =>
    Keeps.andThen (Keeps.mono (Res.times_rel Keeps.refl Keeps.trans encBlock_keeps _ t) rfl)
      fun _ t => Keeps.mono (patchSize_keeps t) rfl

theorem decBlock_keeps (s : State) :
    Keeps { prev := true, eidx := true, blk := true, cells := true } s (decBlock s).state := by
  unfold decBlock
  refine Keeps.andThen (Keeps.andThen (readField_keeps _ s) fun _ t =>
    Keeps.mono (produce_keeps _ t) rfl) fun _ t => ?_
  refine Keeps.andThen ?_ fun _ t => ?_
  · split
    · exact Keeps.mono (decRow_keeps _ t) rfl
    · exact Keeps.mono (Res.times_rel Keeps.refl Keeps.trans decElem_keeps _ t) rfl
  · exact Keeps.trans _ _ _ (moveOn_keeps _ t) (Keeps.mono (countBlock_keeps _) rfl)

theorem acceptHeader_keeps (a b c d e : Nat) (s : State) :
    Keeps { cfg := true, total := true } s (acceptHeader a b c d e s).state := by
  unfold acceptHeader
  split
  · exact Keeps.refl s
  · exact Keeps.of_bm rfl ⟨rfl, rfl, rfl, rfl, rfl, rfl, rfl, rfl, rfl, rfl, rfl⟩
      ⟨touched, fun _ => rfl, fun _ => rfl, touched, fun _ => rfl,
        fun _ => rfl⟩

theorem acceptTag_keeps (a : Nat) (s : State) :
    Keeps { cfg := true } s (acceptTag a s).state := by
  unfold acceptTag
  split
  · exact Keeps.refl s
  · split
    · exact Keeps.refl s
    · exact Keeps.of_bm rfl ⟨rfl, rfl, rfl, rfl, rfl, rfl, rfl, rfl, rfl, rfl, rfl⟩
        ⟨touched, fun _ => rfl, fun _ => rfl, fun _ => rfl, fun _ => rfl, fun _ => rfl⟩

theorem rewind_keeps (s : State) : Keeps { eidx := true, blk := true } s (rewind s) :=
  Keeps.of_bm rfl ⟨rfl, rfl, rfl, rfl, rfl, rfl, rfl, rfl, rfl, rfl, rfl⟩
    ⟨fun _ => rfl, fun _ => rfl, touched, fun _ => rfl, touched, fun _ => rfl⟩

theorem rdHeader_keeps (s : State) :
    Keeps { cfg := true, eidx := true, total := true, blk := true } s (rdHeader s).state :=
  Keeps.andThen (Keeps.trans _ _ _ (Keeps.mono (rewind_keeps s) rfl) (readField_keeps _ _))
    fun _ t => Keeps.andThen (readField_keeps _ t) fun _ t => Keeps.andThen (readField_keeps _ t)
      fun _ t => Keeps.andThen (readField_keeps _ t) fun _ t =>
        Keeps.andThen (readField_keeps _ t) fun _ t =>
          Keeps.mono (acceptHeader_keeps _ _ _ _ _ t) rfl

/-- A header step that faults has not loaded CFG (R227 (c)). -/
theorem rdHeader_raise_cfg {c : Cause} {s t : State} (h : rdHeader s = .raise c t) :
    t.cfg = s.cfg := by
  have accept : ∀ {a b d e f : Nat} {s : State}, acceptHeader a b d e f s = .raise c t →
      t.cfg = s.cfg := by
    intro a b d e f s h
    unfold acceptHeader at h
    split at h <;> cases h
    rfl
  have field : ∀ {n : Nat} {s : State} {f : Nat → State → Res Unit},
      (readField n s).andThen f = .raise c t →
      (∀ v u, f v u = .raise c t → t.cfg = u.cfg) → t.cfg = s.cfg := by
    intro n s f h hf
    have hk : Keeps {} s (readField n s).state := readField_keeps n s
    rcases Res.andThen_eq_raise.mp h with h | ⟨v, u, h, h'⟩
    · rw [h] at hk; exact hk.cfg rfl
    · rw [h] at hk; exact (hf v u h').trans (hk.cfg rfl)
  exact field (s := rewind s) h fun _ _ h => field h fun _ _ h => field h fun _ _ h =>
    field h fun _ _ h => field h fun _ _ h => accept h

theorem decodeStream_keeps (s : State) :
    Keeps { cfg := true, prev := true, eidx := true, total := true, blk := true, cells := true } s
      (decodeStream s).state := by
  refine Keeps.andThen (Keeps.mono (rdHeader_keeps s) rfl) fun _ t =>
    Keeps.andThen (Keeps.mono (Res.times_rel Keeps.refl Keeps.trans decBlock_keeps _ t) rfl)
      fun _ t => ?_
  unfold checkSize
  split <;> exact Keeps.refl t

/-! ## Cells -/

/-- From `s` to `t` EIDX moved on by `n`, and only the cells it passed were stored to. -/
def Fills (n : Nat) (s t : State) : Prop :=
  Memory.wf s.em → s.eidx.toNat + n < 2 ^ 32 →
    Memory.wf t.em ∧ t.eidx.toNat = s.eidx.toNat + n ∧
      ∀ j, j < s.eidx.toNat ∨ s.eidx.toNat + n ≤ j → Memory.read t.em j = Memory.read s.em j

theorem Fills.of_eq {s t : State} (he : t.em = s.em) (hi : t.eidx = s.eidx) : Fills 0 s t :=
  fun w _ => ⟨by rw [he]; exact w, by rw [hi]; rfl, fun _ _ => by rw [he]⟩

theorem Fills.trans {a b : Nat} {s t r : State} (h : Fills a s t) (g : Fills b t r) :
    Fills (a + b) s r := by
  intro w hlt
  obtain ⟨h1, h2, h3⟩ := h w (by omega)
  obtain ⟨g1, g2, g3⟩ := g h1 (by omega)
  exact ⟨g1, by omega, fun j hj => by rw [g3 j (by omega), h3 j (by omega)]⟩

theorem Fills.of_keeps {s t : State} (h : Keeps {} s t) : Fills 0 s t :=
  Fills.of_eq (h.em rfl) (h.eidx rfl)

theorem produce_fills (x : Int) (s : State) : Fills 1 s (produce x s) := by
  intro w hlt
  refine ⟨elemWrite_wf w _ _, advance_eidx_toNat (s := s) (n := 1) hlt, fun j hj => ?_⟩
  show Memory.read (elemWrite s.em s.eidx.toNat x) j = _
  rw [elemWrite, Memory.read_write w, if_neg (by omega)]

theorem times_fills {f : State → Res Unit} {k : Nat}
    (hf : ∀ s t, f s = .ok () t → Fills k s t) (n : Nat) {s t : State}
    (h : Res.times f n s = .ok () t) : Fills (n * k) s t := by
  induction n generalizing s with
  | zero =>
    cases h
    rw [Nat.zero_mul]
    exact Fills.of_eq rfl rfl
  | succ n ih =>
    rw [Res.times_succ, Res.andThen_eq_ok] at h
    obtain ⟨_, r, hr, ht⟩ := h
    rw [Nat.succ_mul, Nat.add_comm]
    exact Fills.trans (hf s r hr) (ih ht)

theorem keeps_of_ok {s t : State} {α : Type} {r : Res α} {a : α} (h : r = .ok a t)
    (hk : Keeps u s r.state) : Keeps u s t := by
  rw [h] at hk
  exact hk

theorem decElem_fills {s t : State} (h : decElem s = .ok () t) : Fills 1 s t := by
  obtain ⟨_, r, hr, ht⟩ := Res.andThen_eq_ok.mp h
  cases ht
  exact Fills.trans (a := 0) (b := 1) (Fills.of_keeps (keeps_of_ok hr (decCodeword_keeps s)))
    (produce_fills _ r)

theorem checkCount_eq_ok {c : Nat} {s t : State} {a : Unit} (h : checkCount c s = .ok a t) :
    t = s ∧ c ≤ s.rem.toNat := by
  unfold checkCount at h
  split at h
  · cases h
  · cases h; exact ⟨rfl, by omega⟩

/-- A decoder step that completed put out `c` elements, at most as many as were missing (R166). -/
def Puts (s t : State) : Prop :=
  ∃ c, c ≤ s.rem.toNat ∧ t.rem.toNat + c = s.rem.toNat ∧ Fills c s t

theorem lessRem_rem_add {c : Nat} {s t : State} (hc : c ≤ s.rem.toNat) (ht : t.rem = s.rem) :
    (lessRem c t).rem.toNat + c = s.rem.toNat := by
  have := s.rem.isLt
  show (t.rem - BitVec.ofNat 32 c).toNat + c = _
  rw [ht, BitVec.toNat_sub, BitVec.toNat_ofNat]
  omega

/-! The number of missing elements is kept by all but the end of a run. -/

theorem readField_rem (n : Nat) (s : State) : (readField n s).state.rem = s.rem := by
  unfold readField; split <;> rfl

theorem scanZeros_rem (n : Nat) (s : State) : (scanZeros n s).state.rem = s.rem := by
  unfold scanZeros; split <;> rfl

theorem Res.andThen_rem {α β : Type} {r : Res α} {f : α → State → Res β} {s : State}
    (h : r.state.rem = s.rem) (hf : ∀ a t, (f a t).state.rem = t.rem) :
    (r.andThen f).state.rem = s.rem :=
  Res.andThen_rel (R := fun s t => t.rem = s.rem) (fun _ _ _ h g => g.trans h) h fun a t _ => hf a t

theorem decCodeword_rem (s : State) : (decCodeword s).state.rem = s.rem := by
  refine Res.andThen_rem (readField_rem _ s) fun lit t => ?_
  refine Res.andThen_rem (scanZeros_rem _ t) fun r t => ?_
  split
  · unfold unaryForm; split <;> rfl
  · refine Res.andThen_rem (readField_rem _ t) fun e t => ?_
    unfold escapeForm
    dsimp only
    split <;> rfl

theorem decElem_rem (s : State) : (decElem s).state.rem = s.rem :=
  Res.andThen_rem (decCodeword_rem s) fun _ _ => rfl

theorem times_rem {f : State → Res Unit} (hf : ∀ s, (f s).state.rem = s.rem) (n : Nat) (s : State) :
    (Res.times f n s).state.rem = s.rem :=
  Res.times_rel (R := fun s t => t.rem = s.rem) (fun _ => rfl) (fun _ _ _ h g => g.trans h) hf n s

theorem rem_of_ok {α : Type} {s t : State} {r : Res α} {a : α} (h : r = .ok a t)
    (hr : r.state.rem = s.rem) : t.rem = s.rem := by
  rw [h] at hr
  exact hr

theorem literalRun_puts {c : Nat} {s t : State} (h : literalRun c s = .ok () t) : Puts s t := by
  simp only [literalRun, Res.andThen_eq_ok] at h
  obtain ⟨_, s1, h1, _, s2, h2, h⟩ := h
  obtain ⟨rfl, hc⟩ := checkCount_eq_ok h1
  cases h
  refine ⟨c, hc, lessRem_rem_add hc (rem_of_ok h2 (times_rem decElem_rem c s1)), ?_⟩
  have := times_fills (fun _ _ => decElem_fills) c h2
  rw [Nat.mul_one] at this
  exact Fills.trans (b := 0) this (Fills.of_eq rfl rfl)

theorem repeatedRun_puts {c : Nat} {s t : State} (h : repeatedRun c s = .ok () t) : Puts s t := by
  simp only [repeatedRun, Res.andThen_eq_ok] at h
  obtain ⟨_, s1, h1, _, s2, h2, _, s3, h3, h⟩ := h
  obtain ⟨rfl, hc⟩ := checkCount_eq_ok h1
  cases h
  have r2 : s2.rem = s1.rem := rem_of_ok h2 (Res.andThen_rem (readField_rem _ s1) fun _ _ => rfl)
  have r3 : s3.rem = s2.rem := rem_of_ok h3 (times_rem (fun _ => rfl) c s2)
  refine ⟨c, hc, lessRem_rem_add hc (r3.trans r2), ?_⟩
  have := times_fills (k := 1) (fun s t h => by cases h; exact produce_fills _ s) c h3
  rw [Nat.mul_one] at this
  have h12 : Fills 0 s1 s2 := Fills.of_keeps (keeps_of_ok h2 (decLitDiff_keeps s1))
  have := Fills.trans h12 this
  rw [Nat.zero_add] at this
  exact Fills.trans (b := 0) this (Fills.of_eq rfl rfl)

theorem afterMarker_puts {b : Nat} {s t : State} (h : afterMarker b s = .ok () t) : Puts s t := by
  unfold afterMarker at h
  split at h
  · cases h
  · split at h
    · exact literalRun_puts h
    · split at h
      · exact repeatedRun_puts h
      · exact repeatedRun_puts h

theorem decSegments_puts (fuel : Nat) {s t : State} (h : decSegments fuel s = .ok () t) :
    Puts s t := by
  induction fuel generalizing s with
  | zero =>
    cases h
    exact ⟨0, Nat.zero_le _, rfl, Fills.of_eq rfl rfl⟩
  | succ f ih =>
    rw [decSegments] at h
    split at h
    · cases h
      exact ⟨0, Nat.zero_le _, rfl, Fills.of_eq rfl rfl⟩
    · obtain ⟨_, s2, h2, h⟩ := Res.andThen_eq_ok.mp h
      obtain ⟨b, s1, h1, h2⟩ := Res.andThen_eq_ok.mp h2
      have r1 : s1.rem = s.rem := rem_of_ok h1 (readField_rem 8 s)
      have f1 : Fills 0 s s1 := Fills.of_keeps (keeps_of_ok h1 (readField_keeps 8 s))
      obtain ⟨c2, a2, b2, f2⟩ := afterMarker_puts h2
      obtain ⟨c3, a3, b3, f3⟩ := ih h
      rw [r1] at a2 b2
      refine ⟨c2 + c3, by omega, by omega, ?_⟩
      have := Fills.trans f1 (Fills.trans f2 f3)
      rwa [Nat.zero_add] at this

/-- `DecRow(n)` that completed stored to at most the `n` cells from EIDX on (R166). -/
theorem decRow_fills {n : Nat} {s t : State} (h : decRow n s = .ok () t) :
    ∃ c, c ≤ n ∧ Fills c s t := by
  obtain ⟨_, r, hr, ht⟩ := Res.andThen_eq_ok.mp h
  cases ht
  obtain ⟨c, h1, -, h3⟩ := decSegments_puts n hr
  refine ⟨c, le_trans h1 ?_, ?_⟩
  · show (BitVec.ofNat 32 n).toNat ≤ n
    rw [BitVec.toNat_ofNat]
    exact Nat.mod_le _ _
  · have := Fills.trans (a := 0) (b := c) (s := s) (Fills.of_eq rfl rfl) h3
    rw [Nat.zero_add] at this
    exact Fills.trans (b := 0) this (Fills.of_eq rfl rfl)

/-- `DecBlock()` that completed stored to at most the BLKW cells from EIDX on (R188). -/
theorem decBlock_fills {s t : State} (hb : s.blkw ≠ 0) (h : decBlock s = .ok () t) :
    ∃ c, c ≤ s.blkw.toNat ∧ Fills c s t := by
  have hn : s.blkw.toNat ≠ 0 := fun h0 => hb (BitVec.eq_of_toNat_eq h0)
  obtain ⟨_, s1, h1, h⟩ := Res.andThen_eq_ok.mp h
  obtain ⟨_, s2, h2, h⟩ := Res.andThen_eq_ok.mp h
  cases h
  obtain ⟨x, s0, h0, h1⟩ := Res.andThen_eq_ok.mp h1
  cases h1
  have f0 : Fills 0 s s0 := Fills.of_keeps (keeps_of_ok h0 (readField_keeps _ s))
  have f1 := Fills.trans f0 (produce_fills (sext s0.w x) s0)
  have hk : (produce (sext s0.w x) s0).blkw = s.blkw :=
    (keeps_of_ok (u := {}) h0 (readField_keeps _ s)).blkw
  have : ∃ c, c ≤ s.blkw.toNat - 1 ∧ Fills c (produce (sext s0.w x) s0) s2 := by
    rw [hk] at h2
    split at h2
    · exact decRow_fills h2
    · have := times_fills (fun _ _ => decElem_fills) _ h2
      rw [Nat.mul_one] at this
      exact ⟨_, le_refl _, this⟩
  obtain ⟨c, hc, f2⟩ := this
  refine ⟨0 + 1 + c, by omega, ?_⟩
  exact Fills.trans (b := 0) (Fills.trans f1 f2) (Fills.of_eq rfl rfl)

/-- `repeat n times DecBlock()` that completed stored to at most `n * BLKW` cells (R192). -/
theorem decBlocks_fills (n : Nat) {s t : State} (hb : s.blkw ≠ 0)
    (h : Res.times decBlock n s = .ok () t) : ∃ c, c ≤ n * s.blkw.toNat ∧ Fills c s t := by
  induction n generalizing s with
  | zero =>
    cases h
    exact ⟨0, Nat.zero_le _, Fills.of_eq rfl rfl⟩
  | succ n ih =>
    rw [Res.times_succ, Res.andThen_eq_ok] at h
    obtain ⟨_, r, hr, ht⟩ := h
    have hk : r.blkw = s.blkw := (keeps_of_ok hr (decBlock_keeps s)).blkw
    obtain ⟨a, ha, f1⟩ := decBlock_fills hb hr
    obtain ⟨b, hb', f2⟩ := ih (by rw [hk]; exact hb) ht
    rw [hk] at hb'
    exact ⟨a + b, by rw [Nat.succ_mul]; omega, Fills.trans f1 f2⟩

end Sys2Proof.Machine
end

