-- ==== Sys2Proof/Laws/Agree.lean ====
section
/-! SUPPORT. No operation depends on a byte at or above LIMIT or on a cell at or above ELIM (20_memory.md
R61): in two states that agree below the limits it ends the same way, in states that agree there
(`Same`). -/

namespace Sys2Proof.Machine

/-! ## States that agree below the limits -/

/-- `agreeBelow`, with all four memories canonical. -/
structure Agree (s t : State) : Prop where
  below : agreeBelow s t
  bm : Memory.wf s.bm
  em : Memory.wf s.em
  bm' : Memory.wf t.bm
  em' : Memory.wf t.em

variable {α β : Type} {s t : State}

/-- The second state is the first over other memories. -/
theorem Agree.cases (h : Agree s t) : ∃ m e, t = { s with bm := m, em := e } ∧
    Memory.wf m ∧ Memory.wf e ∧ (∀ a, a < s.limit.toNat → Memory.read m a = Memory.read s.bm a) ∧
    ∀ j, j < s.elim.toNat → Memory.read e j = Memory.read s.em j :=
  ⟨t.bm, t.em, h.below.1, h.bm', h.em', h.below.2.1, h.below.2.2⟩

/-- An update of registers that neither reads nor writes a memory. -/
theorem Agree.update {g : State → State} (h : Agree s t)
    (hg : ∀ m e, g { s with bm := m, em := e } = { g s with bm := m, em := e })
    (hl : (g s).limit = s.limit) (he : (g s).elim = s.elim) : Agree (g s) (g t) := by
  obtain ⟨m, e, rfl, wm, we, hm, hem⟩ := h.cases
  have hs := hg s.bm s.em
  have hb : (g s).bm = s.bm := by
    have := congrArg State.bm hs
    exact this
  have hc : (g s).em = s.em := by
    have := congrArg State.em hs
    exact this
  rw [hg m e]
  refine ⟨⟨rfl, ?_, ?_⟩, hb ▸ h.bm, hc ▸ h.em, wm, we⟩
  · rw [hl, hb]; exact hm
  · rw [he, hc]; exact hem

/-- Bits below the limit are the same. -/
theorem Agree.bit (h : Agree s t) {p : Nat} (hp : p < s.limitBits) :
    bitRead t.bm p = bitRead s.bm p := by
  unfold State.limitBits at hp
  rw [bitRead, h.below.2.1 _ (by omega), bitRead]

/-- Elements below the limit are the same. -/
theorem Agree.elem (h : Agree s t) {k : Nat} (hk : s.eidx.toNat + k < s.elim.toNat) :
    elemAt t k = elemAt s k := by
  obtain ⟨m, e, rfl, -, -, -, he⟩ := h.cases
  show elemRead s.w e (s.eidx.toNat + k) = _
  rw [elemRead, he _ hk]
  rfl

/-! ## Operations that end the same way -/

/-- Both complete with one result, or both raise one fault, in states that agree. -/
def Same : Res α → Res α → Prop
  | .ok a s, .ok b t => a = b ∧ Agree s t
  | .raise c s, .raise d t => c = d ∧ Agree s t
  | _, _ => False

theorem Same.andThen {r r' : Res α} {f : α → State → Res β} (h : Same r r')
    (hf : ∀ a s t, r = .ok a s → Agree s t → Same (f a s) (f a t)) :
    Same (r.andThen f) (r'.andThen f) := by
  match r, r' with
  | .ok a s, .ok b t =>
    obtain ⟨rfl, h⟩ := h
    exact hf a s t rfl h
  | .raise c s, .raise d t => exact h
  | .ok _ _, .raise _ _ => exact h.elim
  | .raise _ _, .ok _ _ => exact h.elim

theorem Same.ite {P Q : Prop} [Decidable P] [Decidable Q] {a b a' b' : Res α} (hpq : P ↔ Q)
    (h1 : P → Same a a') (h2 : ¬P → Same b b') :
    Same (if P then a else b) (if Q then a' else b') := by
  by_cases hp : P
  · rw [if_pos hp, if_pos (hpq.mp hp)]; exact h1 hp
  · rw [if_neg hp, if_neg (fun hq => hp (hpq.mpr hq))]; exact h2 hp

theorem Same.times {f : State → Res Unit} (hf : ∀ s t, Agree s t → Same (f s) (f t)) (n : Nat)
    (h : Agree s t) : Same (Res.times f n s) (Res.times f n t) := by
  induction n generalizing s t with
  | zero => exact ⟨rfl, h⟩
  | succ n ih => exact Same.andThen (hf s t h) fun _ _ _ _ h => ih h

theorem Same.each {f : α → State → Res Unit} (hf : ∀ x s t, Agree s t → Same (f x s) (f x t))
    (xs : List α) (h : Agree s t) : Same (Res.each f xs s) (Res.each f xs t) := by
  induction xs generalizing s t with
  | nil => exact ⟨rfl, h⟩
  | cons x xs ih => exact Same.andThen (hf x s t h) fun _ _ _ _ h => ih h

theorem Same.of_update {g : State → State} (a : α) (h : Agree s t)
    (hg : ∀ m e, g { s with bm := m, em := e } = { g s with bm := m, em := e })
    (hl : (g s).limit = s.limit) (he : (g s).elim = s.elim) :
    Same (.ok a (g s)) (.ok a (g t)) :=
  ⟨rfl, h.update hg hl he⟩

theorem Agree.moveOn (h : Agree s t) (n : Nat) : Agree (moveOn n s) (moveOn n t) :=
  h.update (g := Machine.moveOn n) (fun _ _ => rfl) rfl rfl

theorem Agree.takeDiff (h : Agree s t) (d : Int) : Agree (takeDiff d s) (takeDiff d t) :=
  h.update (g := Machine.takeDiff d) (fun _ _ => rfl) rfl rfl

theorem Agree.setPrev (h : Agree s t) (x : Int) : Agree (setPrev x s) (setPrev x t) :=
  h.update (g := Machine.setPrev x) (fun _ _ => rfl) rfl rfl

theorem Agree.advance (h : Agree s t) (n : Nat) : Agree (advance n s) (advance n t) :=
  h.update (g := Machine.advance n) (fun _ _ => rfl) rfl rfl

theorem Agree.lessRem (h : Agree s t) (n : Nat) : Agree (lessRem n s) (lessRem n t) :=
  h.update (g := Machine.lessRem n) (fun _ _ => rfl) rfl rfl

theorem Agree.setVal (h : Agree s t) (x : Int) : Agree (setVal x s) (setVal x t) :=
  h.update (g := Machine.setVal x) (fun _ _ => rfl) rfl rfl

theorem Agree.countBlock (h : Agree s t) : Agree (countBlock s) (countBlock t) :=
  h.update (g := Machine.countBlock) (fun _ _ => rfl) rfl rfl

theorem Agree.rewind (h : Agree s t) : Agree (rewind s) (rewind t) :=
  h.update (g := Machine.rewind) (fun _ _ => rfl) rfl rfl

/-- What is read off the registers is the same. -/
theorem Agree.regs (h : Agree s t) : t.w = s.w ∧ t.sw = s.sw ∧ t.pv = s.pv ∧
    t.nextElem = s.nextElem ∧ t.runLength = s.runLength := by
  obtain ⟨m, e, rfl, -⟩ := h.cases
  exact ⟨rfl, rfl, rfl, rfl, rfl⟩

/-- Storing to the byte memory. -/
theorem Agree.bytes (h : Agree s t) {m m' : Memory 8} (hw : Memory.wf m) (hw' : Memory.wf m')
    (hm : ∀ a, a < s.limit.toNat → Memory.read m' a = Memory.read m a) :
    Agree { s with bm := m } { t with bm := m' } := by
  obtain ⟨n, e, rfl, -, he, -, hr⟩ := h.cases
  exact ⟨⟨rfl, hm, hr⟩, hw, h.em, hw', he⟩

/-- Putting out an element. -/
theorem Agree.produce (h : Agree s t) (x : Int) : Agree (produce x s) (produce x t) := by
  obtain ⟨m, e, rfl, wm, we, hm, he⟩ := h.cases
  have h1 : Agree { s with em := elemWrite s.em s.eidx.toNat x }
      { s with bm := m, em := elemWrite e s.eidx.toNat x } := by
    refine ⟨⟨rfl, hm, fun j hj => ?_⟩, h.bm, elemWrite_wf h.em _ _, wm, elemWrite_wf we _ _⟩
    show Memory.read (elemWrite e s.eidx.toNat x) j = Memory.read (elemWrite s.em s.eidx.toNat x) j
    rw [elemWrite, elemWrite, Memory.read_write we, Memory.read_write h.em, he j hj]
  exact (h1.setPrev x).advance 1

/-! ### BitCursor -/

theorem Memory.eq_of_bits {m m' : Memory 8} {a : Nat}
    (h : ∀ i, i < 8 → bitRead m' (8 * a + i) = bitRead m (8 * a + i)) :
    Memory.read m' a = Memory.read m a := by
  refine BitVec.eq_of_getLsbD_eq fun i hi => ?_
  have := h i hi
  rwa [bitRead, bitRead, show (8 * a + i) / 8 = a by omega, show (8 * a + i) % 8 = i by omega]
    at this

theorem writeField_same (h : Agree s t) (v n : Nat) :
    Same (writeField v n s) (writeField v n t) := by
  obtain ⟨m, e, rfl, wm, we, hm, he⟩ := h.cases
  refine Same.ite Iff.rfl (fun _ => ⟨rfl, ?_⟩) fun _ => ⟨rfl, h⟩
  refine Agree.moveOn (h.bytes (fieldWrite_wf h.bm _ v n) (fieldWrite_wf wm _ v n)
    fun a ha => Memory.eq_of_bits fun i hi => ?_) n
  rw [bitRead_fieldWrite wm, bitRead_fieldWrite h.bm,
    h.bit (by unfold State.limitBits; omega)]

theorem readField_same (h : Agree s t) (n : Nat) : Same (readField n s) (readField n t) := by
  obtain ⟨m, e, rfl, -⟩ := h.cases
  refine Same.ite Iff.rfl (fun hf => ⟨?_, h.moveOn n⟩) fun _ => ⟨rfl, h⟩
  refine (fieldRead_congr fun i hi => h.bit ?_).symm
  rcases fits_iff.mp hf with h0 | h0 <;> omega

theorem scanFrom_congr {m m' : Memory 8} {lim o k z : Nat}
    (h : ∀ p, p < lim → bitRead m' p = bitRead m p) :
    scanFrom m' lim o k z = scanFrom m lim o k z := by
  induction k generalizing z with
  | zero => rfl
  | succ k ih =>
    rw [scanFrom, scanFrom, ih]
    split
    · rfl
    · rw [h _ (by omega)]

theorem scanZeros_same (h : Agree s t) (n : Nat) : Same (scanZeros n s) (scanZeros n t) := by
  obtain ⟨m, e, rfl, -⟩ := h.cases
  have hs : scanFrom m s.limitBits s.bitpos.toNat n 0 =
      scanFrom s.bm s.limitBits s.bitpos.toNat n 0 := scanFrom_congr fun p hp => h.bit hp
  unfold scanZeros
  show Same _ (match scanFrom m s.limitBits s.bitpos.toNat n 0 with
    | none => _
    | some (z, f) => _)
  rw [hs]
  match scanFrom s.bm s.limitBits s.bitpos.toNat n 0 with
  | none => exact ⟨rfl, h⟩
  | some (z, f) => exact ⟨rfl, h.moveOn _⟩

theorem alignWrite_same (h : Agree s t) : Same (alignWrite s) (alignWrite t) := by
  have hp : t.bitpos = s.bitpos := by
    obtain ⟨m, e, rfl, -⟩ := h.cases
    rfl
  unfold alignWrite
  rw [hp]
  exact writeField_same h _ _

theorem Agree.alignRead (h : Agree s t) : Agree (alignRead s) (alignRead t) :=
  h.update (g := Machine.alignRead) (fun _ _ => rfl) rfl rfl

/-! ### DifferenceCodec -/

theorem encCodeword_same (h : Agree s t) (d : Int) : Same (encCodeword d s) (encCodeword d t) := by
  unfold encCodeword
  rw [h.regs.2.1]
  refine Same.andThen (writeField_same h _ _) fun _ s t _ h => ?_
  dsimp only
  rw [h.regs.2.1]
  refine Same.ite Iff.rfl (fun _ => writeField_same h _ _) fun _ => ?_
  refine Same.andThen (writeField_same h _ _) fun _ s t _ h => ?_
  rw [h.regs.1]
  exact writeField_same h _ _

theorem unaryForm_same (h : Agree s t) (lit z : Nat) :
    Same (unaryForm lit z s) (unaryForm lit z t) := by
  unfold unaryForm
  rw [h.regs.2.1]
  exact Same.ite Iff.rfl (fun _ => ⟨rfl, h.takeDiff _⟩) fun _ => ⟨rfl, h⟩

theorem escapeForm_same (h : Agree s t) (lit e : Nat) :
    Same (escapeForm lit e s) (escapeForm lit e t) := by
  unfold escapeForm
  rw [h.regs.1, h.regs.2.1]
  exact Same.ite Iff.rfl (fun _ => ⟨rfl, h.takeDiff _⟩) fun _ => ⟨rfl, h⟩

theorem decCodeword_same (h : Agree s t) : Same (decCodeword s) (decCodeword t) := by
  unfold decCodeword
  rw [h.regs.2.1]
  refine Same.andThen (readField_same h _) fun lit s t _ h => ?_
  refine Same.andThen (scanZeros_same h _) fun r s t _ h => ?_
  refine Same.ite Iff.rfl (fun _ => unaryForm_same h _ _) fun _ => ?_
  rw [h.regs.1]
  exact Same.andThen (readField_same h _) fun e s t _ h => escapeForm_same h _ _

/-! ### RunCodec -/

theorem encSegment_same (seg : Segment) (s t : State) (h : Agree s t) :
    Same (encSegment seg s) (encSegment seg t) := by
  have lit : ∀ (d : Int) (s t : State), Agree s t → Same (encLitDiff d s) (encLitDiff d t) := by
    intro d s t h
    unfold encLitDiff
    rw [h.regs.1]
    exact writeField_same h _ _
  cases seg with
  | literal ds =>
    exact Same.andThen (writeField_same h _ _) fun _ s t _ h =>
      Same.each (fun d s t h => encCodeword_same h d) ds h
  | constant n d =>
    exact Same.andThen (writeField_same h _ _) fun _ s t _ h => lit d s t h
  | continued d =>
    exact Same.andThen (writeField_same h _ _) fun _ s t _ h => lit d s t h

theorem elemsAt_same (h : Agree s t) {n : Nat} (hn : s.eidx.toNat + n ≤ s.elim.toNat) :
    elemsAt t n = elemsAt s n :=
  List.map_congr_left fun k hk => h.elem (by have := List.mem_range.mp hk; omega)

theorem encRow_same (h : Agree s t) {n : Nat} (hn : s.eidx.toNat + n ≤ s.elim.toNat) :
    Same (encRow n s) (encRow n t) := by
  unfold encRow
  rw [h.regs.2.2.1, elemsAt_same h hn]
  refine Same.andThen (Same.each encSegment_same _ h) fun _ s' t' hs h' => ⟨rfl, ?_⟩
  have hk := keeps_of_ok hs (Res.each_rel Keeps.refl Keeps.trans encSegment_keeps _ s)
  refine Agree.advance ?_ n
  split
  · rw [h'.elem (by rw [hk.eidx rfl, hk.elim]; omega)]
    exact h'.setPrev _
  · exact h'

theorem checkCount_same (h : Agree s t) (c : Nat) : Same (checkCount c s) (checkCount c t) := by
  obtain ⟨m, e, rfl, -⟩ := h.cases
  exact Same.ite Iff.rfl (fun _ => ⟨rfl, h⟩) fun _ => ⟨rfl, h⟩

theorem nextElem_same (h : Agree s t) :
    Same (.ok () (produce s.nextElem s)) (.ok () (produce t.nextElem t)) := by
  rw [h.regs.2.2.2.1]
  exact ⟨rfl, h.produce _⟩

theorem decElem_same (s t : State) (h : Agree s t) : Same (decElem s) (decElem t) :=
  Same.andThen (decCodeword_same h) fun _ _ _ _ h => nextElem_same h

theorem decLitDiff_same (h : Agree s t) : Same (decLitDiff s) (decLitDiff t) := by
  unfold decLitDiff
  rw [h.regs.1]
  refine Same.andThen (readField_same h _) fun e s t _ h => ?_
  rw [h.regs.1]
  exact ⟨rfl, h.takeDiff _⟩

theorem literalRun_same (h : Agree s t) (c : Nat) : Same (literalRun c s) (literalRun c t) :=
  Same.andThen (checkCount_same h c) fun _ _ _ _ h =>
    Same.andThen (Same.times decElem_same c h) fun _ _ _ _ h => ⟨rfl, h.lessRem c⟩

theorem repeatedRun_same (h : Agree s t) (c : Nat) : Same (repeatedRun c s) (repeatedRun c t) :=
  Same.andThen (checkCount_same h c) fun _ _ _ _ h =>
    Same.andThen (decLitDiff_same h) fun _ _ _ _ h =>
      Same.andThen (Same.times (fun _ _ h => nextElem_same h) c h) fun _ _ _ _ h =>
        ⟨rfl, h.lessRem c⟩

theorem afterMarker_same (h : Agree s t) (b : Nat) :
    Same (afterMarker b s) (afterMarker b t) :=
  Same.ite Iff.rfl (fun _ => ⟨rfl, h⟩) fun _ =>
    Same.ite Iff.rfl (fun _ => literalRun_same h b) fun _ =>
      Same.ite Iff.rfl (fun _ => repeatedRun_same h _) fun _ => repeatedRun_same h _

theorem decSegments_same (fuel : Nat) (h : Agree s t) :
    Same (decSegments fuel s) (decSegments fuel t) := by
  induction fuel generalizing s t with
  | zero => exact ⟨rfl, h⟩
  | succ f ih =>
    have hr : s.rem = 0 ↔ t.rem = 0 := by
      obtain ⟨m, e, rfl, -⟩ := h.cases
      exact Iff.rfl
    exact Same.ite hr (fun _ => ⟨rfl, h⟩) fun _ =>
      Same.andThen (Same.andThen (readField_same h 8) fun b _ _ _ h => afterMarker_same h b)
        fun _ _ _ _ h => ih h

theorem decRow_same (h : Agree s t) (n : Nat) : Same (decRow n s) (decRow n t) := by
  refine Same.andThen (decSegments_same n (h.update
    (g := fun s => { s with rem := BitVec.ofNat 32 n }) (fun _ _ => rfl) rfl rfl))
    fun _ s t _ h => ⟨rfl, ?_⟩
  rw [h.regs.2.2.1]
  exact h.setPrev _

/-! ### BlockFramer -/

theorem wrHeader_same (h : Agree s t) : Same (wrHeader s) (wrHeader t) := by
  have hc : ∀ {s t : State}, Agree s t → t.blkc = s.blkc ∧ t.blkw = s.blkw ∧ t.cfg = s.cfg := by
    intro s t h
    obtain ⟨m, e, rfl, -⟩ := h.cases
    exact ⟨rfl, rfl, rfl⟩
  refine Same.andThen (writeField_same (h.update (g := fun s => { rewind s with total := 0 })
    (fun _ _ => rfl) rfl rfl) _ _) fun _ s t _ h => ?_
  rw [(hc h).1]
  refine Same.andThen (writeField_same h _ _) fun _ s t _ h => ?_
  rw [(hc h).2.1]
  refine Same.andThen (writeField_same h _ _) fun _ s t _ h => ?_
  rw [h.regs.2.1]
  refine Same.andThen (writeField_same h _ _) fun _ s t _ h => ?_
  rw [(hc h).2.2]
  exact writeField_same h _ _

theorem acceptHeader_same (h : Agree s t) (a b c d e : Nat) :
    Same (acceptHeader a b c d e s) (acceptHeader a b c d e t) := by
  have hc : checkHeader b c d e t = checkHeader b c d e s := by
    obtain ⟨m, e, rfl, -⟩ := h.cases
    rfl
  unfold acceptHeader
  rw [hc]
  split
  · exact ⟨rfl, h⟩
  · exact ⟨rfl, h.update (g := fun s => { s with
      total := BitVec.ofNat 32 a, cfg := { typ := BitVec.ofNat 3 e, slice := BitVec.ofNat 6 d } })
      (fun _ _ => rfl) rfl rfl⟩

theorem acceptTag_same (h : Agree s t) (a : Nat) : Same (acceptTag a s) (acceptTag a t) := by
  unfold acceptTag
  rw [h.regs.1]
  exact Same.ite Iff.rfl (fun _ => ⟨rfl, h⟩) fun _ => Same.ite Iff.rfl (fun _ => ⟨rfl, h⟩)
    fun _ => ⟨rfl, h.update (g := fun s => { s with cfg := { s.cfg with typ := BitVec.ofNat 3 a } })
      (fun _ _ => rfl) rfl rfl⟩

theorem rdHeader_same (h : Agree s t) : Same (rdHeader s) (rdHeader t) :=
  Same.andThen (readField_same h.rewind _) fun a _ _ _ h =>
    Same.andThen (readField_same h _) fun b _ _ _ h =>
      Same.andThen (readField_same h _) fun c _ _ _ h =>
        Same.andThen (readField_same h _) fun d _ _ _ h =>
          Same.andThen (readField_same h _) fun e _ _ _ h => acceptHeader_same h a b c d e

theorem takeElem_same (h : Agree s t) (hn : s.eidx.toNat + 1 ≤ s.elim.toNat) :
    Agree (advance 1 (setPrev (elemAt s 0) s)) (advance 1 (setPrev (elemAt t 0) t)) := by
  rw [h.elem (by omega)]
  exact (h.setPrev _).advance 1

/-- After an element has been taken, EIDX is one further. -/
theorem takeElem_eidx {s r : State} {u : Touch} (hk : Keeps u s r) (hu : u.eidx = false) (x : Int)
    {n : Nat} (hn : s.eidx.toNat + (n + 1) ≤ s.elim.toNat) :
    (advance 1 (setPrev x r)).eidx.toNat + n ≤ (advance 1 (setPrev x r)).elim.toNat := by
  have := s.elim.isLt
  show (r.eidx + BitVec.ofNat 32 1).toNat + n ≤ r.elim.toNat
  rw [hk.eidx hu, hk.elim, advance_eidx_toNat (by omega)]
  omega

theorem encElems_same (n : Nat) (h : Agree s t) (hn : s.eidx.toNat + n ≤ s.elim.toNat) :
    Same (Res.times encElem n s) (Res.times encElem n t) := by
  induction n generalizing s t with
  | zero => exact ⟨rfl, h⟩
  | succ n ih =>
    rw [Res.times_succ, Res.times_succ]
    have h0 : Same (encElem s) (encElem t) := by
      unfold encElem
      rw [h.elem (by omega), h.regs.2.2.1]
      refine Same.andThen (encCodeword_same h _) fun _ s' t' hs h' => ⟨rfl, ?_⟩
      have hk := keeps_of_ok hs (encCodeword_keeps _ s)
      exact takeElem_same h' (by rw [hk.eidx rfl, hk.elim]; omega)
    refine Same.andThen h0 fun _ s' t' hs h' => ih h' ?_
    obtain ⟨_, r, hr, hs⟩ := Res.andThen_eq_ok.mp hs
    cases hs
    exact takeElem_eidx (keeps_of_ok hr (encCodeword_keeps _ s)) rfl _ hn

theorem encBlock_same (h : Agree s t) (hb : s.blkw ≠ 0)
    (hn : s.eidx.toNat + s.blkw.toNat ≤ s.elim.toNat) : Same (encBlock s) (encBlock t) := by
  have h0 : s.blkw.toNat ≠ 0 := fun h => hb (BitVec.eq_of_toNat_eq h)
  obtain ⟨n, hn1⟩ : ∃ n, s.blkw.toNat = n + 1 := ⟨s.blkw.toNat - 1, by omega⟩
  have h1 : Same (encFirst s) (encFirst t) := by
    unfold encFirst
    rw [h.elem (by omega), h.regs.1]
    refine Same.andThen (writeField_same h _ _) fun _ s' t' hs h' => ⟨rfl, ?_⟩
    have hk := keeps_of_ok hs (writeField_keeps _ _ s)
    exact takeElem_same h' (by rw [hk.eidx rfl, hk.elim]; omega)
  refine Same.andThen h1 fun _ s' t' hs h' => ?_
  have he : s'.eidx.toNat + n ≤ s'.elim.toNat ∧ s'.blkw = s.blkw := by
    obtain ⟨_, r, hr, hs⟩ := Res.andThen_eq_ok.mp hs
    cases hs
    have hk := keeps_of_ok hr (writeField_keeps _ _ s)
    exact ⟨takeElem_eidx hk rfl _ (by omega), hk.blkw⟩
  have hb' : t'.blkw = s'.blkw := by
    obtain ⟨m, e, rfl, -⟩ := h'.cases
    rfl
  rw [h'.regs.2.2.2.2, hb', he.2, hn1]
  refine Same.andThen (Same.ite Iff.rfl (fun _ => encRow_same h' he.1)
    fun _ => encElems_same _ h' he.1) fun _ s t _ h => ?_
  exact Same.andThen (alignWrite_same h) fun _ s t _ h => ⟨rfl, h.countBlock⟩

theorem encBlocks_same (n : Nat) (h : Agree s t) (hb : s.blkw ≠ 0) (hc : s.sw ≤ s.w)
    (ha : s.bitpos.toNat % 8 = 0) (hn : s.eidx.toNat + n * s.blkw.toNat ≤ s.elim.toNat) :
    Same (Res.times encBlock n s) (Res.times encBlock n t) := by
  induction n generalizing s t with
  | zero => exact ⟨rfl, h⟩
  | succ n ih =>
    rw [Nat.succ_mul] at hn
    have hlt := s.elim.isLt
    rw [Res.times_succ, Res.times_succ]
    refine Same.andThen (encBlock_same h hb (by omega)) fun _ s' t' hs h' => ?_
    have hw := encBlock_writes h.bm hc hb (by omega) ha
    have hm8 := blockBits_length_mod s.ctx s.runLength (elemsAt s s.blkw.toNat)
    generalize (blockBits s.ctx s.runLength (elemsAt s s.blkw.toNat)) = bits at hw hm8
    by_cases hr : room bits.length s
    · obtain ⟨m, -, -, he⟩ := hw.1 hr
      rw [hs] at he
      have he : s' = (afterEncBlock bits.length s).setBm m := by cases he; rfl
      have hx : s'.eidx.toNat = s.eidx.toNat + s.blkw.toNat := by
        rw [he]
        exact afterEncBlock_eidx (k := bits.length) (by omega)
      have hp : s'.bitpos.toNat = s.bitpos.toNat + bits.length := by
        rw [he]
        exact bitpos_add hr
      have hk := keeps_of_ok hs (encBlock_keeps s)
      refine ih h' (by rw [hk.blkw]; exact hb) ?_ (by omega) (by rw [hx, hk.blkw, hk.elim]; omega)
      rw [State.sw, State.w, hk.cfg rfl]
      exact hc
    · obtain ⟨u, he⟩ := hw.2 hr
      rw [he] at hs
      cases hs

theorem patchSize_same (h : Agree s t) : Same (patchSize s) (patchSize t) := by
  obtain ⟨m, e, rfl, wm, we, hm, he⟩ := h.cases
  have h1 := h.bytes (fieldWrite_wf h.bm 0 (s.bitpos.toNat / 8) 32)
    (fieldWrite_wf wm 0 (s.bitpos.toNat / 8) 32) fun a ha => Memory.eq_of_bits fun i hi => by
      rw [bitRead_fieldWrite wm, bitRead_fieldWrite h.bm,
        h.bit (by unfold State.limitBits; omega)]
  unfold patchSize
  revert h1
  dsimp only
  generalize fieldWrite s.bm 0 (s.bitpos.toNat / 8) 32 = m1
  generalize fieldWrite m 0 (s.bitpos.toNat / 8) 32 = m2
  intro h1
  exact Same.ite Iff.rfl (fun _ => ⟨rfl, h⟩) fun _ => ⟨rfl, h1.update
    (g := fun s' => { s' with total := BitVec.ofNat 32 (s.bitpos.toNat / 8) })
    (fun _ _ => rfl) rfl rfl⟩

theorem encodeStream_same (h : Agree s t) (hc : s.sw ≤ s.w) (hb : s.blkw ≠ 0)
    (hn : s.blkw.toNat * s.blkc.toNat ≤ s.elim.toNat) :
    Same (encodeStream s) (encodeStream t) := by
  refine Same.andThen (wrHeader_same h) fun _ s' t' hs h' => ?_
  have hbc : t'.blkc = s'.blkc := by
    obtain ⟨m, e, rfl, -⟩ := h'.cases
    rfl
  have hk := keeps_of_ok hs (wrHeader_keeps s)
  have he : s'.eidx.toNat = 0 ∧ s'.bitpos.toNat % 8 = 0 := by
    have hw := wrHeader_writes (s := s) h.bm
    by_cases hr : room (Sys2Proof.encode s.ctx (headerOf s 0)).length (headerStart s)
    · obtain ⟨m, -, -, he⟩ := hw.1 hr
      rw [hs] at he
      have he : s' = (moveOn 112 (headerStart s)).setBm m := by cases he; rfl
      rw [he]
      refine ⟨rfl, ?_⟩
      show ((0 : BitVec 64) + BitVec.ofNat 64 112).toNat % 8 = 0
      decide
    · obtain ⟨u, he⟩ := hw.2 hr
      rw [he] at hs
      cases hs
  rw [hbc]
  refine Same.andThen (encBlocks_same _ h' (by rw [hk.blkw]; exact hb) ?_ he.2
    (by rw [he.1, hk.blkw, hk.elim, hk.blkc, Nat.mul_comm]; omega)) fun _ _ _ _ h => patchSize_same h
  rw [State.sw, State.w, hk.cfg rfl]
  exact hc

theorem decBlock_same (s t : State) (h : Agree s t) : Same (decBlock s) (decBlock t) := by
  have h1 : Same (decFirst s) (decFirst t) := by
    unfold decFirst
    rw [h.regs.1]
    refine Same.andThen (readField_same h _) fun x s t _ h => ?_
    rw [h.regs.1]
    exact ⟨rfl, h.produce _⟩
  refine Same.andThen h1 fun _ s t _ h => ?_
  have hb : t.blkw = s.blkw := by
    obtain ⟨m, e, rfl, -⟩ := h.cases
    rfl
  rw [h.regs.2.2.2.2, hb]
  exact Same.andThen (Same.ite Iff.rfl (fun _ => decRow_same h _)
    fun _ => Same.times decElem_same _ h) fun _ _ _ _ h => ⟨rfl, h.alignRead.countBlock⟩

theorem decodeStream_same (h : Agree s t) : Same (decodeStream s) (decodeStream t) := by
  refine Same.andThen (rdHeader_same h) fun _ s t _ h => ?_
  have hb : t.blkc = s.blkc := by
    obtain ⟨m, e, rfl, -⟩ := h.cases
    rfl
  rw [hb]
  refine Same.andThen (Same.times decBlock_same _ h) fun _ s t _ h => ?_
  obtain ⟨m, e, rfl, -⟩ := h.cases
  exact Same.ite Iff.rfl (fun _ => ⟨rfl, h⟩) fun _ => ⟨rfl, h⟩

/-! ## Commands and items -/

/-- A fault leaves states that agree. -/
theorem faultState_agree {r q : State} (h : Agree s t) (g : Agree r q) (u : Option Unspec)
    (c : Cause) : Agree (faultState u c s r) (faultState u c t q) := by
  have take : ∀ {s t : State}, Agree s t → Agree (takeFault c s) (takeFault c t) :=
    fun h => h.update (g := takeFault c) (fun _ _ => rfl) rfl rfl
  cases u with
  | none => exact take h
  | some u =>
    unfold faultState
    dsimp only
    split
    · exact take g
    · refine take ?_
      have hcfg : q.cfg = r.cfg := by
        obtain ⟨m, e, rfl, -⟩ := g.cases
        rfl
      obtain ⟨m, e, rfl, wm, we, hm, he⟩ := h.cases
      have hb : ∀ n : Memory 8, Memory.wf n →
          Memory.wf (if u.bytes then freeBytes s.freeDraws n 0 s.limit.toNat else n) := by
        intro n hn
        split
        · exact freeBytes_wf hn _ _ _
        · exact hn
      refine ⟨⟨?_, fun a ha => ?_, fun j hj => ?_⟩, hb _ h.bm, freeCells_wf h.em _ _ _, hb _ wm,
        freeCells_wf we _ _ _⟩
      · unfold unspecify
        rw [hcfg]
      · show Memory.read (if u.bytes then freeBytes s.freeDraws m 0 s.limit.toNat else m) a =
          Memory.read (if u.bytes then freeBytes s.freeDraws s.bm 0 s.limit.toNat else s.bm) a
        split
        · rw [read_freeBytes wm, read_freeBytes h.bm, hm a ha]
        · exact hm a ha
      · show Memory.read (freeCells s.freeDraws e (u.cells.span s).1 (u.cells.span s).2) j =
          Memory.read (freeCells s.freeDraws s.em (u.cells.span s).1 (u.cells.span s).2) j
        rw [read_freeCells we, read_freeCells h.em, he j hj]

/-- A command whose body ends the same way in states that agree. -/
theorem runCommand_agree {i : Instr} {u : Option Unspec} {body : State → Res Unit} {s' t' : State}
    (h : Agree s t) (hs : runCommand i u body s = .next s') (ht : runCommand i u body t = .next t')
    (hc : openingCheck i t = openingCheck i s)
    (hb : openingCheck i s = none → ∀ s t, (∃ q, s = start i q ∧ openingCheck i q = none) →
      Agree s t → Same (body s) (body t)) : Agree s' t' := by
  have ha : accepts t = accepts s := by
    obtain ⟨m, e, rfl, -⟩ := h.cases
    rfl
  unfold runCommand at hs ht
  rw [ha, hc] at ht
  by_cases hacc : accepts s = true
  · rw [if_pos hacc] at hs ht
    cases hck : openingCheck i s with
    | some c =>
      rw [hck] at hs ht
      cases hs; cases ht
      exact h.update (g := takeFault c) (fun _ _ => rfl) rfl rfl
    | none =>
      rw [hck] at hs ht
      have h1 : Agree (start i s) (start i t) :=
        h.update (g := start i) (fun _ _ => rfl) rfl rfl
      have h2 := hb hck _ _ ⟨s, rfl, hck⟩ h1
      dsimp only at hs ht
      generalize body (start i s) = r at hs h2
      generalize body (start i t) = r' at ht h2
      match r, r' with
      | .ok _ r, .ok _ q =>
        cases hs; cases ht
        exact h2.2.update (g := complete) (fun _ _ => rfl) rfl rfl
      | .raise c r, .raise d q =>
        obtain ⟨rfl, h2⟩ := h2
        cases hs; cases ht
        exact faultState_agree h h2 u c
      | .ok _ _, .raise _ _ => exact h2.elim
      | .raise _ _, .ok _ _ => exact h2.elim
  · rw [if_neg hacc] at hs ht
    cases hs; cases ht
    exact h

/-- An item whose action ends the same way in states that agree. -/
theorem runItem_agree {u : Option Unspec} {check : State → Option Cause} {body : State → Res Unit}
    {s' t' : State} (h : Agree s t) (hs : runItem u check body s = .next s')
    (ht : runItem u check body t = .next t') (hc : check t = check s)
    (hb : Same (body s) (body t)) : Agree s' t' := by
  have ha : t.status = s.status := by
    obtain ⟨m, e, rfl, -⟩ := h.cases
    rfl
  unfold runItem at hs ht
  rw [ha, hc] at ht
  by_cases hf : s.status.fault = true
  · rw [if_pos hf] at hs ht
    cases hs; cases ht
    exact h
  · rw [if_neg hf] at hs ht
    cases hck : check s with
    | some c =>
      rw [hck] at hs ht
      cases hs; cases ht
      exact h.update (g := takeFault c) (fun _ _ => rfl) rfl rfl
    | none =>
      rw [hck] at hs ht
      dsimp only at hs ht
      generalize body s = r at hs hb
      generalize body t = r' at ht hb
      match r, r' with
      | .ok _ r, .ok _ q =>
        cases hs; cases ht
        exact hb.2
      | .raise c r, .raise d q =>
        obtain ⟨rfl, h2⟩ := hb
        cases hs; cases ht
        exact faultState_agree h h2 u c
      | .ok _ _, .raise _ _ => exact hb.elim
      | .raise _ _, .ok _ _ => exact hb.elim

end Sys2Proof.Machine
end

