-- ==== Sys2Proof/Laws/Corrupt.lean ====
section
/-! SUPPORT. What the decoding functions do with a codeword or a marker that is refused or cut short by the
limit (60_exceptions.md R212 to R216), wherever it stands in a row, a block or a stream. -/

namespace Sys2Proof.Machine

variable {α β : Type} {s t : State} {e : Cause}

/-- An operation that reads, and one that raises after it; if the limit cuts the first one short, the
fault is ReadPastEnd anyway. -/
theorem Reads.andThen_raise {r : Res α} {f : α → State → Res β} {n : Nat} {a : α}
    (h1 : Reads s r n a t) (h2 : room n s → ∃ u, f a t = .raise e u)
    (h3 : ¬room n s → e = .readPastEnd) : ∃ u, r.andThen f = .raise e u := by
  by_cases hr : room n s
  · rw [h1.1 hr, Res.andThen_ok]
    exact h2 hr
  · obtain ⟨u, hu⟩ := h1.2 hr
    rw [hu, h3 hr]
    exact ⟨u, rfl⟩

theorem Res.times_add (f : State → Res Unit) (a b : Nat) (s : State) :
    Res.times f (a + b) s = (Res.times f a s).andThen fun _ s => Res.times f b s := by
  induction a generalizing s with
  | zero => rw [Nat.zero_add]; rfl
  | succ a ih =>
    rw [Nat.succ_add, Res.times_succ, Res.times_succ, Res.andThen_assoc]
    congr 1
    funext _ s
    exact ih s

/-! ## One codeword -/

/-- A refused codeword depends on the widths, the limit and the byte memory alone. -/
theorem codewordFails_congr (hx : t.ctx = s.ctx) (hl : t.limit = s.limit) (hm : t.bm = s.bm) {o : Nat} :
    codewordFails t o e ↔ codewordFails s o e := by
  have hw : t.w = s.w := congrArg Ctx.w hx
  have hs : t.sw = s.sw := congrArg Ctx.s hx
  unfold codewordFails cutByLimit
  rw [hw, hs, hl, hm]

/-- A codeword that is refused for its bits lies inside the limit. -/
theorem codewordFails.inside {o : Nat} (h : codewordFails s o e) :
    o ≤ s.limitBits ∨ e = .readPastEnd := by
  unfold State.limitBits
  obtain ⟨lit, -, bits, h | ⟨h1, v, h2, h3, h4, h5⟩ | h⟩ := h
  · left; omega
  · left; omega
  · exact .inr h.1

theorem codewordFails.room {o n : Nat} (h : codewordFails s o e) (hn : s.bitpos.toNat + n ≤ o) :
    ¬room n s → e = .readPastEnd := by
  intro hr
  rcases h.inside with hi | hi
  · exact absurd (.inr (by omega)) hr
  · exact hi

/-- `DecCodeword()` raises what the codeword at the cursor is refused with (R144). -/
theorem decCodeword_fails (h : codewordFails s s.bitpos.toNat e) :
    ∃ u, decCodeword s = .raise e u := by
  have hl : s.limitBits = 8 * s.limit.toNat := rfl
  have nat : ∀ {lit : Nat}, lit < 2 ^ s.sw →
      holdsBelow s.bm s.limitBits s.bitpos.toNat (bitsOf lit s.sw) →
      Reads s (readField s.sw s) s.sw lit (moveOn s.sw s) := readField_reads_value
  obtain ⟨lit, hlit, bits, ⟨rfl, rfl, hr, hb⟩ | ⟨rfl, v, hv, rfl, hbad, hr, hb⟩ |
    ⟨rfl, hform, -, hr, hb⟩⟩ := h
  · rw [fieldBits_cons, fieldBits_cons, fieldBits_nil, List.append_nil, List.length_append,
      bitsOf_length, bitsOf_length] at hr
    have hb := hb.below s.limitBits
    rw [fieldBits_cons, fieldBits_cons, fieldBits_nil, List.append_nil, holdsBelow_append,
      bitsOf_length, bitsOf_two_pow] at hb
    refine Reads.andThen_raise (nat hlit hb.1) (fun h1 => ?_) fun h => absurd (.inr (by omega)) h
    have hp : (moveOn s.sw s).bitpos.toNat = s.bitpos.toNat + s.sw := bitpos_add h1
    have h2 : room (31 + 1) (moveOn s.sw s) := by
      right
      rw [hp]
      show _ ≤ s.limitBits
      omega
    refine Reads.andThen_raise (scanZeros_found (z := 31) (by decide) (by rw [hp]; exact hb.2))
      (fun _ => ?_) fun h => absurd h2 h
    rw [if_pos rfl, unaryForm, if_neg (by decide)]
    exact ⟨_, rfl⟩
  · rw [fieldBits_cons, fieldBits_cons, fieldBits_cons, fieldBits_nil, List.append_nil,
      List.length_append, List.length_append, bitsOf_length, bitsOf_length, bitsOf_length] at hr
    have hb := hb.below s.limitBits
    rw [fieldBits_cons, fieldBits_cons, fieldBits_cons, fieldBits_nil, List.append_nil,
      holdsBelow_append, holdsBelow_append, bitsOf_length, bitsOf_length, bitsOf_zero_value] at hb
    refine Reads.andThen_raise (nat hlit hb.1) (fun h1 => ?_) fun h => absurd (.inr (by omega)) h
    have hp : (moveOn s.sw s).bitpos.toNat = s.bitpos.toNat + s.sw := bitpos_add h1
    have h2 : room Config.escPrefix (moveOn s.sw s) := by
      right
      rw [hp]
      show _ + 32 ≤ s.limitBits
      omega
    have hp' : (moveOn Config.escPrefix (moveOn s.sw s)).bitpos.toNat =
        s.bitpos.toNat + s.sw + 32 := hp ▸ bitpos_add h2
    have h3 : room (s.w + 1) (moveOn Config.escPrefix (moveOn s.sw s)) := by
      right
      rw [hp']
      show _ ≤ s.limitBits
      omega
    refine Reads.andThen_raise (scanZeros_none (by rw [hp]; exact hb.2.1)) (fun _ => ?_)
      fun h => absurd h2 h
    rw [if_neg (by simp)]
    refine Reads.andThen_raise (readField_reads_value (v := v) hv (by rw [hp']; exact hb.2.2))
      (fun _ => ?_) fun h => absurd h3 h
    have hvalid : ¬escapeValid s.sw lit (sext (s.w + 1) v) = true := by
      simp only [escapeValid, Bool.and_eq_true, decide_eq_true_eq, not_and]
      rcases hbad with hbad | hbad
      · intro h0
        have : Config.unaryLimit = 31 := rfl
        omega
      · exact fun _ => hbad
    exact ⟨_, if_neg hvalid⟩
  · rcases hform with ⟨m, hm, rfl⟩ | ⟨v, hv, rfl⟩
    · rw [fieldBits_cons, fieldBits_cons, fieldBits_nil, List.append_nil, List.length_append,
        bitsOf_length, bitsOf_length] at hr
      rw [← hl, fieldBits_cons, fieldBits_cons, fieldBits_nil, List.append_nil, holdsBelow_append,
        bitsOf_length, bitsOf_two_pow] at hb
      refine Reads.andThen_raise (nat hlit hb.1) (fun h1 => ?_) fun _ => rfl
      have hp : (moveOn s.sw s).bitpos.toNat = s.bitpos.toNat + s.sw := bitpos_add h1
      refine Reads.andThen_raise (scanZeros_found (z := m) (by show m < 32; omega)
        (by rw [hp]; exact hb.2)) (fun h2 => ?_) fun _ => rfl
      rcases h2 with h2 | h2
      · omega
      · rw [hp] at h2
        change _ ≤ s.limitBits at h2
        omega
    · rw [fieldBits_cons, fieldBits_cons, fieldBits_cons, fieldBits_nil, List.append_nil,
        List.length_append, List.length_append, bitsOf_length, bitsOf_length, bitsOf_length] at hr
      rw [← hl, fieldBits_cons, fieldBits_cons, fieldBits_cons, fieldBits_nil, List.append_nil,
        holdsBelow_append, holdsBelow_append, bitsOf_length, bitsOf_length, bitsOf_zero_value] at hb
      refine Reads.andThen_raise (nat hlit hb.1) (fun h1 => ?_) fun _ => rfl
      have hp : (moveOn s.sw s).bitpos.toNat = s.bitpos.toNat + s.sw := bitpos_add h1
      refine Reads.andThen_raise (scanZeros_none (by rw [hp]; exact hb.2.1)) (fun h2 => ?_)
        fun _ => rfl
      have hp' : (moveOn Config.escPrefix (moveOn s.sw s)).bitpos.toNat =
          s.bitpos.toNat + s.sw + 32 := hp ▸ bitpos_add h2
      rw [if_neg (by simp)]
      refine Reads.andThen_raise (readField_reads_value (v := v) hv (by rw [hp']; exact hb.2.2))
        (fun h3 => ?_) fun _ => rfl
      rcases h3 with h3 | h3
      · omega
      · rw [hp'] at h3
        change _ + (s.w + 1) ≤ s.limitBits at h3
        omega

/-! ## Inside a row -/

theorem consume_codewordFails (ds : List Int) (n o : Nat) :
    codewordFails (consume ds (moveOn n s)) o e ↔ codewordFails s o e :=
  codewordFails_congr (consume_ctx _ _) (consume_limit _ _) (consume_bm _ _)

/-- The codewords of a literal run or a plain block, up to one that is refused (R166, R188). -/
theorem decElems_fails {ds : List Int} {n : Nat} (hc : s.sw ≤ s.w) (hn : ds.length < n)
    (hd : ∀ d ∈ ds, codable s.ctx d)
    (h : holdsBelow s.bm s.limitBits s.bitpos.toNat (ds.flatMap (codewordBits s.ctx)))
    (hf : codewordFails s (s.bitpos.toNat + (ds.flatMap (codewordBits s.ctx)).length) e) :
    ∃ u, Res.times decElem n s = .raise e u := by
  obtain ⟨k, rfl⟩ : ∃ k, n = ds.length + (k + 1) := ⟨n - ds.length - 1, by omega⟩
  rw [Res.times_add]
  refine Reads.andThen_raise (decElems_reads ds hc hd h) (fun hr => ?_) (hf.room (le_refl _))
  obtain ⟨u, hu⟩ := decCodeword_fails (e := e)
    (s := consume ds (moveOn (ds.flatMap (codewordBits s.ctx)).length s)) (by
      rw [consume_codewordFails, consume_bitpos]
      rw [show (moveOn _ s).bitpos.toNat = _ from bitpos_add hr]
      exact hf)
  rw [Res.times_succ, decElem, hu]
  exact ⟨u, rfl⟩

/-- The loop of `DecRow` over the first segments of a row (R166). -/
theorem decSegments_prefix (segs : List Segment) (fuel : Nat) (hc : s.sw ≤ s.w)
    (hl : ∀ seg ∈ segs, segmentLegal s.ctx seg)
    (hr : (segs.flatMap segmentDiffs).length ≤ s.rem.toNat)
    (h : holdsBelow s.bm s.limitBits s.bitpos.toNat (segs.flatMap (segmentBits s.ctx))) :
    ∃ r, Reads s r (segs.flatMap (segmentBits s.ctx)).length ()
        (lessRem (segs.flatMap segmentDiffs).length (consume (segs.flatMap segmentDiffs)
          (moveOn (segs.flatMap (segmentBits s.ctx)).length s))) ∧
      decSegments (segs.length + fuel) s = r.andThen fun _ s => decSegments fuel s := by
  induction segs generalizing s with
  | nil =>
    refine ⟨.ok () s, ⟨fun _ => ?_, fun hr => absurd (Or.inl rfl) hr⟩, ?_⟩
    · simp [moveOn_zero, consume, lessRem]
    · rw [List.length_nil, Nat.zero_add]; rfl
  | cons seg segs ih =>
    have hlt := s.rem.isLt
    have hpos := segmentDiffs_pos (hl seg (by simp))
    rw [List.flatMap_cons, List.length_append] at hr
    rw [List.flatMap_cons, holdsBelow_append] at h
    have h1 := decSegment_reads hc (hl seg (by simp)) (by omega) h.1
    obtain ⟨t, ht⟩ : ∃ t, t = lessRem (segmentDiffs seg).length (consume (segmentDiffs seg)
      (moveOn (segmentBits s.ctx seg).length s)) := ⟨_, rfl⟩
    rw [← ht] at h1
    have htx : t.ctx = s.ctx := by rw [ht]; exact consume_ctx _ _
    have htc : t.sw ≤ t.w := by
      rw [ht]
      show (consume _ _).sw ≤ (consume _ _).w
      rw [consume_sw, consume_w]; exact hc
    have htr : t.rem.toNat = s.rem.toNat - (segmentDiffs seg).length := by
      rw [ht]
      show ((consume _ _).rem - BitVec.ofNat 32 _).toNat = _
      rw [consume_rem, BitVec.toNat_sub, BitVec.toNat_ofNat]
      show (_ + s.rem.toNat) % _ = _
      omega
    have htb : t.bitpos = s.bitpos + BitVec.ofNat 64 (segmentBits s.ctx seg).length := by
      rw [ht]; exact consume_bitpos _ _
    have htl : t.limit = s.limit := by rw [ht]; exact consume_limit _ _
    have htm : t.bm = s.bm := by rw [ht]; exact consume_bm _ _
    have hr0 : s.rem.toNat ≠ 0 := by omega
    have h0 : s.rem ≠ 0 := fun h0 => hr0 (by rw [h0]; rfl)
    have hrun : decSegments ((seg :: segs).length + fuel) s =
        (decSegment s).andThen fun _ s => decSegments (segs.length + fuel) s := by
      rw [List.length_cons, show segs.length + 1 + fuel = segs.length + fuel + 1 by omega,
        decSegments, if_neg h0]
    rw [List.flatMap_cons, List.flatMap_cons, List.length_append, List.length_append, hrun]
    by_cases hr1 : room (segmentBits s.ctx seg).length s
    · have hrt : (segs.flatMap segmentDiffs).length ≤ t.rem.toNat := by rw [htr]; omega
      obtain ⟨r, hrd, hre⟩ := ih (s := t) htc (by rw [htx]; exact fun g hg => hl g (by simp [hg]))
        hrt (by rw [htx, htm, State.limitBits, htl, htb, bitpos_add hr1]; exact h.2)
      refine ⟨(decSegment s).andThen fun _ _ => r, ?_, ?_⟩
      · rw [htx] at hrd
        have := Reads.andThen (f := fun _ _ => r) h1 htb htl fun _ => hrd
        convert this using 1
        rw [ht, ← moveOn_moveOn, consume_append, consume_moveOn _ (segs.flatMap _).length]
        simp only [consume_moveOn, consume_lessRem]
        simp only [lessRem, BitVec.ofNat_add, ← BitVec.sub_sub]
        rfl
      · rw [Res.andThen_assoc, h1.1 hr1, Res.andThen_ok, Res.andThen_ok, hre]
    · obtain ⟨u, hu⟩ := h1.2 hr1
      refine ⟨.raise .readPastEnd u, ⟨fun hr => absurd ?_ hr1, fun _ => ⟨u, rfl⟩⟩, by rw [hu]; rfl⟩
      rcases hr with h | h
      · left; omega
      · right; omega

/-- Legal segments have elements. -/
theorem segments_length_le {c : Ctx} {segs : List Segment} (hl : ∀ seg ∈ segs, segmentLegal c seg) :
    segs.length ≤ (segs.flatMap segmentDiffs).length := by
  induction segs with
  | nil => simp
  | cons g gs ih =>
    have := segmentDiffs_pos (hl g (by simp))
    have := ih fun x hx => hl x (by simp [hx])
    rw [List.flatMap_cons, List.length_append, List.length_cons]
    omega

/-- `DecRow(n)` over the first segments of a row (R166): it reads them and goes on, in a state that
differs in the elements read. -/
theorem decRow_prefix {segs : List Segment} {n : Nat} (hc : s.sw ≤ s.w) (hn : n < 2 ^ 32)
    (hl : ∀ seg ∈ segs, segmentLegal s.ctx seg) (htot : (segs.flatMap segmentDiffs).length ≤ n)
    (h : holdsBelow s.bm s.limitBits s.bitpos.toNat (segs.flatMap (segmentBits s.ctx))) :
    ∃ r t f, n = segs.length + f ∧
      Reads s r (segs.flatMap (segmentBits s.ctx)).length () t ∧
      t.ctx = s.ctx ∧ t.bm = s.bm ∧ t.limit = s.limit ∧
      t.bitpos = s.bitpos + BitVec.ofNat 64 (segs.flatMap (segmentBits s.ctx)).length ∧
      t.rem.toNat = n - (segs.flatMap segmentDiffs).length ∧
      ∀ e, (∃ u, (r.andThen fun _ s => decSegments f s) = .raise e u) →
        ∃ u, decRow n s = .raise e u := by
  have hseg := segments_length_le hl
  obtain ⟨f, hf⟩ : ∃ f, n = segs.length + f := ⟨n - segs.length, by omega⟩
  obtain ⟨s0, hs0⟩ : ∃ s0, s0 = s.setRem (BitVec.ofNat 32 n) := ⟨_, rfl⟩
  have hrem : s0.rem.toNat = n := by
    rw [hs0]
    show (BitVec.ofNat 32 n).toNat = _
    rw [BitVec.toNat_ofNat]; omega
  obtain ⟨r, hrd, hre⟩ := decSegments_prefix (s := s0) segs f (by rw [hs0]; exact hc)
    (by rw [hs0]; exact hl) (by omega) (by rw [hs0]; exact h)
  have hx0 : s0.ctx = s.ctx := by rw [hs0]; rfl
  rw [hx0] at hrd
  obtain ⟨t, ht⟩ : ∃ t, t = lessRem (segs.flatMap segmentDiffs).length
    (consume (segs.flatMap segmentDiffs)
      (moveOn (segs.flatMap (segmentBits s.ctx)).length s0)) := ⟨_, rfl⟩
  rw [← ht] at hrd
  refine ⟨r, t, f, hf, ?_, ?_, ?_, ?_, ?_, ?_, fun e ⟨u, hu⟩ => ⟨u, ?_⟩⟩
  · rw [hs0] at hrd
    exact hrd
  · rw [ht]; exact (consume_ctx _ _).trans hx0
  · rw [ht, hs0]; exact consume_bm _ _
  · rw [ht, hs0]; exact consume_limit _ _
  · rw [ht, hs0]; exact consume_bitpos _ _
  · rw [ht]
    show ((consume _ _).rem - BitVec.ofNat 32 _).toNat = _
    rw [consume_rem, BitVec.toNat_sub, BitVec.toNat_ofNat]
    show (_ + s0.rem.toNat) % _ = _
    omega
  · show (decSegments n (s.setRem _)).andThen _ = _
    rw [← hs0, hf, hre, hu]
    rfl

/-- A run-length row that the limit cuts short (R212). -/
theorem decRow_cut {n : Nat} {bits : List Bool} (hc : s.sw ≤ s.w) (hn : n < 2 ^ 32)
    (hp : rowPrefix s.ctx n bits) (h : cutByLimit s s.bitpos.toNat bits) :
    ∃ u, decRow n s = .raise .readPastEnd u := by
  obtain ⟨hne, hcut, hb⟩ := h
  obtain ⟨segs, hl, ⟨htot, rfl⟩ | ⟨htot, b, rfl⟩⟩ := hp
  · obtain ⟨r, t, f, -, hrd, -, -, -, -, -, hrow⟩ := decRow_prefix hc hn hl htot hb
    refine hrow _ ?_
    have hlen := List.length_pos_of_ne_nil hne
    obtain ⟨u, hu⟩ := hrd.2 (by
      rintro (hr | hr)
      · omega
      · unfold State.limitBits at hr; omega)
    rw [hu]
    exact ⟨u, rfl⟩
  · rw [holdsBelow_append] at hb
    obtain ⟨r, t, f, hf, hrd, -, -, htl, htb, htr, hrow⟩ := decRow_prefix hc hn hl (by omega) hb.1
    have hseg := segments_length_le hl
    obtain ⟨f, rfl⟩ : ∃ g, f = g + 1 := ⟨f - 1, by omega⟩
    refine hrow _ (Reads.andThen_raise hrd (fun hr => ?_) fun _ => rfl)
    have hr0 : t.rem.toNat ≠ 0 := by omega
    rw [decSegments, if_neg (fun h0 => hr0 (by rw [h0]; rfl))]
    rw [List.length_append, bitsOf_length] at hcut
    obtain ⟨u, hu⟩ := (readField_reads t 8).2 (by
      rintro (h8 | h8)
      · omega
      · rw [htb, bitpos_add hr, State.limitBits, htl] at h8
        omega)
    rw [decSegment, hu]
    exact ⟨u, rfl⟩

/-- A row or the rest of a plain block, of `n` elements, up to a codeword that is refused (R166,
R188). -/
theorem decRest_fails {rl : Bool} {n : Nat} {bits : List Bool} (hc : s.sw ≤ s.w) (hn : n < 2 ^ 32)
    (hp : beforeCodeword s.ctx rl n bits)
    (h : holdsBelow s.bm s.limitBits s.bitpos.toNat bits)
    (hf : codewordFails s (s.bitpos.toNat + bits.length) e) :
    ∃ u, (if rl then decRow n s else Res.times decElem n s) = .raise e u := by
  obtain ⟨ds, hd, hp⟩ := hp
  cases rl with
  | false =>
    obtain ⟨hlen, rfl⟩ := hp
    exact decElems_fails hc hlen hd h hf
  | true =>
    obtain ⟨segs, k, hl, hk, htot, rfl⟩ := hp
    have h3 : Config.litRunMax = 127 := rfl
    have hkb : Sys2Proof.encode s.ctx (.markLiteral k) = bitsOf k.toNat 8 := by
      simp [Sys2Proof.encode, encodeFields, fieldBits_cons, fieldBits_nil]
    have hk7 := k.isLt
    rw [hkb, holdsBelow_append, holdsBelow_append, List.length_append, bitsOf_length] at h
    rw [hkb, List.length_append, List.length_append, bitsOf_length, ← Nat.add_assoc,
      ← Nat.add_assoc] at hf
    have hseg := segments_length_le hl
    obtain ⟨r, t, f, hfu, hrd, htx, htm, htl, htb, htr, hrow⟩ :=
      decRow_prefix hc hn hl (by omega) h.1.1
    have htc : t.sw ≤ t.w := by
      rw [show t.sw = s.sw from congrArg Ctx.s htx, show t.w = s.w from congrArg Ctx.w htx]
      exact hc
    obtain ⟨f, rfl⟩ : ∃ g, f = g + 1 := ⟨f - 1, by omega⟩
    refine hrow e (Reads.andThen_raise hrd (fun hr1 => ?_) (hf.room (by omega)))
    have htp : t.bitpos.toNat = s.bitpos.toNat + (segs.flatMap (segmentBits s.ctx)).length := by
      rw [htb, bitpos_add hr1]
    have hft := (codewordFails_congr htx htl htm).mpr hf
    have hr0 : t.rem.toNat ≠ 0 := by omega
    rw [decSegments, if_neg (fun h0 => hr0 (by rw [h0]; rfl))]
    suffices hsg : ∃ u, decSegment t = .raise e u by
      obtain ⟨u, hu⟩ := hsg
      rw [hu]
      exact ⟨u, rfl⟩
    refine Reads.andThen_raise (readField_reads_value (v := k.toNat) (by omega) (by
      rw [htm, State.limitBits, htl, htp]; exact h.1.2)) (fun hr8 => ?_)
      (hft.room (by rw [htp]; omega))
    have hq : (moveOn 8 t).bitpos.toNat = t.bitpos.toNat + 8 := bitpos_add hr8
    rw [afterMarker, if_neg (by omega), if_pos (by omega), literalRun,
      checkCount_ok (by show k.toNat ≤ t.rem.toNat; omega), Res.andThen_ok]
    obtain ⟨u, hu⟩ := decElems_fails (s := moveOn 8 t) (ds := ds) (e := e) htc hk
      (by rw [show (moveOn 8 t).ctx = s.ctx from htx]; exact hd)
      (by
        rw [show (moveOn 8 t).ctx = s.ctx from htx, hq, htp]
        show holdsBelow t.bm t.limitBits _ _
        rw [htm, State.limitBits, htl]
        have := h.2
        rwa [← Nat.add_assoc] at this)
      (by
        rw [show (moveOn 8 t).ctx = s.ctx from htx, hq, htp]
        exact hft)
    rw [hu]
    exact ⟨u, rfl⟩

/-! ## Inside a block -/

/-- `DecBlock()` with a rest that raises, at the state the raw element leaves (R188); if the limit cuts
the raw element short, the fault is ReadPastEnd anyway. -/
theorem decBlock_raise (h : room s.w s → ∀ t : State, t.ctx = s.ctx → t.bm = s.bm →
      t.limit = s.limit → t.bitpos.toNat = s.bitpos.toNat + s.w →
      ∃ u, (if s.runLength then decRow (s.blkw.toNat - 1) t
        else Res.times decElem (s.blkw.toNat - 1) t) = .raise e u)
    (h' : ¬room s.w s → e = .readPastEnd) : ∃ u, decBlock s = .raise e u := by
  refine Reads.andThen_raise (Reads.then_ok (readField_reads s s.w) rfl) (fun hr => ?_) h'
  generalize fieldRead s.bm s.bitpos.toNat s.w = x
  obtain ⟨t, ht⟩ : ∃ t, t = produce (sext (moveOn s.w s).w x) (moveOn s.w s) := ⟨_, rfl⟩
  have htr : t.runLength = s.runLength := by rw [ht]; rfl
  have htk : t.blkw = s.blkw := by rw [ht]; rfl
  rw [← ht]
  obtain ⟨u, hu⟩ := h hr t (by rw [ht]; rfl) (by rw [ht]; rfl) (by rw [ht]; rfl)
    (by rw [ht]; exact bitpos_add hr)
  rw [← htr, ← htk] at hu
  rw [hu]
  exact ⟨u, rfl⟩

/-- A block up to a codeword that is refused (R188). -/
theorem decBlock_fails {bits : List Bool} (hc : s.sw ≤ s.w)
    (hp : beforeCodeword s.ctx s.runLength (s.blkw.toNat - 1) bits)
    (h : holdsBelow s.bm s.limitBits (s.bitpos.toNat + s.w) bits)
    (hf : codewordFails s (s.bitpos.toNat + s.w + bits.length) e) :
    ∃ u, decBlock s = .raise e u := by
  have hlt := s.blkw.isLt
  refine decBlock_raise (fun hr t htx htm htl htb => ?_) (hf.room (by omega))
  exact decRest_fails
    (by
      rw [show t.sw = s.sw from congrArg Ctx.s htx, show t.w = s.w from congrArg Ctx.w htx]
      exact hc)
    (by omega) (by rw [htx]; exact hp) (by rw [htm, State.limitBits, htl, htb]; exact h)
    ((codewordFails_congr htx htl htm).mpr (by rw [htb]; exact hf))

/-- A block that the limit cuts short in its raw element or in its run-length row (R212). -/
theorem decBlock_cut (hc : s.sw ≤ s.w)
    (h : 8 * s.limit.toNat < s.bitpos.toNat + s.w ∨ (s.runLength = true ∧
      ∃ bits, rowPrefix s.ctx (s.blkw.toNat - 1) bits ∧
        cutByLimit s (s.bitpos.toNat + s.w) bits)) :
    ∃ u, decBlock s = .raise .readPastEnd u := by
  have hlt := s.blkw.isLt
  refine decBlock_raise (fun hr t htx htm htl htb => ?_) fun _ => rfl
  rcases h with h | ⟨hrl, bits, hp, h⟩
  · have := s.w_pos
    rcases hr with hr | hr
    · omega
    · unfold State.limitBits at hr; omega
  · rw [if_pos hrl]
    refine decRow_cut ?_ (by omega) (by rw [htx]; exact hp) ?_
    · rw [show t.sw = s.sw from congrArg Ctx.s htx, show t.w = s.w from congrArg Ctx.w htx]
      exact hc
    · unfold cutByLimit at h ⊢
      rw [htm, htl, htb]
      exact h

/-! ## Markers -/

/-- A refused marker depends on the widths, the limit and the byte memory alone. -/
theorem rowMarkerFails_congr (hx : t.ctx = s.ctx) (hl : t.limit = s.limit) (hm : t.bm = s.bm)
    {n o : Nat} : rowMarkerFails t n o e ↔ rowMarkerFails s n o e := by
  unfold rowMarkerFails
  rw [hx, hl, hm]

/-- What follows a refused marker is not looked at (R166, R216). -/
theorem afterMarker_fails {b : Nat} (hb : b < 256) (h : markerFails s.rem.toNat b e) :
    ∃ u, afterMarker b s = .raise e u := by
  have h3 : Config.litRunMax = 127 := rfl
  have h4 : Config.continuedMarker = 128 := rfl
  have h5 : Config.constRunMax = 128 := rfl
  have raise : ∀ {c : Nat}, s.rem.toNat < c → checkCount c s = .raise .runOverrun s :=
    fun hc => if_pos hc
  rcases h with ⟨rfl, rfl⟩ | ⟨rfl, h | h | h⟩
  · exact ⟨s, if_pos rfl⟩
  · rw [afterMarker, if_neg (by omega), if_pos (by omega), literalRun, raise h.2.2]
    exact ⟨s, rfl⟩
  · rw [afterMarker, if_neg (by omega), if_neg (by omega), if_pos (by omega), repeatedRun,
      raise (by omega)]
    exact ⟨s, rfl⟩
  · rw [afterMarker, if_neg (by omega), if_neg (by omega), if_neg (by omega), repeatedRun,
      raise (by rw [constantRunLength]; omega)]
    exact ⟨s, rfl⟩

/-- A run-length row up to a marker that is refused (R166). -/
theorem decRow_marker {n : Nat} (hc : s.sw ≤ s.w) (hn : n < 2 ^ 32)
    (h : rowMarkerFails s n s.bitpos.toNat e) : ∃ u, decRow n s = .raise e u := by
  obtain ⟨segs, b, bits, hl, htot, hf, rfl, hr, hb⟩ := h
  have hb8 := b.isLt
  have hb := hb.below s.limitBits
  rw [holdsBelow_append] at hb
  rw [List.length_append, bitsOf_length] at hr
  have hlim : s.limitBits = 8 * s.limit.toNat := rfl
  obtain ⟨r, t, f, hfu, hrd, -, htm, htl, htb, htr, hrow⟩ := decRow_prefix hc hn hl (by omega) hb.1
  have hseg := segments_length_le hl
  obtain ⟨f, rfl⟩ : ∃ g, f = g + 1 := ⟨f - 1, by omega⟩
  have hr1 : room (segs.flatMap (segmentBits s.ctx)).length s := .inr (by omega)
  refine hrow e (Reads.andThen_raise hrd (fun _ => ?_) fun hr => absurd hr1 hr)
  have hr0 : t.rem.toNat ≠ 0 := by omega
  rw [decSegments, if_neg (fun h0 => hr0 (by rw [h0]; rfl))]
  have htp : t.bitpos.toNat = s.bitpos.toNat + (segs.flatMap (segmentBits s.ctx)).length := by
    rw [htb, bitpos_add hr1]
  have h8 : room 8 t := by
    right
    rw [htp, State.limitBits, htl]
    omega
  suffices hsg : ∃ u, decSegment t = .raise e u by
    obtain ⟨u, hu⟩ := hsg
    rw [hu]
    exact ⟨u, rfl⟩
  refine Reads.andThen_raise (readField_reads_value (v := b.toNat) (by omega) (by
    rw [htm, State.limitBits, htl, htp]; exact hb.2)) (fun _ => ?_) fun h => absurd h8 h
  exact afterMarker_fails hb8 (by rw [← htr] at hf; exact hf)

/-- A block in run-length mode up to a marker that is refused (R188). -/
theorem decBlock_marker (hc : s.sw ≤ s.w) (hrl : s.runLength = true)
    (h : rowMarkerFails s (s.blkw.toNat - 1) (s.bitpos.toNat + s.w) e) :
    ∃ u, decBlock s = .raise e u := by
  have hlt := s.blkw.isLt
  refine decBlock_raise (fun hr t htx htm htl htb => ?_) fun hr => absurd ?_ hr
  · rw [if_pos hrl]
    refine decRow_marker ?_ (by omega) ?_
    · rw [show t.sw = s.sw from congrArg Ctx.s htx, show t.w = s.w from congrArg Ctx.w htx]
      exact hc
    · rw [htb]
      exact (rowMarkerFails_congr htx htl htm).mpr h
  · obtain ⟨segs, b, bits, -, -, -, -, hlim, -⟩ := h
    right
    unfold State.limitBits
    omega

/-! ## Inside a stream -/

/-- DECODE ends with the fault of the first block that is refused, and CFG is the header's (R192,
R227 (c)). -/
theorem decodeStream_raise {u : State} {total : BitVec 32} {slice tag : BitVec 8} {o : Nat}
    (hw : Memory.wf s.em) (h : reachesBlock s total slice tag o) (hu : u = s.withHeader slice tag)
    (hf : ∀ t : State, t.ctx = u.ctx → t.runLength = u.runLength → t.blkw = s.blkw → t.bm = s.bm →
      t.limit = s.limit → t.bitpos.toNat = o → ∃ v, decBlock t = .raise e v) :
    ∃ v, decodeStream s = .raise e v ∧ v.cfg = u.cfg := by
  obtain ⟨ha, blocks, hl, hn, ho, hlim, hb⟩ := h
  rw [← hu] at hl ho hb
  have h14 : 14 ≤ s.limit.toNat := by
    change o = 8 * 14 + _ at ho
    omega
  have hrd := decodeBlocks_reads hw ha hu (by omega) hl h14 hb
  obtain ⟨t, ht, hd, -, -⟩ := hrd.1 (.inr (by
    show 112 + _ ≤ 8 * s.limit.toNat
    change o = 112 + _ at ho
    omega))
  have hcfg : t.cfg = u.cfg := by rw [hd, hu]; rfl
  obtain ⟨k, hk⟩ : ∃ k, s.blkc.toNat = blocks.length + (k + 1) :=
    ⟨s.blkc.toNat - blocks.length - 1, by omega⟩
  obtain ⟨v, hv⟩ := hf t (by rw [hd, hu]; rfl) (by rw [hd, hu]; rfl) (by rw [hd]; rfl)
    (by rw [hd]; rfl) (by rw [hd]; rfl) (by
      rw [hd]
      show (112 + BitVec.ofNat 64 _).toNat = o
      rw [BitVec.toNat_add, BitVec.toNat_ofNat]
      change o = 112 + _ at ho
      show (112 + _) % _ = _
      have := s.limit.isLt
      omega)
  have hraise : decodeStream s = .raise e v := by
    rw [rdHeader_accepted ha hb.1 h14, Res.andThen_ok] at ht
    rw [decodeStream, rdHeader_accepted ha hb.1 h14, Res.andThen_ok,
      show (headerLoaded total slice tag s).blkc.toNat = blocks.length + (k + 1) from hk,
      Res.times_add, ht, Res.andThen_ok, Res.times_succ, hv]
    rfl
  refine ⟨v, hraise, ?_⟩
  have hkeep := decBlock_keeps t
  rw [hv] at hkeep
  exact (hkeep.cfg rfl).trans hcfg

end Sys2Proof.Machine
end

