-- ==== Sys2Proof/Laws/Host.lean ====
section
/-! SUPPORT. What reset does to the memories, with a command running or without
(70_reset_and_hazards.md R240). -/

namespace Sys2Proof.Machine

/-- Both memories are canonical. -/
def MemoriesWf (s : State) : Prop :=
  Memory.wf s.bm ∧ Memory.wf s.em

/-- The cells a command whose opening checks passed may be writing are below ELIM (R227 (a)). -/
theorem memoryWritten_below {i : Instr} {s : State} (h : openingCheck i s = none) :
    ((memoryWritten i).2.span s).2 = 0 ∨
      ((memoryWritten i).2.span s).1 + ((memoryWritten i).2.span s).2 ≤ s.elim.toNat := by
  cases i with
  | decRow => exact .inr (checkRow_none_iff.mp h).2.2
  | decBlock => exact .inr (checkBlock_none_iff.mp h).2.2.1
  | decode =>
    refine .inr ?_
    rw [show ((memoryWritten .decode).2.span s).1 = 0 from rfl, Nat.zero_add]
    exact (checkDecode_none_iff.mp h).2.2.2
  | _ => exact .inl rfl

/-- All `spoilMemory` can do. -/
theorem spoilMemory_cases (i : Instr) (s : State) :
    (∃ c, openingCheck i s = some c ∧ spoilMemory i s = s) ∨
    (openingCheck i s = none ∧ spoilMemory i s = { s with
      bm := if (memoryWritten i).1 then freeBytes s.freeDraws s.bm 0 s.limit.toNat else s.bm
      em := freeCells s.freeDraws s.em ((memoryWritten i).2.span s).1 ((memoryWritten i).2.span s).2
      freeDraws := s.freeDraws + 1 }) := by
  unfold spoilMemory
  split
  · exact .inr ⟨‹_›, rfl⟩
  · exact .inl ⟨_, (Option.ne_none_iff_exists'.mp ‹_›).choose_spec, rfl⟩

theorem spoilMemory_wf {s : State} (h : MemoriesWf s) (i : Instr) : MemoriesWf (spoilMemory i s) := by
  rcases spoilMemory_cases i s with ⟨c, -, e⟩ | ⟨-, e⟩ <;> rw [e]
  · exact h
  · refine ⟨?_, freeCells_wf h.2 _ _ _⟩
    dsimp only
    split
    · exact freeBytes_wf h.1 _ _ _
    · exact h.1

/-- The bytes that reset leaves alone while `i` runs: those at and above LIMIT, and all of them if `i`
only reads them (R227 (a)). -/
theorem spoilMemory_bytes {s : State} (h : Memory.wf s.bm) (i : Instr) {a : Nat}
    (ha : (memoryWritten i).1 = false ∨ s.limit.toNat ≤ a) :
    Memory.read (spoilMemory i s).bm a = Memory.read s.bm a := by
  rcases spoilMemory_cases i s with ⟨c, -, e⟩ | ⟨-, e⟩ <;> rw [e]
  dsimp only
  split
  · rename_i hw
    rw [read_freeBytes h, if_neg (by
      rcases ha with ha | ha
      · rw [hw] at ha; cases ha
      · omega)]
  · rfl

/-- The cells that reset leaves alone while `i` runs: those outside the range of the command, and so
those at and above ELIM (R227 (a), (d)). -/
theorem spoilMemory_cells {s : State} (h : Memory.wf s.em) (i : Instr) {j : Nat}
    (hj : j < ((memoryWritten i).2.span s).1 ∨
      ((memoryWritten i).2.span s).1 + ((memoryWritten i).2.span s).2 ≤ j ∨ s.elim.toNat ≤ j) :
    Memory.read (spoilMemory i s).em j = Memory.read s.em j := by
  rcases spoilMemory_cases i s with ⟨c, -, e⟩ | ⟨hc, e⟩ <;> rw [e]
  have hb := memoryWritten_below hc
  dsimp only
  rw [read_freeCells h, if_neg (by omega)]

/-- A reset with no command running keeps both memories (R240). -/
theorem abandonCommand_idle {s : State} (h : s.status.busy = false) : abandonCommand s = s := by
  unfold abandonCommand
  rw [h]

theorem abandonCommand_running {s : State} {i : Instr} (h : s.status.busy = true)
    (hi : s.running = some i) : abandonCommand s = spoilMemory i s := by
  unfold abandonCommand
  rw [h, hi]

/-- All `abandonCommand` can do. -/
theorem abandonCommand_cases (s : State) :
    abandonCommand s = s ∨
      ∃ i, s.status.busy = true ∧ s.running = some i ∧ abandonCommand s = spoilMemory i s := by
  unfold abandonCommand
  split
  · exact .inr ⟨_, ‹_›, ‹_›, rfl⟩
  · exact .inl rfl

/-- Reset in terms of the memories it leaves. -/
theorem hostReset_eq (s : State) : hostReset s = { State.reset with
    bm := (abandonCommand s).bm, em := (abandonCommand s).em, hostQueue := s.hostQueue,
    replies := s.replies, freeDraws := (abandonCommand s).freeDraws } := by
  rcases abandonCommand_cases s with e | ⟨i, -, -, e⟩
  · simp only [hostReset, e]
  · rcases spoilMemory_cases i s with ⟨c, -, f⟩ | ⟨-, f⟩ <;> simp only [hostReset, e, f]

/-- A command that reset meets while it runs (R240). -/
theorem hostWriteThenReset_ready {s : State} (h : s.ready) (i : Instr) :
    hostWriteThenReset i s = { State.reset with
      bm := (spoilMemory i (start i s)).bm, em := (spoilMemory i (start i s)).em
      hostQueue := s.hostQueue, replies := s.replies
      freeDraws := (spoilMemory i (start i s)).freeDraws } := by
  rw [hostWriteThenReset, if_pos (accepts_of_ready h), hostReset_eq,
    abandonCommand_running rfl (i := i) rfl]
  rfl

/-- A command that the engine does not accept: only the reset. -/
theorem hostWriteThenReset_ignored {s : State} (h : accepts s = false) (i : Instr) :
    hostWriteThenReset i s = hostReset s := by
  rw [hostWriteThenReset, h]
  rfl

end Sys2Proof.Machine
end

