-- ==== Sys2Proof/Laws/PerInstr.lean ====
section
/-! SUPPORT. A statement made of every constructor of `Instr`: how many bits its encoding has. -/

namespace Sys2Proof.Laws.EncodedLength

/-- The number of bits of an item, as its format counts them: commands, markers and tags have 8 (R91,
R98, R100), the header 112 (R81), the raw element `W` (R84), a unary codeword `s + m + 1` (R87), an
escape `s + 33 + W` (R88), a literal difference `W + 1` (R96), a pad `p` (R97). -/
def bitCount (c : Ctx) : Instr → Nat
  | .hdr .. => 112
  | .raw _ => c.w
  | .cwUnary _ m => c.s + m.toNat + 1
  | .cwEscape _ _ => c.s + 33 + c.w
  | .litDiff _ => c.w + 1
  | .pad p => p.toNat
  | .clrFault | .writeBits | .readBits | .setBit | .alignWr | .alignRd | .scanZeros | .encDiff
  | .decDiff | .encCw | .decCw | .encRow | .decRow | .wrHeader | .rdHeader | .encBlock
  | .decBlock | .patchSize | .encode | .decode | .markReserved | .markContinued | .markLiteral _
  | .markConstant _ | .tag0 | .tag1 | .tag2 | .tag3 | .tag4 | .tag6 | .tagReserved _
  | .cmdReserved _ => 8

/-- The encoding of `i` is as long as its format says, under every element and slice width. -/
def Statement (i : Instr) : Prop :=
  ∀ c : Ctx, (encode c i).length = bitCount c i

theorem clrFault : Statement .clrFault :=
  fun c => by simp [Sys2Proof.encode, fieldBits_length, encodeFields, bitCount]

theorem writeBits : Statement .writeBits :=
  fun c => by simp [Sys2Proof.encode, fieldBits_length, encodeFields, bitCount]

theorem readBits : Statement .readBits :=
  fun c => by simp [Sys2Proof.encode, fieldBits_length, encodeFields, bitCount]

theorem setBit : Statement .setBit :=
  fun c => by simp [Sys2Proof.encode, fieldBits_length, encodeFields, bitCount]

theorem alignWr : Statement .alignWr :=
  fun c => by simp [Sys2Proof.encode, fieldBits_length, encodeFields, bitCount]

theorem alignRd : Statement .alignRd :=
  fun c => by simp [Sys2Proof.encode, fieldBits_length, encodeFields, bitCount]

theorem scanZeros : Statement .scanZeros :=
  fun c => by simp [Sys2Proof.encode, fieldBits_length, encodeFields, bitCount]

theorem encDiff : Statement .encDiff :=
  fun c => by simp [Sys2Proof.encode, fieldBits_length, encodeFields, bitCount]

theorem decDiff : Statement .decDiff :=
  fun c => by simp [Sys2Proof.encode, fieldBits_length, encodeFields, bitCount]

theorem encCw : Statement .encCw :=
  fun c => by simp [Sys2Proof.encode, fieldBits_length, encodeFields, bitCount]

theorem decCw : Statement .decCw :=
  fun c => by simp [Sys2Proof.encode, fieldBits_length, encodeFields, bitCount]

theorem encRow : Statement .encRow :=
  fun c => by simp [Sys2Proof.encode, fieldBits_length, encodeFields, bitCount]

theorem decRow : Statement .decRow :=
  fun c => by simp [Sys2Proof.encode, fieldBits_length, encodeFields, bitCount]

theorem wrHeader : Statement .wrHeader :=
  fun c => by simp [Sys2Proof.encode, fieldBits_length, encodeFields, bitCount]

theorem rdHeader : Statement .rdHeader :=
  fun c => by simp [Sys2Proof.encode, fieldBits_length, encodeFields, bitCount]

theorem encBlock : Statement .encBlock :=
  fun c => by simp [Sys2Proof.encode, fieldBits_length, encodeFields, bitCount]

theorem decBlock : Statement .decBlock :=
  fun c => by simp [Sys2Proof.encode, fieldBits_length, encodeFields, bitCount]

theorem patchSize : Statement .patchSize :=
  fun c => by simp [Sys2Proof.encode, fieldBits_length, encodeFields, bitCount]

theorem encode : Statement .encode :=
  fun c => by simp [Sys2Proof.encode, fieldBits_length, encodeFields, bitCount]

theorem decode : Statement .decode :=
  fun c => by simp [Sys2Proof.encode, fieldBits_length, encodeFields, bitCount]

theorem hdr (total count width : BitVec 32) (slice tag : BitVec 8) : Statement (.hdr total count width slice tag) :=
  fun c => by simp [Sys2Proof.encode, fieldBits_length, encodeFields, bitCount]

theorem raw (x : BitVec 32) : Statement (.raw x) :=
  fun c => by simp [Sys2Proof.encode, fieldBits_length, encodeFields, bitCount]

theorem cwUnary (lit : BitVec 32) (m : BitVec 5) : Statement (.cwUnary lit m) :=
  fun c => by simp [Sys2Proof.encode, fieldBits_length, encodeFields, bitCount]; omega

theorem cwEscape (lit : BitVec 32) (e : BitVec 33) : Statement (.cwEscape lit e) :=
  fun c => by simp [Sys2Proof.encode, fieldBits_length, encodeFields, bitCount, Config.escPrefix]; omega

theorem markReserved : Statement .markReserved :=
  fun c => by simp [Sys2Proof.encode, fieldBits_length, encodeFields, bitCount]

theorem markContinued : Statement .markContinued :=
  fun c => by simp [Sys2Proof.encode, fieldBits_length, encodeFields, bitCount]

theorem markLiteral (n : BitVec 7) : Statement (.markLiteral n) :=
  fun c => by simp [Sys2Proof.encode, fieldBits_length, encodeFields, bitCount]

theorem markConstant (b : BitVec 8) : Statement (.markConstant b) :=
  fun c => by simp [Sys2Proof.encode, fieldBits_length, encodeFields, bitCount]

theorem litDiff (d : BitVec 33) : Statement (.litDiff d) :=
  fun c => by simp [Sys2Proof.encode, fieldBits_length, encodeFields, bitCount]

theorem pad (p : BitVec 3) : Statement (.pad p) :=
  fun c => by simp [Sys2Proof.encode, fieldBits_length, encodeFields, bitCount]

theorem tag0 : Statement .tag0 :=
  fun c => by simp [Sys2Proof.encode, fieldBits_length, encodeFields, bitCount]

theorem tag1 : Statement .tag1 :=
  fun c => by simp [Sys2Proof.encode, fieldBits_length, encodeFields, bitCount]

theorem tag2 : Statement .tag2 :=
  fun c => by simp [Sys2Proof.encode, fieldBits_length, encodeFields, bitCount]

theorem tag3 : Statement .tag3 :=
  fun c => by simp [Sys2Proof.encode, fieldBits_length, encodeFields, bitCount]

theorem tag4 : Statement .tag4 :=
  fun c => by simp [Sys2Proof.encode, fieldBits_length, encodeFields, bitCount]

theorem tag6 : Statement .tag6 :=
  fun c => by simp [Sys2Proof.encode, fieldBits_length, encodeFields, bitCount]

theorem tagReserved (b : BitVec 8) : Statement (.tagReserved b) :=
  fun c => by simp [Sys2Proof.encode, fieldBits_length, encodeFields, bitCount]

theorem cmdReserved (op : BitVec 8) : Statement (.cmdReserved op) :=
  fun c => by simp [Sys2Proof.encode, fieldBits_length, encodeFields, bitCount]

end Sys2Proof.Laws.EncodedLength
end

