-- ==== Sys2Proof/Tests/Slice0.lean ====
section
/-! SUPPORT. Tests on fixed values: an ill-formed term for each check of WellFormed, the decoding of a
word written out from the spec's encoding of every row, vectors of 95_test_vectors.md (named in each
comment), and a state that meets the hypotheses of each statement of Obligations.lean. -/

namespace Sys2Proof.Tests

set_option Elab.async false

open Sys2Proof Sys2Proof.Machine

/-! ## Helpers -/

/-- The byte memory that holds the given bytes from byte 0 on. -/
def bytes (l : List Nat) : Memory 8 :=
  (l.zipIdx.map fun x => (x.2, BitVec.ofNat 8 x.1)).filter fun c => c.2 ≠ 0#8

/-- The element memory that holds the given elements from cell 0 on. -/
def cells (l : List Int) : Memory 32 :=
  (l.zipIdx.map fun x => (x.2, BitVec.ofInt 32 x.1)).filter fun c => c.2 ≠ 0#32

/-- The state an outcome leads to. -/
def after : Host.Outcome State Fault Refusal → State
  | .next t => t
  | .fault _ => State.reset
  | .refused _ => State.reset

/-- An idle engine with a byte memory, a limit in bytes and a bit cursor. -/
def cursor (l : List Nat) (limit pos : Nat) : State :=
  { State.reset with bm := bytes l, limit := BitVec.ofNat 32 limit, bitpos := BitVec.ofNat 64 pos }

/-- The same with CFG. -/
def codec (l : List Nat) (limit pos typ slice : Nat) : State :=
  { cursor l limit pos with cfg := { typ := BitVec.ofNat 3 typ, slice := BitVec.ofNat 6 slice } }

/-- An engine set up for an array of `blkw * blkc` elements. -/
def array (l : List Nat) (limit typ slice : Nat) (xs : List Int) (blkw blkc : Nat) : State :=
  { codec l limit 0 typ slice with
    em := cells xs, elim := BitVec.ofNat 32 (blkw * blkc)
    blkw := BitVec.ofNat 32 blkw, blkc := BitVec.ofNat 32 blkc }

/-! ## WellFormed refuses -/

theorem test_wf_ctx_width : Ctx.wf ⟨12, 0⟩ = false := by decide
theorem test_wf_ctx_slice : Ctx.wf ⟨8, 9⟩ = false := by decide
theorem test_wf_hdr_tag : (Instr.hdr 0 0 1 0 5).wf ⟨16, 0⟩ = false := by decide
theorem test_wf_hdr_slice : (Instr.hdr 0 0 1 17 2).wf ⟨16, 0⟩ = false := by decide
theorem test_wf_raw : (Instr.raw 0x100).wf ⟨8, 0⟩ = false := by decide
theorem test_wf_cwUnary_slice : (Instr.cwUnary 4 0).wf ⟨16, 2⟩ = false := by decide
theorem test_wf_cwUnary_limit : (Instr.cwUnary 0 31).wf ⟨16, 2⟩ = false := by decide
theorem test_wf_cwEscape_slice : (Instr.cwEscape 4 97).wf ⟨16, 2⟩ = false := by decide
theorem test_wf_cwEscape_width : (Instr.cwEscape 1 0x20061).wf ⟨16, 2⟩ = false := by decide
theorem test_wf_cwEscape_small : (Instr.cwEscape 3 63).wf ⟨16, 2⟩ = false := by decide
theorem test_wf_cwEscape_low_bits : (Instr.cwEscape 2 97).wf ⟨16, 2⟩ = false := by decide
theorem test_wf_markLiteral : (Instr.markLiteral 0).wf ⟨16, 2⟩ = false := by decide
theorem test_wf_markConstant : (Instr.markConstant 128).wf ⟨16, 2⟩ = false := by decide
theorem test_wf_litDiff : (Instr.litDiff 0x200).wf ⟨8, 2⟩ = false := by decide
theorem test_wf_tagReserved : (Instr.tagReserved 4).wf ⟨16, 2⟩ = false := by decide
theorem test_wf_cmdReserved : (Instr.cmdReserved 0x48).wf ⟨16, 2⟩ = false := by decide

/-! ## Decoding of words written out from the encodings

Commands: R101. Bit strings of the stream formats lowest bit offset first: R81 to R99. -/

theorem test_decode_clrFault : decodeTableWord 8 0b00000001 = some .clrFault := by decide
theorem test_decode_writeBits : decodeTableWord 8 0b00010000 = some .writeBits := by decide
theorem test_decode_readBits : decodeTableWord 8 0b00010001 = some .readBits := by decide
theorem test_decode_setBit : decodeTableWord 8 0b00010010 = some .setBit := by decide
theorem test_decode_alignWr : decodeTableWord 8 0b00010011 = some .alignWr := by decide
theorem test_decode_alignRd : decodeTableWord 8 0b00010100 = some .alignRd := by decide
theorem test_decode_scanZeros : decodeTableWord 8 0b00010101 = some .scanZeros := by decide
theorem test_decode_encDiff : decodeTableWord 8 0b00100000 = some .encDiff := by decide
theorem test_decode_decDiff : decodeTableWord 8 0b00100001 = some .decDiff := by decide
theorem test_decode_encCw : decodeTableWord 8 0b00100010 = some .encCw := by decide
theorem test_decode_decCw : decodeTableWord 8 0b00100011 = some .decCw := by decide
theorem test_decode_encRow : decodeTableWord 8 0b00110000 = some .encRow := by decide
theorem test_decode_decRow : decodeTableWord 8 0b00110001 = some .decRow := by decide
theorem test_decode_wrHeader : decodeTableWord 8 0b01000000 = some .wrHeader := by decide
theorem test_decode_rdHeader : decodeTableWord 8 0b01000001 = some .rdHeader := by decide
theorem test_decode_encBlock : decodeTableWord 8 0b01000010 = some .encBlock := by decide
theorem test_decode_decBlock : decodeTableWord 8 0b01000011 = some .decBlock := by decide
theorem test_decode_patchSize : decodeTableWord 8 0b01000100 = some .patchSize := by decide
theorem test_decode_encode : decodeTableWord 8 0b01001000 = some .encode := by decide
theorem test_decode_decode : decodeTableWord 8 0b01001001 = some .decode := by decide
theorem test_decode_cmdReserved : decodeTableWord 8 0b01001010 = some (.cmdReserved 0x4A) := by decide
/-- V-I row 9: bits 63:8 of the CMD write are ignored. -/
theorem test_decode_high_bits : decodeTableWord 64 0xFFFFFFFFFFFFFF48 = some .encode := by decide

/-- The bits of the bytes, lowest first. -/
def stream (l : List Nat) : List Bool :=
  fieldBits (l.map fun b => (b, 8))

/-- S7: `1D 00 00 00 01 00 00 00 09 00 00 00 02 02` is `HDR(29, 1, 9, 2, 2)`. -/
theorem test_decode_hdr :
    decodeAs ⟨16, 2⟩ .header (stream [0x1D, 0, 0, 0, 1, 0, 0, 0, 9, 0, 0, 0, 2, 2]) =
      .ok (.hdr 29 1 9 2 2, []) := by decide +kernel
/-- S7: `64 00` is `RAW(100)`. -/
theorem test_decode_raw :
    decodeAs ⟨16, 2⟩ .rawElement (stream [0x64, 0x00]) = .ok (.raw 100, []) := by decide +kernel
/-- V-B1, `d` = −5: `11` `0001`. -/
theorem test_decode_cwUnary :
    decodeAs ⟨16, 2⟩ .codeword [true, true, false, false, false, true] = .ok (.cwUnary 3 3, []) := by
  decide +kernel
/-- V-B1, `d` = 97: slice `10`, 32 zeros, `10000110000000000`. -/
theorem test_decode_cwEscape :
    decodeAs ⟨16, 2⟩ .codeword
      ([true, false] ++ List.replicate 32 false ++
        [true, false, false, false, false, true, true] ++ List.replicate 10 false) =
      .ok (.cwEscape 1 97, []) := by decide +kernel
/-- V-B6: 31 zeros and a one are no codeword. -/
theorem test_decode_badUnary :
    decodeAs ⟨16, 2⟩ .codeword (stream [0, 0, 0, 0, 2]) = .error .badUnary := by decide +kernel
/-- V-B6: an escape of 63, a unary value. -/
theorem test_decode_badEscape :
    decodeAs ⟨16, 2⟩ .codeword (stream [3, 0, 0, 0, 0xFC, 0, 0]) = .error .badEscape := by
  decide +kernel
theorem test_decode_markReserved :
    decodeAs ⟨16, 2⟩ .marker (List.replicate 8 false) = .ok (.markReserved, []) := by decide +kernel
theorem test_decode_markContinued :
    decodeAs ⟨16, 2⟩ .marker (List.replicate 7 false ++ [true]) = .ok (.markContinued, []) := by
  decide +kernel
/-- S7: `11000000` is `L(3)`. -/
theorem test_decode_markLiteral :
    decodeAs ⟨16, 2⟩ .marker ([true, true] ++ List.replicate 6 false) = .ok (.markLiteral 3, []) := by
  decide +kernel
/-- S7: `10111111` is marker 253. -/
theorem test_decode_markConstant :
    decodeAs ⟨16, 2⟩ .marker ([true, false] ++ List.replicate 6 true) =
      .ok (.markConstant 253, []) := by decide +kernel
/-- R96 with `W` = 8: −3 in 9 bits is `101111111`. -/
theorem test_decode_litDiff :
    decodeAs ⟨8, 2⟩ .literalDifference ([true, false] ++ List.replicate 7 true) =
      .ok (.litDiff 0x1FD, []) := by decide +kernel
/-- R97: pad bits of any value. -/
theorem test_decode_pad :
    decodeAs ⟨16, 2⟩ (.padding 3) [true, false, true] = .ok (.pad 3, []) := by decide +kernel
theorem test_decode_tag0 : decodeAs ⟨16, 2⟩ .typeTag (stream [0]) = .ok (.tag0, []) := by
  decide +kernel
theorem test_decode_tag1 : decodeAs ⟨16, 2⟩ .typeTag (stream [1]) = .ok (.tag1, []) := by
  decide +kernel
theorem test_decode_tag2 : decodeAs ⟨16, 2⟩ .typeTag (stream [2]) = .ok (.tag2, []) := by
  decide +kernel
theorem test_decode_tag3 : decodeAs ⟨16, 2⟩ .typeTag (stream [3]) = .ok (.tag3, []) := by
  decide +kernel
theorem test_decode_tag4 : decodeAs ⟨16, 2⟩ .typeTag (stream [4]) = .ok (.tag4, []) := by
  decide +kernel
theorem test_decode_tag6 : decodeAs ⟨16, 2⟩ .typeTag (stream [6]) = .ok (.tag6, []) := by
  decide +kernel
theorem test_decode_tagReserved :
    decodeAs ⟨16, 2⟩ .typeTag (stream [0x82]) = .ok (.tagReserved 0x82, []) := by decide +kernel

/-! ## One step on vectors of 95_test_vectors.md -/

/-- The fields the vectors speak of. -/
def shown (s : State) : Memory 8 × Nat × Nat × BitVec 16 :=
  (s.bm, s.bitpos.toNat, s.val.toNat, s.status.word)

/-- Where an array command leaves the registers. -/
def counters (s : State) : Nat × Nat × Nat × Nat × Nat :=
  (s.bitpos.toNat, s.prev.toNat, s.eidx.toNat, s.total.toNat, s.blk.toNat)

/-- V-A A2: the field crosses a byte boundary. -/
theorem test_writeBits :
    shown (after (exec .writeBits
      { cursor [0xFD, 0xFF, 0xFF, 0xFF] 4 3 with val := 0xABC, width := 13 })) =
      (bytes [0xE5, 0x55, 0xFF, 0xFF], 16, 0xABC, 0) := by decide +kernel
/-- V-A A14: no bit of a straddling field is written. -/
theorem test_writeBits_full :
    shown (after (exec .writeBits
      { cursor [0xAA, 0xAA] 2 12 with val := 0x1F, width := 5 })) =
      (bytes [0xAA, 0xAA], 12, 0x1F, 0x0012) := by decide +kernel
/-- V-A A12. -/
theorem test_readBits :
    shown (after (exec .readBits
      { cursor [0xF0, 0xDE, 0xBC, 0x9A, 0x78, 0x56, 0x34, 0x12, 0, 0] 10 4 with width := 64 })) =
      (bytes [0xF0, 0xDE, 0xBC, 0x9A, 0x78, 0x56, 0x34, 0x12], 68, 0x0123456789ABCDEF, 0) := by
  decide +kernel
/-- V-A A19. -/
theorem test_readBits_end :
    shown (after (exec .readBits { cursor [0xAA, 0xAA] 2 9 with width := 8 })) =
      (bytes [0xAA, 0xAA], 9, 0, 0x0122) := by decide +kernel
/-- V-A A21. -/
theorem test_setBit :
    shown (after (exec .setBit (cursor [0] 1 6))) = (bytes [0x40], 7, 0, 0) := by decide +kernel
/-- V-A A22. -/
theorem test_setBit_full :
    shown (after (exec .setBit (cursor [0] 1 8))) = (bytes [0], 8, 0, 0x0012) := by decide +kernel
/-- V-A A5. -/
theorem test_alignWr :
    shown (after (exec .alignWr (cursor [0xE5, 0x55, 0xFC, 0xFF] 4 19))) =
      (bytes [0xE5, 0x55, 0x04, 0xFF], 24, 0, 0) := by decide +kernel
/-- V-A A10. -/
theorem test_alignRd :
    (after (exec .alignRd (cursor [] 4 131))).bitpos = 136 := by decide +kernel
/-- V-A A33: the cursor wraps. -/
theorem test_alignRd_wraps :
    (after (exec .alignRd (cursor [] 4 (2 ^ 64 - 3)))).bitpos = 0 := by decide +kernel
/-- V-A A30: the window reaches beyond the end, the one bit is met first. -/
theorem test_scanZeros :
    shown (after (exec .scanZeros { cursor [0xFF, 0x20] 2 8 with width := 32 })) =
      (bytes [0xFF, 0x20], 14, 5, 0x0004) := by decide +kernel
/-- V-A A27: the one bit at offset 32 is not examined. -/
theorem test_scanZeros_none :
    shown (after (exec .scanZeros { cursor [0, 0, 0, 0, 1] 5 0 with width := 32 })) =
      (bytes [0, 0, 0, 0, 1], 32, 32, 0) := by decide +kernel
/-- V-B1, `d` = −5. -/
theorem test_encCw :
    shown (after (exec .encCw { codec [] 9 0 0 2 with val := BitVec.ofInt 64 (-5) })) =
      (bytes [0x23], 6, 2 ^ 64 - 5, 0) := by decide +kernel
/-- V-B1, `d` = −61: the first escape below zero. -/
theorem test_encCw_escape :
    shown (after (exec .encCw { codec [] 9 0 0 2 with val := BitVec.ofInt 64 (-61) })) =
      (bytes [3, 0, 0, 0, 0x0C, 0xFF, 0x07], 51, 2 ^ 64 - 61, 0) := by decide +kernel
/-- V-B6: `W` = 8, `s` = 0, an escape of −16. -/
theorem test_decCw :
    shown (after (exec .decCw (codec [0, 0, 0, 0, 0xF0, 0x01] 6 0 1 0))) =
      (bytes [0, 0, 0, 0, 0xF0, 0x01], 41, 0xFFFFFFFFFFFFFFF0, 0) := by decide +kernel
/-- V-B6: 31 zeros and a one. -/
theorem test_decCw_badUnary :
    (after (exec .decCw (codec [0, 0, 0, 0, 2] 5 0 0 2))).status.word = 0x0222 := by decide +kernel
/-- V-C C2: the exact difference, not the wrapped one. -/
theorem test_encDiff :
    (fun t => (t.bm, t.bitpos, t.prev)) (after (exec .encDiff
      { codec [] 9 0 0 2 with prev := 0x7FFF, val := 0x8000 })) =
      (bytes [1, 0, 0, 0, 4, 0, 4], 51, 0x8000) := by decide +kernel
/-- V-C C7: the sum wraps. -/
theorem test_decDiff :
    (fun t => (t.val, t.bitpos, t.prev)) (after (exec .decDiff
      { codec [1, 0, 0, 0, 0x84, 1, 0] 7 0 0 2 with prev := 0x7FFF })) =
      (0xFFFFFFFFFFFF8060, 51, 0x8060) := by decide +kernel
/-- V-C C9: BadUnary; PREV still 100. -/
theorem test_decDiff_fault :
    (fun t => (t.status.word, t.prev)) (after (exec .decDiff
      { codec [0, 0, 0, 0, 2] 5 0 0 2 with prev := 100 })) = (0x0222, 100) := by decide +kernel
/-- V-D2: `W` = 8, `s` = 1. -/
theorem test_encRow :
    (fun t => (t.bm, counters t)) (after (exec .encRow
      { array [] 9 3 1 [0, 12, 11, 11] 4 1 with prev := 10, eidx := 1 })) =
      (bytes [0x03, 0x58, 0x01], 17, 11, 4, 0, 0) := by decide +kernel
/-- S3, a run of 129: a continued run and a literal. -/
theorem test_encRow_continued :
    (fun t => (t.bm, t.bitpos)) (after (exec .encRow
      (array [] 9 2 2 ((List.range 130).map fun k => (k : Int) + 1) 130 1))) =
      (bytes [0x80, 0x01, 0x00, 0x02, 0x0A], 36) := by decide +kernel
/-- V-D3: `C(2, −3)` `L(1)` `CW(5)`. -/
theorem test_decRow :
    (fun t => (t.em, counters t)) (after (exec .decRow
      { array [0xFF, 0xFD, 0xFF, 0x03, 0x22] 5 2 2 [] 4 1 with prev := 100 })) =
      (cells [97, 94, 99], 38, 99, 3, 0, 0) := by decide +kernel
/-- V-D3: a run of 4 with 3 elements missing. -/
theorem test_decRow_overrun :
    (after (exec .decRow { array [0xFD, 0, 0, 0] 4 2 2 [] 4 1 with prev := 100 })).status.word =
      0x0522 := by decide +kernel
/-- P3: WR_HEADER. -/
theorem test_wrHeader :
    (fun t => (t.bm, counters t)) (after (exec .wrHeader (array [] 24 1 1 [] 4 2))) =
      (bytes [0, 0, 0, 0, 2, 0, 0, 0, 4, 0, 0, 0, 1, 1], 112, 0, 0, 0, 0) := by decide +kernel
/-- The stream G5 (V-G). -/
def g5 : List Nat :=
  [0x18, 0, 0, 0, 2, 0, 0, 0, 4, 0, 0, 0, 1, 1, 0x0A, 0x58, 0x01, 0x80, 0x01, 0, 0, 0, 0xFE, 0x29]
/-- P3: RD_HEADER. -/
theorem test_rdHeader :
    (fun t => (t.cfg, counters t)) (after (exec .rdHeader (array g5 24 1 0 [] 4 2))) =
      ({ typ := 1, slice := 1 }, 112, 0, 0, 24, 0) := by decide +kernel
/-- V-H: the order of the header's tests (a reserved tag before a wrong block width). -/
theorem test_rdHeader_order :
    (after (exec .rdHeader (array ([0x18, 0, 0, 0, 2, 0, 0, 0, 5, 0, 0, 0, 1, 5]) 24 1 0 [] 4
      2))).status.word = 0x0232 := by decide +kernel
/-- P3: ENC_BLOCK on the first block. -/
theorem test_encBlock :
    (fun t => (t.bm, counters t)) (after (exec .encBlock
      { array [] 24 1 1 [10, 12, 11, 11] 4 1 with bitpos := 112 })) =
      (bytes (List.replicate 14 0 ++ [0x0A, 0x58, 0x01]), 136, 11, 4, 0, 1) := by decide +kernel
/-- P3: DEC_BLOCK on the second block. -/
theorem test_decBlock :
    (fun t => (t.em, counters t)) (after (exec .decBlock
      { array g5 24 1 1 [10, 12, 11, 11] 4 2 with bitpos := 136, eidx := 4, blk := 1 })) =
      (cells [10, 12, 11, 11, -128, 127, 127, 127], 192, 127, 8, 0, 2) := by decide +kernel
/-- P3: PATCH_SIZE. -/
theorem test_patchSize :
    (fun t => (t.bm, counters t)) (after (exec .patchSize (cursor [0, 0, 0, 0, 2] 24 192))) =
      (bytes [0x18, 0, 0, 0, 2], 192, 0, 0, 24, 0) := by decide +kernel
/-- The stream G1 (V-G, S7) and its array. -/
def g1 : List Nat :=
  [0x1D, 0, 0, 0, 1, 0, 0, 0, 9, 0, 0, 0, 2, 2, 0x64, 0, 0x03, 0xF6, 0xF6, 0x03, 0, 0x08, 0x08, 0, 0,
   0, 0x20, 0x0C, 0]
/-- The source's row (S7). -/
def row7 : List Int := [100, 102, 104, 103, 103, 103, 103, 103, 200]
/-- S7, P2: ENCODE, with the canary byte after the buffer. -/
theorem test_encode :
    (fun t => (t.bm, counters t, t.status.word)) (after (exec .encode
      (array (List.replicate 30 0xEE) 29 2 2 row7 9 1))) =
      (bytes (g1 ++ [0xEE]), (232, 200, 9, 29, 1), 0) := by decide +kernel
/-- S4: one byte less of room. -/
theorem test_encode_full :
    (after (exec .encode (array (List.replicate 29 0xEE) 28 2 2 row7 9 1))).status.word = 0x0012 := by
  decide +kernel
/-- P2: DECODE; CFG comes from the header. -/
theorem test_decode :
    (fun t => (t.em, t.cfg, counters t)) (after (exec .decode
      (array g1 29 0 0 (List.replicate 9 7777) 9 1))) =
      (cells row7, ⟨2, 2⟩, 232, 200, 9, 29, 1) := by decide +kernel
/-- V-H: byte 0 = `1C`. -/
theorem test_decode_size :
    (fun t => (t.em, t.status.word)) (after (exec .decode
      (array (0x1C :: g1.tail) 29 0 0 [] 9 1))) = (cells row7, 0x0622) := by decide +kernel
/-- V-I row 15: BadWidth with FOUND kept, then CLR_FAULT. -/
theorem test_clrFault :
    (after (exec .clrFault
      { State.reset with status := ⟨false, true, true, 3, 6⟩ })).status.word = 0x0004 := by
  decide +kernel
/-- V-I row 7. -/
theorem test_cmdReserved :
    (after (exec (.cmdReserved 0) State.reset)).status.word = 0x0132 := by decide +kernel
/-- V-I rows 10 to 13: `E:5`, `2:FFFF`, `B:FF`, `1:FFFF`. -/
theorem test_registers :
    [(14, 5), (2, 0xFFFF), (11, 0xFF), (1, 0xFFFF)].map (fun x : BitVec 4 × Word64 =>
      readRegister (hostWrite x.1 x.2 State.reset) x.1) = [0, 0x3F07, 0x7F, 0] := by decide +kernel
/-- A reset during DEC_BLOCK leaves the bytes and the cells outside the block (R227 (d), R240); a command
that its opening checks stop has written nothing. -/
theorem test_reset_during_command :
    let s : State := { array [1] 1 1 0 [5, 6, 7, 8] 2 2 with eidx := 1 }
    (hostWriteThenReset .decBlock s).bm = s.bm ∧
      Memory.read (hostWriteThenReset .decBlock s).em 0 = 5 ∧
      (hostWriteThenReset .encBlock s).em = s.em ∧
      (hostWriteThenReset .decBlock { s with eidx := 3 }).em = s.em :=
  ⟨rfl, by rw [hostWriteThenReset_ready ⟨rfl, rfl⟩, spoilMemory_cells (by decide) _ (by decide)]; rfl,
    rfl, by decide⟩

/-- V-I row 2: the first instruction after reset is the CMD write of 0x48, and nothing else is left
pending. -/
theorem test_step :
    (fun t => (t.status.word, t.hostQueue)) (after (step (State.reset.withFetchWord 8 0x48))) =
      (0x0432, []) := by decide +kernel

/-! ## A state that meets the hypotheses of each statement

Statements with several clauses have a witness for each clause, at a boundary value where the clause has
a range. Statements without hypotheses (EveryCommandWordDecodes, SampleWordsDecode, ResetMeetsInvariant,
ResetClearsRegisters, MixedWidthReads, SegmentsCoverRow, SegmentsFollowPseudocode) need none. -/

/-- Whether an outcome is a next state. -/
def isNext : Host.Outcome State Fault Refusal → Bool
  | .next _ => true
  | .fault _ => false
  | .refused _ => false

theorem next_after {o : Host.Outcome State Fault Refusal} (h : isNext o = true) :
    o = .next (after o) := by
  cases o <;> simp_all [isNext, after]

/-- A block in plain mode. -/
def plain (c : Ctx) (x : Int) (ds : List Int) : CodedBlock :=
  { first := x, diffs := ds, rest := ds.flatMap (codewordBits c) }

/-- A block in run-length mode. -/
def runs (c : Ctx) (x : Int) (segs : List Segment) : CodedBlock :=
  { first := x, diffs := segs.flatMap segmentDiffs, rest := segs.flatMap (segmentBits c) }

theorem plain_legal {c : Ctx} {n : Nat} {x : Int} {ds : List Int}
    (h : isElem c.w x ∧ ds.length + 1 = n ∧ ∀ d ∈ ds, codable c d) : (plain c x ds).legal c false n :=
  ⟨h.1, h.2.1, h.2.2, rfl⟩

theorem runs_legal {c : Ctx} {n : Nat} {x : Int} {segs : List Segment}
    (h : isElem c.w x ∧ (segs.flatMap segmentDiffs).length + 1 = n)
    (hl : ∀ seg ∈ segs, segmentLegal c seg) : (runs c x segs).legal c true n :=
  ⟨h.1, h.2, segs, hl, rfl, rfl⟩

theorem witness_DecodeEncodeRoundTrip_wide :
    Ctx.wf ⟨32, 32⟩ = true ∧ (Instr.cwUnary 0xFFFFFFFF 30).wf ⟨32, 32⟩ = true ∧
      (Instr.raw 0xFFFFFFFF).wf ⟨32, 32⟩ = true ∧ (Instr.litDiff 0x1FFFFFFFF).wf ⟨32, 32⟩ = true ∧
      (Instr.hdr 14 0 1 32 6).wf ⟨32, 32⟩ = true := by
  decide +kernel

theorem witness_DecodeEncodeRoundTrip_narrow :
    Ctx.wf ⟨8, 0⟩ = true ∧ (Instr.cwEscape 0 0x1F0).wf ⟨8, 0⟩ = true ∧
      (Instr.markLiteral 127).wf ⟨8, 0⟩ = true ∧ (Instr.markConstant 129).wf ⟨8, 0⟩ = true ∧
      (Instr.tagReserved 5).wf ⟨8, 0⟩ = true ∧ (Instr.cmdReserved 0).wf ⟨8, 0⟩ = true ∧
      (Instr.pad 7).wf ⟨8, 0⟩ = true := by
  decide +kernel

theorem witness_AcceptedCodewordIsTheEncoders :
    Ctx.wf ⟨16, 2⟩ = true ∧
      decodeAs ⟨16, 2⟩ .codeword [true, true, false, false, false, true, true] =
        .ok (.cwUnary 3 3, [true]) := by
  decide +kernel

theorem witness_StepKeepsInvariant :
    ({ cursor [0xFF] 1 3 with hostQueue := [.write 0 0x12] } : State).Inv ∧
      step { cursor [0xFF] 1 3 with hostQueue := [.write 0 0x12] } =
        .next (after (step { cursor [0xFF] 1 3 with hostQueue := [.write 0 0x12] })) :=
  ⟨⟨rfl, rfl, ⟨rfl, rfl⟩, rfl, rfl, by decide +kernel, by decide +kernel⟩, next_after (by decide +kernel)⟩

/-- Idle, and with a command running that writes the one memory or the other. -/
theorem witness_HostResetKeepsMemories :
    let s := array [1] 1 0 0 [5] 1 1
    Memory.wf s.bm ∧ Memory.wf s.em ∧ s.status.busy = false ∧ s.limit.toNat ≤ 1 ∧ s.elim.toNat ≤ 1 ∧
      Memory.wf (start .decode s).bm ∧ Memory.wf (start .decode s).em ∧
      (start .decode s).running = some .decode ∧ readsBytesOnly .decode = true ∧
      (start .encode s).running = some .encode ∧ writesElems .encode = false := by
  decide +kernel

/-- The three commands that write cells, at the ends of their ranges, and one that writes none. -/
theorem witness_HostResetKeepsMemories_running :
    let s : State := { array [1] 1 0 0 [5] 2 2 with eidx := 1 }
    s.ready ∧ Memory.wf s.bm ∧ Memory.wf s.em ∧
      decodeCommand 0x31 = .decRow ∧ 0 < s.eidx.toNat ∧ s.eidx.toNat + (s.blkw.toNat - 1) ≤ 2 ∧
      decodeCommand 0x43 = .decBlock ∧ s.eidx.toNat + s.blkw.toNat ≤ 3 ∧
      decodeCommand 0x49 = .decode ∧ s.blkw.toNat * s.blkc.toNat ≤ 4 ∧ s.elim.toNat ≤ 4 ∧
      readsBytesOnly (decodeCommand 0x49) = true ∧ writesElems (decodeCommand 0x48) = false := by
  simp only [State.ready]
  decide +kernel

theorem witness_StepRunsDecodedCommand :
    ({ State.reset with hostQueue := [.write 0 0x148] } : State).hostQueue = [.write 0 0x148] ∧
      ({ State.reset with hostQueue := [.read 12, .reset] } : State).hostQueue = [.read 12, .reset] ∧
      State.reset.hostQueue = [] := by
  decide +kernel

/-- Registers 1 and 15 bound the range. -/
theorem witness_HostWriteThenRead :
    State.reset.status.busy = false ∧ (1 : BitVec 4) ≠ 0 ∧ (15 : BitVec 4) ≠ 0 ∧ (15 : BitVec 4) ≠ 1 ∧
      (14 : BitVec 4) ≠ 15 := by
  decide +kernel

/-- Bytes and cells below and at the limits. -/
theorem witness_HostWriteThenRead_memories :
    (array g1 29 0 0 [7] 9 1).status.busy = false ∧ Memory.wf (array g1 29 0 0 [7] 9 1).bm ∧
      Memory.wf (array g1 29 0 0 [7] 9 1).em := by
  decide +kernel

/-- R37: register 15 reads 0 while a command runs. -/
theorem test_hostRead_busy :
    (after (hostAction (.read 15) (start .decode (array [1] 1 0 0 [5] 1 1)))).replies = [0] := by
  decide +kernel

/-- The last byte and cell below the limits and the first at them; the lowest and highest register of the
third clause. -/
theorem witness_BusyHostAccess :
    (0 : BitVec 4) ≠ 1 ∧ (0 : BitVec 4) ≠ 14 ∧ (0 : BitVec 4) ≠ 15 ∧ (13 : BitVec 4) ≠ 1 ∧
      (13 : BitVec 4) ≠ 14 ∧ (13 : BitVec 4) ≠ 15 ∧
    (start .decode (array [1] 1 0 0 [5] 1 1)).status.busy = true ∧
      0 < (start .decode (array [1] 1 0 0 [5] 1 1)).limit.toNat ∧
      0 < (start .decode (array [1] 1 0 0 [5] 1 1)).elim.toNat ∧
      (start .decode (array [1] 1 0 0 [5] 1 1)).limit.toNat ≤ 1 ∧
      (start .decode (array [1] 1 0 0 [5] 1 1)).elim.toNat ≤ 1 := by
  decide +kernel

theorem witness_FaultLatch :
    (takeFault .badOpcode State.reset).status.fault = true ∧
      (0x148 : Word64).truncate 8 ≠ 1#8 ∧ isCommand .encode = true ∧ Instr.encode ≠ .clrFault ∧
      (takeFault .badOpcode State.reset).status.busy = false ∧ (15 : BitVec 4) ≠ 0 := by
  decide +kernel

theorem witness_ClrFaultReturns :
    (takeFault .badOpcode State.reset).status.busy = false := by
  decide +kernel

theorem witness_ReservedOpcodeFaults :
    State.reset.ready ∧ (0x14A : Word64).truncate 8 ∉ opcodes := by
  simp only [State.ready]
  decide +kernel

theorem witness_FaultStatusWords :
    State.reset.status.found = false ∧
      ({ State.reset with status := ⟨false, false, true, 0, 0⟩ } : State).status.found = true ∧
      State.reset.status.legal ∧
      exec .encode State.reset = .next (after (exec .encode State.reset)) :=
  ⟨rfl, rfl, ⟨rfl, rfl⟩, next_after (by decide +kernel)⟩

theorem witness_EveryCommandEnds :
    isCommand .decode = true ∧ Instr.decode ≠ .clrFault ∧ State.reset.ready := by
  simp only [State.ready]
  decide +kernel

/-- The first byte and the first cell beyond the limits. -/
theorem witness_AccessesStayInBounds :
    Memory.wf (array g1 29 0 0 [] 9 1).bm ∧ Memory.wf (array g1 29 0 0 [] 9 1).em ∧
      exec .decode (array g1 29 0 0 [] 9 1) = .next (after (exec .decode (array g1 29 0 0 [] 9 1))) ∧
      (array g1 29 0 0 [] 9 1).limit.toNat ≤ 29 ∧ (array g1 29 0 0 [] 9 1).elim.toNat ≤ 9 ∧
      readsBytesOnly .decode = true ∧ writesElems .encode = false :=
  ⟨by decide +kernel, by decide +kernel, next_after (by decide +kernel), by decide +kernel,
    by decide +kernel, rfl, rfl⟩

/-- Two states that differ in the first byte and the first cell beyond the limits. -/
theorem witness_AccessesStayInBounds_reads :
    let s := array g1 29 0 0 [] 9 1
    let t : State := { s with bm := Memory.write s.bm 29 0xFF, em := Memory.write s.em 9 5 }
    Memory.wf s.bm ∧ Memory.wf s.em ∧ Memory.wf t.bm ∧ Memory.wf t.em ∧ agreeBelow s t ∧
      exec .decode s = .next (after (exec .decode s)) ∧
      exec .decode t = .next (after (exec .decode t)) :=
  ⟨by decide +kernel, by decide +kernel, by decide +kernel, by decide +kernel,
    ⟨rfl, by decide +kernel, by decide +kernel⟩, next_after (by decide +kernel),
    next_after (by decide +kernel)⟩

theorem witness_UnlistedRegistersKeepTheirValue :
    exec .decode (array g1 29 0 0 [] 9 1) = .next (after (exec .decode (array g1 29 0 0 [] 9 1))) ∧
      (10 : BitVec 4) ≠ 1 ∧ (10 : BitVec 4) ∉ registersWritten .decode :=
  ⟨next_after (by decide +kernel), by decide, by decide⟩

theorem witness_OnlyScanZerosWritesFound :
    exec .setBit (cursor [0] 1 7) = .next (after (exec .setBit (cursor [0] 1 7))) ∧
      Instr.setBit ≠ .scanZeros :=
  ⟨next_after (by decide +kernel), by decide⟩

/-- A width of 65; a field one bit too long; the field that ends at the limit; width 0 beyond it. -/
theorem witness_WriteBitsStoresField :
    let s (n p : Nat) : State :=
      { cursor [0xAA, 0xAA] 2 p with val := 0xF, width := BitVec.ofNat 7 n }
    (∀ x ∈ [(65, 0), (5, 12), (4, 12), (0, 99)], (s x.1 x.2).ready ∧ Memory.wf (s x.1 x.2).bm) ∧
      64 < (s 65 0).width.toNat ∧
      ((s 5 12).width ≠ 0 ∧
        8 * (s 5 12).limit.toNat < (s 5 12).bitpos.toNat + (s 5 12).width.toNat) ∧
      ¬((s 4 12).width ≠ 0 ∧
        8 * (s 4 12).limit.toNat < (s 4 12).bitpos.toNat + (s 4 12).width.toNat) ∧
      ¬((s 0 99).width ≠ 0 ∧
        8 * (s 0 99).limit.toNat < (s 0 99).bitpos.toNat + (s 0 99).width.toNat) := by
  simp only [State.ready]
  decide +kernel

/-- A width of 65; a field one bit too long; the 64 bits that end at the limit; width 0 beyond it. -/
theorem witness_ReadBitsReturnsField :
    let s (n p : Nat) : State := { cursor g1 12 p with width := BitVec.ofNat 7 n }
    (∀ x ∈ [(65, 0), (64, 33), (64, 32), (0, 99)], (s x.1 x.2).ready) ∧
      64 < (s 65 0).width.toNat ∧
      ((s 64 33).width ≠ 0 ∧
        8 * (s 64 33).limit.toNat < (s 64 33).bitpos.toNat + (s 64 33).width.toNat) ∧
      ¬((s 64 32).width ≠ 0 ∧
        8 * (s 64 32).limit.toNat < (s 64 32).bitpos.toNat + (s 64 32).width.toNat) ∧
      ¬((s 0 99).width ≠ 0 ∧
        8 * (s 0 99).limit.toNat < (s 0 99).bitpos.toNat + (s 0 99).width.toNat) := by
  simp only [State.ready]
  decide +kernel

/-- The first bit beyond the limit, and the last below it. -/
theorem witness_SetBitStoresOne :
    (cursor [0] 1 8).ready ∧ Memory.wf (cursor [0] 1 8).bm ∧
      8 * (cursor [0] 1 8).limit.toNat < (cursor [0] 1 8).bitpos.toNat + 1 ∧
      (cursor [0] 1 7).ready ∧ Memory.wf (cursor [0] 1 7).bm ∧
      ¬8 * (cursor [0] 1 7).limit.toNat < (cursor [0] 1 7).bitpos.toNat + 1 := by
  simp only [State.ready]
  decide +kernel

/-- Unaligned beyond the limit, unaligned in the last byte, aligned beyond the limit. -/
theorem witness_AlignWrPadsWithZeros :
    (∀ p ∈ [9, 1, 24], (cursor [0xFF] 1 p).ready ∧ Memory.wf (cursor [0xFF] 1 p).bm) ∧
      ((cursor [0xFF] 1 9).bitpos.toNat % 8 ≠ 0 ∧
        8 * (cursor [0xFF] 1 9).limit.toNat < (cursor [0xFF] 1 9).bitpos.toNat) ∧
      ¬8 * (cursor [0xFF] 1 1).limit.toNat < (cursor [0xFF] 1 1).bitpos.toNat ∧
      ¬(cursor [0xFF] 1 24).bitpos.toNat % 8 ≠ 0 := by
  simp only [State.ready]
  decide +kernel

theorem witness_AlignRdRoundsUp :
    (cursor [] 0 (2 ^ 64 - 3)).ready := by
  simp only [State.ready]
  decide +kernel

theorem witness_ScanZerosCounts_width :
    let s : State := { cursor [] 9 0 with width := 65 }
    s.ready ∧ 64 < s.width.toNat := by
  simp only [State.ready]
  decide +kernel

/-- The one bit is the last bit below the limit, and the window reaches beyond it. -/
theorem witness_ScanZerosCounts_found :
    let s : State := { cursor [0xFF, 0x80] 2 8 with width := 64 }
    s.ready ∧ s.width.toNat ≤ 64 ∧ 7 ≤ s.width.toNat ∧
      (∀ j, j < 7 → bitRead s.bm (s.bitpos.toNat + j) = false ∧
        s.bitpos.toNat + j < 8 * s.limit.toNat) ∧
      7 ≠ s.width.toNat ∧ ¬8 * s.limit.toNat ≤ s.bitpos.toNat + 7 ∧
      bitRead s.bm (s.bitpos.toNat + 7) = true := by
  simp only [State.ready]
  decide +kernel

/-- A window of zeros that ends at the limit, and the empty window beyond it. -/
theorem witness_ScanZerosCounts_none :
    let s : State := { cursor [0, 0, 0, 1] 3 0 with width := 24 }
    let t : State := cursor [1] 1 99
    s.ready ∧ s.width.toNat ≤ 64 ∧ 24 ≤ s.width.toNat ∧
      (∀ j, j < 24 → bitRead s.bm (s.bitpos.toNat + j) = false ∧
        s.bitpos.toNat + j < 8 * s.limit.toNat) ∧ 24 = s.width.toNat ∧
      t.ready ∧ t.width.toNat ≤ 64 ∧ 0 = t.width.toNat := by
  simp only [State.ready]
  decide +kernel

/-- The window is one bit longer than the zeros below the limit. -/
theorem witness_ScanZerosCounts_end :
    let s : State := { cursor [0] 1 0 with width := 9 }
    s.ready ∧ s.width.toNat ≤ 64 ∧ 8 ≤ s.width.toNat ∧
      (∀ j, j < 8 → bitRead s.bm (s.bitpos.toNat + j) = false ∧
        s.bitpos.toNat + j < 8 * s.limit.toNat) ∧
      8 ≠ s.width.toNat ∧ 8 * s.limit.toNat ≤ s.bitpos.toNat + 8 := by
  simp only [State.ready]
  decide +kernel

theorem witness_FieldsReadBack :
    Memory.wf (cursor [0xAA] 2 0).bm ∧ (∀ f ∈ [(5, 3), (7, 0), (0x1ABC, 13)], f.2 ≤ 64) ∧
      (cursor [0xAA] 2 0).bitpos.toNat + ([(5, 3), (7, 0), (0x1ABC, 13)].map Prod.snd).sum ≤
        8 * (cursor [0xAA] 2 0).limit.toNat := by
  decide +kernel

theorem witness_PadItemSkips :
    (cursor [] 1 5).status.fault = false ∧
      (3 : BitVec 3).toNat = ((cursor [] 1 5).bitpos.toNat + 7) / 8 * 8 - (cursor [] 1 5).bitpos.toNat := by
  decide +kernel

/-- An escape that ends at the limit, and one byte less of room. -/
theorem witness_EncCwWritesCodeword :
    ∀ n ∈ [7, 6],
    let s : State := { codec [] n 5 0 2 with val := BitVec.ofInt 64 (-61) }
    s.ready ∧ Memory.wf s.bm ∧ s.codecLegal ∧
      (s.bitpos.toNat + (codewordBits s.ctx s.valDiff).length ≤ 8 * s.limit.toNat ↔ n = 7) := by
  simp only [State.ready, State.codecLegal]
  decide +kernel

/-- An escape and the longest unary codeword. -/
theorem witness_DecCwReadsCodeword :
    let s := codec [3, 0, 0, 0, 0x0C, 0xFF, 0x07] 7 0 0 2
    let t := codec [3, 0, 0, 0, 1] 5 0 0 2
    s.ready ∧ s.codecLegal ∧ (Instr.cwEscape 3 0x1FFC3).format = .codeword ∧
      (Instr.cwEscape 3 0x1FFC3).wf s.ctx = true ∧
      holdsBits s.bm s.bitpos.toNat (encode s.ctx (.cwEscape 3 0x1FFC3)) ∧
      s.bitpos.toNat + (encode s.ctx (.cwEscape 3 0x1FFC3)).length ≤ 8 * s.limit.toNat ∧
      t.ready ∧ t.codecLegal ∧ (Instr.cwUnary 3 30).format = .codeword ∧
      (Instr.cwUnary 3 30).wf t.ctx = true ∧
      holdsBits t.bm t.bitpos.toNat (encode t.ctx (.cwUnary 3 30)) ∧
      t.bitpos.toNat + (encode t.ctx (.cwUnary 3 30)).length ≤ 8 * t.limit.toNat := by
  simp only [State.ready, State.codecLegal, holdsBits]
  decide +kernel

theorem witness_DecDiffReconstructs :
    let s := codec [3, 0, 0, 0, 0x0C, 0xFF, 0x07] 7 0 0 2
    let t := codec [3, 0, 0, 0, 1] 5 0 0 2
    s.ready ∧ s.codecLegal ∧ (Instr.cwEscape 3 0x1FFC3).format = .codeword ∧
      (Instr.cwEscape 3 0x1FFC3).wf s.ctx = true ∧
      holdsBits s.bm s.bitpos.toNat (encode s.ctx (.cwEscape 3 0x1FFC3)) ∧
      s.bitpos.toNat + (encode s.ctx (.cwEscape 3 0x1FFC3)).length ≤ 8 * s.limit.toNat ∧
      t.ready ∧ t.codecLegal ∧ (Instr.cwUnary 3 30).format = .codeword ∧
      (Instr.cwUnary 3 30).wf t.ctx = true ∧
      holdsBits t.bm t.bitpos.toNat (encode t.ctx (.cwUnary 3 30)) ∧
      t.bitpos.toNat + (encode t.ctx (.cwUnary 3 30)).length ≤ 8 * t.limit.toNat := by
  simp only [State.ready, State.codecLegal, holdsBits]
  decide +kernel

/-- 31 zeros; V-B6: 63 is a unary value, the slice of 97 is 1; a unary codeword and an escape that end
one bit beyond the limit, whatever stands there. -/
theorem witness_DecCwRefusesBadCodewords :
    let s := codec [3, 0, 0, 0, 2] 5 0 0 2
    let t := codec [3, 0, 0, 0, 0xFC, 0, 0] 7 0 0 2
    let u := codec [2, 0, 0, 0, 0x84, 1, 0] 7 0 0 2
    let v := codec [3, 0, 0, 0] 4 0 0 2
    let x := codec [0xC0, 0, 0, 0, 0, 0xC3, 0xFF] 7 6 0 2
    (s.ready ∧ s.codecLegal ∧ codewordFails s s.bitpos.toNat .badUnary) ∧
      (t.ready ∧ t.codecLegal ∧ codewordFails t t.bitpos.toNat .badEscape) ∧
      (u.ready ∧ u.codecLegal ∧ codewordFails u u.bitpos.toNat .badEscape) ∧
      (v.ready ∧ v.codecLegal ∧ codewordFails v v.bitpos.toNat .readPastEnd) ∧
      (x.ready ∧ x.codecLegal ∧ codewordFails x x.bitpos.toNat .readPastEnd) := by
  have legal : ∀ {s : State}, (s.ready ∧ s.codecLegal) → ∀ {p : Prop}, p → s.ready ∧ s.codecLegal ∧ p :=
    fun h _ hp => ⟨h.1, h.2, hp⟩
  refine ⟨legal ?_ ⟨3, by decide, _, .inl ⟨rfl, rfl, by decide +kernel, ?_⟩⟩,
    legal ?_ ⟨3, by decide, _, .inr (.inl ⟨rfl, 63, by decide +kernel, rfl, .inl (by decide +kernel),
      by decide +kernel, ?_⟩)⟩,
    legal ?_ ⟨2, by decide, _, .inr (.inl ⟨rfl, 97, by decide +kernel, rfl, .inr (by decide +kernel),
      by decide +kernel, ?_⟩)⟩,
    legal ?_ ⟨3, by decide, _, .inr (.inr ⟨rfl, .inl ⟨30, by decide, rfl⟩, by decide +kernel,
      by decide +kernel, ?_⟩)⟩,
    legal ?_ ⟨3, by decide, _, .inr (.inr ⟨rfl, .inr ⟨0x1FFC3, by decide +kernel, rfl⟩,
      by decide +kernel, by decide +kernel, ?_⟩)⟩⟩
  all_goals simp only [State.ready, State.codecLegal, holdsBits, holdsBelow]
  all_goals decide +kernel

/-- The longest and shortest runs. -/
theorem witness_DecRowAcceptsSegments_legal :
    (∀ seg ∈ [Segment.constant 2 (-3), .literal [5], .constant 128 65535, .continued (-65536),
      .literal (List.replicate 127 0)], segmentLegal ⟨16, 2⟩ seg) := by
  intro seg h
  simp only [List.mem_cons, List.not_mem_nil, or_false] at h
  rcases h with rfl | rfl | rfl | rfl | rfl <;>
    simp only [segmentLegal, codable, isElem] <;> decide +kernel

/-- V-D3's row with a codeword that the limit cuts after its marker; the same row cut in that marker. -/
theorem witness_DecCwRefusesBadCodewords_row :
    let s : State := { array [0xFF, 0xFD, 0xFF, 0x03, 0x02] 5 2 2 [] 4 1 with prev := 100 }
    let t : State := { array [0xFF, 0xFD, 0xFF, 0x03] 4 2 2 [] 4 1 with prev := 100 }
    (s.ready ∧ Memory.wf s.em ∧ s.codecLegal ∧ s.blkw ≠ 0 ∧
      s.eidx.toNat + s.blkw.toNat ≤ s.elim.toNat + 1 ∧
      ∃ bits, beforeCodeword s.ctx true (s.blkw.toNat - 1) bits ∧
        holdsBelow s.bm (8 * s.limit.toNat) s.bitpos.toNat bits ∧
        codewordFails s (s.bitpos.toNat + bits.length) .readPastEnd) ∧
    (t.ready ∧ Memory.wf t.em ∧ t.codecLegal ∧ t.blkw ≠ 0 ∧
      t.eidx.toNat + t.blkw.toNat ≤ t.elim.toNat + 1 ∧
      ∃ bits, rowPrefix t.ctx (t.blkw.toNat - 1) bits ∧ cutByLimit t t.bitpos.toNat bits) := by
  have legal : ∀ seg ∈ [Segment.constant 2 (-3)], segmentLegal ⟨16, 2⟩ seg :=
    fun seg h => witness_DecRowAcceptsSegments_legal seg (by simp at h; simp [h])
  refine ⟨⟨⟨rfl, rfl⟩, by decide +kernel, ⟨rfl, by decide +kernel⟩, by decide +kernel, by decide +kernel,
    _, ⟨[], by simp, [Segment.constant 2 (-3)], 1, legal, by decide, by decide +kernel, rfl⟩, ?_,
    1, by decide, _, .inr (.inr ⟨rfl, .inl ⟨5, by decide, rfl⟩, by decide +kernel, by decide +kernel,
      ?_⟩)⟩,
    ⟨⟨rfl, rfl⟩, by decide +kernel, ⟨rfl, by decide +kernel⟩, by decide +kernel, by decide +kernel, _,
      ⟨[Segment.constant 2 (-3)], legal, .inr ⟨by decide +kernel, 0x81, rfl⟩⟩, by decide +kernel,
      by decide +kernel, ?_⟩⟩
  all_goals simp only [holdsBelow]
  all_goals decide +kernel

/-- A plain block of two elements whose codeword has 31 zeros; a run-length block that ends in the marker
of its row; a block without its raw element. -/
theorem witness_DecCwRefusesBadCodewords_block :
    let s := array [5, 3, 0, 0, 0, 2] 6 1 2 [] 2 1
    let t := array [5] 1 3 2 [] 4 1
    let u := array [] 0 3 2 [] 1 1
    (s.ready ∧ Memory.wf s.em ∧ s.codecLegal ∧ s.blkw ≠ 0 ∧
      s.eidx.toNat + s.blkw.toNat ≤ s.elim.toNat ∧ s.bitpos.toNat % 8 = 0 ∧
      ∃ bits, beforeCodeword s.ctx s.runLength (s.blkw.toNat - 1) bits ∧
        holdsBelow s.bm (8 * s.limit.toNat) (s.bitpos.toNat + s.w) bits ∧
        codewordFails s (s.bitpos.toNat + s.w + bits.length) .badUnary) ∧
    (t.ready ∧ Memory.wf t.em ∧ t.codecLegal ∧ t.blkw ≠ 0 ∧
      t.eidx.toNat + t.blkw.toNat ≤ t.elim.toNat ∧ t.bitpos.toNat % 8 = 0 ∧ t.runLength = true ∧
      ∃ bits, rowPrefix t.ctx (t.blkw.toNat - 1) bits ∧
        cutByLimit t (t.bitpos.toNat + t.w) bits) ∧
    (u.ready ∧ Memory.wf u.em ∧ u.codecLegal ∧ u.blkw ≠ 0 ∧
      u.eidx.toNat + u.blkw.toNat ≤ u.elim.toNat ∧ u.bitpos.toNat % 8 = 0 ∧
      8 * u.limit.toNat < u.bitpos.toNat + u.w) := by
  refine ⟨⟨⟨rfl, rfl⟩, by decide +kernel, ⟨rfl, by decide +kernel⟩, by decide +kernel, by decide +kernel,
      rfl, [], ⟨[], by simp, by decide +kernel, rfl⟩, ?_,
      3, by decide, _, .inl ⟨rfl, rfl, by decide +kernel, ?_⟩⟩,
    ⟨⟨rfl, rfl⟩, by decide +kernel, ⟨rfl, by decide +kernel⟩, by decide +kernel, by decide +kernel, rfl,
      rfl, _, ⟨[], by simp, .inr ⟨by decide +kernel, 9, rfl⟩⟩, by decide +kernel, by decide +kernel, ?_⟩,
    ⟨⟨rfl, rfl⟩, by decide +kernel, ⟨rfl, by decide +kernel⟩, by decide +kernel, by decide +kernel, rfl,
      by decide +kernel⟩⟩
  all_goals simp only [holdsBits, holdsBelow]
  all_goals decide +kernel

/-- The second block of a plain stream, with a codeword of 31 zeros after a legal block. -/
theorem witness_DecCwRefusesBadCodewords_decode :
    let s := array ([0, 0, 0, 0, 2, 0, 0, 0, 2, 0, 0, 0, 1, 1, 0x7F, 0xFF, 5, 1, 0, 0, 0, 1]) 22 1 0 [] 2 2
    let u := s.withHeader 1 1
    s.ready ∧ Memory.wf s.em ∧ reachesBlock s 0 1 1 128 ∧
      ∃ bits, beforeCodeword u.ctx u.runLength (s.blkw.toNat - 1) bits ∧
        holdsBelow s.bm (8 * s.limit.toNat) (128 + s.w) bits ∧
        codewordFails u (128 + s.w + bits.length) .badUnary := by
  refine ⟨⟨rfl, rfl⟩, by decide +kernel, ⟨⟨by decide +kernel, ?_, by decide +kernel, by decide +kernel⟩,
    [plain ⟨8, 1⟩ 127 [1]], fun b hb => ?_, by decide +kernel, by decide +kernel, by decide +kernel, ?_⟩,
    [], ⟨[], by simp, by decide +kernel, rfl⟩, ?_, 1, by decide, _,
    .inl ⟨rfl, rfl, by decide +kernel, ?_⟩⟩
  · simp only [State.geometryLegal]
    decide +kernel
  · rw [List.mem_singleton.mp hb]
    refine plain_legal (c := ⟨8, 1⟩) ?_
    simp only [codable, isElem]
    decide +kernel
  all_goals simp only [holdsStream, holdsBlocks, holdsBits, holdsBelow]
  all_goals decide +kernel

/-- The largest fall, V-C C2, and one byte less of room. -/
theorem witness_EncDiffWritesDifference :
    ∀ n ∈ [7, 6],
    let s : State := { codec [] n 5 0 2 with prev := 0x7FFF, val := 0x8000 }
    s.ready ∧ Memory.wf s.bm ∧ s.codecLegal ∧
      (s.bitpos.toNat + (codewordBits s.ctx (s.valElem - s.pv)).length ≤ 8 * s.limit.toNat ↔
        n = 7) := by
  simp only [State.ready, State.codecLegal]
  decide +kernel

theorem witness_CodewordRoundTrip :
    let s : State := { codec [] 7 5 0 2 with prev := 0x7FFF, val := 0x8000 }
    s.ready ∧ Memory.wf s.bm ∧ s.codecLegal ∧
      s.bitpos.toNat + (codewordBits s.ctx s.valDiff).length ≤ 8 * s.limit.toNat ∧
      s.bitpos.toNat + (codewordBits s.ctx (s.valElem - s.pv)).length ≤ 8 * s.limit.toNat := by
  simp only [State.ready, State.codecLegal]
  decide +kernel

theorem witness_CodewordRoundTrip_accepts :
    let s := codec [3, 0, 0, 0, 0x0C, 0xFF, 0x07] 7 0 0 2
    s.ready ∧ Memory.wf s.bm ∧ s.codecLegal ∧ exec .decCw s = .next (after (exec .decCw s)) ∧
      (after (exec .decCw s)).status.fault = false :=
  ⟨⟨rfl, rfl⟩, by decide +kernel, ⟨rfl, by decide +kernel⟩, next_after (by decide +kernel),
    by decide +kernel⟩

/-- Unary items of 30 and 31 zeros; an escape the encoder writes and one it does not. -/
theorem witness_CodewordItemsTakeDifference :
    let s := codec [] 7 5 0 2
    s.status.fault = false ∧ s.codecLegal ∧
      s.bitpos.toNat + (s.sw + (30 : BitVec 5).toNat + 1) ≤ 8 * s.limit.toNat ∧
      s.bitpos.toNat + (s.sw + (31 : BitVec 5).toNat + 1) ≤ 8 * s.limit.toNat ∧
      s.bitpos.toNat + (s.sw + s.w + 33) ≤ 8 * s.limit.toNat ∧
      (31 ≤ zig (asr (sext (s.w + 1) (0x1FFC3 : BitVec 33).toNat) s.sw) ∧
        zext s.sw (sext (s.w + 1) (0x1FFC3 : BitVec 33).toNat) = (3 : BitVec 32).toNat) ∧
      ¬(31 ≤ zig (asr (sext (s.w + 1) (63 : BitVec 33).toNat) s.sw) ∧
        zext s.sw (sext (s.w + 1) (63 : BitVec 33).toNat) = (3 : BitVec 32).toNat) := by
  simp only [State.codecLegal]
  decide +kernel

/-- TYPE 5 and 7; a slice width one above `W`. -/
theorem witness_CodecParameterFaults :
    (codec [] 0 0 5 0).ready ∧ typeReserved (codec [] 0 0 5 0).cfg.typ = true ∧
      (codec [] 0 0 7 17).ready ∧ typeReserved (codec [] 0 0 7 17).cfg.typ = true ∧
      (codec [] 0 0 1 9).ready ∧ typeReserved (codec [] 0 0 1 9).cfg.typ = false ∧
      (codec [] 0 0 1 9).w < (codec [] 0 0 1 9).sw := by
  simp only [State.ready]
  decide +kernel

/-- BLKW = 0; the product 2^32. -/
theorem witness_GeometryFaults_geometry :
    let s := array [] 0 2 2 [] 0 1
    let t : State := { codec [] 0 0 2 2 with blkw := 65536, blkc := 65536 }
    s.ready ∧ s.codecLegal ∧ s.blkw = 0 ∧
      t.ready ∧ t.codecLegal ∧ 2 ^ 32 ≤ t.blkw.toNat * t.blkc.toNat := by
  simp only [State.ready, State.codecLegal]
  decide +kernel

/-- RD_HEADER and DECODE with a slice width above `W`; PATCH_SIZE with a reserved type. -/
theorem witness_GeometryFaults_slice :
    let s := array [] 0 1 9 [] 0 1
    let t : State := { array [] 0 5 0 [] 9 1 with bitpos := 1 }
    s.ready ∧ typeReserved s.cfg.typ = false ∧ s.w < s.sw ∧ s.blkw = 0 ∧
      Instr.decode ∈ [Instr.rdHeader, .decode] ∧ t.ready ∧ typeReserved t.cfg.typ = true ∧
      t.bitpos.toNat % 8 ≠ 0 := by
  simp only [State.ready]
  decide +kernel

/-- One cell too few for a row, for a block and for an array. -/
theorem witness_GeometryFaults_elements :
    let s : State := { array [] 0 2 2 [] 9 1 with eidx := 2 }
    let t : State := { array [] 0 2 2 [] 9 1 with eidx := 1 }
    let u : State := { array [] 0 2 2 [] 9 1 with elim := 8 }
    s.ready ∧ s.codecLegal ∧ s.blkw ≠ 0 ∧ s.elim.toNat < s.eidx.toNat + s.blkw.toNat - 1 ∧
      t.ready ∧ t.codecLegal ∧ t.blkw ≠ 0 ∧ t.elim.toNat < t.eidx.toNat + t.blkw.toNat ∧
      u.ready ∧ u.codecLegal ∧ u.blkw ≠ 0 ∧ u.blkw.toNat * u.blkc.toNat < 2 ^ 32 ∧
      u.elim.toNat < u.blkw.toNat * u.blkc.toNat := by
  simp only [State.ready, State.codecLegal]
  decide +kernel

theorem witness_GeometryFaults_alignment :
    let s : State := { array [] 0 2 2 [] 9 1 with bitpos := 113 }
    s.ready ∧ s.codecLegal ∧ s.bitpos.toNat % 8 ≠ 0 ∧ s.blkw ≠ 0 ∧
      s.eidx.toNat + s.blkw.toNat ≤ s.elim.toNat := by
  simp only [State.ready, State.codecLegal]
  decide +kernel

/-- A row that ends at the limits, the same with one byte less of room, and the empty row with no room
at all. -/
theorem witness_EncRowWritesSegments :
    (∀ n ∈ [3, 2],
      let s : State := { array [] n 3 1 [0, 12, 11, 11] 4 1 with prev := 10, eidx := 1 }
      s.ready ∧ Memory.wf s.bm ∧ s.codecLegal ∧ s.blkw ≠ 0 ∧
        s.eidx.toNat + s.blkw.toNat ≤ s.elim.toNat + 1 ∧ s.blkw.toNat - 1 = 3 ∧
        (s.bitpos.toNat + (rowBits s.ctx (rowDiffs s.pv (elemsAt s 3))).length ≤
          8 * s.limit.toNat ↔ n = 3)) ∧
    let t : State := { array [] 0 3 1 [] 1 0 with bitpos := 99 }
    t.ready ∧ Memory.wf t.bm ∧ t.codecLegal ∧ t.blkw ≠ 0 ∧
      t.eidx.toNat + t.blkw.toNat ≤ t.elim.toNat + 1 ∧ t.blkw.toNat - 1 = 0 := by
  simp only [State.ready, State.codecLegal]
  decide +kernel

/-- V-D3, a sequence the encoder would not write; and the empty one. -/
theorem witness_DecRowAcceptsSegments :
    let s : State := { array [0xFF, 0xFD, 0xFF, 0x03, 0x22] 5 2 2 [] 4 1 with prev := 100 }
    let segs := [Segment.constant 2 (-3), .literal [5]]
    let t : State := { array [] 0 3 1 [] 1 0 with bitpos := 99 }
    s.ready ∧ Memory.wf s.em ∧ s.codecLegal ∧ s.blkw ≠ 0 ∧
      s.eidx.toNat + s.blkw.toNat ≤ s.elim.toNat + 1 ∧
      (runningElems s.w s.pv (segs.flatMap segmentDiffs)).length = s.blkw.toNat - 1 ∧
      holdsBits s.bm s.bitpos.toNat (segs.flatMap (segmentBits s.ctx)) ∧
      s.bitpos.toNat + (segs.flatMap (segmentBits s.ctx)).length ≤ 8 * s.limit.toNat ∧
      t.ready ∧ Memory.wf t.em ∧ t.codecLegal ∧ t.blkw ≠ 0 ∧
      t.eidx.toNat + t.blkw.toNat ≤ t.elim.toNat + 1 ∧ t.blkw.toNat - 1 = 0 := by
  simp only [State.ready, State.codecLegal, holdsBits]
  decide +kernel

theorem witness_RowRoundTrip :
    let s : State := { array [] 3 3 1 [0, 12, 11, 11] 4 1 with prev := 10, eidx := 1 }
    let t := after (exec .encRow s)
    let u : State := { s with bm := t.bm, em := [], eidx := 0 }
    s.ready ∧ Memory.wf s.bm ∧ Memory.wf s.em ∧ exec .encRow s = .next t ∧ t.status.fault = false ∧
      u.ready ∧ Memory.wf u.em ∧ u.bm = t.bm ∧ u.limit = s.limit ∧ u.cfg = s.cfg ∧
      u.blkw = s.blkw ∧ u.prev = s.prev ∧ u.bitpos = s.bitpos ∧
      u.eidx.toNat + s.blkw.toNat ≤ u.elim.toNat + 1 :=
  ⟨⟨rfl, rfl⟩, by decide +kernel, by decide +kernel, next_after (by decide +kernel), by decide +kernel,
    ⟨rfl, rfl⟩, by decide +kernel, rfl, rfl, rfl, rfl, rfl, rfl, by decide +kernel⟩

theorem witness_MarkerItemsProduceSegments :
    let s : State := { array [0xFF, 0xFD, 0xFF, 0x03, 0x22] 4 2 2 [] 4 1 with prev := 100, rem := 2 }
    let seg := Segment.constant 2 (-3)
    s.status.fault = false ∧ Memory.wf s.em ∧ s.codecLegal ∧
      s.eidx.toNat + s.rem.toNat ≤ s.elim.toNat ∧ (segmentDiffs seg).length ≤ s.rem.toNat ∧
      holdsBits s.bm (s.bitpos.toNat + 8) (segmentData s.ctx seg) ∧
      s.bitpos.toNat + (segmentBits s.ctx seg).length ≤ 8 * s.limit.toNat := by
  simp only [State.codecLegal, holdsBits]
  decide +kernel

/-- One element too many. -/
theorem witness_BadMarkersFault_item :
    let s : State := { array [0xFF] 1 2 2 [] 4 1 with rem := 1 }
    s.status.fault = false ∧ Memory.wf s.em ∧ s.codecLegal ∧
      s.eidx.toNat + s.rem.toNat ≤ s.elim.toNat ∧ s.bitpos.toNat + 8 ≤ 8 * s.limit.toNat ∧
      s.rem.toNat < (segmentDiffs (.constant 2 (-3))).length := by
  simp only [State.codecLegal]
  decide +kernel

/-- Markers 0, 4, 128 and 253 with 3 elements missing. -/
theorem witness_BadMarkersFault_row :
    ∀ m ∈ [((0 : BitVec 8), Cause.badMarker), (4, .runOverrun), (128, .runOverrun), (253, .runOverrun)],
    let s := array [m.1.toNat] 1 2 2 [] 4 1
    s.ready ∧ Memory.wf s.em ∧ s.codecLegal ∧ s.blkw ≠ 0 ∧
      s.eidx.toNat + s.blkw.toNat ≤ s.elim.toNat + 1 ∧
      rowMarkerFails s (s.blkw.toNat - 1) s.bitpos.toNat m.2 := by
  intro m hm
  refine ⟨⟨rfl, rfl⟩, ?_, ⟨?_, ?_⟩, ?_, ?_, [], m.1, _, by simp, ?_, ?_, rfl, ?_, ?_⟩
  all_goals simp only [List.mem_cons, List.not_mem_nil, or_false] at hm
  all_goals rcases hm with rfl | rfl | rfl | rfl
  all_goals simp only [markerFails, holdsBits]
  all_goals decide +kernel

/-- V-D3's first segment and then a marker for 2 with one element missing, the limit in the middle of its
codewords; the same after the raw element of a block. -/
theorem witness_BadMarkersFault_segments :
    let s := array [0xFF, 0xFD, 0xFF, 0x05] 5 2 2 [] 4 1
    let t := array [0x64, 0, 0xFF, 0xFD, 0xFF, 0x05] 7 2 2 [] 4 1
    (s.ready ∧ Memory.wf s.em ∧ s.codecLegal ∧ s.blkw ≠ 0 ∧
      s.eidx.toNat + s.blkw.toNat ≤ s.elim.toNat + 1 ∧
      rowMarkerFails s (s.blkw.toNat - 1) s.bitpos.toNat .runOverrun) ∧
    t.ready ∧ Memory.wf t.em ∧ t.codecLegal ∧ t.blkw ≠ 0 ∧
      t.eidx.toNat + t.blkw.toNat ≤ t.elim.toNat ∧ t.bitpos.toNat % 8 = 0 ∧ t.runLength = true ∧
      rowMarkerFails t (t.blkw.toNat - 1) (t.bitpos.toNat + t.w) .runOverrun := by
  have legal : ∀ seg ∈ [Segment.constant 2 (-3)], segmentLegal ⟨16, 2⟩ seg :=
    fun seg h => witness_DecRowAcceptsSegments_legal seg (by simp at h; simp [h])
  refine ⟨⟨⟨rfl, rfl⟩, by decide +kernel, ⟨rfl, by decide +kernel⟩, by decide +kernel, by decide +kernel,
    [.constant 2 (-3)], 2, _, legal, by decide, ?_, rfl, by decide +kernel, ?_⟩,
    ⟨rfl, rfl⟩, by decide +kernel, ⟨rfl, by decide +kernel⟩, by decide +kernel, by decide +kernel,
    by decide +kernel, by decide +kernel, [.constant 2 (-3)], 2, _, legal, by decide, ?_, rfl,
    by decide +kernel, ?_⟩
  all_goals simp only [markerFails, holdsBits]
  all_goals decide +kernel

/-- A stream whose second block begins with the marker 0, the last byte inside the limit. -/
theorem witness_BadMarkersFault_decode :
    let s := array [0, 0, 0, 0, 2, 0, 0, 0, 4, 0, 0, 0, 2, 2, 0x64, 0, 0xFF, 0xFD, 0xFF, 0x03, 0x22, 0x64, 0, 0]
      24 0 0 [] 4 2
    let u := s.withHeader 2 2
    s.ready ∧ Memory.wf s.em ∧ reachesBlock s 0 2 2 168 ∧ u.runLength = true ∧
      rowMarkerFails u (s.blkw.toNat - 1) (168 + s.w) .badMarker := by
  refine ⟨⟨rfl, rfl⟩, by decide +kernel, ⟨⟨by decide +kernel, ?_, by decide +kernel, by decide +kernel⟩,
    [runs ⟨16, 2⟩ 100 [.constant 2 (-3), .literal [5]]], fun b hb => ?_, by decide +kernel,
    by decide +kernel, by decide +kernel, ?_⟩, by decide +kernel, [], 0, _, by simp, by decide +kernel,
    .inl ⟨rfl, rfl⟩, rfl, by decide +kernel, ?_⟩
  · simp only [State.geometryLegal]
    decide +kernel
  · rw [List.mem_singleton.mp hb]
    refine runs_legal (c := ⟨16, 2⟩) ?_ fun seg h => witness_DecRowAcceptsSegments_legal seg ?_
    · simp only [isElem]
      decide +kernel
    · simp at h
      rcases h with h | h <;> simp [h]
  all_goals simp only [holdsStream, holdsBlocks, holdsBits, holdsBelow]
  all_goals decide +kernel

theorem witness_LitDiffItemTakesDifference :
    let s : State := { array [0, 0, 0] 3 2 2 [] 4 1 with rem := 4, bitpos := 7 }
    s.status.fault = false ∧ s.codecLegal ∧ s.eidx.toNat + s.rem.toNat ≤ s.elim.toNat ∧
      s.bitpos.toNat + (s.w + 1) ≤ 8 * s.limit.toNat := by
  simp only [State.codecLegal]
  decide +kernel

/-- Room for exactly the header, and one byte less. -/
theorem witness_WrHeaderStoresHeader :
    let s := array [] 14 1 1 [] 4 2
    let t := array [] 13 1 1 [] 4 2
    s.ready ∧ Memory.wf s.bm ∧ s.codecLegal ∧ s.geometryLegal ∧ 14 ≤ s.limit.toNat ∧
      t.ready ∧ Memory.wf t.bm ∧ t.codecLegal ∧ t.geometryLegal ∧ t.limit.toNat < 14 := by
  simp only [State.ready, State.codecLegal, State.geometryLegal]
  decide +kernel

/-- A slice width of `W`. -/
theorem witness_RdHeaderLoadsHeader :
    let s := array [14, 0, 0, 0, 0, 0, 0, 0, 3, 0, 0, 0, 16, 2] 14 0 5 [] 3 0
    s.ready ∧ typeReserved s.cfg.typ = false ∧ s.geometryLegal ∧ 14 ≤ s.limit.toNat ∧
      (Instr.hdr 14 s.blkc s.blkw 16 2).wf s.ctx = true ∧ tagWidth ((2 : BitVec 8).truncate 3) = s.w ∧
      holdsBits s.bm 0 (encode s.ctx (.hdr 14 s.blkc s.blkw 16 2)) := by
  simp only [State.ready, State.geometryLegal, holdsBits]
  decide +kernel

theorem witness_RdHeaderRefusesInOrder_short :
    let s := array [] 13 0 5 [] 3 0
    s.ready ∧ typeReserved s.cfg.typ = false ∧ s.geometryLegal ∧ s.limit.toNat < 14 ∧
      Memory.wf s.em := by
  simp only [State.ready, State.geometryLegal]
  decide +kernel

/-- A reserved tag before a wrong width, a wrong block width before a wrong slice, a slice of `W + 1`. -/
theorem witness_RdHeaderRefusesInOrder_fields :
    ∀ h ∈ [((4 : BitVec 32), (17 : BitVec 8), (5 : BitVec 8), Cause.badType),
      (4, 17, 2, .headerMismatch), (3, 16, 1, .headerMismatch), (3, 17, 2, .badSlice)],
    let s := array [14, 0, 0, 0, 0, 0, 0, 0, h.1.toNat, 0, 0, 0, h.2.1.toNat, h.2.2.1.toNat] 14 0 5 [] 3 0
    s.ready ∧ typeReserved s.cfg.typ = false ∧ s.geometryLegal ∧
      (if s.limit.toNat < 14 then h.2.2.2 = .readPastEnd
       else holdsBits s.bm 0 (encode s.ctx (.hdr 14 0 h.1 h.2.1 h.2.2.1)) ∧
         if tagByteReserved h.2.2.1 = true then h.2.2.2 = .badType
         else if tagWidth (h.2.2.1.truncate 3) ≠ s.w ∨ 0 ≠ s.blkc ∨ h.1 ≠ s.blkw then
           h.2.2.2 = .headerMismatch
         else tagWidth (h.2.2.1.truncate 3) < h.2.1.toNat ∧ h.2.2.2 = .badSlice) ∧
      Memory.wf s.em := by
  simp only [State.ready, State.geometryLegal, holdsBits]
  decide +kernel

/-- The block fills the memory and the element limit, in both modes; and one byte less of room. -/
theorem witness_EncBlockStoresBlock :
    ∀ m ∈ [(1, 17, true), (3, 18, true), (1, 16, false), (3, 17, false)],
    let s : State := { array [] m.2.1 m.1 1 [10, 12, 11, 11] 4 1 with bitpos := 112 }
    s.ready ∧ Memory.wf s.bm ∧ s.codecLegal ∧ s.blkw ≠ 0 ∧
      s.eidx.toNat + s.blkw.toNat ≤ s.elim.toNat ∧ s.bitpos.toNat % 8 = 0 ∧
      (s.bitpos.toNat + (blockBits s.ctx s.runLength (elemsAt s s.blkw.toNat)).length ≤
        8 * s.limit.toNat ↔ m.2.2 = true) := by
  simp only [State.ready, State.codecLegal]
  decide +kernel

/-- P3's second block with its pad bits set; a plain block whose sum wraps from 127 to -128; V-D3's
segments, which the encoder would not write, in a run-length block. -/
theorem witness_DecBlockReadsBlock :
    (∀ x ∈ [({ array (g5.dropLast ++ [0xE9]) 24 1 1 [] 4 2 with bitpos := 136, eidx := 4 },
        plain ⟨8, 1⟩ (-128) [255, 0, 0]),
        (array [0x7F, 0xFF] 2 1 1 [] 2 1, plain ⟨8, 1⟩ 127 [1])],
      let s : State := x.1
      s.ready ∧ Memory.wf s.em ∧ s.codecLegal ∧ s.eidx.toNat + s.blkw.toNat ≤ s.elim.toNat ∧
        s.bitpos.toNat % 8 = 0 ∧ x.2.legal s.ctx s.runLength s.blkw.toNat ∧
        holdsBits s.bm s.bitpos.toNat (x.2.body s.ctx) ∧
        s.bitpos.toNat + (x.2.body s.ctx).length ≤ 8 * s.limit.toNat) ∧
    let s := array [0x64, 0, 0xFF, 0xFD, 0xFF, 0x03, 0x22] 7 2 2 [] 4 1
    let b := runs ⟨16, 2⟩ 100 [.constant 2 (-3), .literal [5]]
    s.ready ∧ Memory.wf s.em ∧ s.codecLegal ∧ s.eidx.toNat + s.blkw.toNat ≤ s.elim.toNat ∧
      s.bitpos.toNat % 8 = 0 ∧ b.legal s.ctx s.runLength s.blkw.toNat ∧
      holdsBits s.bm s.bitpos.toNat (b.body s.ctx) ∧
      s.bitpos.toNat + (b.body s.ctx).length ≤ 8 * s.limit.toNat := by
  constructor
  · intro x hx
    simp only [List.mem_cons, List.not_mem_nil, or_false] at hx
    rcases hx with rfl | rfl
    all_goals
      refine ⟨⟨rfl, rfl⟩, by decide +kernel, ⟨rfl, by decide +kernel⟩, by decide +kernel,
        by decide +kernel, plain_legal (c := ⟨8, 1⟩) ?_, ?_, by decide +kernel⟩
      all_goals simp only [codable, isElem, holdsBits]
      all_goals decide +kernel
  · refine ⟨⟨rfl, rfl⟩, by decide +kernel, ⟨rfl, by decide +kernel⟩, by decide +kernel,
      by decide +kernel, runs_legal (c := ⟨16, 2⟩) ?_ fun seg h => ?_, ?_, by decide +kernel⟩
    · simp only [isElem]
      decide +kernel
    · refine witness_DecRowAcceptsSegments_legal seg ?_
      simp at h
      rcases h with h | h <;> simp [h]
    · simp only [holdsBits]
      decide +kernel

/-- An unaligned cursor; a limit of 3; a cursor beyond the limit; the cursor at the limit. -/
theorem witness_PatchSizeStoresTotal :
    (∀ x ∈ [(29, 113), (3, 16), (29, 240), (29, 232)],
      (cursor [] x.1 x.2).ready ∧ Memory.wf (cursor [] x.1 x.2).bm) ∧
      (cursor [] 29 113).bitpos.toNat % 8 ≠ 0 ∧
      (¬(cursor [] 3 16).bitpos.toNat % 8 ≠ 0 ∧ (cursor [] 3 16).limit.toNat < 4) ∧
      (¬(cursor [] 29 240).bitpos.toNat % 8 ≠ 0 ∧
        8 * (cursor [] 29 240).limit.toNat < (cursor [] 29 240).bitpos.toNat) ∧
      ¬(cursor [] 29 232).bitpos.toNat % 8 ≠ 0 ∧
      ¬((cursor [] 29 232).limit.toNat < 4 ∨
        8 * (cursor [] 29 232).limit.toNat < (cursor [] 29 232).bitpos.toNat) := by
  simp only [State.ready]
  decide +kernel

/-- S4: room for exactly the stream, and one byte less; and an empty stream. -/
theorem witness_EncodeStoresStream :
    ∀ c ∈ [(29, 1), (28, 1), (14, 0)],
    let s := array (List.replicate 30 0xEE) c.1 2 2 row7 9 c.2
    s.ready ∧ Memory.wf s.bm ∧ s.codecLegal ∧ s.geometryLegal ∧
      (if c.1 = 28 then s.limit.toNat < streamBytes (blocksBits s.ctx s.runLength s.rows)
       else streamBytes (blocksBits s.ctx s.runLength s.rows) ≤ s.limit.toNat) := by
  simp only [State.ready, State.codecLegal, State.geometryLegal]
  decide +kernel

/-- P3's stream with all its pad bits set, and the same with a wrong total size. -/
theorem witness_DecodeReadsStream :
    ∀ b ∈ [24, 23],
    let blocks := [plain ⟨8, 1⟩ 10 [2, -1, 0], plain ⟨8, 1⟩ (-128) [255, 0, 0]]
    let s := array (b :: g5.tail.take 15 ++ [0xFF] ++ (g5.drop 17).dropLast ++ [0xE9]) 24 1 0 [] 4 2
    let u := s.withHeader 1 1
    s.ready ∧ Memory.wf s.em ∧ headerAccepted s (BitVec.ofNat 32 b) 1 1 ∧
      streamBytes (blocks.flatMap (CodedBlock.bits u.ctx)) ≤ s.limit.toNat ∧
      blocks.length = s.blkc.toNat ∧ (∀ b ∈ blocks, b.legal u.ctx u.runLength s.blkw.toNat) ∧
      holdsStream s.bm (8 * s.limit.toNat) u.ctx (.hdr (BitVec.ofNat 32 b) s.blkc s.blkw 1 1)
        blocks := by
  intro b hb
  have legal : ∀ x ∈ [plain ⟨8, 1⟩ 10 [2, -1, 0], plain ⟨8, 1⟩ (-128) [255, 0, 0]],
      x.legal ⟨8, 1⟩ false 4 := by
    intro x hx
    simp only [List.mem_cons, List.not_mem_nil, or_false] at hx
    rcases hx with rfl | rfl <;> refine plain_legal ?_ <;> simp only [codable, isElem] <;>
      decide +kernel
  simp only [List.mem_cons, List.not_mem_nil, or_false] at hb
  rcases hb with rfl | rfl <;>
    refine ⟨⟨rfl, rfl⟩, by decide +kernel, ?_, by decide +kernel, by decide +kernel, legal, ?_⟩ <;>
    simp only [headerAccepted, State.geometryLegal, holdsStream, holdsBlocks, holdsBelow] <;>
    decide +kernel

/-- V-H: one byte short; the header alone; the header one byte short; other bytes stand beyond the
limit. -/
theorem witness_DecodeOfCutStreamReadsPastEnd :
    ∀ n ∈ [28, 14, 13],
    let blocks := [runs ⟨16, 2⟩ 100 [.literal [2, 2, -1], .constant 4 0, .literal [97]]]
    let s := array (g1.take n ++ [0xA5]) n 0 0 [] 9 1
    let u := s.withHeader 2 2
    s.ready ∧ Memory.wf s.em ∧ headerAccepted s 29 2 2 ∧
      s.limit.toNat < streamBytes (blocks.flatMap (CodedBlock.bits u.ctx)) ∧
      blocks.length = s.blkc.toNat ∧ (∀ b ∈ blocks, b.legal u.ctx u.runLength s.blkw.toNat) ∧
      holdsStream s.bm (8 * s.limit.toNat) u.ctx (.hdr 29 s.blkc s.blkw 2 2) blocks := by
  intro n hn
  have legal : ∀ x ∈ [runs ⟨16, 2⟩ 100 [.literal [2, 2, -1], .constant 4 0, .literal [97]]],
      x.legal ⟨16, 2⟩ true 9 := by
    intro x hx
    rw [List.mem_singleton.mp hx]
    refine runs_legal ?_ fun seg h => ?_
    · simp only [isElem]
      decide +kernel
    · simp only [List.mem_cons, List.not_mem_nil, or_false] at h
      rcases h with rfl | rfl | rfl <;> simp only [segmentLegal, codable, isElem] <;> decide +kernel
  simp only [List.mem_cons, List.not_mem_nil, or_false] at hn
  rcases hn with rfl | rfl | rfl <;>
    refine ⟨⟨rfl, rfl⟩, by decide +kernel, ?_, by decide +kernel, by decide +kernel, legal, ?_⟩ <;>
    simp only [headerAccepted, State.geometryLegal, holdsStream, holdsBlocks, holdsBelow] <;>
    decide +kernel

theorem witness_EncodeIsHostLoop :
    let s := array [] 29 2 2 row7 9 1
    s.ready ∧ exec .encode s = .next (after (exec .encode s)) ∧
      (after (exec .encode s)).status.fault = false :=
  ⟨⟨rfl, rfl⟩, next_after (by decide +kernel), by decide +kernel⟩

theorem witness_DecodeIsHostLoop :
    let s := array g1 29 0 0 [] 9 1
    s.ready ∧ exec .decode s = .next (after (exec .decode s)) ∧
      (after (exec .decode s)).status.fault = false :=
  ⟨⟨rfl, rfl⟩, next_after (by decide +kernel), by decide +kernel⟩

theorem witness_StreamRoundTrip :
    let s := array [] 29 2 2 row7 9 1
    let t := after (exec .encode s)
    let u := array (g1 ++ [0x55]) 30 0 7 [] 9 1
    s.ready ∧ Memory.wf s.bm ∧ exec .encode s = .next t ∧ t.status.fault = false ∧ u.ready ∧
      Memory.wf u.em ∧ (∀ a, a < t.total.toNat → Memory.read u.bm a = Memory.read t.bm a) ∧
      u.blkw = s.blkw ∧ u.blkc = s.blkc ∧ typeReserved u.cfg.typ = false ∧ u.w = s.w ∧
      t.total.toNat ≤ u.limit.toNat ∧ s.blkw.toNat * s.blkc.toNat ≤ u.elim.toNat :=
  ⟨⟨rfl, rfl⟩, by decide +kernel, next_after (by decide +kernel), by decide +kernel, ⟨rfl, rfl⟩,
    by decide +kernel, by decide +kernel, rfl, rfl, rfl, rfl, by decide +kernel, by decide +kernel⟩

theorem witness_HeaderItemLoads :
    let s := array [] 14 0 5 [] 3 0
    s.status.fault = false ∧ typeReserved s.cfg.typ = false ∧ s.geometryLegal ∧ 14 ≤ s.limit.toNat ∧
      (Instr.hdr 14 s.blkc s.blkw 16 2).wf s.ctx = true ∧
      tagWidth ((2 : BitVec 8).truncate 3) = s.w := by
  simp only [State.geometryLegal]
  decide +kernel

theorem witness_RawItemProducesElement :
    let s : State := { array [] 2 1 1 [] 4 1 with bitpos := 8 }
    s.status.fault = false ∧ Memory.wf s.em ∧ s.codecLegal ∧ s.blkw ≠ 0 ∧
      s.eidx.toNat + s.blkw.toNat ≤ s.elim.toNat ∧ s.bitpos.toNat % 8 = 0 ∧
      s.bitpos.toNat + s.w ≤ 8 * s.limit.toNat := by
  simp only [State.codecLegal]
  decide +kernel

theorem witness_TagItemsSelectWidth :
    let s : State := { array [] 14 1 0 [] 3 0 with bitpos := 104 }
    s.status.fault = false ∧ typeReserved s.cfg.typ = false ∧
      s.bitpos.toNat + 8 ≤ 8 * s.limit.toNat ∧
      (Instr.tag3, 3#3, 8) ∈ [(Instr.tag0, 0#3, 16), (.tag1, 1#3, 8), (.tag2, 2#3, 16),
        (.tag3, 3#3, 8), (.tag4, 4#3, 32), (.tag6, 6#3, 32)] ∧ s.w = 8 ∧ s.w ≠ 16 ∧
      (Instr.tagReserved 5).wf s.ctx = true := by
  decide +kernel

end Sys2Proof.Tests
end

section
/-! The machine between commands (00_scope.md R5, 10_state.md R22, R42, 60_exceptions.md R210, R226):
how every command ends, that every step keeps `State.Inv`, and what a step is. -/

namespace Sys2Proof.Machine

/-! ## The canonical form of the memories -/

/-- From `s` to `t` both memories stay canonical. -/
def KeepsWf (s t : State) : Prop :=
  MemoriesWf s → MemoriesWf t

theorem KeepsWf.refl (s : State) : KeepsWf s s := id

theorem KeepsWf.of_eq {s t : State} (hbm : t.bm = s.bm) (hem : t.em = s.em) : KeepsWf s t := by
  unfold KeepsWf MemoriesWf
  rw [hbm, hem]
  exact id

theorem KeepsWf.trans (s t r : State) (h : KeepsWf s t) (g : KeepsWf t r) : KeepsWf s r :=
  g ∘ h

/-- An operation that stores to no element cell keeps the canonical form (`Keeps`). -/
theorem KeepsWf.of_keeps {u : Touch} {s t : State} (h : Keeps u s t) (hu : u.cells = false) :
    KeepsWf s t :=
  fun ⟨hbm, hem⟩ => ⟨h.wf hbm, by rw [h.em hu]; exact hem⟩

theorem KeepsWf.andThen {α β : Type} {r : Res α} {f : α → State → Res β} {s : State}
    (h : KeepsWf s r.state) (hf : ∀ a t, KeepsWf t (f a t).state) :
    KeepsWf s (r.andThen f).state :=
  Res.andThen_rel KeepsWf.trans h fun a t _ => hf a t

theorem KeepsWf.times {f : State → Res Unit} (hf : ∀ s, KeepsWf s (f s).state) (n : Nat)
    (s : State) : KeepsWf s (Res.times f n s).state :=
  Res.times_rel KeepsWf.refl KeepsWf.trans hf n s

/-! ### Operations that store elements -/

theorem produce_keepsWf (x : Int) (s : State) : KeepsWf s (produce x s) :=
  fun ⟨hbm, hem⟩ => ⟨hbm, elemWrite_wf hem _ _⟩

theorem readField_keepsWf (n : Nat) (s : State) : KeepsWf s (readField n s).state :=
  .of_keeps (u := {}) (readField_keeps n s) rfl

theorem decCodeword_keepsWf (s : State) : KeepsWf s (decCodeword s).state :=
  .of_keeps (u := {}) (decCodeword_keeps s) rfl

theorem checkCount_keepsWf (c : Nat) (s : State) : KeepsWf s (checkCount c s).state :=
  .of_keeps (u := {}) (checkCount_keeps c s) rfl

theorem decElem_keepsWf (s : State) : KeepsWf s (decElem s).state :=
  .andThen (decCodeword_keepsWf s) fun _ t => produce_keepsWf _ t

theorem literalRun_keepsWf (c : Nat) (s : State) : KeepsWf s (literalRun c s).state :=
  .andThen (checkCount_keepsWf c s) fun _ t =>
    .andThen (.times decElem_keepsWf c t) fun _ _ => .of_eq rfl rfl

theorem repeatedRun_keepsWf (c : Nat) (s : State) : KeepsWf s (repeatedRun c s).state :=
  .andThen (checkCount_keepsWf c s) fun _ t =>
    .andThen (.of_keeps (u := {}) (decLitDiff_keeps t) rfl) fun _ t =>
      .andThen (.times (f := fun s => .ok () (produce s.nextElem s))
        (fun s => produce_keepsWf s.nextElem s) c t) fun _ _ => .of_eq rfl rfl

theorem afterMarker_keepsWf (b : Nat) (s : State) : KeepsWf s (afterMarker b s).state := by
  unfold afterMarker
  split
  · exact .refl s
  · split
    · exact literalRun_keepsWf b s
    · split <;> exact repeatedRun_keepsWf _ s

theorem decSegments_keepsWf (fuel : Nat) (s : State) : KeepsWf s (decSegments fuel s).state := by
  induction fuel generalizing s with
  | zero => exact .refl s
  | succ fuel ih =>
    rw [decSegments]
    split
    · exact .refl s
    · exact .andThen (.andThen (readField_keepsWf 8 s) fun b t => afterMarker_keepsWf b t)
        fun _ t => ih t

theorem decRow_keepsWf (n : Nat) (s : State) : KeepsWf s (decRow n s).state :=
  .andThen (decSegments_keepsWf n { s with rem := BitVec.ofNat 32 n }) fun _ _ => .of_eq rfl rfl

theorem decBlock_keepsWf (s : State) : KeepsWf s (decBlock s).state := by
  refine .andThen (.andThen (readField_keepsWf s.w s) fun _ t => produce_keepsWf _ t) fun _ t => ?_
  refine .andThen ?_ fun _ _ => .of_eq rfl rfl
  split
  · exact decRow_keepsWf _ t
  · exact .times decElem_keepsWf _ t

theorem decodeStream_keepsWf (s : State) : KeepsWf s (decodeStream s).state := by
  refine .andThen (.of_keeps (rdHeader_keeps s) rfl) fun _ t => ?_
  refine .andThen (.times decBlock_keepsWf _ t) fun _ t => ?_
  unfold checkSize
  split <;> exact .refl t

/-! ### Faults and reset -/

theorem unspecify_keepsWf (u : Unspec) (s r : State) : KeepsWf s (unspecify u s r) := by
  rintro ⟨hbm, hem⟩
  refine ⟨?_, freeCells_wf hem _ _ _⟩
  unfold unspecify
  dsimp only
  split
  · exact freeBytes_wf hbm _ _ _
  · exact hbm

theorem faultState_keepsWf (u : Option Unspec) (c : Cause) {s r : State} (h : KeepsWf s r) :
    KeepsWf s (faultState u c s r) := by
  cases u with
  | none => exact .refl s
  | some u =>
    by_cases hc : c = .sizeMismatch
    · rw [hc, faultState_sizeMismatch]
      exact h
    · rw [faultState_imprecise u hc]
      exact unspecify_keepsWf u s r

theorem abandonCommand_keepsWf (s : State) : KeepsWf s (abandonCommand s) := by
  rcases abandonCommand_cases s with e | ⟨i, -, -, e⟩ <;> rw [e]
  · exact .refl s
  · exact fun h => spoilMemory_wf h i

theorem runCommand_keepsWf {i : Instr} {u : Option Unspec} {body : State → Res Unit} {s t : State}
    (hb : ∀ s, KeepsWf s (body s).state) (h : runCommand i u body s = .next t) : KeepsWf s t := by
  have hbody : KeepsWf s (body (start i s)).state := hb (start i s)
  rcases runCommand_cases h with ⟨-, rfl⟩ | ⟨-, c, -, rfl⟩ | ⟨-, -, r, hr, rfl⟩ |
    ⟨-, -, c, r, hr, rfl⟩
  case inl => exact .refl _
  case inr.inl => exact .refl s
  case inr.inr.inl =>
    rw [hr] at hbody
    exact hbody
  case inr.inr.inr =>
    rw [hr] at hbody
    exact faultState_keepsWf u c hbody

/-! ## How a command ends -/

/-- No command is running, STATUS is legal and the hidden temporaries are dead. -/
def State.CommandOver (s : State) : Prop :=
  s.status.busy = false ∧ s.running = none ∧ s.status.legal ∧ s.acc = 0 ∧ s.rem = 0

theorem State.inv_iff {s : State} : s.Inv ↔ s.CommandOver ∧ MemoriesWf s := by
  simp only [State.Inv, State.CommandOver, MemoriesWf, and_assoc]

theorem complete_commandOver (s : State) : (complete s).CommandOver :=
  ⟨rfl, rfl, ⟨rfl, rfl⟩, rfl, rfl⟩

theorem takeFault_commandOver (c : Cause) (s : State) : (takeFault c s).CommandOver :=
  ⟨rfl, rfl, ⟨c, rfl, rfl⟩, rfl, rfl⟩

/-- Whatever an operation's fault leaves unspecified, fault entry is the last thing to happen. -/
theorem faultState_commandOver (u : Option Unspec) (c : Cause) (s r : State) :
    (faultState u c s r).CommandOver := by
  cases u with
  | none => exact takeFault_commandOver c s
  | some u =>
    unfold faultState
    dsimp only
    split <;> exact takeFault_commandOver c _

/-- A command that the engine accepts ends: by a fault of its opening checks, by completing, or by a
fault of its body. -/
theorem runCommand_commandOver {i : Instr} {u : Option Unspec} {body : State → Res Unit}
    {s t : State} (ha : accepts s = true) (h : runCommand i u body s = .next t) :
    t.CommandOver := by
  rcases runCommand_cases h with ⟨hn, -⟩ | ⟨-, c, -, rfl⟩ | ⟨-, -, r, -, rfl⟩ |
    ⟨-, -, c, r, -, rfl⟩
  case inl => rw [ha] at hn; cases hn
  case inr.inl => exact takeFault_commandOver c s
  case inr.inr.inl => exact complete_commandOver r
  case inr.inr.inr => exact faultState_commandOver u c s r

/-! ## What `exec` runs -/

/-- Every command but CLR_FAULT is `runCommand` of a body that keeps the memories canonical. -/
theorem exec_command {i : Instr} (hi : isCommand i = true) (hc : i ≠ .clrFault) :
    ∃ u body, (∀ s, exec i s = runCommand i u body s) ∧ ∀ s, KeepsWf s (body s).state := by
  cases i <;> dsimp only [exec]
  case clrFault => exact absurd rfl hc
  case writeBits | setBit =>
    refine ⟨_, _, fun _ => rfl, fun s => ?_⟩
    exact .of_keeps (writeField_keeps _ _ s) rfl
  case alignWr =>
    refine ⟨_, _, fun _ => rfl, fun s => ?_⟩
    exact .of_keeps (alignWrite_keeps s) rfl
  case encCw =>
    refine ⟨_, _, fun _ => rfl, fun s => ?_⟩
    exact .of_keeps (encCodeword_keeps _ s) rfl
  case encDiff =>
    refine ⟨_, _, fun _ => rfl, fun s => ?_⟩
    exact .andThen (.of_keeps (encCodeword_keeps _ s) rfl) fun _ _ => .of_eq rfl rfl
  case encRow =>
    refine ⟨_, _, fun _ => rfl, fun s => ?_⟩
    exact .of_keeps (encRow_keeps _ s) rfl
  case wrHeader => exact ⟨_, wrHeader, fun _ => rfl, fun s => .of_keeps (wrHeader_keeps s) rfl⟩
  case rdHeader => exact ⟨_, rdHeader, fun _ => rfl, fun s => .of_keeps (rdHeader_keeps s) rfl⟩
  case encBlock => exact ⟨_, encBlock, fun _ => rfl, fun s => .of_keeps (encBlock_keeps s) rfl⟩
  case patchSize =>
    exact ⟨_, patchSize, fun _ => rfl, fun s => .of_keeps (patchSize_keeps s) rfl⟩
  case encode =>
    exact ⟨_, encodeStream, fun _ => rfl, fun s => .of_keeps (encodeStream_keeps s) rfl⟩
  case readBits =>
    refine ⟨_, _, fun _ => rfl, fun s => ?_⟩
    exact .andThen (readField_keepsWf _ s) fun _ _ => .of_eq rfl rfl
  case scanZeros =>
    refine ⟨_, _, fun _ => rfl, fun s => ?_⟩
    exact .andThen (.of_keeps (u := {}) (scanZeros_keeps _ s) rfl) fun _ _ => .of_eq rfl rfl
  case decCw | decDiff =>
    refine ⟨_, _, fun _ => rfl, fun s => ?_⟩
    exact .andThen (decCodeword_keepsWf s) fun _ _ => .of_eq rfl rfl
  case decRow =>
    refine ⟨_, _, fun _ => rfl, fun s => ?_⟩
    exact decRow_keepsWf _ s
  case decBlock => exact ⟨_, decBlock, fun _ => rfl, decBlock_keepsWf⟩
  case decode => exact ⟨_, decodeStream, fun _ => rfl, decodeStream_keepsWf⟩
  case alignRd | cmdReserved =>
    refine ⟨_, _, fun _ => rfl, fun s => ?_⟩
    exact .of_eq rfl rfl
  all_goals cases hi

/-- Every stream item is a `runItem`. -/
theorem exec_item {i : Instr} (hi : isCommand i = false) :
    ∃ u check body, ∀ s, exec i s = runItem u check body s := by
  cases i <;> dsimp only [exec]
  case hdr | raw | cwUnary | cwEscape | markReserved | markContinued | markLiteral | markConstant
      | litDiff | pad | tag0 | tag1 | tag2 | tag3 | tag4 | tag6 | tagReserved =>
    exact ⟨_, _, _, fun _ => rfl⟩
  all_goals cases hi

/-- CLR_FAULT (R38, R229). -/
theorem exec_clrFault (s : State) :
    exec .clrFault s = .next (if s.status.busy then s else returnFromFault s) := by
  rw [apply_ite Host.Outcome.next]
  rfl

/-- Every instruction answers a next state. -/
theorem exec_next (i : Instr) (s : State) : ∃ t, exec i s = .next t := by
  cases hi : isCommand i with
  | true =>
    by_cases hc : i = .clrFault
    · exact ⟨_, by rw [hc, exec_clrFault]⟩
    · obtain ⟨u, body, hrun, -⟩ := exec_command hi hc
      rw [hrun]
      exact runCommand_next i u body s
  | false =>
    obtain ⟨u, check, body, hrun⟩ := exec_item hi
    rw [hrun]
    exact runItem_next u check body s

/-- A command that the engine accepts ends (R210). -/
theorem exec_commandOver {i : Instr} {s t : State} (hi : isCommand i = true) (hc : i ≠ .clrFault)
    (hs : s.ready) (h : exec i s = .next t) : t.CommandOver := by
  obtain ⟨u, body, hrun, -⟩ := exec_command hi hc
  rw [hrun] at h
  exact runCommand_commandOver (accepts_of_ready hs) h

/-- Settles O16: the shape of each arm of `exec` gives the next state, and the last thing an accepted
command does is `complete` or `takeFault`. -/
theorem everyCommandEnds : Obligations.EveryCommandEnds := by
  intro i s
  obtain ⟨t, ht⟩ := exec_next i s
  exact ⟨t, ht, fun hi hc hs => exec_commandOver hi hc hs ht⟩

/-! ## What the host's actions do -/

/-- A write to CMD is the one host action that runs a command to its end (R100). -/
theorem hostAction_write_cmd (v : Word64) (s : State) :
    hostAction (.write 0 v) s = exec (decodeCommand v) s :=
  rfl

theorem hostAction_write_register {n : BitVec 4} (hn : n ≠ 0) (v : Word64) (s : State) :
    hostAction (.write n v) s = .next (hostWrite n v s) :=
  if_neg hn

section Idle

/-! While BUSY = 0 both memories are the host's (R63, R104). -/

variable {s : State} (hs : s.status.busy = false)
include hs

theorem hostAction_setByte_idle (a : Nat) (b : Byte) :
    hostAction (.setByte a b) s = .next { s with bm := Memory.write s.bm a b } :=
  if_pos (by simp [mayTouchByte, hs])

theorem hostAction_getByte_idle (a : Nat) :
    hostAction (.getByte a) s = .next (reply ((Memory.read s.bm a).setWidth 64) s) :=
  if_pos (by simp [mayTouchByte, hs])

theorem hostAction_setElem_idle (i : Nat) (x : Elem) :
    hostAction (.setElem i x) s = .next { s with em := Memory.write s.em i x } :=
  if_pos (by simp [mayTouchElem, hs])

theorem hostAction_getElem_idle (i : Nat) :
    hostAction (.getElem i) s = .next (reply ((Memory.read s.em i).setWidth 64) s) :=
  if_pos (by simp [mayTouchElem, hs])

end Idle

/-! ## What keeps the invariant -/

/-- A CMD write starts a command of R101 or a reserved opcode, never a stream item (R102). -/
theorem isCommand_decodeCommand (v : Word64) : isCommand (decodeCommand v) = true := by
  have table : ∀ p ∈ commandTable, isCommand p.2 = true := by decide
  unfold decodeCommand decodeOpcode
  split
  case h_1 i hi =>
    obtain ⟨l, r, hl, -⟩ := List.lookup_eq_some_iff.mp hi
    exact table (v.truncate 8, i) (by rw [hl]; simp)
  case h_2 => rfl

theorem returnFromFault_inv {s : State} (h : s.Inv) : (returnFromFault s).Inv := by
  obtain ⟨hbusy, hrunning, -, hacc, hrem, hbm, hem⟩ := h
  exact ⟨hbusy, hrunning, ⟨rfl, rfl⟩, hacc, hrem, hbm, hem⟩

/-- A CMD write that is not accepted changes nothing; a command that is accepted ends. -/
theorem exec_inv {i : Instr} {s t : State} (hi : isCommand i = true) (h : s.Inv)
    (ht : exec i s = .next t) : t.Inv := by
  by_cases hc : i = .clrFault
  · rw [hc, exec_clrFault, h.1] at ht
    cases ht
    exact returnFromFault_inv h
  · obtain ⟨u, body, hrun, hbody⟩ := exec_command hi hc
    rw [hrun] at ht
    cases ha : accepts s with
    | false =>
      rw [runCommand_ignored ha] at ht
      cases ht
      exact h
    | true =>
      exact State.inv_iff.mpr
        ⟨runCommand_commandOver ha ht, runCommand_keepsWf hbody ht (State.inv_iff.mp h).2⟩

/-- The host's registers are no part of the invariant but for STATUS, which it cannot write (R20,
R37). -/
theorem hostWrite_inv {s : State} (h : s.Inv) (n : BitVec 4) (v : Word64) :
    (hostWrite n v s).Inv := by
  unfold hostWrite
  split
  · exact h
  · unfold writeRegister
    split <;> exact h

theorem hostRead_inv {s : State} (h : s.Inv) (n : BitVec 4) : (hostRead n s).Inv := by
  unfold hostRead
  split <;> exact h

/-- The memories are replaced by canonical ones. -/
theorem setMemories_inv {s : State} (h : s.Inv) {bm : Memory 8} {em : Memory 32}
    (hm : Memory.wf bm ∧ Memory.wf em) : ({ s with bm := bm, em := em } : State).Inv := by
  obtain ⟨hbusy, hrunning, hlegal, hacc, hrem, -, -⟩ := h
  exact ⟨hbusy, hrunning, hlegal, hacc, hrem, hm⟩

/-- Reset leaves no command, no temporary and no fault, and canonical memories (R240). -/
theorem hostReset_inv {s : State} (h : MemoriesWf s) : (hostReset s).Inv := by
  obtain ⟨hbm, hem⟩ := abandonCommand_keepsWf s h
  rw [hostReset_eq]
  exact ⟨rfl, rfl, ⟨rfl, rfl⟩, rfl, rfl, hbm, hem⟩

theorem hostWriteThenReset_inv {s : State} (h : MemoriesWf s) (i : Instr) :
    (hostWriteThenReset i s).Inv := by
  unfold hostWriteThenReset
  split
  · exact hostReset_inv (s := start i s) h
  · exact hostReset_inv h

/-- Every action of the host keeps the invariant. -/
theorem hostAction_inv {a : HostAct} {s t : State} (h : s.Inv) (ht : hostAction a s = .next t) :
    t.Inv := by
  obtain ⟨-, hbm, hem⟩ := State.inv_iff.mp h
  cases a with
  | write n v =>
    by_cases hn : n = 0
    · rw [hn, hostAction_write_cmd] at ht
      exact exec_inv (isCommand_decodeCommand v) h ht
    · rw [hostAction_write_register hn] at ht
      cases ht
      exact hostWrite_inv h n v
  | read n =>
    cases ht
    exact hostRead_inv h n
  | setByte a b =>
    rw [hostAction_setByte_idle h.1] at ht
    cases ht
    exact setMemories_inv h ⟨Memory.write_wf hbm a b, hem⟩
  | getByte a =>
    rw [hostAction_getByte_idle h.1] at ht
    cases ht
    exact h
  | setElem i x =>
    rw [hostAction_setElem_idle h.1] at ht
    cases ht
    exact setMemories_inv h ⟨hbm, Memory.write_wf hem i x⟩
  | getElem i =>
    rw [hostAction_getElem_idle h.1] at ht
    cases ht
    exact h
  | reset =>
    cases ht
    exact hostReset_inv ⟨hbm, hem⟩
  | writeThenReset v =>
    cases ht
    exact hostWriteThenReset_inv ⟨hbm, hem⟩ _

/-! ## One step -/

/-- The engine waits for the host (R240). -/
theorem step_nil {s : State} (h : s.hostQueue = []) : step s = .next s := by
  unfold step
  rw [h]

theorem step_cons {s : State} {a : HostAct} {rest : List HostAct} (h : s.hostQueue = a :: rest) :
    step s = hostAction a { s with hostQueue := rest } := by
  unfold step
  rw [h]

/-- Settles O5: `State.Inv` says nothing of the queue, and each host action keeps it. -/
theorem stepKeepsInvariant : Obligations.StepKeepsInvariant := by
  intro s t hs ht
  cases hq : s.hostQueue with
  | nil =>
    rw [step_nil hq] at ht
    cases ht
    exact hs
  | cons a rest =>
    rw [step_cons hq] at ht
    exact hostAction_inv (s := { s with hostQueue := rest }) hs ht

/-- Settles O9, by the two equations of `step` and that of a write to CMD. -/
theorem stepRunsDecodedCommand : Obligations.StepRunsDecodedCommand :=
  ⟨fun _ v _ h => (step_cons h).trans (hostAction_write_cmd v _), fun _ _ _ h => step_cons h,
    fun _ h => step_nil h⟩

end Sys2Proof.Machine
end

section
/-! The register file (10_state.md R20, R37, R38): what a read of a register depends on, and what the
host's write of one leaves to be read. -/

namespace Sys2Proof.Machine

/-- The sixteen register numbers. -/
theorem registerNumber_cases (n : BitVec 4) :
    n = 0 ∨ n = 1 ∨ n = 2 ∨ n = 3 ∨ n = 4 ∨ n = 5 ∨ n = 6 ∨ n = 7 ∨ n = 8 ∨ n = 9 ∨ n = 10 ∨
      n = 11 ∨ n = 12 ∨ n = 13 ∨ n = 14 ∨ n = 15 := by
  revert n
  decide

/-- A read of register `n` depends on that register alone. A field that an update of the state leaves
as it is needs no argument. -/
theorem readRegister_congr {s t : State} {n : BitVec 4}
    (status : n = 1 → t.status = s.status := by intro; rfl)
    (cfg : n = 2 → t.cfg = s.cfg := by intro; rfl)
    (blkw : n = 3 → t.blkw = s.blkw := by intro; rfl)
    (blkc : n = 4 → t.blkc = s.blkc := by intro; rfl)
    (limit : n = 5 → t.limit = s.limit := by intro; rfl)
    (elim : n = 6 → t.elim = s.elim := by intro; rfl)
    (bitpos : n = 7 → t.bitpos = s.bitpos := by intro; rfl)
    (prev : n = 8 → t.prev = s.prev := by intro; rfl)
    (eidx : n = 9 → t.eidx = s.eidx := by intro; rfl)
    (val : n = 10 → t.val = s.val := by intro; rfl)
    (width : n = 11 → t.width = s.width := by intro; rfl)
    (total : n = 12 → t.total = s.total := by intro; rfl)
    (blk : n = 13 → t.blk = s.blk := by intro; rfl) :
    readRegister t n = readRegister s n := by
  rcases registerNumber_cases n with rfl | rfl | rfl | rfl | rfl | rfl | rfl | rfl | rfl | rfl |
    rfl | rfl | rfl | rfl | rfl | rfl
  · rfl
  · exact congrArg (fun r : Status => r.word.setWidth 64) (status rfl)
  · exact congrArg (fun r : Cfg => r.word.setWidth 64) (cfg rfl)
  · exact congrArg (BitVec.setWidth 64) (blkw rfl)
  · exact congrArg (BitVec.setWidth 64) (blkc rfl)
  · exact congrArg (BitVec.setWidth 64) (limit rfl)
  · exact congrArg (BitVec.setWidth 64) (elim rfl)
  · exact bitpos rfl
  · exact congrArg (BitVec.setWidth 64) (prev rfl)
  · exact congrArg (BitVec.setWidth 64) (eidx rfl)
  · exact val rfl
  · exact congrArg (BitVec.setWidth 64) (width rfl)
  · exact congrArg (BitVec.setWidth 64) (total rfl)
  · exact congrArg (BitVec.setWidth 64) (blk rfl)
  · rfl
  · rfl

/-! ## Host writes -/

/-- A write changes no other register (R38). -/
theorem readRegister_writeRegister_other (s : State) {n m : BitVec 4} (v : Word64) (h : m ≠ n) :
    readRegister (writeRegister s n v) m = readRegister s m := by
  rcases registerNumber_cases n with rfl | rfl | rfl | rfl | rfl | rfl | rfl | rfl | rfl | rfl |
    rfl | rfl | rfl | rfl | rfl | rfl
  · rfl
  · rfl
  · exact readRegister_congr (cfg := fun e => absurd e h)
  · exact readRegister_congr (blkw := fun e => absurd e h)
  · exact readRegister_congr (blkc := fun e => absurd e h)
  · exact readRegister_congr (limit := fun e => absurd e h)
  · exact readRegister_congr (elim := fun e => absurd e h)
  · exact readRegister_congr (bitpos := fun e => absurd e h)
  · exact readRegister_congr (prev := fun e => absurd e h)
  · exact readRegister_congr (eidx := fun e => absurd e h)
  · exact readRegister_congr (val := fun e => absurd e h)
  · exact readRegister_congr (width := fun e => absurd e h)
  · exact readRegister_congr (total := fun e => absurd e h)
  · exact readRegister_congr (blk := fun e => absurd e h)
  · rfl
  · rfl

/-- STATUS is read-only (R20). -/
theorem writeRegister_status (s : State) (v : Word64) : writeRegister s 1 v = s := rfl

/-- A register of `k` bits holds the low `k` bits of what was written. -/
theorem setWidth_truncate_eq_and {k : Nat} {mask : Word64} (v : Word64)
    (h : ∀ i < 64, mask.getLsbD i = decide (i < k)) : (v.truncate k).setWidth 64 = v &&& mask := by
  refine BitVec.eq_of_getLsbD_eq fun i hi => ?_
  rw [BitVec.getLsbD_and, h i hi, BitVec.getLsbD_setWidth, BitVec.truncate_eq_setWidth,
    BitVec.getLsbD_setWidth]
  simp [hi, Bool.and_comm]

/-- CFG holds bits 2:0 and 13:8 of what was written (R24). -/
theorem cfgWord_setWidth_eq_and (v : Word64) :
    (Cfg.word { typ := v.truncate 3, slice := v.extractLsb' 8 6 }).setWidth 64 = v &&& 0x3F07 := by
  refine BitVec.eq_of_getLsbD_eq fun i hi => ?_
  have mask : ∀ i < 64,
      (0x3F07 : Word64).getLsbD i = (decide (i < 3) || decide (8 ≤ i ∧ i < 14)) := by
    decide
  rw [BitVec.getLsbD_and, mask i hi, BitVec.getLsbD_setWidth, Cfg.word, BitVec.getLsbD_append,
    BitVec.getLsbD_append]
  by_cases h3 : i < 3
  · simp [h3, hi]
  · by_cases h8 : i < 8
    · have hzero : i - 3 < 5 := by omega
      simp [h3, hzero, h8]
    · have hslice : ¬ i - 3 < 5 := by omega
      have hbit : 8 + (i - 3 - 5) = i := by omega
      have hrange : i - 3 - 5 < 6 ↔ i < 14 := by omega
      simp [h3, hslice, hbit, hrange, hi, Nat.not_lt.mp h8, Bool.and_comm]

/-- A read returns what was written, in the bits that exist (R20, R37). -/
theorem readRegister_writeRegister_same (s : State) {n : BitVec 4} (v : Word64) (h : n ≠ 1) :
    readRegister (writeRegister s n v) n = v &&& registerMask n := by
  rcases registerNumber_cases n with rfl | rfl | rfl | rfl | rfl | rfl | rfl | rfl | rfl | rfl |
    rfl | rfl | rfl | rfl | rfl | rfl
  · exact BitVec.and_zero.symm
  · exact absurd rfl h
  · exact cfgWord_setWidth_eq_and v
  · exact setWidth_truncate_eq_and v (by decide)
  · exact setWidth_truncate_eq_and v (by decide)
  · exact setWidth_truncate_eq_and v (by decide)
  · exact setWidth_truncate_eq_and v (by decide)
  · exact (BitVec.and_allOnes (x := v)).symm
  · exact setWidth_truncate_eq_and v (by decide)
  · exact setWidth_truncate_eq_and v (by decide)
  · exact (BitVec.and_allOnes (x := v)).symm
  · exact setWidth_truncate_eq_and v (by decide)
  · exact setWidth_truncate_eq_and v (by decide)
  · exact setWidth_truncate_eq_and v (by decide)
  · exact BitVec.and_zero.symm
  · exact BitVec.and_zero.symm

/-- The host's write of a register changes no memory, no temporary and nothing of the model's own. -/
theorem writeRegister_frame (s : State) (n : BitVec 4) (v : Word64) :
    (writeRegister s n v).status = s.status ∧ (writeRegister s n v).bm = s.bm ∧
    (writeRegister s n v).em = s.em ∧ (writeRegister s n v).acc = s.acc ∧
    (writeRegister s n v).rem = s.rem ∧ (writeRegister s n v).running = s.running ∧
    (writeRegister s n v).hostQueue = s.hostQueue ∧ (writeRegister s n v).replies = s.replies ∧
    (writeRegister s n v).freeDraws = s.freeDraws := by
  unfold writeRegister
  split <;> exact ⟨rfl, rfl, rfl, rfl, rfl, rfl, rfl, rfl, rfl⟩

end Sys2Proof.Machine
end

section
/-! The registers a command writes (10_state.md R23, R39): the operations keep all others (`Keeps`), a
fault leaves no other one free (R227 (d)), and so each command of the table writes what its line lists. -/

namespace Sys2Proof.Machine

/-- What a command may leave in register `n`: of STATUS the result flag FOUND (R23), of any other
register all of it. -/
def readResult (s : State) (n : BitVec 4) : Word64 :=
  if n = 1 then (BitVec.ofBool s.status.found).setWidth 64 else readRegister s n

/-- From `s` to `t` no result register changed but those of `l`. -/
def WritesOnly (l : List (BitVec 4)) (s t : State) : Prop :=
  ∀ n, n ∉ l → readResult t n = readResult s n

/-- The result registers of a command: those of R39, and for SCAN_ZEROS the flag FOUND (R23). -/
def resultRegisters : Instr → List (BitVec 4)
  | .scanZeros => 1 :: registersWritten .scanZeros
  | i => registersWritten i

/-- The registers that an operation may change (`Keeps`). -/
def Touch.registers (u : Touch) : List (BitVec 4) :=
  7 :: (if u.cfg then [2] else []) ++ (if u.prev then [8] else []) ++ (if u.eidx then [9] else []) ++
    (if u.total then [12] else []) ++ (if u.blk then [13] else [])

/-- The registers that a fault of a command's body may change (R227). -/
def faultRegisters : Option Unspec → List (BitVec 4)
  | none => []
  | some u => (if u.header then [2] else []) ++ (if u.bitpos then [7] else []) ++
      (if u.prev then [8] else []) ++ (if u.eidx then [9] else []) ++
      (if u.val then [10] else []) ++ (if u.total then [12] else []) ++ (if u.blk then [13] else [])

variable {l : List (BitVec 4)} {s t r : State}

theorem WritesOnly.readRegister (h : WritesOnly l s t) {n : BitVec 4} (hn : n ≠ 1) (hl : n ∉ l) :
    readRegister t n = readRegister s n := by
  have := h n hl
  rwa [readResult, readResult, if_neg hn, if_neg hn] at this

theorem WritesOnly.found (h : WritesOnly l s t) (hl : 1 ∉ l) : t.status.found = s.status.found := by
  have := h 1 hl
  rw [readResult, readResult, if_pos rfl, if_pos rfl] at this
  revert this
  cases t.status.found <;> cases s.status.found <;> decide

/-- STATUS counts by its flag alone. -/
theorem WritesOnly.intro (found : 1 ∉ l → t.status.found = s.status.found)
    (registers : ∀ n, n ≠ 1 → n ∉ l → Machine.readRegister t n = Machine.readRegister s n) :
    WritesOnly l s t := by
  intro n hl
  unfold readResult
  split
  · rename_i hn
    rw [found (hn ▸ hl)]
  · exact registers n ‹_› hl

theorem WritesOnly.refl (s : State) : WritesOnly l s s := fun _ _ => rfl

theorem WritesOnly.trans (h : WritesOnly l s t) (g : WritesOnly l t r) : WritesOnly l s r :=
  fun n hl => (g n hl).trans (h n hl)

theorem WritesOnly.andThen {α β : Type} {a : Res α} {f : α → State → Res β}
    (h : WritesOnly l s a.state) (hf : ∀ x t, WritesOnly l t (f x t).state) :
    WritesOnly l s (a.andThen f).state :=
  Res.andThen_rel (R := WritesOnly l) (fun _ _ _ => WritesOnly.trans) h fun x t _ => hf x t

/-! ## Operations -/

/-- An operation writes the registers that it may touch. -/
theorem Keeps.writesOnly {u : Touch} (h : Keeps u s t) (hu : u.registers ⊆ l) : WritesOnly l s t := by
  have kept : ∀ {n k : BitVec 4} {b : Bool}, (b = true → k ∈ u.registers) → n ∉ l → n = k →
      b = false := fun hb hn e => Bool.eq_false_iff.mpr fun hbt => hn (e ▸ hu (hb hbt))
  refine .intro (fun _ => by rw [h.status]) fun n h1 hn => ?_
  exact readRegister_congr (status := fun e => absurd e h1)
    (cfg := fun e => h.cfg (kept (fun hb => by simp [Touch.registers, hb]) hn e))
    (blkw := fun _ => h.blkw) (blkc := fun _ => h.blkc) (limit := fun _ => h.limit)
    (elim := fun _ => h.elim)
    (bitpos := fun e => absurd (e ▸ hu List.mem_cons_self) hn)
    (prev := fun e => h.prev (kept (fun hb => by simp [Touch.registers, hb]) hn e))
    (eidx := fun e => h.eidx (kept (fun hb => by simp [Touch.registers, hb]) hn e))
    (val := fun _ => h.val) (width := fun _ => h.width)
    (total := fun e => h.total (kept (fun hb => by simp [Touch.registers, hb]) hn e))
    (blk := fun e => h.blk (kept (fun hb => by simp [Touch.registers, hb]) hn e))

theorem setVal_writesOnly (x : Int) (s : State) (hl : 10 ∈ l) : WritesOnly l s (setVal x s) :=
  .intro (fun _ => rfl) fun _ _ hn => readRegister_congr (val := fun e => absurd (e ▸ hl) hn)

/-- STATUS apart, the start and the end of a command write no register (R22). -/
theorem start_writesOnly (i : Instr) (s : State) : WritesOnly l s (start i s) :=
  .intro (fun _ => rfl) fun _ h1 _ => readRegister_congr (status := fun e => absurd e h1)

theorem complete_writesOnly (s : State) : WritesOnly l s (complete s) :=
  .intro (fun _ => rfl) fun _ h1 _ => readRegister_congr (status := fun e => absurd e h1)

theorem takeFault_writesOnly (c : Cause) (s : State) : WritesOnly l s (takeFault c s) :=
  .intro (fun _ => rfl) fun _ h1 _ => readRegister_congr (status := fun e => absurd e h1)

theorem returnFromFault_writesOnly (s : State) : WritesOnly l s (returnFromFault s) :=
  .intro (fun _ => rfl) fun _ h1 _ => readRegister_congr (status := fun e => absurd e h1)

/-- SCAN_ZEROS also leaves its flag in STATUS (R126). -/
theorem scanZeros_result_writesOnly (f : Bool) (z : Int) (s : State) (h1 : 1 ∈ l) (h10 : 10 ∈ l) :
    WritesOnly l s { setVal z s with status := s.status.setFound f } :=
  .intro (fun hn => absurd h1 hn) fun _ hs hn =>
    readRegister_congr (status := fun e => absurd e hs) (val := fun e => absurd (e ▸ h10) hn)

/-- PATCH_SIZE moves no cursor (R190). -/
theorem patchSize_writesOnly (s : State) (hl : 12 ∈ l) : WritesOnly l s (patchSize s).state := by
  unfold patchSize
  split
  · exact .refl s
  · generalize fieldWrite s.bm 0 (s.bitpos.toNat / 8) 32 = m
    exact .intro (fun _ => rfl) fun _ _ hn =>
      readRegister_congr (total := fun e => absurd (e ▸ hl) hn)

/-! ## Faults -/

/-- An imprecise fault leaves the registers free that its command names (R227 (c), (d)). -/
theorem unspecify_writesOnly {u : Unspec} (s r : State) (hu : faultRegisters (some u) ⊆ l) :
    WritesOnly l s (unspecify u s r) := by
  have kept : ∀ {α : Type} {n k : BitVec 4} {b : Bool} {x y : α},
      (b = true → k ∈ faultRegisters (some u)) → n ∉ l → n = k → (if b = true then x else y) = y :=
    fun hb hn e => if_neg fun hbt => hn (e ▸ hu (hb hbt))
  refine .intro (fun _ => rfl) fun n h1 hn => ?_
  exact readRegister_congr (status := fun e => absurd e h1)
    (cfg := kept (fun hb => by simp [faultRegisters, hb]) hn)
    (bitpos := kept (fun hb => by simp [faultRegisters, hb]) hn)
    (prev := kept (fun hb => by simp [faultRegisters, hb]) hn)
    (eidx := kept (fun hb => by simp [faultRegisters, hb]) hn)
    (val := kept (fun hb => by simp [faultRegisters, hb]) hn)
    (total := kept (fun hb => by simp [faultRegisters, hb]) hn)
    (blk := kept (fun hb => by simp [faultRegisters, hb]) hn)

/-- After a fault of the body: what the fault leaves free, or for SizeMismatch what the body wrote. -/
theorem faultState_writesOnly {u : Option Unspec} (c : Cause) (hu : faultRegisters u ⊆ l)
    (h : WritesOnly l s r) : WritesOnly l s (faultState u c s r) := by
  cases u with
  | none => exact takeFault_writesOnly c s
  | some u =>
    by_cases hc : c = .sizeMismatch
    · rw [hc, faultState_sizeMismatch]
      exact h.trans (takeFault_writesOnly _ r)
    · rw [faultState_imprecise u hc]
      exact (unspecify_writesOnly s r hu).trans (takeFault_writesOnly c _)

/-! ## Commands and items -/

theorem runCommand_writesOnly {i : Instr} {u : Option Unspec} {body : State → Res Unit}
    (h : runCommand i u body s = .next t) (hu : faultRegisters u ⊆ l)
    (hb : ∀ s, WritesOnly l s (body s).state) : WritesOnly l s t := by
  have hbody : WritesOnly l s (body (start i s)).state := (start_writesOnly i s).trans (hb _)
  rcases runCommand_cases h with ⟨-, rfl⟩ | ⟨-, c, -, rfl⟩ | ⟨-, -, r, hr, rfl⟩ |
    ⟨-, -, c, r, hr, rfl⟩
  case inl => exact .refl _
  case inr.inl => exact takeFault_writesOnly c s
  case inr.inr.inl =>
    rw [hr] at hbody
    exact hbody.trans (complete_writesOnly r)
  case inr.inr.inr =>
    rw [hr] at hbody
    exact faultState_writesOnly c hu hbody

theorem runItem_writesOnly {u : Option Unspec} {check : State → Option Cause}
    {body : State → Res Unit} (h : runItem u check body s = .next t) (hu : faultRegisters u ⊆ l)
    (hb : ∀ s, WritesOnly l s (body s).state) : WritesOnly l s t := by
  have hbody : WritesOnly l s (body s).state := hb s
  rcases runItem_cases h with ⟨-, rfl⟩ | ⟨-, c, -, rfl⟩ | ⟨-, -, hr⟩ | ⟨-, -, c, r, hr, rfl⟩
  case inl => exact .refl _
  case inr.inl => exact takeFault_writesOnly c s
  case inr.inr.inl =>
    rw [hr] at hbody
    exact hbody
  case inr.inr.inr =>
    rw [hr] at hbody
    exact faultState_writesOnly c hu hbody

/-- A marker consumes its byte and then its segment (R91, R166). -/
theorem marker_writesOnly {b : Nat}
    (h : runItem (some rowItemUnspec) checkRowItem
      (fun s => (readField 8 s).andThen fun _ s => afterMarker b s) s = .next t) :
    WritesOnly [7, 8, 9] s t :=
  runItem_writesOnly h (by decide) fun s =>
    Keeps.writesOnly (.andThen (readField_keeps 8 s) fun _ t => afterMarker_keeps b t) (by decide)

/-- A type tag consumes its byte and loads CFG (R98, R184). -/
theorem tagItem_writesOnly {tag : Nat} (h : tagItem tag s = .next t) :
    WritesOnly [2, 7, 9, 12, 13] s t :=
  runItem_writesOnly h (by decide) fun s =>
    Keeps.writesOnly (.andThen (readField_keeps 8 s) fun _ t => acceptTag_keeps tag t) (by decide)

/-- Every command writes its result registers alone, and so does every stream item. -/
theorem exec_writesOnly {i : Instr} (h : exec i s = .next t) :
    WritesOnly (resultRegisters i) s t := by
  cases i <;> dsimp only [exec, resultRegisters, registersWritten] at h ⊢
  case clrFault =>
    unfold execClrFault at h
    split at h <;> cases h
    · exact .refl s
    · exact returnFromFault_writesOnly s
  case cmdReserved => exact runCommand_writesOnly h (by decide) fun s => .refl s
  case writeBits | setBit =>
    exact runCommand_writesOnly h (by decide) fun s =>
      (writeField_keeps _ _ s).writesOnly (by decide)
  case alignWr =>
    exact runCommand_writesOnly h (by decide) fun s => (alignWrite_keeps s).writesOnly (by decide)
  case alignRd =>
    exact runCommand_writesOnly h (by decide) fun s =>
      Keeps.writesOnly (u := {}) (moveOn_keeps _ s) (by decide)
  case readBits =>
    exact runCommand_writesOnly h (by decide) fun s =>
      .andThen (Keeps.writesOnly (u := {}) (readField_keeps _ s) (by decide)) fun v t =>
        setVal_writesOnly v t (by decide)
  case scanZeros =>
    exact runCommand_writesOnly h (by decide) fun s =>
      .andThen (Keeps.writesOnly (u := {}) (scanZeros_keeps _ s) (by decide)) fun z t =>
        scanZeros_result_writesOnly z.2 z.1 t (by decide) (by decide)
  case encCw =>
    exact runCommand_writesOnly h (by decide) fun s =>
      (encCodeword_keeps _ s).writesOnly (by decide)
  case decCw =>
    exact runCommand_writesOnly h (by decide) fun s =>
      .andThen (Keeps.writesOnly (u := {}) (decCodeword_keeps s) (by decide)) fun _ t =>
        setVal_writesOnly _ t (by decide)
  case encDiff =>
    exact runCommand_writesOnly h (by decide) fun s =>
      .andThen ((encCodeword_keeps _ s).writesOnly (by decide)) fun _ t =>
        (setPrev_keeps _ t).writesOnly (by decide)
  case decDiff =>
    exact runCommand_writesOnly h (by decide) fun s =>
      .andThen (Keeps.writesOnly (u := {}) (decCodeword_keeps s) (by decide)) fun _ t =>
        (setVal_writesOnly _ t (by decide)).trans ((setPrev_keeps _ _).writesOnly (by decide))
  case encRow =>
    exact runCommand_writesOnly h (by decide) fun s => (encRow_keeps _ s).writesOnly (by decide)
  case decRow =>
    exact runCommand_writesOnly h (by decide) fun s => (decRow_keeps _ s).writesOnly (by decide)
  case wrHeader =>
    exact runCommand_writesOnly h (by decide) fun s => (wrHeader_keeps s).writesOnly (by decide)
  case rdHeader =>
    exact runCommand_writesOnly h (by decide) fun s => (rdHeader_keeps s).writesOnly (by decide)
  case encBlock =>
    exact runCommand_writesOnly h (by decide) fun s => (encBlock_keeps s).writesOnly (by decide)
  case decBlock =>
    exact runCommand_writesOnly h (by decide) fun s => (decBlock_keeps s).writesOnly (by decide)
  case patchSize =>
    exact runCommand_writesOnly h (by decide) fun s => patchSize_writesOnly s (by decide)
  case encode =>
    exact runCommand_writesOnly h (by decide) fun s =>
      (encodeStream_keeps s).writesOnly (by decide)
  case decode =>
    exact runCommand_writesOnly h (by decide) fun s =>
      (decodeStream_keeps s).writesOnly (by decide)
  case hdr =>
    exact runItem_writesOnly h (by decide) fun s => Keeps.writesOnly
      (.andThen (.trans _ _ _ (.mono (rewind_keeps s) rfl) (readField_keeps _ _)) fun _ t =>
        .mono (v := { cfg := true, eidx := true, total := true, blk := true })
          (acceptHeader_keeps _ _ _ _ _ t) rfl) (by decide)
  case raw =>
    exact runItem_writesOnly h (by decide) fun s => Keeps.writesOnly
      (.andThen (readField_keeps _ s) fun _ t => produce_keeps _ t) (by decide)
  case cwUnary =>
    exact runItem_writesOnly h (by decide) fun s => Keeps.writesOnly (u := {})
      (.andThen (readField_keeps _ s) fun _ t => unaryForm_keeps _ _ t) (by decide)
  case cwEscape =>
    exact runItem_writesOnly h (by decide) fun s => Keeps.writesOnly (u := {})
      (.andThen (readField_keeps _ s) fun _ t => escapeForm_keeps _ _ t) (by decide)
  case litDiff =>
    exact runItem_writesOnly h (by decide) fun s => Keeps.writesOnly (u := {})
      (.andThen (readField_keeps _ s) fun _ t => takeDiff_keeps _ t) (by decide)
  case pad =>
    exact runItem_writesOnly h (by decide) fun s =>
      Keeps.writesOnly (u := {}) (moveOn_keeps _ s) (by decide)
  case markReserved | markContinued | markLiteral | markConstant => exact marker_writesOnly h
  case tag0 | tag1 | tag2 | tag3 | tag4 | tag6 | tagReserved => exact tagItem_writesOnly h

theorem resultRegisters_of_ne {i : Instr} (h : i ≠ .scanZeros) :
    resultRegisters i = registersWritten i := by
  unfold resultRegisters
  split
  · exact absurd rfl h
  · rfl

/-- STATUS is no register of R39: its flag is all that a command writes of it as a result. -/
theorem mem_resultRegisters {i : Instr} {n : BitVec 4} :
    n ∈ resultRegisters i ↔ n ∈ registersWritten i ∨ (n = 1 ∧ i = .scanZeros) := by
  by_cases h : i = .scanZeros
  · subst h
    simp [resultRegisters, or_comm]
  · simp [resultRegisters_of_ne h, h]

theorem status_not_mem_registersWritten (i : Instr) : 1 ∉ registersWritten i := by
  cases i <;> dsimp only [registersWritten] <;> decide

/-- Settles O18: a register that R39 does not list, STATUS apart, is no result register. -/
theorem unlistedRegistersKeepTheirValue : Obligations.UnlistedRegistersKeepTheirValue := by
  intro i s t n h h1 hn
  refine (exec_writesOnly h).readRegister h1 fun hm => ?_
  rcases mem_resultRegisters.mp hm with hm | ⟨e, -⟩
  · exact hn hm
  · exact h1 e

/-- Settles O19: FOUND is a result of SCAN_ZEROS alone. -/
theorem onlyScanZerosWritesFound : Obligations.OnlyScanZerosWritesFound := by
  intro i s t h hi
  refine (exec_writesOnly h).found fun hm => ?_
  rcases mem_resultRegisters.mp hm with hm | ⟨-, e⟩
  · exact status_not_mem_registersWritten i hm
  · exact hi e

end Sys2Proof.Machine
end

section
/-! Reset (10_state.md R43, 70_reset_and_hazards.md R240), and what the host reads and writes of an idle
and of a busy engine (10_state.md R37, R38, 60_exceptions.md R232). -/

namespace Sys2Proof.Machine

/-! ## Reset -/

/-- Settles O6: `State.reset` lists its fields, and an empty memory is canonical. -/
theorem resetMeetsInvariant : Obligations.ResetMeetsInvariant :=
  have empty {w : Nat} : Memory.wf ([] : Memory w) := ⟨.nil, by simp⟩
  ⟨rfl, rfl, ⟨rfl, rfl⟩, rfl, rfl, empty, empty⟩

/-- Settles O7, register by register. -/
theorem resetClearsRegisters : Obligations.ResetClearsRegisters := by
  intro n
  unfold readRegister
  split <;> rfl

/-- The registers after reset do not depend on what reset leaves alone. -/
theorem readRegister_hostReset (s : State) (n : BitVec 4) : readRegister (hostReset s) n = 0 :=
  resetClearsRegisters n

/-- The bytes below LIMIT count as written by exactly the commands that do more than read them. -/
theorem memoryWritten_bytes (i : Instr) : (memoryWritten i).1 = !readsBytesOnly i := by
  cases i <;> rfl

/-- A command that writes no cell has no range of cells. -/
theorem memoryWritten_cells {i : Instr} (h : writesElems i = false) : (memoryWritten i).2 = .none := by
  cases i <;> simp_all [writesElems, memoryWritten]

/-- A command that only reads the bytes leaves them as they are. -/
theorem spoilMemory_bm {i : Instr} (h : readsBytesOnly i = true) (s : State) :
    (spoilMemory i s).bm = s.bm := by
  rcases spoilMemory_cases i s with ⟨c, -, e⟩ | ⟨-, e⟩ <;> rw [e]
  simp [memoryWritten_bytes, h]

/-- A command that writes no cell leaves the element memory as it is. -/
theorem spoilMemory_em {i : Instr} (h : writesElems i = false) (s : State) :
    (spoilMemory i s).em = s.em := by
  rcases spoilMemory_cases i s with ⟨c, -, e⟩ | ⟨-, e⟩ <;> rw [e]
  rw [memoryWritten_cells h]
  rfl

section Reset

variable {s : State}

theorem hostReset_queue_replies (s : State) :
    (hostReset s).hostQueue = s.hostQueue ∧ (hostReset s).replies = s.replies := by
  rw [hostReset_eq]
  exact ⟨rfl, rfl⟩

theorem abandonCommand_bytes (h : Memory.wf s.bm) {a : Nat} (ha : s.limit.toNat ≤ a) :
    Memory.read (abandonCommand s).bm a = Memory.read s.bm a := by
  rcases abandonCommand_cases s with e | ⟨i, -, -, e⟩ <;> rw [e]
  exact spoilMemory_bytes h i (.inr ha)

theorem abandonCommand_cells (h : Memory.wf s.em) {j : Nat} (hj : s.elim.toNat ≤ j) :
    Memory.read (abandonCommand s).em j = Memory.read s.em j := by
  rcases abandonCommand_cases s with e | ⟨i, -, -, e⟩ <;> rw [e]
  exact spoilMemory_cells h i (.inr (.inr hj))

theorem abandonCommand_bm {i : Instr} (hi : s.running = some i) (h : readsBytesOnly i = true) :
    (abandonCommand s).bm = s.bm := by
  rcases abandonCommand_cases s with e | ⟨k, -, hk, e⟩ <;> rw [e]
  cases hi.symm.trans hk
  exact spoilMemory_bm h s

theorem abandonCommand_em {i : Instr} (hi : s.running = some i) (h : writesElems i = false) :
    (abandonCommand s).em = s.em := by
  rcases abandonCommand_cases s with e | ⟨k, -, hk, e⟩ <;> rw [e]
  cases hi.symm.trans hk
  exact spoilMemory_em h s

/-- Reset during the command of a CMD write meets that command running. -/
theorem hostWriteThenReset_start (h : s.ready) (i : Instr) :
    hostWriteThenReset i s = hostReset (start i s) :=
  if_pos (accepts_of_ready h)

/-- The cells a command that was just started may be writing when reset meets it (R227 (d)). -/
theorem abandonCommand_start_cells (h : Memory.wf s.em) (i : Instr) {j : Nat}
    (hj : s.elim.toNat ≤ j ∨
      (i = .decRow ∧ (j < s.eidx.toNat ∨ s.eidx.toNat + (s.blkw.toNat - 1) ≤ j)) ∨
      (i = .decBlock ∧ (j < s.eidx.toNat ∨ s.eidx.toNat + s.blkw.toNat ≤ j)) ∨
      (i = .decode ∧ s.blkw.toNat * s.blkc.toNat ≤ j)) :
    Memory.read (abandonCommand (start i s)).em j = Memory.read s.em j := by
  rw [abandonCommand_running (i := i) rfl rfl]
  refine spoilMemory_cells (s := start i s) h i ?_
  rcases hj with hj | ⟨rfl, hj⟩ | ⟨rfl, hj⟩ | ⟨rfl, hj⟩
  case inl => exact .inr (.inr hj)
  case inr.inl => exact hj.imp_right .inl
  case inr.inr.inl => exact hj.imp_right .inl
  case inr.inr.inr =>
    refine .inr (.inl ?_)
    rw [show ((memoryWritten .decode).2.span (start .decode s)).1 = 0 from rfl, Nat.zero_add]
    exact hj

end Reset

/-- Settles O8: reset keeps of the memories what `abandonCommand` keeps, which is all but the range of
the running command (`spoilMemory`). A reset during a command is the reset of the started engine. -/
theorem hostResetKeepsMemories : Obligations.HostResetKeepsMemories := by
  refine ⟨fun s hbm hem => ?_, fun s v hs hbm hem => ?_⟩
  · obtain ⟨hqueue, hreplies⟩ := hostReset_queue_replies s
    refine ⟨hostReset s, rfl, readRegister_hostReset s, rfl, rfl, rfl, hqueue, hreplies,
      fun hidle => ?_, fun a => abandonCommand_bytes hbm, fun j => abandonCommand_cells hem,
      fun i hi => ⟨abandonCommand_bm hi, abandonCommand_em hi⟩⟩
    rw [hostReset_eq, abandonCommand_idle hidle]
    exact ⟨rfl, rfl, rfl⟩
  · obtain ⟨hqueue, hreplies⟩ := hostReset_queue_replies (start (decodeCommand v) s)
    refine ⟨hostReset (start (decodeCommand v) s), ?_, readRegister_hostReset _, rfl, rfl, rfl,
      hqueue, hreplies, abandonCommand_bm rfl,
      fun a => abandonCommand_bytes (s := start (decodeCommand v) s) hbm, abandonCommand_em rfl,
      fun j => abandonCommand_start_cells hem _⟩
    exact congrArg Host.Outcome.next (hostWriteThenReset_start hs _)

/-! ## The idle engine -/

/-- A read returns the register while BUSY = 0; STATUS, and a number that is no register, read so at any
time (R37, R38). -/
theorem hostAction_read_register {s : State} {n : BitVec 4}
    (h : s.status.busy = false ∨ n = 1 ∨ registerBits n = 0) :
    hostAction (.read n) s = .next (reply (readRegister s n) s) := by
  refine congrArg Host.Outcome.next (if_neg ?_)
  simp only [Bool.and_eq_true, bne_iff_ne, not_and_or, not_not, Bool.not_eq_true, or_assoc]
  exact h

theorem hostAction_write_idle {s : State} (hs : s.status.busy = false) {n : BitVec 4} (hn : n ≠ 0)
    (v : Word64) : hostAction (.write n v) s = .next (writeRegister s n v) := by
  rw [hostAction_write_register hn, hostWrite, hs]
  rfl

/-- Settles O10, by the laws of the register file and of the memories. -/
theorem hostWriteThenRead : Obligations.HostWriteThenRead := by
  refine ⟨fun s n v hs hn => ?_, fun s hs hbm hem => ⟨?_, ?_, fun a b => ?_, fun j x => ?_⟩⟩
  · obtain ⟨hstatus, hbm, hem, hacc, hrem, hrunning, hqueue, hreplies, hdraws⟩ :=
      writeRegister_frame s n v
    refine ⟨writeRegister s n v, hostAction_write_idle hs hn v, readRegister_writeRegister_same s v,
      ?_, hbm, hem, hacc, hrem, hrunning, hqueue, hreplies, hdraws,
      fun m => hostAction_read_register (.inl (by rw [hstatus, hs]))⟩
    rintro m (hm | rfl)
    · exact readRegister_writeRegister_other s v hm
    · rw [writeRegister_status]
  · exact fun a => hostAction_getByte_idle hs a
  · exact fun j => hostAction_getElem_idle hs j
  · refine ⟨_, hostAction_setByte_idle hs a b, rfl, Memory.write_wf hbm a b, fun k => ?_⟩
    rw [← Memory.read_write hbm]
    exact hostAction_getByte_idle (s := { s with bm := Memory.write s.bm a b }) hs k
  · refine ⟨_, hostAction_setElem_idle hs j x, rfl, Memory.write_wf hem j x, fun k => ?_⟩
    rw [← Memory.read_write hem]
    exact hostAction_getElem_idle (s := { s with em := Memory.write s.em j x }) hs k

/-! ## The busy engine -/

/-- Every number but 14 and 15 is a register (R20, R37). -/
theorem registerBits_ne_zero {n : BitVec 4} (h14 : n ≠ 14) (h15 : n ≠ 15) : registerBits n ≠ 0 := by
  revert n
  decide

/-- STATUS apart, CMD is the one register whose bits a host write does not reach (R20, R37). -/
theorem registerMask_eq_registerBits {n : BitVec 4} (h : n ≠ 1) :
    (if n = 0 then 0xFF else registerMask n) = registerBits n := by
  revert n
  decide

section Busy

/-! While BUSY = 1 (R38, R232). -/

variable {s : State} (hs : s.status.busy = true)
include hs

/-- A CMD write is ignored (R38). -/
theorem exec_busy {i : Instr} (hi : isCommand i = true) : exec i s = .next s := by
  by_cases hc : i = .clrFault
  · rw [hc, exec_clrFault, hs]
    rfl
  · obtain ⟨u, body, hrun, -⟩ := exec_command hi hc
    rw [hrun]
    exact runCommand_ignored (by simp [accepts, hs])

theorem hostAction_write_busy (n : BitVec 4) (v : Word64) :
    hostAction (.write n v) s = .next s := by
  by_cases hn : n = 0
  · rw [hn, hostAction_write_cmd]
    exact exec_busy hs (isCommand_decodeCommand v)
  · rw [hostAction_write_register hn, hostWrite, hs]
    rfl

/-- A register other than STATUS reads as a free value in its bits (U6). -/
theorem hostAction_read_free {n : BitVec 4} (h1 : n ≠ 1) (hn : registerBits n ≠ 0) :
    hostAction (.read n) s = .next (reply (Config.freeRegister s.freeDraws n.toNat &&& registerBits n)
      { s with freeDraws := s.freeDraws + 1 }) := by
  refine congrArg Host.Outcome.next (if_pos ?_)
  simp only [Bool.and_eq_true, bne_iff_ne]
  exact ⟨⟨hs, h1⟩, hn⟩

theorem mayTouchByte_busy (a : Nat) : mayTouchByte a s = decide (s.limit.toNat ≤ a) := by
  simp [mayTouchByte, hs]

theorem mayTouchElem_busy (i : Nat) : mayTouchElem i s = decide (s.elim.toNat ≤ i) := by
  simp [mayTouchElem, hs]

end Busy

/-- Settles O11: no write is accepted, a read of STATUS or of no register is as when idle and any other
read is free, and the memories are the host's at and above the limits alone. -/
theorem busyHostAccess : Obligations.BusyHostAccess := by
  intro s hs
  refine ⟨hostAction_write_busy hs, hostAction_read_register (.inr (.inl rfl)), ?_, ?_, ?_, ?_, ?_,
    ?_, ?_, ?_⟩
  · rintro n (rfl | rfl)
    · exact hostAction_read_register (.inr (.inr rfl))
    · exact hostAction_read_register (.inr (.inr rfl))
  · intro n h1 h14 h15
    refine ⟨_, hostAction_read_free hs h1 (registerBits_ne_zero h14 h15), ?_⟩
    rw [registerMask_eq_registerBits h1, BitVec.and_assoc, BitVec.and_self]
  · intro a b ha
    have hno : ¬ mayTouchByte a s = true := by simpa [mayTouchByte_busy hs] using ha
    exact ⟨if_neg hno, if_neg hno⟩
  · intro i x hi
    have hno : ¬ mayTouchElem i s = true := by simpa [mayTouchElem_busy hs] using hi
    exact ⟨if_neg hno, if_neg hno⟩
  · exact fun a b ha => if_pos (by simpa [mayTouchByte_busy hs] using ha)
  · exact fun i x hi => if_pos (by simpa [mayTouchElem_busy hs] using hi)
  · exact fun a ha => if_pos (by simpa [mayTouchByte_busy hs] using ha)
  · exact fun i hi => if_pos (by simpa [mayTouchElem_busy hs] using hi)

end Sys2Proof.Machine
end

section
/-! What an instruction may touch (20_memory.md R50, R51, R61, R67, 60_exceptions.md R227 (a)): it
changes no byte and no cell at or above the limits (`InBounds`), and depends on none (`Agree`). -/

namespace Sys2Proof.Machine

/-! ## What an instruction may change -/

/-- From `s` to `t` nothing changed that the instruction `i` may not touch; of the memories, if they
are canonical. -/
structure InBounds (i : Instr) (s t : State) : Prop where
  limit : t.limit = s.limit
  elim : t.elim = s.elim
  blkw : t.blkw = s.blkw
  blkc : t.blkc = s.blkc
  width : t.width = s.width
  bm : readsBytesOnly i = true → t.bm = s.bm
  em : writesElems i = false → t.em = s.em
  bytes : Memory.wf s.bm → Memory.wf t.bm ∧
    ∀ a, s.limit.toNat ≤ a → Memory.read t.bm a = Memory.read s.bm a
  cells : Memory.wf s.em → Memory.wf t.em ∧
    ∀ j, s.elim.toNat ≤ j → Memory.read t.em j = Memory.read s.em j

variable {i : Instr} {s t r : State}

/-- An update of registers other than the limits, the geometry and WIDTH. -/
theorem InBounds.of_registers
    (h : t.limit = s.limit ∧ t.elim = s.elim ∧ t.blkw = s.blkw ∧ t.blkc = s.blkc ∧
      t.width = s.width)
    (hbm : t.bm = s.bm) (hem : t.em = s.em) : InBounds i s t := by
  obtain ⟨limit, elim, blkw, blkc, width⟩ := h
  refine ⟨limit, elim, blkw, blkc, width, fun _ => hbm, fun _ => hem, fun w => ?_, fun w => ?_⟩
  · rw [hbm]; exact ⟨w, fun _ _ => rfl⟩
  · rw [hem]; exact ⟨w, fun _ _ => rfl⟩

theorem InBounds.refl (s : State) : InBounds i s s :=
  .of_registers ⟨rfl, rfl, rfl, rfl, rfl⟩ rfl rfl

theorem InBounds.trans (h : InBounds i s t) (g : InBounds i t r) : InBounds i s r where
  limit := g.limit.trans h.limit
  elim := g.elim.trans h.elim
  blkw := g.blkw.trans h.blkw
  blkc := g.blkc.trans h.blkc
  width := g.width.trans h.width
  bm := fun hi => (g.bm hi).trans (h.bm hi)
  em := fun hi => (g.em hi).trans (h.em hi)
  bytes := fun w => by
    obtain ⟨wt, ht⟩ := h.bytes w
    obtain ⟨wr, hr⟩ := g.bytes wt
    exact ⟨wr, fun a ha => (hr a (h.limit ▸ ha)).trans (ht a ha)⟩
  cells := fun w => by
    obtain ⟨wt, ht⟩ := h.cells w
    obtain ⟨wr, hr⟩ := g.cells wt
    exact ⟨wr, fun j hj => (hr j (h.elim ▸ hj)).trans (ht j hj)⟩

theorem InBounds.andThen {α β : Type} {a : Res α} {f : α → State → Res β}
    (h : InBounds i s a.state) (hf : ∀ x t, InBounds i t (f x t).state) :
    InBounds i s (a.andThen f).state :=
  Res.andThen_rel (R := InBounds i) (fun _ _ _ => .trans) h fun x t _ => hf x t

/-- An operation that stores to no cell (`Keeps`). -/
theorem Keeps.inBounds {u : Touch} (h : Keeps u s t) (hu : u.cells = false)
    (hb : u.bytes = true → readsBytesOnly i = false) : InBounds i s t where
  limit := h.limit
  elim := h.elim
  blkw := h.blkw
  blkc := h.blkc
  width := h.width
  bm := fun hi => h.bm (Bool.eq_false_iff.mpr fun hub => Bool.eq_false_iff.mp (hb hub) hi)
  em := fun _ => h.em hu
  bytes := fun w => ⟨h.wf w, h.outside w⟩
  cells := fun w => by rw [h.em hu]; exact ⟨w, fun _ _ => rfl⟩

/-- A decoding operation that stored to the cells it passed, all of them below ELIM. -/
theorem Keeps.inBounds_of_fills {u : Touch} {n : Nat} (h : Keeps u s t) (hu : u.bytes = false)
    (hi : writesElems i = true) (hf : Fills n s t) (hn : s.eidx.toNat + n ≤ s.elim.toNat) :
    InBounds i s t where
  limit := h.limit
  elim := h.elim
  blkw := h.blkw
  blkc := h.blkc
  width := h.width
  bm := fun _ => h.bm hu
  em := fun hf => Bool.noConfusion (hf.symm.trans hi)
  bytes := fun w => ⟨h.wf w, h.outside w⟩
  cells := fun w => by
    obtain ⟨wt, -, ht⟩ := hf w (lt_of_le_of_lt hn s.elim.isLt)
    exact ⟨wt, fun j hj => ht j (.inr (hn.trans hj))⟩

theorem setVal_inBounds (x : Int) (s : State) : InBounds i s (setVal x s) :=
  .of_registers ⟨rfl, rfl, rfl, rfl, rfl⟩ rfl rfl

theorem start_inBounds (k : Instr) (s : State) : InBounds i s (start k s) :=
  .of_registers ⟨rfl, rfl, rfl, rfl, rfl⟩ rfl rfl

theorem complete_inBounds (s : State) : InBounds i s (complete s) :=
  .of_registers ⟨rfl, rfl, rfl, rfl, rfl⟩ rfl rfl

theorem takeFault_inBounds (c : Cause) (s : State) : InBounds i s (takeFault c s) :=
  .of_registers ⟨rfl, rfl, rfl, rfl, rfl⟩ rfl rfl

/-! ### Faults -/

/-- What an imprecise fault of `i` in `s` may leave unspecified: bytes, if `i` stores to bytes;
cells below ELIM, if it stores to cells (R227 (a), (d)). -/
def Unspec.inBounds (i : Instr) (s : State) (u : Unspec) : Prop :=
  (u.bytes = true → readsBytesOnly i = false) ∧ (writesElems i = false → u.cells = .none) ∧
    ((u.cells.span s).2 = 0 ∨ (u.cells.span s).1 + (u.cells.span s).2 ≤ s.elim.toNat)

theorem unspecify_inBounds {u : Unspec} (h : u.inBounds i s) (r : State) :
    InBounds i s (unspecify u s r) := by
  obtain ⟨hbytes, hcells, hspan⟩ := h
  refine ⟨rfl, rfl, rfl, rfl, rfl, fun hi => if_neg fun hu => ?_, fun hi => ?_, fun w => ?_,
    fun w => ⟨freeCells_wf w _ _ _, fun j hj => ?_⟩⟩
  · exact Bool.noConfusion (hi.symm.trans (hbytes hu))
  · unfold unspecify
    rw [hcells hi]
    rfl
  · unfold unspecify
    dsimp only
    split
    · exact ⟨freeBytes_wf w _ _ _, fun a ha => by rw [read_freeBytes w, if_neg (by omega)]⟩
    · exact ⟨w, fun _ _ => rfl⟩
  · exact (read_freeCells w _ _ _ j).trans (if_neg (by omega))

/-- After a fault: nothing changed, or what is unspecified, or for SizeMismatch what the body did
(R227 (b), (d), (e)). -/
theorem faultState_inBounds {u : Option Unspec} (c : Cause) (hu : ∀ v ∈ u, v.inBounds i s)
    (hr : c = .sizeMismatch → InBounds i s r) : InBounds i s (faultState u c s r) := by
  cases u with
  | none => exact takeFault_inBounds c s
  | some v =>
    by_cases hc : c = .sizeMismatch
    · rw [hc, faultState_sizeMismatch]
      exact (hr hc).trans (takeFault_inBounds _ r)
    · rw [faultState_imprecise v hc]
      exact (unspecify_inBounds (hu v rfl) r).trans (takeFault_inBounds c _)

/-- A command's body ends in bounds wherever its end state counts: where it completes, and where it
raises SizeMismatch (R227 (e)). -/
def EndsInBounds {α : Type} (i : Instr) (s : State) (a : Res α) : Prop :=
  ∀ r, (∃ x, a = .ok x r) ∨ a = .raise .sizeMismatch r → InBounds i s r

theorem EndsInBounds.of_state {α : Type} {a : Res α} (h : InBounds i s a.state) :
    EndsInBounds i s a := by
  rintro r (⟨x, rfl⟩ | rfl) <;> exact h

theorem EndsInBounds.andThen {α β : Type} {a : Res α} {f : α → State → Res β}
    (h : EndsInBounds i s a) (hf : ∀ x t, a = .ok x t → EndsInBounds i t (f x t)) :
    EndsInBounds i s (a.andThen f) := by
  rintro r (⟨y, hr⟩ | hr)
  · obtain ⟨x, t, ht, hr⟩ := Res.andThen_eq_ok.mp hr
    exact (h t (.inl ⟨x, ht⟩)).trans (hf x t ht r (.inl ⟨y, hr⟩))
  · rcases Res.andThen_eq_raise.mp hr with hr | ⟨x, t, ht, hr⟩
    · exact h r (.inr hr)
    · exact (h t (.inl ⟨x, ht⟩)).trans (hf x t ht r (.inr hr))

theorem runCommand_inBounds {u : Option Unspec} {body : State → Res Unit}
    (h : runCommand i u body s = .next t)
    (hu : ∀ v ∈ u, (v.bytes = true → readsBytesOnly i = false) ∧ v.cells = (memoryWritten i).2)
    (hb : openingCheck i s = none → EndsInBounds i (start i s) (body (start i s))) :
    InBounds i s t := by
  rcases runCommand_cases h with ⟨-, rfl⟩ | ⟨-, c, -, rfl⟩ | ⟨-, hc, r, hr, rfl⟩ |
    ⟨-, hc, c, r, hr, rfl⟩
  case inl => exact .refl _
  case inr.inl => exact takeFault_inBounds c s
  case inr.inr.inl =>
    exact ((start_inBounds i s).trans (hb hc r (.inl ⟨(), hr⟩))).trans (complete_inBounds r)
  case inr.inr.inr =>
    refine faultState_inBounds c (fun v hv => ?_) ?_
    · obtain ⟨hbytes, hcells⟩ := hu v hv
      exact ⟨hbytes, fun hi => hcells.trans (memoryWritten_cells hi),
        hcells ▸ memoryWritten_below hc⟩
    · rintro rfl
      exact (start_inBounds i s).trans (hb hc r (.inr hr))

theorem runItem_inBounds {u : Option Unspec} {check : State → Option Cause}
    {body : State → Res Unit} (h : runItem u check body s = .next t)
    (hu : check s = none → ∀ v ∈ u, v.inBounds i s)
    (hb : check s = none → EndsInBounds i s (body s)) : InBounds i s t := by
  rcases runItem_cases h with ⟨-, rfl⟩ | ⟨-, c, -, rfl⟩ | ⟨-, hc, hr⟩ | ⟨-, hc, c, r, hr, rfl⟩
  case inl => exact .refl _
  case inr.inl => exact takeFault_inBounds c s
  case inr.inr.inl => exact hb hc t (.inl ⟨(), hr⟩)
  case inr.inr.inr =>
    refine faultState_inBounds c (hu hc) ?_
    rintro rfl
    exact hb hc r (.inr hr)

/-! ### What raises SizeMismatch

Only the end-of-stream check of DECODE does (R189, R217): the decoder of a block does not, so that
what it stored before it raised does not count. -/

/-- The operation does not raise SizeMismatch. -/
def NoSizeMismatch {α : Type} (a : Res α) : Prop :=
  ∀ t, a ≠ .raise .sizeMismatch t

theorem NoSizeMismatch.ok {α : Type} (a : α) (s : State) : NoSizeMismatch (.ok a s) :=
  fun _ h => by cases h

theorem NoSizeMismatch.raise {α : Type} {c : Cause} (hc : c ≠ .sizeMismatch) (s : State) :
    NoSizeMismatch (.raise c s : Res α) :=
  fun _ h => hc (by cases h; rfl)

theorem NoSizeMismatch.ite {α : Type} {P : Prop} [Decidable P] {a b : Res α}
    (ha : NoSizeMismatch a) (hb : NoSizeMismatch b) : NoSizeMismatch (if P then a else b) := by
  split
  · exact ha
  · exact hb

theorem NoSizeMismatch.andThen {α β : Type} {a : Res α} {f : α → State → Res β}
    (h : NoSizeMismatch a) (hf : ∀ x t, NoSizeMismatch (f x t)) : NoSizeMismatch (a.andThen f) := by
  intro t ht
  rcases Res.andThen_eq_raise.mp ht with ht | ⟨x, r, -, ht⟩
  · exact h t ht
  · exact hf x r t ht

theorem NoSizeMismatch.times {f : State → Res Unit} (hf : ∀ s, NoSizeMismatch (f s)) (n : Nat)
    (s : State) : NoSizeMismatch (Res.times f n s) := by
  induction n generalizing s with
  | zero => exact .ok () s
  | succ n ih => exact .andThen (hf s) fun _ t => ih t

theorem readField_noSizeMismatch (n : Nat) (s : State) : NoSizeMismatch (readField n s) :=
  .ite (.ok _ _) (.raise (by decide) s)

theorem scanZeros_noSizeMismatch (n : Nat) (s : State) : NoSizeMismatch (scanZeros n s) := by
  unfold scanZeros
  split
  · exact .raise (by decide) s
  · exact .ok _ _

theorem decCodeword_noSizeMismatch (s : State) : NoSizeMismatch (decCodeword s) :=
  .andThen (readField_noSizeMismatch _ s) fun _ t =>
    .andThen (scanZeros_noSizeMismatch _ t) fun _ t =>
      .ite (.ite (.ok _ _) (.raise (by decide) t))
        (.andThen (readField_noSizeMismatch _ t) fun _ t => .ite (.ok _ _) (.raise (by decide) t))

theorem decElem_noSizeMismatch (s : State) : NoSizeMismatch (decElem s) :=
  .andThen (decCodeword_noSizeMismatch s) fun _ _ => .ok _ _

theorem checkCount_noSizeMismatch (c : Nat) (s : State) : NoSizeMismatch (checkCount c s) :=
  .ite (.raise (by decide) s) (.ok _ _)

theorem literalRun_noSizeMismatch (c : Nat) (s : State) : NoSizeMismatch (literalRun c s) :=
  .andThen (checkCount_noSizeMismatch c s) fun _ t =>
    .andThen (.times decElem_noSizeMismatch c t) fun _ _ => .ok _ _

theorem repeatedRun_noSizeMismatch (c : Nat) (s : State) : NoSizeMismatch (repeatedRun c s) :=
  .andThen (checkCount_noSizeMismatch c s) fun _ t =>
    .andThen (.andThen (readField_noSizeMismatch _ t) fun _ _ => .ok _ _) fun _ t =>
      .andThen (.times (fun _ => .ok _ _) c t) fun _ _ => .ok _ _

theorem afterMarker_noSizeMismatch (b : Nat) (s : State) : NoSizeMismatch (afterMarker b s) :=
  .ite (.raise (by decide) s) (.ite (literalRun_noSizeMismatch b s)
    (.ite (repeatedRun_noSizeMismatch _ s) (repeatedRun_noSizeMismatch _ s)))

theorem decSegments_noSizeMismatch (fuel : Nat) (s : State) :
    NoSizeMismatch (decSegments fuel s) := by
  induction fuel generalizing s with
  | zero => exact .ok () s
  | succ fuel ih =>
    exact .ite (.ok () s) (.andThen (.andThen (readField_noSizeMismatch 8 s) fun b t =>
      afterMarker_noSizeMismatch b t) fun _ t => ih t)

theorem decRow_noSizeMismatch (n : Nat) (s : State) : NoSizeMismatch (decRow n s) :=
  .andThen (decSegments_noSizeMismatch n _) fun _ _ => .ok _ _

theorem decBlock_noSizeMismatch (s : State) : NoSizeMismatch (decBlock s) :=
  .andThen (.andThen (readField_noSizeMismatch _ s) fun _ _ => .ok _ _) fun _ t =>
    .andThen (.ite (decRow_noSizeMismatch _ t) (.times decElem_noSizeMismatch _ t))
      fun _ _ => .ok _ _

/-! ### The decoders that store to cells -/

/-- A decoding operation that stores to at most `n` cells from EIDX on, all of them below ELIM. -/
theorem EndsInBounds.of_fills {u : Touch} {a : Res Unit} {n : Nat} (hk : Keeps u s a.state)
    (hu : u.bytes = false) (hi : writesElems i = true) (hns : NoSizeMismatch a)
    (hok : ∀ r, a = .ok () r → ∃ c, c ≤ n ∧ Fills c s r) (hn : s.eidx.toNat + n ≤ s.elim.toNat) :
    EndsInBounds i s a := by
  rintro r (⟨_, hr⟩ | hr)
  · obtain ⟨c, hc, hf⟩ := hok r hr
    exact (keeps_of_ok hr hk).inBounds_of_fills hu hi hf (by omega)
  · exact absurd hr (hns r)

theorem afterMarker_endsInBounds (hi : writesElems i = true) (b : Nat)
    (hn : s.eidx.toNat + s.rem.toNat ≤ s.elim.toNat) : EndsInBounds i s (afterMarker b s) :=
  .of_fills (afterMarker_keeps b s) rfl hi (afterMarker_noSizeMismatch b s)
    (fun _ hr => by
      obtain ⟨c, hc, -, hf⟩ := afterMarker_puts hr
      exact ⟨c, hc, hf⟩) hn

theorem decRow_endsInBounds (hi : writesElems i = true) {n : Nat}
    (hn : s.eidx.toNat + n ≤ s.elim.toNat) : EndsInBounds i s (decRow n s) :=
  .of_fills (decRow_keeps n s) rfl hi (decRow_noSizeMismatch n s) (fun _ => decRow_fills) hn

theorem decBlocks_endsInBounds (hi : writesElems i = true) (hb : s.blkw ≠ 0) {n : Nat}
    (hn : s.eidx.toNat + n * s.blkw.toNat ≤ s.elim.toNat) :
    EndsInBounds i s (Res.times decBlock n s) :=
  .of_fills (Res.times_rel Keeps.refl Keeps.trans decBlock_keeps n s) rfl hi
    (.times decBlock_noSizeMismatch n s) (fun _ => decBlocks_fills n hb) hn

theorem decBlock_endsInBounds (hi : writesElems i = true) (hb : s.blkw ≠ 0)
    (hn : s.eidx.toNat + s.blkw.toNat ≤ s.elim.toNat) : EndsInBounds i s (decBlock s) :=
  .of_fills (decBlock_keeps s) rfl hi (decBlock_noSizeMismatch s) (fun _ => decBlock_fills hb) hn

/-- The header step rewinds, and moves EIDX no further (R184). -/
theorem rdHeader_ok_eidx (h : rdHeader s = .ok () t) : t.eidx = 0 := by
  have hk : Keeps { cfg := true, total := true } (rewind s) (rdHeader s).state :=
    Keeps.andThen (readField_keeps _ _) fun _ t => Keeps.andThen (readField_keeps _ t) fun _ t =>
      Keeps.andThen (readField_keeps _ t) fun _ t => Keeps.andThen (readField_keeps _ t) fun _ t =>
        Keeps.andThen (readField_keeps _ t) fun _ t => acceptHeader_keeps _ _ _ _ _ t
  exact (keeps_of_ok h hk).eidx rfl

theorem checkSize_inBounds (s : State) : InBounds i s (checkSize s).state := by
  unfold checkSize
  split <;> exact .refl s

/-- DECODE stores to the `BLKW * BLKC` cells of its array (R192). -/
theorem decodeStream_endsInBounds (hg : s.geometryLegal) :
    EndsInBounds .decode s (decodeStream s) := by
  obtain ⟨hb, -, hn⟩ := hg
  refine .andThen (.of_state ((rdHeader_keeps s).inBounds rfl nofun)) fun _ t ht => ?_
  have hk := keeps_of_ok ht (rdHeader_keeps s)
  refine .andThen (decBlocks_endsInBounds rfl (hk.blkw ▸ hb) ?_) fun _ t _ =>
    .of_state (checkSize_inBounds t)
  rw [rdHeader_ok_eidx ht, hk.blkw, hk.blkc, hk.elim, Nat.mul_comm]
  simpa using hn

/-! ### Every instruction -/

/-- A marker consumes its byte, and then its segment stores to cells that the row still lacks (R91,
R166). -/
theorem marker_inBounds (hi : writesElems i = true) {b : Nat}
    (h : runItem (some rowItemUnspec) checkRowItem
      (fun s => (readField 8 s).andThen fun _ s => afterMarker b s) s = .next t) :
    InBounds i s t := by
  refine runItem_inBounds h (fun hc => ?_) fun hc => ?_
  · rintro _ ⟨⟩
    exact ⟨nofun, fun hf => Bool.noConfusion (hf.symm.trans hi),
      .inr (checkRowItem_none_iff.mp hc).2⟩
  · have hk : Keeps {} s (readField 8 s).state := readField_keeps 8 s
    refine .andThen (.of_state (hk.inBounds rfl nofun)) fun _ r hr =>
      afterMarker_endsInBounds hi b ?_
    have hkr := keeps_of_ok hr hk
    rw [hkr.eidx rfl, rem_of_ok hr (readField_rem 8 s), hkr.elim]
    exact (checkRowItem_none_iff.mp hc).2

/-- An item that stores to no memory, with a fault or without. -/
theorem registerItem_inBounds {u : Touch} {v : Unspec} {check : State → Option Cause}
    {body : State → Res Unit} (h : runItem (some v) check body s = .next t)
    (hv : v.bytes = false ∧ v.cells = .none) (hk : Keeps u s (body s).state)
    (hu : u.bytes = false ∧ u.cells = false) : InBounds i s t := by
  obtain ⟨hbytes, hcells⟩ := hv
  refine runItem_inBounds h (fun _ => ?_) fun _ => .of_state (hk.inBounds hu.2 fun hb => ?_)
  · rintro _ ⟨⟩
    exact ⟨fun hb => Bool.noConfusion (hbytes.symm.trans hb), fun _ => hcells,
      .inl (by rw [hcells]; rfl)⟩
  · exact Bool.noConfusion (hu.1.symm.trans hb)

theorem tagItem_inBounds {tag : Nat} (h : tagItem tag s = .next t) : InBounds i s t :=
  registerItem_inBounds h ⟨rfl, rfl⟩
    (Keeps.andThen (readField_keeps 8 s) fun _ t => acceptTag_keeps tag t) ⟨rfl, rfl⟩

/-- No instruction changes a memory where it may not (R61, R67, R227 (a)). -/
theorem exec_inBounds (h : exec i s = .next t) : InBounds i s t := by
  cases i <;> dsimp only [exec] at h
  case clrFault =>
    unfold execClrFault at h
    split at h <;> cases h
    · exact .refl s
    · exact .of_registers ⟨rfl, rfl, rfl, rfl, rfl⟩ rfl rfl
  case cmdReserved => exact runCommand_inBounds h (by simp) fun _ => .of_state (.refl _)
  case writeBits | setBit =>
    exact runCommand_inBounds h (by simp) fun _ =>
      .of_state ((writeField_keeps _ _ _).inBounds rfl fun _ => rfl)
  case alignWr =>
    exact runCommand_inBounds h (by simp) fun _ =>
      .of_state ((alignWrite_keeps _).inBounds rfl fun _ => rfl)
  case patchSize =>
    exact runCommand_inBounds h (by simp) fun _ =>
      .of_state ((patchSize_keeps _).inBounds rfl fun _ => rfl)
  case alignRd =>
    exact runCommand_inBounds h (by simp) fun _ =>
      .of_state (Keeps.inBounds (u := {}) (moveOn_keeps _ _) rfl nofun)
  case readBits =>
    exact runCommand_inBounds h (by simp) fun _ => .of_state <|
      .andThen (Keeps.inBounds (u := {}) (readField_keeps _ _) rfl nofun) fun v t =>
        setVal_inBounds v t
  case scanZeros =>
    exact runCommand_inBounds h (by simp) fun _ => .of_state <|
      .andThen (Keeps.inBounds (u := {}) (scanZeros_keeps _ _) rfl nofun) fun _ _ =>
        .of_registers ⟨rfl, rfl, rfl, rfl, rfl⟩ rfl rfl
  case decCw =>
    exact runCommand_inBounds h (by decide) fun _ => .of_state <|
      .andThen (Keeps.inBounds (u := {}) (decCodeword_keeps _) rfl nofun) fun _ t =>
        setVal_inBounds _ t
  case decDiff =>
    exact runCommand_inBounds h (by decide) fun _ => .of_state <|
      .andThen (Keeps.inBounds (u := {}) (decCodeword_keeps _) rfl nofun) fun _ t =>
        (setVal_inBounds _ t).trans ((setPrev_keeps _ _).inBounds rfl nofun)
  case encCw =>
    exact runCommand_inBounds h (by decide) fun _ =>
      .of_state ((encCodeword_keeps _ _).inBounds rfl fun _ => rfl)
  case encDiff =>
    exact runCommand_inBounds h (by decide) fun _ => .of_state <|
      .andThen ((encCodeword_keeps _ _).inBounds rfl fun _ => rfl) fun _ t =>
        (setPrev_keeps _ t).inBounds rfl nofun
  case encRow =>
    exact runCommand_inBounds h (by decide) fun _ =>
      .of_state ((encRow_keeps _ _).inBounds rfl fun _ => rfl)
  case wrHeader =>
    exact runCommand_inBounds h (by decide) fun _ =>
      .of_state ((wrHeader_keeps _).inBounds rfl fun _ => rfl)
  case encBlock =>
    exact runCommand_inBounds h (by decide) fun _ =>
      .of_state ((encBlock_keeps _).inBounds rfl fun _ => rfl)
  case encode =>
    exact runCommand_inBounds h (by decide) fun _ =>
      .of_state ((encodeStream_keeps _).inBounds rfl fun _ => rfl)
  case rdHeader =>
    exact runCommand_inBounds h (by decide) fun _ =>
      .of_state ((rdHeader_keeps _).inBounds rfl nofun)
  case decRow =>
    refine runCommand_inBounds h (by decide) fun hc => decRow_endsInBounds rfl ?_
    obtain ⟨-, -, hn⟩ := checkRow_none_iff.mp hc
    exact hn
  case decBlock =>
    refine runCommand_inBounds h (by decide) fun hc => ?_
    obtain ⟨-, hb, hn, -⟩ := checkBlock_none_iff.mp hc
    exact decBlock_endsInBounds (s := start .decBlock s) rfl hb hn
  case decode =>
    exact runCommand_inBounds h (by decide) fun hc =>
      decodeStream_endsInBounds (s := start .decode s) (checkDecode_none_iff.mp hc).2
  case hdr =>
    exact registerItem_inBounds h ⟨rfl, rfl⟩
      (.andThen (.trans _ _ _ (.mono (rewind_keeps s) rfl) (readField_keeps _ _)) fun _ t =>
        .mono (v := { cfg := true, eidx := true, total := true, blk := true })
          (acceptHeader_keeps _ _ _ _ _ t) rfl) ⟨rfl, rfl⟩
  case raw =>
    refine runItem_inBounds h (fun hc => ?_) fun hc => ?_
    · rintro _ ⟨⟩
      exact ⟨nofun, nofun, .inr (checkBlock_none_iff.mp hc).2.2.1⟩
    · obtain ⟨-, hb, hn, -⟩ := checkBlock_none_iff.mp hc
      have hb0 : s.blkw.toNat ≠ 0 := fun h0 => hb (BitVec.eq_of_toNat_eq h0)
      have hk : Keeps {} s (readField s.w s).state := readField_keeps s.w s
      refine .andThen (.of_state (hk.inBounds rfl nofun)) fun _ r hr => ?_
      refine .of_fills (produce_keeps _ r) rfl rfl (.ok _ _)
        (fun _ he => ⟨1, le_refl 1, by cases he; exact produce_fills _ r⟩) ?_
      rw [(keeps_of_ok hr hk).eidx rfl, (keeps_of_ok hr hk).elim]
      omega
  case cwUnary =>
    exact registerItem_inBounds (u := {}) h ⟨rfl, rfl⟩
      (.andThen (readField_keeps _ s) fun _ t => unaryForm_keeps _ _ t) ⟨rfl, rfl⟩
  case cwEscape =>
    exact registerItem_inBounds (u := {}) h ⟨rfl, rfl⟩
      (.andThen (readField_keeps _ s) fun _ t => escapeForm_keeps _ _ t) ⟨rfl, rfl⟩
  case litDiff =>
    refine runItem_inBounds h (fun hc => ?_) fun _ => .of_state ?_
    · rintro _ ⟨⟩
      exact ⟨nofun, nofun, .inr (checkRowItem_none_iff.mp hc).2⟩
    · exact Keeps.inBounds (u := {})
        (.andThen (readField_keeps _ s) fun _ t => takeDiff_keeps _ t) rfl nofun
  case pad =>
    exact runItem_inBounds h (by simp) fun _ =>
      .of_state (Keeps.inBounds (u := {}) (moveOn_keeps _ s) rfl nofun)
  case markReserved | markContinued | markLiteral | markConstant => exact marker_inBounds rfl h
  case tag0 | tag1 | tag2 | tag3 | tag4 | tag6 | tagReserved => exact tagItem_inBounds h

/-! ## What an instruction may depend on -/

/-- The opening checks read registers alone. -/
theorem openingCheck_agree (h : Agree s t) (i : Instr) : openingCheck i t = openingCheck i s := by
  obtain ⟨m, e, rfl, -⟩ := h.cases
  cases i <;> rfl

/-- Of the registers, what the bodies of the commands read as operands is the same. -/
theorem Agree.operands (h : Agree s t) : t.val = s.val ∧ t.width = s.width ∧ t.blkw = s.blkw ∧
    t.acc = s.acc ∧ t.valDiff = s.valDiff ∧ t.valElem = s.valElem := by
  obtain ⟨m, e, rfl, -⟩ := h.cases
  exact ⟨rfl, rfl, rfl, rfl, rfl, rfl⟩

theorem marker_agree {b : Nat} {s' t' : State} (h : Agree s t)
    (hs : runItem (some rowItemUnspec) checkRowItem
      (fun s => (readField 8 s).andThen fun _ s => afterMarker b s) s = .next s')
    (ht : runItem (some rowItemUnspec) checkRowItem
      (fun s => (readField 8 s).andThen fun _ s => afterMarker b s) t = .next t') : Agree s' t' := by
  refine runItem_agree h hs ht ?_
    (Same.andThen (readField_same h 8) fun _ _ _ _ h => afterMarker_same h b)
  obtain ⟨m, e, rfl, -⟩ := h.cases
  rfl

theorem tagItem_agree {tag : Nat} {s' t' : State} (h : Agree s t) (hs : tagItem tag s = .next s')
    (ht : tagItem tag t = .next t') : Agree s' t' := by
  refine runItem_agree h hs ht ?_
    (Same.andThen (readField_same h 8) fun _ _ _ _ h => acceptTag_same h tag)
  obtain ⟨m, e, rfl, -⟩ := h.cases
  rfl

/-- No instruction depends on a byte or a cell at or above the limits (R61). -/
theorem exec_agree {s' t' : State} (h : Agree s t) (hs : exec i s = .next s')
    (ht : exec i t = .next t') : Agree s' t' := by
  have hc := openingCheck_agree h i
  have hcodec : checkCodec t = checkCodec s := openingCheck_agree h .encDiff
  have hdecode : checkDecode t = checkDecode s := openingCheck_agree h .decode
  have hblock : checkBlock t = checkBlock s := openingCheck_agree h .decBlock
  cases i <;> dsimp only [exec] at hs ht
  case clrFault =>
    obtain ⟨m, e, rfl, -⟩ := h.cases
    unfold execClrFault at hs ht
    by_cases hbusy : s.status.busy = true
    · rw [if_pos hbusy] at hs ht
      cases hs; cases ht
      exact h
    · rw [if_neg hbusy] at hs ht
      cases hs; cases ht
      exact h.update (g := returnFromFault) (fun _ _ => rfl) rfl rfl
  case cmdReserved => exact runCommand_agree h hs ht hc fun _ _ _ _ h => ⟨rfl, h⟩
  case writeBits =>
    refine runCommand_agree h hs ht hc fun _ s t _ h => ?_
    obtain ⟨hval, hwidth, -⟩ := h.operands
    rw [hval, hwidth]
    exact writeField_same h _ _
  case readBits =>
    refine runCommand_agree h hs ht hc fun _ s t _ h => ?_
    obtain ⟨-, hwidth, -⟩ := h.operands
    rw [hwidth]
    exact Same.andThen (readField_same h _) fun v _ _ _ h => ⟨rfl, h.setVal v⟩
  case setBit => exact runCommand_agree h hs ht hc fun _ _ _ _ h => writeField_same h 1 1
  case alignWr => exact runCommand_agree h hs ht hc fun _ _ _ _ h => alignWrite_same h
  case alignRd => exact runCommand_agree h hs ht hc fun _ _ _ _ h => ⟨rfl, h.alignRead⟩
  case scanZeros =>
    refine runCommand_agree h hs ht hc fun _ s t _ h => ?_
    obtain ⟨-, hwidth, -⟩ := h.operands
    rw [hwidth]
    exact Same.andThen (scanZeros_same h _) fun z _ _ _ h => ⟨rfl, h.update
      (g := fun s => { setVal z.1 s with status := s.status.setFound z.2 }) (fun _ _ => rfl) rfl rfl⟩
  case encDiff =>
    refine runCommand_agree h hs ht hc fun _ s t _ h => ?_
    obtain ⟨-, -, hpv, -⟩ := h.regs
    obtain ⟨-, -, -, -, -, helem⟩ := h.operands
    rw [hpv, helem]
    refine Same.andThen (encCodeword_same h _) fun _ s t _ h => ?_
    obtain ⟨-, -, -, -, -, helem⟩ := h.operands
    rw [helem]
    exact ⟨rfl, h.setPrev _⟩
  case decDiff =>
    refine runCommand_agree h hs ht hc fun _ s t _ h =>
      Same.andThen (decCodeword_same h) fun _ s t _ h => ?_
    obtain ⟨-, -, -, hnext, -⟩ := h.regs
    rw [hnext]
    exact ⟨rfl, (h.setVal _).setPrev _⟩
  case encCw =>
    refine runCommand_agree h hs ht hc fun _ s t _ h => ?_
    obtain ⟨-, -, -, -, hdiff, -⟩ := h.operands
    rw [hdiff]
    exact encCodeword_same h _
  case decCw =>
    refine runCommand_agree h hs ht hc fun _ s t _ h =>
      Same.andThen (decCodeword_same h) fun _ s t _ h => ?_
    obtain ⟨-, -, -, hacc, -⟩ := h.operands
    rw [hacc]
    exact ⟨rfl, h.setVal _⟩
  case encRow =>
    refine runCommand_agree h hs ht hc fun _ s t ⟨q, hq, hck⟩ h => ?_
    obtain ⟨-, -, hblkw, -⟩ := h.operands
    obtain ⟨-, -, hn⟩ := checkRow_none_iff.mp hck
    rw [hblkw]
    exact encRow_same h (hq ▸ hn)
  case decRow =>
    refine runCommand_agree h hs ht hc fun _ s t _ h => ?_
    obtain ⟨-, -, hblkw, -⟩ := h.operands
    rw [hblkw]
    exact decRow_same h _
  case wrHeader => exact runCommand_agree h hs ht hc fun _ _ _ _ h => wrHeader_same h
  case rdHeader => exact runCommand_agree h hs ht hc fun _ _ _ _ h => rdHeader_same h
  case encBlock =>
    refine runCommand_agree h hs ht hc fun _ s t ⟨q, hq, hck⟩ h => ?_
    obtain ⟨-, hb, hn, -⟩ := checkBlock_none_iff.mp hck
    exact encBlock_same h (hq ▸ hb) (hq ▸ hn)
  case decBlock => exact runCommand_agree h hs ht hc fun _ s t _ h => decBlock_same s t h
  case patchSize => exact runCommand_agree h hs ht hc fun _ _ _ _ h => patchSize_same h
  case encode =>
    refine runCommand_agree h hs ht hc fun _ s t ⟨q, hq, hck⟩ h => ?_
    obtain ⟨⟨-, hsw⟩, hb, -, hn⟩ := checkEncode_none_iff.mp hck
    exact encodeStream_same h (hq ▸ hsw) (hq ▸ hb) (hq ▸ hn)
  case decode => exact runCommand_agree h hs ht hc fun _ _ _ _ h => decodeStream_same h
  case hdr =>
    exact runItem_agree h hs ht hdecode <|
      Same.andThen (readField_same h.rewind _) fun _ _ _ _ h => acceptHeader_same h _ _ _ _ _
  case raw =>
    refine runItem_agree h hs ht hblock ?_
    rw [h.regs.1]
    refine Same.andThen (readField_same h _) fun _ s t _ h => ?_
    rw [h.regs.1]
    exact ⟨rfl, h.produce _⟩
  case cwUnary =>
    refine runItem_agree h hs ht hcodec ?_
    obtain ⟨-, hsw, -⟩ := h.regs
    rw [hsw]
    exact Same.andThen (readField_same h _) fun _ _ _ _ h => unaryForm_same h _ _
  case cwEscape =>
    refine runItem_agree h hs ht hcodec ?_
    obtain ⟨hw, hsw, -⟩ := h.regs
    rw [hw, hsw]
    exact Same.andThen (readField_same h _) fun _ _ _ _ h => escapeForm_same h _ _
  case litDiff =>
    refine runItem_agree h hs ht ?_ ?_
    · obtain ⟨m, e, rfl, -⟩ := h.cases
      rfl
    · rw [h.regs.1]
      refine Same.andThen (readField_same h _) fun _ s t _ h => ?_
      rw [h.regs.1]
      exact ⟨rfl, h.takeDiff _⟩
  case pad => exact runItem_agree h hs ht rfl ⟨rfl, h.moveOn _⟩
  case markReserved | markContinued | markLiteral | markConstant => exact marker_agree h hs ht
  case tag0 | tag1 | tag2 | tag3 | tag4 | tag6 | tagReserved => exact tagItem_agree h hs ht

/-- Settles O17: what each instruction keeps (`InBounds`), and that it ends alike in states that
agree below the limits (`Agree`). -/
theorem accessesStayInBounds : Obligations.AccessesStayInBounds := by
  refine ⟨fun i s t hbm hem h => ?_, fun i s s' t t' hbm hem hbm' hem' hagree hs hs' => ?_⟩
  · have hk := exec_inBounds h
    exact ⟨(hk.bytes hbm).2, (hk.cells hem).2, hk.bm, hk.em, hk.limit, hk.elim, hk.blkw, hk.blkc,
      hk.width⟩
  · exact (exec_agree ⟨hagree, hbm, hem, hbm', hem'⟩ hs hs').below

end Sys2Proof.Machine
end

section
/-! The decoder inverts the encoder (30_encoding.md R80 to R102): field by field, then format by
format. -/

namespace Sys2Proof

open Machine

/-! ## Fields -/

theorem bitsOf_succ (v n : Nat) : bitsOf v (n + 1) = v.testBit 0 :: bitsOf (v / 2) n := by
  rw [bitsOf, List.range_succ_eq_map, List.map_cons, List.map_map, bitsOf]
  congr 2
  funext i
  exact Nat.testBit_succ v i

/-- The bits of a field stand for the low bits of its value (R53). -/
theorem natOf_bitsOf (v n : Nat) : natOf (bitsOf v n) = v % 2 ^ n := by
  induction n generalizing v with
  | zero => simp [bitsOf_zero, natOf, Nat.mod_one]
  | succ n ih =>
    rw [bitsOf_succ, natOf, ih, pow_succ', Nat.mod_mul, Nat.testBit_zero]
    congr 1
    rcases Nat.mod_two_eq_zero_or_one v with h | h <;> simp [h]

theorem natOf_append (as bs : List Bool) :
    natOf (as ++ bs) = natOf as + 2 ^ as.length * natOf bs := by
  induction as with
  | nil => simp [natOf]
  | cons a as ih =>
    rw [List.cons_append, natOf, natOf, ih, List.length_cons, pow_succ']
    ring

/-- A field is taken off the bits it begins. -/
theorem takeField_append {n : Nat} {bits : List Bool} (h : bits.length = n) (rest : List Bool) :
    takeField n (bits ++ rest) = some (natOf bits, rest) := by
  subst h
  rw [takeField, if_pos (by simp), List.take_left, List.drop_left]

theorem takeField_bitsOf {v n : Nat} (h : v < 2 ^ n) (rest : List Bool) :
    takeField n (bitsOf v n ++ rest) = some (v, rest) := by
  rw [takeField_append (bitsOf_length v n), natOf_bitsOf, Nat.mod_eq_of_lt h]

theorem decodeField_bitsOf {v n : Nat} (h : v < 2 ^ n) (f : Nat → Instr) (rest : List Bool) :
    decodeField n f (bitsOf v n ++ rest) = .ok (f v, rest) := by
  rw [decodeField, takeField_bitsOf h]

/-- An item of one field. -/
theorem decodeField_encode {c : Ctx} {i : Instr} {v n : Nat} {f : Nat → Instr}
    (hi : encodeFields c i = [(v, n)]) (hv : v < 2 ^ n) (hf : f v = i) (rest : List Bool) :
    decodeField n f (encode c i ++ rest) = .ok (i, rest) := by
  rw [encode, hi, fieldBits_cons, fieldBits_nil, List.append_nil, decodeField_bitsOf hv, hf]

/-! ## Commands, markers and type tags -/

theorem opcodes_eq_map_fst : opcodes = commandTable.map Prod.fst := rfl

/-- An opcode that R101 does not list (R102). -/
theorem decodeOpcode_reserved {op : BitVec 8} (h : opcodes.contains op = false) :
    decodeOpcode op = .cmdReserved op := by
  have hnone : commandTable.lookup op = none := by
    rw [List.lookup_eq_none_iff]
    intro p hp
    rw [opcodes_eq_map_fst] at h
    have hne : op ≠ p.1 := by
      rintro rfl
      simp at h
      exact h _ hp
    simpa using hne
  rw [decodeOpcode, hnone]

theorem decodeMarker_literal {n : BitVec 7} (h : n ≠ 0) :
    decodeMarker (BitVec.ofNat 8 n.toNat) = .markLiteral n := by
  have hn : n.toNat ≠ 0 := fun h0 => h (BitVec.eq_of_toNat_eq h0)
  have hlt := n.isLt
  have hv : (BitVec.ofNat 8 n.toNat).toNat = n.toNat := by
    rw [BitVec.toNat_ofNat]
    omega
  have hne : BitVec.ofNat 8 n.toNat ≠ 0 := fun h0 => hn (by rw [← hv, h0]; rfl)
  rw [decodeMarker, if_neg hne, if_pos (by rw [hv]; show _ ≤ 127; omega)]
  congr 1
  exact BitVec.eq_of_toNat_eq (by simp)

theorem decodeMarker_constant {b : BitVec 8} (h : Config.continuedMarker < b.toNat) :
    decodeMarker b = .markConstant b := by
  have hb : 128 < b.toNat := h
  have hne : b ≠ 0 := by
    rintro rfl
    exact absurd hb (by decide)
  rw [decodeMarker, if_neg hne, if_neg (by show ¬_ ≤ 127; omega), if_neg (by show ¬_ = 128; omega)]

/-- A type tag that R98 does not list (R99). -/
theorem decodeTag_reserved {b : BitVec 8} (h : tagByteReserved b = true) :
    decodeTag b = .tagReserved b := by
  have hne : ∀ k : BitVec 8, tagByteReserved k = false → b ≠ k := by
    rintro k hk rfl
    rw [h] at hk
    cases hk
  rw [decodeTag, if_neg (hne 0 rfl), if_neg (hne 1 rfl), if_neg (hne 2 rfl), if_neg (hne 3 rfl),
    if_neg (hne 4 rfl), if_neg (hne 6 rfl)]

/-! ## Codewords -/

theorem countZeros_terminated {z k : Nat} (h : z < k) (rest : List Bool) :
    countZeros k (List.replicate z false ++ true :: rest) = some (z, true, rest) := by
  induction z generalizing k with
  | zero =>
    obtain ⟨k, rfl⟩ : ∃ j, k = j + 1 := ⟨k - 1, by omega⟩
    rfl
  | succ z ih =>
    obtain ⟨k, rfl⟩ : ∃ j, k = j + 1 := ⟨k - 1, by omega⟩
    rw [List.replicate_succ, List.cons_append, countZeros, ih (by omega)]
    rfl

theorem countZeros_escape (k : Nat) (rest : List Bool) :
    countZeros k (List.replicate k false ++ rest) = some (k, false, rest) := by
  induction k with
  | zero => rfl
  | succ k ih =>
    rw [List.replicate_succ, List.cons_append, countZeros, ih]
    rfl

theorem decodeCodeword_unary {c : Ctx} {lit : BitVec 32} {m : BitVec 5} (hlit : lit.toNat < 2 ^ c.s)
    (hm : m.toNat < Config.unaryLimit) (rest : List Bool) :
    decodeCodeword c (encode c (.cwUnary lit m) ++ rest) = .ok (.cwUnary lit m, rest) := by
  have hesc : m.toNat < Config.escPrefix := lt_trans hm (by decide)
  rw [encode, encodeFields, fieldBits_cons, fieldBits_cons, fieldBits_nil, List.append_nil,
    bitsOf_two_pow, List.append_assoc, List.append_assoc, List.singleton_append, decodeCodeword,
    takeField_bitsOf hlit]
  dsimp only
  rw [countZeros_terminated hesc]
  simp [hm]

theorem decodeCodeword_escape {c : Ctx} {lit : BitVec 32} {e : BitVec 33}
    (hlit : lit.toNat < 2 ^ c.s) (he : e.toNat < 2 ^ (c.w + 1))
    (hv : escapeValid c.s lit.toNat (sext (c.w + 1) e.toNat) = true) (rest : List Bool) :
    decodeCodeword c (encode c (.cwEscape lit e) ++ rest) = .ok (.cwEscape lit e, rest) := by
  rw [encode, encodeFields, fieldBits_cons, fieldBits_cons, fieldBits_cons, fieldBits_nil,
    List.append_nil, bitsOf_zero_value, List.append_assoc, List.append_assoc, decodeCodeword,
    takeField_bitsOf hlit]
  dsimp only
  rw [countZeros_escape]
  dsimp only
  rw [takeField_bitsOf he]
  simp [hv]

/-! ## The header -/

/-- The header's fields as one number (R81). -/
theorem natOf_encode_hdr (c : Ctx) (total count width : BitVec 32) (slice tag : BitVec 8) :
    natOf (encode c (.hdr total count width slice tag)) =
      total.toNat + 2 ^ 32 * (count.toNat + 2 ^ 32 * (width.toNat + 2 ^ 32 *
        (slice.toNat + 2 ^ 8 * tag.toNat))) := by
  have field : ∀ {k : Nat} (x : BitVec k), natOf (bitsOf x.toNat k) = x.toNat := fun x => by
    rw [natOf_bitsOf, Nat.mod_eq_of_lt x.isLt]
  simp only [encode_hdr, natOf_append, bitsOf_length, field]

theorem decodeHeader_encode (c : Ctx) (total count width : BitVec 32) (slice tag : BitVec 8)
    (rest : List Bool) :
    decodeHeader (encode c (.hdr total count width slice tag) ++ rest) =
      .ok (.hdr total count width slice tag, rest) := by
  have ht := total.isLt
  have hc := count.isLt
  have hw := width.isLt
  have hs := slice.isLt
  rw [decodeHeader, takeField_append (encode_hdr_length c total count width slice tag),
    natOf_encode_hdr]
  dsimp only
  congr 3 <;> refine BitVec.eq_of_toNat_eq ?_ <;> rw [BitVec.toNat_ofNat] <;> omega

/-! ## Every row -/

/-- Settles O1: each row by the lemma of its format. -/
theorem decodeEncodeRoundTrip : Obligations.DecodeEncodeRoundTrip := by
  intro c i rest _ hi
  cases i <;> dsimp only [Instr.format, decodeAs]
  case hdr => exact decodeHeader_encode c _ _ _ _ _ rest
  case cwUnary lit m =>
    simp only [Instr.wf, Bool.and_eq_true, decide_eq_true_eq] at hi
    obtain ⟨hlit, hm⟩ := hi
    exact decodeCodeword_unary hlit hm rest
  case cwEscape lit e =>
    simp only [Instr.wf, Bool.and_eq_true, decide_eq_true_eq] at hi
    obtain ⟨⟨hlit, he⟩, hv⟩ := hi
    exact decodeCodeword_escape hlit he hv rest
  case raw x =>
    exact decodeField_encode rfl (of_decide_eq_true hi) (by simp) rest
  case litDiff d =>
    exact decodeField_encode rfl (of_decide_eq_true hi) (by simp) rest
  case pad p => exact decodeField_encode rfl (Nat.two_pow_pos _) rfl rest
  case markLiteral n =>
    exact decodeField_encode rfl (by have := n.isLt; omega)
      (decodeMarker_literal (of_decide_eq_true hi)) rest
  case markConstant b =>
    refine decodeField_encode rfl b.isLt ?_ rest
    rw [BitVec.ofNat_toNat, BitVec.setWidth_eq]
    exact decodeMarker_constant (of_decide_eq_true hi)
  case tagReserved b =>
    refine decodeField_encode rfl b.isLt ?_ rest
    rw [BitVec.ofNat_toNat, BitVec.setWidth_eq]
    exact decodeTag_reserved hi
  case cmdReserved op =>
    refine decodeField_encode rfl op.isLt ?_ rest
    rw [BitVec.ofNat_toNat, BitVec.setWidth_eq]
    exact decodeOpcode_reserved (Bool.not_eq_true' _ |>.mp hi)
  all_goals exact decodeField_encode (by rfl) (by decide) (by rfl) rest

end Sys2Proof
end

section
/-! Reads of different widths (20_memory.md R56). -/

namespace Sys2Proof.Machine

/-- Two fields that stand one after the other are one field (R56). -/
theorem fieldRead_add (m : Memory 8) (o a b : Nat) :
    fieldRead m o (a + b) = fieldRead m o a + fieldRead m (o + a) b * 2 ^ a := by
  induction b with
  | zero => simp [fieldRead]
  | succ b ih =>
    rw [← Nat.add_assoc, fieldRead, ih, fieldRead, ← Nat.add_assoc, pow_add]
    ring

/-- An aligned byte is the byte (R52, R53). -/
theorem fieldRead_byte (m : Memory 8) (a : Nat) :
    fieldRead m (8 * a) 8 = (Memory.read m a).toNat := by
  refine Nat.eq_of_testBit_eq fun i => ?_
  rw [testBit_fieldRead, BitVec.testBit_toNat]
  by_cases hi : i < 8
  · have hdiv : (8 * a + i) / 8 = a := by omega
    have hmod : (8 * a + i) % 8 = i := by omega
    simp [bitRead, hi, hdiv, hmod]
  · simp [hi, BitVec.getLsbD_of_ge _ i (not_lt.mp hi)]

/-- Settles O27, by induction on the width of the second field, and bit by bit. -/
theorem mixedWidthReads : Obligations.MixedWidthReads :=
  ⟨fieldRead_add, fieldRead_byte⟩

end Sys2Proof.Machine
end

section
/-! DECODE of a stream that the limit cuts short (43_blockframer.md R192, 60_exceptions.md R212,
R227): what an imprecise fault of DECODE leaves, and that the blocks or the header run into the limit. -/

namespace Sys2Proof.Machine

variable {s u : State}

/-! ## A fault of DECODE -/

/-- Where DECODE's body raises, what R227 (c) and (d) say is left. -/
theorem execDecode_raise {e : Cause} {r : State} (hs : s.ready) (hem : Memory.wf s.em)
    (hc : checkDecode s = none) (he : e ≠ .sizeMismatch)
    (hr : decodeStream (start .decode s) = .raise e r) :
    ∃ t, exec .decode s = .next t ∧ afterDecodeFault s r.cfg e t := by
  refine ⟨_, (runCommand_raise (i := .decode) (accepts_of_ready hs) hc hr).trans
    (congrArg Host.Outcome.next (faultState_imprecise _ he s r)), rfl, fun j hj => ?_⟩
  refine (read_freeCells hem s.freeDraws 0 (s.blkw.toNat * s.blkc.toNat) j).trans (if_neg ?_)
  omega

/-- DECODE accepts the host's part of an accepted header (R183). -/
theorem checkDecode_of_headerAccepted {total : BitVec 32} {slice tag : BitVec 8}
    (h : headerAccepted s total slice tag) : checkDecode s = none := by
  obtain ⟨htype, hgeometry, -, -⟩ := h
  exact checkDecode_none_iff.mpr ⟨htype, hgeometry⟩

/-! ## Where the limit cuts -/

variable {total : BitVec 32} {slice tag : BitVec 8} {blocks : List CodedBlock}

/-- A header that the limit cuts short (R212). -/
theorem decodeStream_cut_header {c : Ctx} (hl : s.limit.toNat < 14)
    (hb : holdsBelow s.bm s.limitBits 0
      (Sys2Proof.encode c (.hdr total s.blkc s.blkw slice tag))) :
    ∃ r, decodeStream s = .raise .readPastEnd r ∧ r.cfg = s.cfg := by
  obtain ⟨r, hr⟩ := (rdHeader_reads hb).2 hl
  exact ⟨r, by rw [decodeStream, hr, Res.andThen_raise], rdHeader_raise_cfg hr⟩

/-- Blocks take whole bytes, so a stream that is longer than the limit does not fit in its bits
(R82, R97). -/
theorem limitBits_lt_of_streamBytes {c : Ctx}
    (h : s.limit.toNat < streamBytes (blocks.flatMap (CodedBlock.bits c))) :
    s.limitBits < 112 + (blocks.flatMap (CodedBlock.bits c)).length := by
  have hlt : s.limit.toNat < 14 + (blocks.flatMap (CodedBlock.bits c)).length / 8 := h
  unfold State.limitBits
  omega

/-- Blocks that the limit cuts short after a header wholly inside it (R192, R212). -/
theorem decodeStream_cut_blocks (hem : Memory.wf s.em) (h : headerAccepted s total slice tag)
    (hu : u = s.withHeader slice tag) (h14 : 14 ≤ s.limit.toNat)
    (hlt : s.limit.toNat < streamBytes (blocks.flatMap (CodedBlock.bits u.ctx)))
    (hn : blocks.length = s.blkc.toNat)
    (hl : ∀ b ∈ blocks, b.legal u.ctx u.runLength s.blkw.toNat)
    (hb : holdsStream s.bm s.limitBits u.ctx (.hdr total s.blkc s.blkw slice tag) blocks) :
    ∃ r, decodeStream s = .raise .readPastEnd r ∧ r.cfg = u.cfg := by
  have hheader := rdHeader_accepted h hb.1 h14
  have hbits := limitBits_lt_of_streamBytes hlt
  have hlim : s.limitBits = 8 * s.limit.toNat := rfl
  obtain ⟨r, hr⟩ := (decodeBlocks_reads hem h hu hn.le hl h14 hb).2 (by
    rintro (h0 | hroom)
    · omega
    · change 112 + _ ≤ s.limitBits at hroom
      omega)
  rw [hheader, Res.andThen_ok, hn] at hr
  have hk : Keeps _ (headerLoaded total slice tag s) _ :=
    Res.times_rel Keeps.refl Keeps.trans decBlock_keeps s.blkc.toNat (headerLoaded total slice tag s)
  rw [hr] at hk
  refine ⟨r, ?_, (hk.cfg rfl).trans (by rw [hu]; rfl)⟩
  rw [decodeStream, hheader, Res.andThen_ok,
    show (headerLoaded total slice tag s).blkc = s.blkc from rfl, hr, Res.andThen_raise]

/-- Settles O54: the limit cuts the header, or else the blocks after it; the fault is imprecise
either way. -/
theorem decodeOfCutStreamReadsPastEnd : Obligations.DecodeOfCutStreamReadsPastEnd := by
  intro s u blocks total slice tag hs hem ha hu hlt hn hl hb
  obtain ⟨r, hr, hcfg⟩ : ∃ r, decodeStream (start .decode s) = .raise .readPastEnd r ∧
      r.cfg = if s.limit.toNat < 14 then s.cfg else u.cfg := by
    split
    case isTrue h14 => exact decodeStream_cut_header (s := start .decode s) h14 hb.1
    case isFalse h14 =>
      exact decodeStream_cut_blocks (s := start .decode s) (u := start .decode u) hem ha
        (by rw [hu]; rfl) (not_lt.mp h14) hlt hn hl hb
  rw [← hcfg]
  exact execDecode_raise hs hem (checkDecode_of_headerAccepted ha) (by decide) hr

end Sys2Proof.Machine
end

section
/-! How a command ends that is started in the idle engine, and what its faults leave (00_scope.md
R5, 60_exceptions.md R227): the rules that the statements about single commands are read off. -/

namespace Sys2Proof.Machine

variable {s r p base : State} {i : Instr} {u : Unspec} {body : State → Res Unit} {e : Cause}

/-- A command whose body stores bits completes where there is room for them. -/
theorem runCommand_writes {bits : List Bool} (hs : s.ready) (hc : openingCheck i s = none)
    (h : Writes p (body (start i s)) bits base) (hr : room bits.length p) :
    ∃ m, storesBits p.bm m p.bitpos.toNat bits ∧
      runCommand i (some u) body s = .next (complete (base.setBm m)) := by
  obtain ⟨m, -, hst, hok⟩ := h.1 hr
  exact ⟨m, hst, runCommand_ok (accepts_of_ready hs) hc hok⟩

/-- A command whose body raises anything but SizeMismatch leaves free values (R227 (d)). -/
theorem runCommand_imprecise (hs : s.ready) (hc : openingCheck i s = none) (he : e ≠ .sizeMismatch)
    (h : body (start i s) = .raise e r) :
    runCommand i (some u) body s = .next (takeFault e (unspecify u s r)) := by
  rw [runCommand_raise (accepts_of_ready hs) hc h, faultState_imprecise u he]

/-- A command whose body stores bits is OutOfSpace where there is no room for them (R211). -/
theorem runCommand_outOfSpace {bits : List Bool} (hs : s.ready) (hc : openingCheck i s = none)
    (h : Writes p (body (start i s)) bits base) (hr : ¬room bits.length p) :
    ∃ r, runCommand i (some u) body s = .next (takeFault .outOfSpace (unspecify u s r)) := by
  obtain ⟨r, hraise⟩ := h.2 hr
  exact ⟨r, runCommand_imprecise hs hc (by decide) hraise⟩

/-- No fault changes a byte at or above LIMIT (R227 (a)). -/
theorem read_unspecify_bm (hw : Memory.wf s.bm) (u : Unspec) (r : State) {a : Nat}
    (ha : s.limit.toNat ≤ a) :
    Memory.read (takeFault e (unspecify u s r)).bm a = Memory.read s.bm a := by
  rw [takeFault_bm]
  unfold unspecify
  dsimp only
  split
  · exact (read_freeBytes hw _ _ _ _).trans (if_neg (by omega))
  · rfl

/-- No fault changes a cell outside the command's range (R227 (d)). -/
theorem read_unspecify_em (hw : Memory.wf s.em) (u : Unspec) (r : State) {j : Nat}
    (hj : j < (u.cells.span s).1 ∨ (u.cells.span s).1 + (u.cells.span s).2 ≤ j) :
    Memory.read (takeFault e (unspecify u s r)).em j = Memory.read s.em j :=
  (read_freeCells hw _ _ _ _).trans (if_neg (by omega))

/-- The elements a limited number of cells hold can be counted in 32 bits (R28). -/
theorem eidx_add_lt {n : Nat} (h : s.eidx.toNat + n ≤ s.elim.toNat) : s.eidx.toNat + n < 2 ^ 32 :=
  h.trans_lt s.elim.isLt

/-- Room for bits at the cursor, as the statements put it (R61). -/
theorem room_iff_le {n : Nat} (hn : n ≠ 0) :
    room n s ↔ s.bitpos.toNat + n ≤ 8 * s.limit.toNat :=
  or_iff_right hn

theorem room_of_le {n : Nat} (h : s.bitpos.toNat + n ≤ 8 * s.limit.toNat) : room n s :=
  .inr h

end Sys2Proof.Machine
end

section
/-! DECODE of a whole stream (43_blockframer.md R188, R189, R192): the header, the blocks, and the
end-of-stream check. -/

namespace Sys2Proof.Machine

variable {s u : State} {total : BitVec 32} {slice tag : BitVec 8} {blocks : List CodedBlock}

theorem blocksBits_length_mod (c : Ctx) (blocks : List CodedBlock) :
    (blocks.flatMap (CodedBlock.bits c)).length % 8 = 0 := by
  induction blocks with
  | nil => rfl
  | cons b bs ih =>
    have := b.bits_length_mod c
    rw [List.flatMap_cons, List.length_append]
    omega

/-- A stream takes whole bytes (R82). -/
theorem streamBytes_bits {bits : List Bool} (h : bits.length % 8 = 0) :
    8 * streamBytes bits = 112 + bits.length := by
  show 8 * (14 + _) = _
  omega

/-- The header and the blocks of a stream inside the limit are read; what is left of DECODE is the
end-of-stream check (R192). -/
theorem decodeStream_reads (hem : Memory.wf s.em) (h : headerAccepted s total slice tag)
    (hu : u = s.withHeader slice tag) (hn : blocks.length = s.blkc.toNat)
    (hl : ∀ b ∈ blocks, b.legal u.ctx u.runLength s.blkw.toNat)
    (hlim : streamBytes (blocks.flatMap (CodedBlock.bits u.ctx)) ≤ s.limit.toNat)
    (hb : holdsStream s.bm s.limitBits u.ctx (.hdr total s.blkc s.blkw slice tag) blocks) :
    ∃ t, decodeStream s = checkSize t ∧
      Decoded (headerLoaded total slice tag s) t (blocks.flatMap (CodedBlock.bits u.ctx)).length
        (blocks.map (CodedBlock.elems s.w)) := by
  have hbytes := streamBytes_bits (blocksBits_length_mod u.ctx blocks)
  have h14 : 14 ≤ s.limit.toNat := le_trans (Nat.le_add_right _ _) hlim
  have hheader := rdHeader_accepted h hb.1 h14
  obtain ⟨t, ht, hd⟩ := (decodeBlocks_reads hem h hu hn.le hl h14 hb).1 <| room_of_le (by
    show 112 + _ ≤ 8 * s.limit.toNat
    omega)
  rw [hheader, Res.andThen_ok, hn] at ht
  refine ⟨t, ?_, hd⟩
  rw [decodeStream, hheader, Res.andThen_ok]
  change (Res.times decBlock s.blkc.toNat _).andThen _ = _
  rw [ht, Res.andThen_ok]

/-- What DECODE has reached when it has read every block (R188, R192). -/
def decodedStream (u : State) (total : BitVec 32) (n : Nat) (xs : List Int) (em : Memory 32)
    (s : State) :
    State :=
  { s with
    em := em, cfg := u.cfg, bitpos := BitVec.ofNat 64 (8 * n)
    prev := if s.blkc = 0 then s.prev else BitVec.ofNat 32 (zext s.w (xs.getLastD 0))
    eidx := s.blkw * s.blkc, total := total, blk := s.blkc }

/-- All blocks of the geometry, counted from the start of the stream. -/
theorem Decoded.stream {t : State} {n k : Nat} {rows : List (List Int)}
    (hu : u = s.withHeader slice tag)
    (hw : tagWidth (tag.truncate 3) = s.w) (hn : 8 * n = 112 + k)
    (hlen : rows.length = s.blkc.toNat) (hd : Decoded (headerLoaded total slice tag s) t k rows) :
    t = { decodedStream u total n rows.flatten t.em s with acc := t.acc, rem := t.rem } := by
  obtain ⟨hframe, -, -⟩ := hd
  have hbitpos : (headerLoaded total slice tag s).bitpos + BitVec.ofNat 64 k =
      BitVec.ofNat 64 (8 * n) := by
    rw [hn, BitVec.ofNat_add]
    rfl
  have hprev : (if rows = [] then (headerLoaded total slice tag s).prev else
      BitVec.ofNat 32 (zext (headerLoaded total slice tag s).w (rows.flatten.getLastD 0))) =
      if s.blkc = 0 then s.prev else BitVec.ofNat 32 (zext s.w (rows.flatten.getLastD 0)) := by
    have hnil : rows = [] ↔ s.blkc = 0 := by
      rw [← List.length_eq_zero_iff, hlen]
      exact (BitVec.toNat_eq (y := 0)).symm
    rw [show (headerLoaded total slice tag s).w = s.w from hw]
    exact if_congr hnil rfl rfl
  have heidx : (headerLoaded total slice tag s).eidx +
      BitVec.ofNat 32 ((headerLoaded total slice tag s).blkw.toNat * rows.length) =
      s.blkw * s.blkc := by
    rw [hlen, BitVec.ofNat_mul, BitVec.ofNat_toNat, BitVec.ofNat_toNat]
    exact BitVec.zero_add _
  have hblk : (headerLoaded total slice tag s).blk + BitVec.ofNat 32 rows.length = s.blkc := by
    rw [hlen, BitVec.ofNat_toNat]
    exact BitVec.zero_add _
  rw [hbitpos, hprev, heidx, hblk] at hframe
  rw [hu]
  exact hframe

/-- Settles O53: what the body has reached before the end-of-stream check is kept whether the check
passes or not (R227 (e)). -/
theorem decodeReadsStream : Obligations.DecodeReadsStream := by
  intro s u blocks total slice tag hs hem h hu n xs hn hxs hlim hlen hl hb
  obtain ⟨r, hr, hd⟩ := decodeStream_reads (s := start .decode s) (u := start .decode u) hem h
    (by rw [hu]; rfl) hlen hl (hn ▸ hlim) hb
  have hbytes := streamBytes_bits (blocksBits_length_mod u.ctx blocks)
  rw [← hn] at hbytes
  have hst := hd.2.2
  have hframe := hd.stream (s := start .decode s) (u := start .decode u) (by rw [hu]; rfl)
    h.2.2.2 hbytes ((List.length_map _).trans hlen)
  rw [← List.flatMap_def, show State.w (start .decode s) = s.w from rfl, ← hxs] at hframe hst
  have hsize : r.bitpos.toNat / 8 = n := by
    have := s.limit.isLt
    rw [hframe]
    show (8 * n % 2 ^ 64) / 8 = n
    omega
  have htotal : r.total = total := by rw [hframe]; rfl
  have ha := accepts_of_ready hs
  have hc : openingCheck .decode s = none := checkDecode_of_headerAccepted h
  rw [checkSize, hsize, htotal] at hr
  by_cases heq : total.toNat = n
  · rw [if_neg (by omega)] at hr
    refine ⟨complete r, runCommand_ok ha hc hr, ?_, hst⟩
    rw [if_pos heq, hframe]
    rfl
  · rw [if_pos (by omega)] at hr
    refine ⟨takeFault .sizeMismatch r, runCommand_raise ha hc hr, ?_, hst⟩
    rw [if_neg heq, hframe]
    rfl

end Sys2Proof.Machine
end

section
/-! What the decoder accepts (30_encoding.md R85 to R90, R100 to R102): commands by their opcode,
and of the codewords those that the encoder's formulas give. -/

namespace Sys2Proof

open Machine

/-! ## Commands -/

/-- An opcode's entry in the map is the entry that holds its command (R101). -/
theorem mem_commandTable {op : BitVec 8} (h : op ∈ opcodes) :
    (op, decodeOpcode op) ∈ commandTable := by
  rw [opcodes_eq_map_fst, List.mem_map] at h
  obtain ⟨⟨k, i⟩, hmem, rfl⟩ := h
  fin_cases hmem <;> decide

/-- The commands of the map are encoded by their opcodes (R100, R101). -/
theorem encodeFields_commandTable {op : BitVec 8} {i : Instr} (c : Ctx)
    (h : (op, i) ∈ commandTable) :
    isCommand i = true ∧ encodeFields c i = [(op.toNat, 8)] ∧ ∀ k, i ≠ .cmdReserved k := by
  fin_cases h <;> exact ⟨rfl, rfl, nofun⟩

/-- Settles O3: an opcode of the map by its entry, any other one as reserved. -/
theorem everyCommandWordDecodes : Obligations.EveryCommandWordDecodes := by
  intro v
  refine ⟨rfl, ?_⟩
  show isCommand (decodeOpcode (v.truncate 8)) = true ∧
    encodeFields _ (decodeOpcode (v.truncate 8)) = _ ∧ (decodeOpcode (v.truncate 8) = _ ↔ _)
  generalize v.truncate 8 = op
  by_cases hop : op ∈ opcodes
  · obtain ⟨hcmd, hfields, hne⟩ := encodeFields_commandTable ⟨16, 0⟩ (mem_commandTable hop)
    exact ⟨hcmd, hfields, fun h => absurd h (hne op), fun h => absurd hop h⟩
  · rw [decodeOpcode_reserved (by simpa using hop)]
    exact ⟨rfl, rfl, fun _ => hop, fun _ => rfl⟩

/-- Settles O4: thirteen closed evaluations of the decoder. -/
theorem sampleWordsDecode : Obligations.SampleWordsDecode := by
  unfold Obligations.SampleWordsDecode
  decide

/-! ## Codewords -/

/-- The bits of a field are the field of their value (R53). -/
theorem bitsOf_natOf (bits : List Bool) : bitsOf (natOf bits) bits.length = bits := by
  induction bits with
  | nil => rfl
  | cons b bs ih =>
    rw [List.length_cons, bitsOf_succ]
    have hdiv : natOf (b :: bs) / 2 = natOf bs := by
      have hb := b.toNat_le
      show (b.toNat + 2 * natOf bs) / 2 = _
      omega
    have hbit : (natOf (b :: bs)).testBit 0 = b := by
      cases b <;> simp [natOf, Nat.testBit_zero]
    rw [hdiv, hbit, ih]

theorem natOf_lt (bits : List Bool) : natOf bits < 2 ^ bits.length := by
  have h := natOf_bitsOf (natOf bits) bits.length
  rw [bitsOf_natOf] at h
  rw [h]
  exact Nat.mod_lt _ (Nat.two_pow_pos _)

/-- A field that was taken stands before the bits that are left. -/
theorem takeField_some {n v : Nat} {bits rest : List Bool} (h : takeField n bits = some (v, rest)) :
    v < 2 ^ n ∧ bits = bitsOf v n ++ rest := by
  unfold takeField at h
  split at h
  case isTrue hn =>
    obtain ⟨rfl, rfl⟩ : natOf (bits.take n) = v ∧ bits.drop n = rest := by simpa using h
    have hlen : (bits.take n).length = n := List.length_take_of_le hn
    have hfield := bitsOf_natOf (bits.take n)
    have hlt := natOf_lt (bits.take n)
    rw [hlen] at hfield hlt
    exact ⟨hlt, by rw [hfield, List.take_append_drop]⟩
  case isFalse => cases h

/-- What a zero count has seen: the zero bits, and the one bit that ended it or as many zero bits as
it was to count (R89). -/
theorem countZeros_some {k z : Nat} {f : Bool} {bits rest : List Bool}
    (h : countZeros k bits = some (z, f, rest)) :
    bits = List.replicate z false ++ (if f then true :: rest else rest) ∧ (f = false → z = k) := by
  induction k generalizing z bits with
  | zero =>
    cases h
    exact ⟨rfl, fun _ => rfl⟩
  | succ k ih =>
    match bits, h with
    | true :: bits, h =>
      cases h
      exact ⟨rfl, nofun⟩
    | false :: bits, h =>
      obtain ⟨⟨z', f', rest'⟩, hr, heq⟩ := Option.map_eq_some_iff.mp h
      cases heq
      obtain ⟨hbits, hk⟩ := ih hr
      exact ⟨by rw [hbits]; rfl, fun hf => by rw [hk hf]⟩

/-- A codeword of the format is the one the encoder's formulas give for its difference (R86,
R90). -/
theorem codewordItem_codewordDiff {c : Ctx} {i : Instr} (hi : i.format = .codeword)
    (hw : i.wf c = true) :
    i = codewordItem c (codewordDiff c i) := by
  cases i <;> cases hi
  case cwUnary lit m =>
    simp only [Instr.wf, Bool.and_eq_true, decide_eq_true_eq] at hw
    obtain ⟨hlit, hm⟩ := hw
    rw [codewordDiff, codewordItem, asr_unaryDiff hlit, zext_unaryDiff hlit, if_pos hm,
      BitVec.ofNat_toNat, BitVec.ofNat_toNat, BitVec.setWidth_eq, BitVec.setWidth_eq]
  case cwEscape lit e =>
    simp only [Instr.wf, Bool.and_eq_true, decide_eq_true_eq, escapeValid] at hw
    obtain ⟨⟨hlit, he⟩, hz, hlow⟩ := hw
    rw [codewordDiff, codewordItem, if_neg (not_lt.mpr hz), hlow, zext_sext, zext_of_lt he,
      BitVec.ofNat_toNat, BitVec.ofNat_toNat, BitVec.setWidth_eq, BitVec.setWidth_eq]

/-- So it is coded by the bits of its difference, which has a codeword (R90). -/
theorem codeword_wf {c : Ctx} {i : Instr} (hi : i.format = .codeword) (hw : i.wf c = true) :
    encode c i = codewordBits c (codewordDiff c i) ∧ codable c (codewordDiff c i) := by
  refine ⟨by rw [codewordBits, ← codewordItem_codewordDiff hi hw], ?_⟩
  cases i <;> cases hi
  case cwUnary lit m =>
    simp only [Instr.wf, Bool.and_eq_true, decide_eq_true_eq] at hw
    obtain ⟨hlit, hm⟩ := hw
    exact .inr (by rw [codewordDiff, asr_unaryDiff hlit]; exact hm)
  case cwEscape lit e => exact .inl (isElem_sext (Nat.succ_pos _) _)

/-- A codeword that is accepted is one of the format, and its bits are taken (R89, R90). -/
theorem decodeCodeword_ok {c : Ctx} {i : Instr} {bits rest : List Bool} (hs : c.s ≤ 32)
    (hcw : c.w ≤ 32)
    (h : decodeCodeword c bits = .ok (i, rest)) :
    i.format = .codeword ∧ i.wf c = true ∧ bits = encode c i ++ rest := by
  unfold decodeCodeword at h
  split at h
  case h_1 => cases h
  case h_2 lit bits' hlit =>
  obtain ⟨hltl, rfl⟩ := takeField_some hlit
  have hl32 : lit % 2 ^ 32 = lit :=
    Nat.mod_eq_of_lt (hltl.trans_le (Nat.pow_le_pow_right (by decide) hs))
  split at h
  case h_1 => cases h
  case h_2 z bits'' hz =>
    split at h
    case isTrue hu =>
      cases h
      have hz5 : z % 2 ^ 5 = z := Nat.mod_eq_of_lt (lt_trans hu (by decide))
      refine ⟨rfl, ?_, ?_⟩
      · simp only [Instr.wf, BitVec.toNat_ofNat, hl32, hz5, Bool.and_eq_true, decide_eq_true_eq]
        exact ⟨hltl, hu⟩
      · rw [(countZeros_some hz).1, encode, encodeFields, fieldBits_cons, fieldBits_cons,
          fieldBits_nil, BitVec.toNat_ofNat, BitVec.toNat_ofNat, hl32, hz5, bitsOf_two_pow]
        simp
    case isFalse => cases h
  case h_3 z bits'' hz =>
    split at h
    case h_1 => cases h
    case h_2 e bits''' he =>
      obtain ⟨hlte, rfl⟩ := takeField_some he
      have he33 : e % 2 ^ 33 = e :=
        Nat.mod_eq_of_lt (hlte.trans_le (Nat.pow_le_pow_right (by decide) (by omega)))
      split at h
      case isTrue hv =>
        cases h
        refine ⟨rfl, ?_, ?_⟩
        · simp only [Instr.wf, BitVec.toNat_ofNat, hl32, he33, Bool.and_eq_true, decide_eq_true_eq]
          exact ⟨⟨hltl, hlte⟩, hv⟩
        · obtain ⟨hbits, hk⟩ := countZeros_some hz
          rw [hbits, hk rfl, encode, encodeFields, fieldBits_cons, fieldBits_cons, fieldBits_cons,
            fieldBits_nil, BitVec.toNat_ofNat, BitVec.toNat_ofNat, hl32, he33, bitsOf_zero_value]
          simp
      case isFalse => cases h

theorem Ctx.wf_iff {c : Ctx} : c.wf = true ↔ (c.w = 8 ∨ c.w = 16 ∨ c.w = 32) ∧ c.s ≤ c.w := by
  simp [Ctx.wf]

/-- Settles O2: an accepted codeword is one of the format, and those are the encoder's. -/
theorem acceptedCodewordIsTheEncoders : Obligations.AcceptedCodewordIsTheEncoders := by
  intro c bits rest i hc h
  obtain ⟨hw, hs⟩ := Ctx.wf_iff.mp hc
  have hw32 : c.w ≤ 32 := by omega
  obtain ⟨hi, hwf, hbits⟩ := decodeCodeword_ok (hs.trans hw32) hw32 h
  rw [← (codeword_wf hi hwf).1]
  exact ⟨hwf, codewordItem_codewordDiff hi hwf, hbits⟩

end Sys2Proof
end

section
/-! Reserved opcodes and the stream items of one step (30_encoding.md R84 to R102): what the decoder
does with a codeword, a literal difference, a raw element, a header, a tag or pad bits at the
cursor. -/

namespace Sys2Proof.Machine

variable {s r : State} {e : Cause}

/-! ## Reserved opcodes -/

theorem exec_cmdReserved (hs : s.ready) (op : BitVec 8) :
    exec (.cmdReserved op) s = .next (s.withFault .badOpcode) :=
  runCommand_check (i := .cmdReserved op) (u := none) (body := fun s => .ok () s)
    (accepts_of_ready hs) rfl

/-- Settles O14: the opening check of a reserved opcode faults, and a CMD write decodes to it. -/
theorem reservedOpcodeFaults : Obligations.ReservedOpcodeFaults := by
  refine fun s hs => ⟨exec_cmdReserved hs, fun v hv => ?_⟩
  rw [hostAction_write_cmd, decodeCommand, decodeOpcode_reserved (by simpa using hv)]
  exact exec_cmdReserved hs _

/-! ## Items that consume a field -/

/-- The item `i` consumes `n` bits at the cursor and then acts by `f` (log entry 7). -/
def FieldItem (i : Instr) (u : Unspec) (check : State → Option Cause) (n : State → Nat)
    (f : State → Res Unit) : Prop :=
  ∀ s, exec i s =
    runItem (some u) check (fun s => (readField (n s) s).andThen fun _ s => f s) s

section FieldItem

variable {i : Instr} {u : Unspec} {check : State → Option Cause} {n : State → Nat}
  {f : State → Res Unit} (h : FieldItem i u check n f) (hf : s.status.fault = false)
  (hc : check s = none) (hr : s.bitpos.toNat + n s ≤ 8 * s.limit.toNat)
include h hf hc hr

/-- An item inside the limit acts behind its bits. -/
theorem FieldItem.ok (hok : f (moveOn (n s) s) = .ok () r) : exec i s = .next r := by
  rw [h]
  refine runItem_ok hf hc ?_
  rw [(readField_reads s (n s)).1 (room_of_le hr), Res.andThen_ok, hok]

/-- A fault of its action leaves free values (R227 (d)). -/
theorem FieldItem.raise (hraise : f (moveOn (n s) s) = .raise e r) (he : e ≠ .sizeMismatch) :
    exec i s = .next (takeFault e (unspecify u s r)) := by
  rw [h, runItem_raise (r := r) (c := e) hf hc, faultState_imprecise u he]
  rw [(readField_reads s (n s)).1 (room_of_le hr), Res.andThen_ok, hraise]

end FieldItem

theorem fieldItem_litDiff (d : BitVec 33) :
    FieldItem (.litDiff d) rowItemUnspec checkRowItem (fun s => s.w + 1)
      (fun s => .ok () (takeDiff (sext (s.w + 1) d.toNat) s)) :=
  fun _ => rfl

theorem fieldItem_cwUnary (lit : BitVec 32) (m : BitVec 5) :
    FieldItem (.cwUnary lit m) { bitpos := true, val := true } checkCodec
      (fun s => s.sw + (m.toNat + 1)) (unaryForm lit.toNat m.toNat) :=
  fun _ => rfl

theorem fieldItem_cwEscape (lit : BitVec 32) (e : BitVec 33) :
    FieldItem (.cwEscape lit e) { bitpos := true, val := true } checkCodec
      (fun s => s.sw + (Config.escPrefix + (s.w + 1))) (escapeForm lit.toNat e.toNat) :=
  fun _ => rfl

theorem fieldItem_raw (x : BitVec 32) :
    FieldItem (.raw x) decBlockUnspec checkBlock State.w
      (fun s => .ok () (produce (sext s.w x.toNat) s)) :=
  fun _ => rfl

/-- A type tag is eight bits (R98, R99). -/
theorem fieldItem_tag {i : Instr} {tag : Nat} (h : ∀ s, exec i s = tagItem tag s) :
    FieldItem i rdHeaderUnspec checkTagItem (fun _ => 8) (acceptTag tag) :=
  h

/-! ## Pad bits, literal differences, raw elements -/

theorem exec_pad (hf : s.status.fault = false) (p : BitVec 3) :
    exec (.pad p) s = .next (moveOn p.toNat s) :=
  runItem_ok (u := none) (check := noCheck) (body := fun s => .ok () (moveOn p.toNat s)) hf rfl rfl

/-- Settles O28: the second clause is R125's count of the bits up to the next byte. -/
theorem padItemSkips : Obligations.PadItemSkips := by
  refine fun s p hf => ⟨exec_pad hf p, fun hp => ?_⟩
  rw [exec_pad hf, hp, ← padBits_eq]
  rfl

/-- Settles O45. -/
theorem litDiffItemTakesDifference : Obligations.LitDiffItemTakesDifference :=
  fun _ d hf hc he hr => (fieldItem_litDiff d).ok hf (checkRowItem_none_iff.mpr ⟨hc, he⟩) hr rfl

/-- Settles O59: a block of one element is stored, whatever its elements are. -/
theorem rawItemProducesElement : Obligations.RawItemProducesElement := by
  intro s x hf hem hc hb he ha hr
  refine ⟨_, (fieldItem_raw x).ok hf (checkBlock_none_iff.mpr ⟨hc, hb, he, ha⟩) hr rfl, ?_,
    storesElems_cons hem (storesElems_nil _ _)⟩
  have hprev : zext s.w (sext s.w x.toNat) = x.toNat % 2 ^ s.w := by rw [zext_sext, zext_natCast]
  rw [← hprev]
  rfl

/-! ## Codewords -/

theorem unaryForm_ok {lit z : Nat} (h : z < Config.unaryLimit) :
    unaryForm lit z s = .ok () (takeDiff (unaryDiff s.sw lit z) s) :=
  if_pos h

theorem unaryForm_bad {lit z : Nat} (h : ¬z < Config.unaryLimit) :
    unaryForm lit z s = .raise .badUnary s :=
  if_neg h

theorem escapeValid_iff {k lit : Nat} {d : Int} :
    escapeValid k lit d = true ↔ Config.unaryLimit ≤ zig (asr d k) ∧ zext k d = lit := by
  simp [escapeValid]

theorem escapeForm_ok {lit e : Nat} (h : Config.unaryLimit ≤ zig (asr (sext (s.w + 1) e) s.sw) ∧
    zext s.sw (sext (s.w + 1) e) = lit) :
    escapeForm lit e s = .ok () (takeDiff (sext (s.w + 1) e) s) :=
  if_pos (escapeValid_iff.mpr h)

theorem escapeForm_bad {lit e : Nat} (h : ¬(Config.unaryLimit ≤ zig (asr (sext (s.w + 1) e) s.sw) ∧
    zext s.sw (sext (s.w + 1) e) = lit)) :
    escapeForm lit e s = .raise .badEscape s :=
  if_neg fun hv => h (escapeValid_iff.mp hv)

/-- Settles O35: each form consumes its bits, and then is taken or refused. -/
theorem codewordItemsTakeDifference : Obligations.CodewordItemsTakeDifference := by
  intro s lit hf hc
  have hcheck : checkCodec s = none := checkCodec_none_iff.mpr hc
  refine ⟨fun m hr => ⟨fun hm => ?_, fun hm => ?_⟩, fun e hr => ?_⟩
  · rw [(fieldItem_cwUnary lit m).ok hf hcheck hr (unaryForm_ok hm), takeDiff, unaryDiff]
    push_cast
    rfl
  · have hbad : ¬m.toNat < Config.unaryLimit := by
      show ¬m.toNat < 31
      omega
    exact ⟨_, (fieldItem_cwUnary lit m).raise hf hcheck hr (unaryForm_bad hbad) (by decide), rfl⟩
  · have hlen : s.sw + s.w + 33 = s.sw + (Config.escPrefix + (s.w + 1)) := by
      show _ = s.sw + (32 + (s.w + 1))
      omega
    rw [hlen] at hr ⊢
    split
    case isTrue hv => exact (fieldItem_cwEscape lit e).ok hf hcheck hr (escapeForm_ok hv)
    case isFalse hv =>
      exact ⟨_, (fieldItem_cwEscape lit e).raise hf hcheck hr (escapeForm_bad hv) (by decide), rfl⟩

/-! ## The header and its tags -/

theorem acceptTag_reserved {tag : Nat} (h : tagByteReserved (BitVec.ofNat 8 tag) = true) :
    acceptTag tag s = .raise .badType s :=
  if_pos h

theorem acceptTag_mismatch {tag : Nat} (h : tagByteReserved (BitVec.ofNat 8 tag) = false)
    (hw : tagWidth (BitVec.ofNat 3 tag) ≠ s.w) : acceptTag tag s = .raise .headerMismatch s := by
  rw [acceptTag, if_neg (by simp [h]), if_pos hw]

theorem acceptTag_ok {tag : Nat} (h : tagByteReserved (BitVec.ofNat 8 tag) = false)
    (hw : tagWidth (BitVec.ofNat 3 tag) = s.w) :
    acceptTag tag s = .ok () { s with cfg := { s.cfg with typ := BitVec.ofNat 3 tag } } := by
  rw [acceptTag, if_neg (by simp [h]), if_neg (not_not.mpr hw)]

/-- The legal tags: the item, CFG.TYPE and the element width it selects (R98). -/
theorem tagItem_cases {i : Instr} {k : BitVec 3} {w : Nat}
    (h : (i, k, w) ∈ [(Instr.tag0, 0#3, 16), (.tag1, 1#3, 8), (.tag2, 2#3, 16), (.tag3, 3#3, 8),
      (.tag4, 4#3, 32), (.tag6, 6#3, 32)]) :
    (∀ s, exec i s = tagItem k.toNat s) ∧ tagByteReserved (BitVec.ofNat 8 k.toNat) = false ∧
      tagWidth k = w := by
  fin_cases h <;> exact ⟨fun _ => rfl, rfl, rfl⟩

/-- Settles O60: a tag is reserved, of another width than the host's, or loaded. -/
theorem tagItemsSelectWidth : Obligations.TagItemsSelectWidth := by
  intro s hf ht hr
  have hcheck : checkTagItem s = none := if_neg (by simp [ht])
  refine ⟨fun i k w hi => ?_, fun b hb => ?_⟩
  · obtain ⟨hexec, hres, hwidth⟩ := tagItem_cases hi
    have hk : BitVec.ofNat 3 k.toNat = k := by simp
    split
    case isTrue hw =>
      refine (fieldItem_tag hexec).ok hf hcheck hr ?_
      rw [acceptTag_ok hres (by rw [hk, hwidth]; exact hw.symm), hk]
      rfl
    case isFalse hw =>
      exact ⟨_, (fieldItem_tag hexec).raise hf hcheck hr
        (acceptTag_mismatch hres (by rw [hk, hwidth]; exact Ne.symm hw)) (by decide), rfl⟩
  · exact ⟨_, (fieldItem_tag (i := .tagReserved b) fun _ => rfl).raise hf hcheck hr
      (acceptTag_reserved (by rw [BitVec.ofNat_toNat, BitVec.setWidth_eq]; exact hb))
      (by decide), rfl⟩

end Sys2Proof.Machine
end

section
/-! The header (30_encoding.md R81, 43_blockframer.md R181, R184, R230): WR_HEADER stores it,
RD_HEADER, DECODE and the item HDR test its fields in order and load them. -/

namespace Sys2Proof.Machine

variable {s r : State} {e : Cause} {total count width : BitVec 32} {slice tag : BitVec 8}

/-! ## The tests -/

/-- The header's tests on fields as wide as the format's (R184). -/
theorem checkHeader_fields (count width : BitVec 32) (slice tag : BitVec 8) (s : State) :
    checkHeader count.toNat width.toNat slice.toNat tag.toNat s =
      if tagByteReserved tag = true then some .badType
      else if tagWidth (tag.truncate 3) ≠ s.w ∨ count ≠ s.blkc ∨ width ≠ s.blkw then
        some .headerMismatch
      else if tagWidth (tag.truncate 3) < slice.toNat then some .badSlice
      else none := by
  simp only [checkHeader, BitVec.ofNat_toNat, BitVec.setWidth_eq, ne_eq, BitVec.toNat_inj,
    gt_iff_lt, BitVec.truncate_eq_setWidth]

theorem acceptHeader_refused {t hc hw hs tag : Nat} (h : checkHeader hc hw hs tag s = some e) :
    acceptHeader t hc hw hs tag s = .raise e s := by
  rw [acceptHeader, h]

theorem acceptHeader_ok (h : checkHeader count.toNat width.toNat slice.toNat tag.toNat s = none) :
    acceptHeader total.toNat count.toNat width.toNat slice.toNat tag.toNat s =
      .ok () { s with
        total := total, cfg := { typ := tag.truncate 3, slice := slice.truncate 6 } } := by
  rw [acceptHeader, h]
  simp only [BitVec.ofNat_toNat, BitVec.setWidth_eq, BitVec.truncate_eq_setWidth]

/-- A legal header of the host's width and geometry passes (R184). -/
theorem checkHeader_agrees (hwf : (Instr.hdr total s.blkc s.blkw slice tag).wf s.ctx = true)
    (hw : tagWidth (tag.truncate 3) = s.w) :
    checkHeader s.blkc.toNat s.blkw.toNat slice.toNat tag.toNat s = none := by
  simp only [Instr.wf, Bool.and_eq_true, Bool.not_eq_true', decide_eq_true_eq] at hwf
  obtain ⟨htag, hslice⟩ := hwf
  rw [checkHeader_fields, if_neg (by simp [htag]), if_neg (by simp [hw]),
    if_neg (not_lt.mpr hslice)]

/-! ## Storing a header -/

theorem room_headerStart {n : Nat} (hn : n ≠ 0) :
    room n (headerStart s) ↔ n ≤ 8 * s.limit.toNat := by
  rw [room_iff_le hn]
  show 0 + n ≤ 8 * s.limit.toNat ↔ _
  rw [Nat.zero_add]

/-- Settles O46: the header is stored at the start of the stream, where there is room or not. -/
theorem wrHeaderStoresHeader : Obligations.WrHeaderStoresHeader := by
  intro s hs hw hc hg
  have hcheck : openingCheck .wrHeader s = none := checkEncode_none_iff.mpr ⟨hc, hg⟩
  have hwr := wrHeader_writes (s := start .wrHeader s) hw
  have hlen :
      (Sys2Proof.encode (start .wrHeader s).ctx (headerOf (start .wrHeader s) 0)).length = 112 :=
    encode_hdr_length _ _ _ _ _ _
  have hroom : room 112 (headerStart (start .wrHeader s)) ↔ 112 ≤ 8 * s.limit.toNat :=
    room_headerStart (by decide)
  refine ⟨fun hl => ?_, fun hl => ?_⟩
  · obtain ⟨m, hst, hexec⟩ := runCommand_writes hs hcheck hwr (by rw [hlen, hroom]; omega)
    exact ⟨_, hexec, rfl, hst⟩
  · obtain ⟨r, hexec⟩ := runCommand_outOfSpace hs hcheck hwr (by rw [hlen, hroom]; omega)
    exact ⟨_, hexec, rfl, fun a ha => read_unspecify_bm hw _ r ha⟩

/-! ## Reading a header -/

/-- Settles O47. -/
theorem rdHeaderLoadsHeader : Obligations.RdHeaderLoadsHeader := by
  intro s total slice tag hs ht hg hl hwf hw hb
  exact runCommand_ok (i := .rdHeader) (u := some rdHeaderUnspec) (accepts_of_ready hs)
    (checkDecode_none_iff.mpr ⟨ht, hg⟩)
    (rdHeader_accepted (s := start .rdHeader s) ⟨ht, hg, hwf, hw⟩ (hb.below _) hl)

theorem exec_hdr (total count width : BitVec 32) (slice tag : BitVec 8) (s : State) :
    exec (.hdr total count width slice tag) s = runItem (some rdHeaderUnspec) checkDecode
      (fun s => (readField (8 * Config.headerBytes) (rewind s)).andThen fun _ s =>
        acceptHeader total.toNat count.toNat width.toNat slice.toNat tag.toNat s) s :=
  rfl

/-- Settles O58: the item's bits are consumed from the start of the stream on. -/
theorem headerItemLoads : Obligations.HeaderItemLoads := by
  intro s total slice tag hf ht hg hl hwf hw
  rw [exec_hdr]
  refine runItem_ok hf (checkDecode_none_iff.mpr ⟨ht, hg⟩) ?_
  have hroom : room (8 * Config.headerBytes) (rewind s) := room_of_le (by
    show 0 + 8 * 14 ≤ 8 * s.limit.toNat
    omega)
  rw [(readField_reads _ _).1 hroom, Res.andThen_ok]
  exact acceptHeader_ok
    (checkHeader_agrees (s := moveOn (8 * Config.headerBytes) (rewind s)) hwf hw)

/-- Whatever the first bits of the stream are, they are those of some header (R81). -/
theorem holdsBits_hdr_fieldRead (c : Ctx) (m : Memory 8) :
    holdsBits m 0 (Sys2Proof.encode c (.hdr (BitVec.ofNat 32 (fieldRead m 0 32))
      (BitVec.ofNat 32 (fieldRead m 32 32)) (BitVec.ofNat 32 (fieldRead m 64 32))
      (BitVec.ofNat 8 (fieldRead m 96 8)) (BitVec.ofNat 8 (fieldRead m 104 8)))) := by
  have field (o k : Nat) :
      holdsBits m o (bitsOf (BitVec.ofNat k (fieldRead m o k)).toNat k) := by
    rw [BitVec.toNat_ofNat, Nat.mod_eq_of_lt (fieldRead_lt m o k)]
    exact holdsBits_fieldRead m o k
  simp only [encode_hdr, holdsBits_append, bitsOf_length]
  exact ⟨field 0 32, field 32 32, field 64 32, field 96 8, field 104 8⟩

/-- A header that is cut short or refused makes the header step raise (R184, R212, R230). -/
theorem rdHeader_refused (he : if s.limit.toNat < 14 then e = .readPastEnd
    else holdsBits s.bm 0 (Sys2Proof.encode s.ctx (.hdr total count width slice tag)) ∧
      checkHeader count.toNat width.toNat slice.toNat tag.toNat s = some e) :
    ∃ r, rdHeader s = .raise e r := by
  split at he
  case isTrue hl =>
    subst he
    exact (rdHeader_reads ((holdsBits_hdr_fieldRead s.ctx s.bm).below _)).2 hl
  case isFalse hl =>
    obtain ⟨hb, hcheck⟩ := he
    rw [(rdHeader_reads (hb.below _)).1 (not_lt.mp hl)]
    exact ⟨_, acceptHeader_refused (s := moveOn 112 (rewind s)) hcheck⟩

/-- Settles O48: the header step raises, in both commands; the tests of the statement are those of
the model. -/
theorem rdHeaderRefusesInOrder : Obligations.RdHeaderRefusesInOrder := by
  intro s total count width slice tag c hs ht hg h
  have hcheck : checkDecode s = none := checkDecode_none_iff.mpr ⟨ht, hg⟩
  have hne : c ≠ .sizeMismatch ∧ if s.limit.toNat < 14 then c = .readPastEnd
      else holdsBits s.bm 0 (Sys2Proof.encode s.ctx (.hdr total count width slice tag)) ∧
        checkHeader count.toNat width.toNat slice.toNat tag.toNat s = some c := by
    rw [checkHeader_fields]
    split_ifs at h ⊢
    · exact ⟨by rw [h]; decide, h⟩
    · exact ⟨by rw [h.2]; decide, h.1, congrArg some h.2.symm⟩
    · exact ⟨by rw [h.2]; decide, h.1, congrArg some h.2.symm⟩
    · exact ⟨by rw [h.2.2]; decide, h.1, congrArg some h.2.2.symm⟩
    · exact absurd h.2.1 (by assumption)
  refine ⟨?_, fun hem => ?_⟩
  · obtain ⟨r, hr⟩ := rdHeader_refused (s := start .rdHeader s) hne.2
    exact ⟨_, runCommand_imprecise (i := .rdHeader) hs hcheck hne.1 hr, rfl⟩
  · obtain ⟨r, hr⟩ := rdHeader_refused (s := start .decode s) hne.2
    have hcfg := rdHeader_raise_cfg hr
    rw [show s.cfg = r.cfg from hcfg.symm]
    exact execDecode_raise hs hem hcheck hne.1 (by rw [decodeStream, hr, Res.andThen_raise])

end Sys2Proof.Machine
end

section
/-! Codewords and segments (41_differencecodec.md R143, R144, 42_runcodec.md R162 to R166): what the
commands store and read, and what the decoders refuse, wherever it stands (60_exceptions.md R212 to
R216). -/

namespace Sys2Proof.Machine

variable {s r : State} {e : Cause}

/-! ## One codeword -/

theorem codewordBits_length_pos {c : Ctx} (hs : c.s ≤ 32) (hw : c.w ≤ 32) (d : Int) :
    0 < (codewordBits c d).length := by
  by_cases h : zig (asr d c.s) < Config.unaryLimit
  · rw [codewordBits_unary hs h, List.length_append, bitsOf_length, bitsOf_length]
    omega
  · rw [codewordBits_escape hs hw h, List.length_append, List.length_append, bitsOf_length,
      bitsOf_length, bitsOf_length]
    omega

/-- Settles O29: the codeword is stored, where there is room or not. -/
theorem encCwWritesCodeword : Obligations.EncCwWritesCodeword := by
  intro s hs hw hc bits hbits
  subst hbits
  have hcheck : openingCheck .encCw s = none := checkCodec_none_iff.mpr hc
  have hwr := encCodeword_writes (s := start .encCw s) hw hc.2 s.valDiff
  have hpos := codewordBits_length_pos (c := s.ctx) (hc.2.trans s.w_le) s.w_le s.valDiff
  have hroom : room (codewordBits s.ctx s.valDiff).length (start .encCw s) ↔ _ :=
    room_iff_le hpos.ne'
  split
  case isTrue hl =>
    obtain ⟨m, hst, hexec⟩ := runCommand_writes (body := fun s => encCodeword s.valDiff s)
      hs hcheck hwr (hroom.mpr hl)
    exact ⟨_, hexec, rfl, hst⟩
  case isFalse hl =>
    obtain ⟨r, hexec⟩ := runCommand_outOfSpace (body := fun s => encCodeword s.valDiff s)
      hs hcheck hwr (mt hroom.mp hl)
    exact ⟨_, hexec, rfl, fun a ha => read_unspecify_bm hw _ r ha⟩

/-- The body of DEC_CW (R144). -/
def decCwBody (s : State) : Res Unit :=
  (decCodeword s).andThen fun _ s => .ok () (setVal s.acc.toInt s)

/-- The body of DEC_DIFF (R146). -/
def decDiffBody (s : State) : Res Unit :=
  (decCodeword s).andThen fun _ s => .ok () (setPrev s.nextElem (setVal s.nextElem s))

/-- Settles O30: a codeword of the format is the encoder's of its difference, which fits the
accumulator (R203). -/
theorem decCwReadsCodeword : Obligations.DecCwReadsCodeword := by
  intro s i hs hc hi hwf hb hl
  have hs32 : s.ctx.s ≤ 32 := hc.2.trans s.w_le
  obtain ⟨hbits, hcod⟩ := codeword_wf hi hwf
  rw [hbits] at hb hl ⊢
  have hread := (decCodeword_reads (s := start .decCw s) hc.2 hcod (hb.below _)).1 (room_of_le hl)
  refine (runCommand_ok (i := .decCw) (body := decCwBody) (accepts_of_ready hs)
    (checkCodec_none_iff.mpr hc) (congrArg (Res.andThen · _) hread)).trans ?_
  rw [takeDiff_acc, codable_acc s.w_le hs32 hcod]
  rfl

/-- A codeword is never refused with SizeMismatch. -/
theorem codewordFails_ne_sizeMismatch {o : Nat} (h : codewordFails s o e) : e ≠ .sizeMismatch := by
  rintro rfl
  obtain ⟨lit, -, bits, ⟨h, -⟩ | ⟨h, -⟩ | ⟨h, -⟩⟩ := h <;> cases h

/-- DEC_CW and DEC_DIFF at a codeword that is refused (R144, R146). -/
theorem execDecCw_fails (hs : s.ready) (hc : s.codecLegal) (h : codewordFails s s.bitpos.toNat e)
    {i : Instr} (hi : i ∈ [Instr.decCw, .decDiff]) :
    ∃ t, exec i s = .next t ∧ t = { s.withFault e with
      bitpos := t.bitpos, val := t.val, freeDraws := s.freeDraws + 1 } := by
  have he := codewordFails_ne_sizeMismatch h
  have hcheck : checkCodec s = none := checkCodec_none_iff.mpr hc
  rcases List.mem_pair.mp hi with rfl | rfl
  · obtain ⟨r, hr⟩ := decCodeword_fails (s := start .decCw s) h
    exact ⟨_, runCommand_imprecise (i := .decCw) (body := decCwBody) hs hcheck he
      (congrArg (Res.andThen · _) hr), rfl⟩
  · obtain ⟨r, hr⟩ := decCodeword_fails (s := start .decDiff s) h
    exact ⟨_, runCommand_imprecise (i := .decDiff) (body := decDiffBody) hs hcheck he
      (congrArg (Res.andThen · _) hr), rfl⟩

/-! ## Segments -/

/-- Settles O38: the runs of the row are the row, and the segmentation keeps them (R162). -/
theorem segmentsCoverRow : Obligations.SegmentsCoverRow := by
  intro ds
  obtain ⟨hdiffs, hmarked⟩ := segmentsFrom_spec (runsOf ds) (runsOf_pos ds) []
  rw [List.nil_append, runsOf_flatMap] at hdiffs
  exact ⟨hdiffs, hmarked⟩

theorem fieldItem_markLiteral (n : BitVec 7) :
    FieldItem (.markLiteral n) rowItemUnspec checkRowItem (fun _ => 8) (afterMarker n.toNat) :=
  fun _ => rfl

theorem fieldItem_markConstant (b : BitVec 8) :
    FieldItem (.markConstant b) rowItemUnspec checkRowItem (fun _ => 8) (afterMarker b.toNat) :=
  fun _ => rfl

/-- A segment's marker is its marker byte, and then its data is decoded (R91, R166). -/
theorem fieldItem_segmentMarker {seg : Segment} (h : seg.marked) :
    FieldItem (segmentMarker seg) rowItemUnspec checkRowItem (fun _ => 8)
      (afterMarker (markerByte seg)) := by
  cases seg with
  | literal ds =>
    have hle : ds.length ≤ 127 := h.2
    have hn : (BitVec.ofNat 7 ds.length).toNat = ds.length :=
      (BitVec.toNat_ofNat _ _).trans (Nat.mod_eq_of_lt (Nat.lt_succ_of_le hle))
    have h := fieldItem_markLiteral (BitVec.ofNat 7 ds.length)
    rwa [hn] at h
  | constant n d =>
    have hge : 2 ≤ n := h.1
    have hn : (BitVec.ofNat 8 (257 - n)).toNat = 257 - n :=
      (BitVec.toNat_ofNat _ _).trans (Nat.mod_eq_of_lt (by omega))
    have h := fieldItem_markConstant (BitVec.ofNat 8 (257 - n))
    rwa [hn] at h
  | continued d => exact fun _ => rfl

/-- A marker at the cursor, with its data behind it, puts out the segment's elements (R92, R93,
R94). -/
theorem exec_segmentMarker {seg : Segment} (hf : s.status.fault = false) (hc : s.codecLegal)
    (he : s.eidx.toNat + s.rem.toNat ≤ s.elim.toNat) (hl : segmentLegal s.ctx seg)
    (hr : (segmentDiffs seg).length ≤ s.rem.toNat)
    (hb : holdsBits s.bm (s.bitpos.toNat + 8) (segmentData s.ctx seg))
    (hlim : s.bitpos.toNat + (segmentBits s.ctx seg).length ≤ 8 * s.limit.toNat) :
    exec (segmentMarker seg) s = .next (lessRem (segmentDiffs seg).length
      (consume (segmentDiffs seg) (moveOn (segmentBits s.ctx seg).length s))) := by
  have hm := marked_of_segmentLegal hl
  have hlen : (segmentBits s.ctx seg).length = 8 + (segmentData s.ctx seg).length := by
    rw [segmentBits_eq hm, List.length_append, bitsOf_length]
  have hroom : room 8 s := room_of_le (by omega)
  have hpos : (moveOn 8 s).bitpos.toNat = s.bitpos.toNat + 8 := bitpos_add hroom
  refine (fieldItem_segmentMarker hm).ok hf (checkRowItem_none_iff.mpr ⟨hc, he⟩)
    (show s.bitpos.toNat + 8 ≤ _ by omega) ?_
  have hread := (afterMarker_reads (s := moveOn 8 s) hc.2 hl hr
    (by rw [hpos]; exact hb.below _)).1 (room_of_le (by
      rw [hpos]
      show _ + 8 + (segmentData s.ctx seg).length ≤ 8 * s.limit.toNat
      omega))
  rw [moveOn_moveOn] at hread
  rw [hlen]
  exact hread

/-- Settles O43, by what taking the segment's differences leaves (`consume`). -/
theorem markerItemsProduceSegments : Obligations.MarkerItemsProduceSegments := by
  intro s seg hf hem hc he hl hr hb hlim xs hxs
  subst hxs
  have hexec := exec_segmentMarker hf hc he hl hr hb hlim
  have hne : segmentDiffs seg ≠ [] := List.length_pos_iff.mp (segmentDiffs_pos hl)
  have hprev := consume_prev hne (moveOn (segmentBits s.ctx seg).length s)
  have hcells := eidx_add_lt he
  have hst := (consume_em (segmentDiffs seg) (moveOn (segmentBits s.ctx seg).length s) hem
    (show s.eidx.toNat + _ ≤ _ by omega)).2
  refine ⟨_, hexec, ?_, hst⟩
  rw [lessRem, consume_frame, hprev, runningElems_length]
  rfl

end Sys2Proof.Machine
end

section
/-! What the decoders refuse (60_exceptions.md R212 to R216): a codeword, a marker or a field, at
the cursor, in a row, in a block, and in any block of a stream. -/

namespace Sys2Proof.Machine

variable {s u : State} {e : Cause} {total : BitVec 32} {slice tag : BitVec 8} {o : Nat}

/-- The opening checks of DEC_ROW, as the statements put them (R166). -/
theorem checkRow_none (hc : s.codecLegal) (hb : s.blkw ≠ 0)
    (he : s.eidx.toNat + s.blkw.toNat ≤ s.elim.toNat + 1) : checkRow s = none := by
  have hpos : s.blkw.toNat ≠ 0 := fun h => hb (BitVec.eq_of_toNat_eq h)
  exact checkRow_none_iff.mpr ⟨hc, hb, by omega⟩

theorem blkw_pred_lt (s : State) : s.blkw.toNat - 1 < 2 ^ 32 :=
  (Nat.sub_le _ _).trans_lt s.blkw.isLt

/-- A row that raises makes DEC_ROW fault (R166, R227 (d)). -/
theorem execDecRow_fails (hs : s.ready) (hem : Memory.wf s.em) (hc : s.codecLegal) (hb : s.blkw ≠ 0)
    (he : s.eidx.toNat + s.blkw.toNat ≤ s.elim.toNat + 1)
    (h : ∃ r, decRow (s.blkw.toNat - 1) (start .decRow s) = .raise e r) :
    ∃ t, exec .decRow s = .next t ∧ afterRowFault s (s.blkw.toNat - 1) e t := by
  obtain ⟨r, hr⟩ := h
  have hne : e ≠ .sizeMismatch := fun h => decRow_noSizeMismatch _ _ r (h ▸ hr)
  exact ⟨_, runCommand_imprecise (i := .decRow) (body := fun s => decRow (s.blkw.toNat - 1) s) hs
    (checkRow_none hc hb he) hne hr, rfl, fun j hj => read_unspecify_em hem decRowUnspec r hj⟩

/-- A block that raises makes DEC_BLOCK fault (R188, R227 (d)). -/
theorem execDecBlock_fails (hs : s.ready) (hem : Memory.wf s.em) (hc : s.codecLegal)
    (hb : s.blkw ≠ 0) (he : s.eidx.toNat + s.blkw.toNat ≤ s.elim.toNat)
    (ha : s.bitpos.toNat % 8 = 0)
    (h : ∃ r, decBlock (start .decBlock s) = .raise e r) :
    ∃ t, exec .decBlock s = .next t ∧ afterBlockFault s e t := by
  obtain ⟨r, hr⟩ := h
  have hne : e ≠ .sizeMismatch := fun h => decBlock_noSizeMismatch _ r (h ▸ hr)
  have hcheck : checkBlock s = none := checkBlock_none_iff.mpr ⟨hc, hb, he, ha⟩
  exact ⟨_, runCommand_imprecise (i := .decBlock) hs hcheck hne hr, rfl,
    fun j hj => read_unspecify_em hem decBlockUnspec r hj⟩

/-- The widths of an accepted header are legal, and the element width is the host's (R184). -/
theorem withHeader_widths (h : headerAccepted s total slice tag) (hu : u = s.withHeader slice tag) :
    u.sw ≤ u.w ∧ u.w = s.w := by
  obtain ⟨hsw, hle⟩ := headerAccepted_slice h
  have hw : (s.withHeader slice tag).w = s.w := withHeader_w h.2.2.2
  rw [hu, hsw, hw]
  exact ⟨hle, rfl⟩

/-- A block that raises, wherever DECODE comes to it, makes DECODE fault; CFG is the header's then
(R192, R227 (c), (d)). -/
theorem execDecode_fails (hs : s.ready) (hem : Memory.wf s.em)
    (h : reachesBlock s total slice tag o) (hu : u = s.withHeader slice tag)
    (he : e ≠ .sizeMismatch)
    (hf : ∀ t : State, t.ctx = u.ctx → t.w = s.w → t.sw ≤ t.w → t.runLength = u.runLength →
      t.blkw = s.blkw → t.bm = u.bm → t.limit = u.limit → t.bitpos.toNat = o →
      ∃ v, decBlock t = .raise e v) :
    ∃ t, exec .decode s = .next t ∧ afterDecodeFault s u.cfg e t := by
  obtain ⟨hle, hw⟩ := withHeader_widths h.1 hu
  obtain ⟨v, hv, hcfg⟩ := decodeStream_raise (s := start .decode s) (u := start .decode u) hem h
    (by rw [hu]; rfl) fun t hctx hrl hblkw hbm hlimit hpos => by
      have htw : t.w = u.w := congrArg Ctx.w hctx
      have htsw : t.sw = u.sw := congrArg Ctx.s hctx
      refine hf t hctx (htw.trans hw) (by rw [htw, htsw]; exact hle) hrl hblkw ?_ ?_ hpos
      · rw [hbm, hu]
        rfl
      · rw [hlimit, hu]
        rfl
  rw [show u.cfg = v.cfg from hcfg.symm]
  exact execDecode_raise hs hem (checkDecode_of_headerAccepted h.1) he hv

/-- Settles O31: the decoder raises at the codeword or the cut, whatever legal things it has read
before, and the fault of each command leaves what R227 (d) says. -/
theorem decCwRefusesBadCodewords : Obligations.DecCwRefusesBadCodewords := by
  refine ⟨fun s e hs hc h i hi => execDecCw_fails hs hc h hi,
    fun s e hs hem hc hb he h => execDecRow_fails hs hem hc hb he ?_,
    fun s e hs hem hc hb he ha h => execDecBlock_fails hs hem hc hb he ha ?_,
    fun s u total slice tag o e hs hem hr hu ⟨bits, hbefore, hbelow, hfails⟩ =>
      execDecode_fails hs hem hr hu (codewordFails_ne_sizeMismatch hfails) ?_⟩
  · rcases h with ⟨bits, hbefore, hbelow, hfails⟩ | ⟨rfl, bits, hprefix, hcut⟩
    · exact decRest_fails (s := start .decRow s) (rl := true) hc.2 (blkw_pred_lt s)
        hbefore hbelow hfails
    · exact decRow_cut (s := start .decRow s) hc.2 (blkw_pred_lt s) hprefix hcut
  · rcases h with ⟨bits, hbefore, hbelow, hfails⟩ | ⟨rfl, hcut⟩
    · exact decBlock_fails (s := start .decBlock s) hc.2 hbefore hbelow hfails
    · exact decBlock_cut (s := start .decBlock s) hc.2 hcut
  · intro t hctx hw hle hrl hblkw hbm hlimit hpos
    have hfails' : codewordFails t (t.bitpos.toNat + t.w + bits.length) e := by
      rw [hpos, hw]
      exact (codewordFails_congr hctx hlimit hbm).mpr hfails
    refine decBlock_fails hle (by rw [hctx, hrl, hblkw]; exact hbefore) ?_ hfails'
    rw [hbm, State.limitBits, hlimit, hpos, hw, hu]
    exact hbelow

/-! ## Markers -/

theorem markerFails_ne_sizeMismatch {n b : Nat} (h : markerFails n b e) : e ≠ .sizeMismatch := by
  rintro rfl
  rcases h with ⟨-, h⟩ | ⟨h, -⟩ <;> cases h

/-- A segment that has more elements than are missing has a marker that is refused (R216). -/
theorem markerFails_of_overrun {seg : Segment} {n : Nat} (h : seg.marked)
    (hn : n < (segmentDiffs seg).length) : markerFails n (markerByte seg) .runOverrun := by
  refine .inr ⟨rfl, ?_⟩
  cases seg with
  | literal ds =>
    obtain ⟨hge, hle⟩ : 1 ≤ ds.length ∧ ds.length ≤ 127 := h
    exact .inl ⟨hge, hle, hn⟩
  | constant k d =>
    obtain ⟨hge, hle⟩ : 2 ≤ k ∧ k ≤ 128 := h
    rw [segmentDiffs, List.length_replicate] at hn
    show _ ∨ _ ∨ 129 ≤ 257 - k ∧ n < 257 - (257 - k)
    omega
  | continued d =>
    rw [segmentDiffs, List.length_replicate] at hn
    exact .inr (.inl ⟨rfl, hn⟩)

theorem fieldItem_markReserved :
    FieldItem .markReserved rowItemUnspec checkRowItem (fun _ => 8) (afterMarker 0) :=
  fun _ => rfl

/-- A marker item that is refused (R215, R216). -/
theorem markerItem_fails {i : Instr} {b : Nat}
    (h : FieldItem i rowItemUnspec checkRowItem (fun _ => 8) (afterMarker b))
    (hf : s.status.fault = false) (hem : Memory.wf s.em) (hc : s.codecLegal)
    (he : s.eidx.toNat + s.rem.toNat ≤ s.elim.toNat) (hr : s.bitpos.toNat + 8 ≤ 8 * s.limit.toNat)
    (hb : b < 256) (hm : markerFails s.rem.toNat b e) :
    ∃ t, exec i s = .next t ∧ afterRowFault s s.rem.toNat e t := by
  obtain ⟨r, hraise⟩ := afterMarker_fails (s := moveOn 8 s) hb hm
  have hcheck : checkRowItem s = none := checkRowItem_none_iff.mpr ⟨hc, he⟩
  exact ⟨_, h.raise hf hcheck hr hraise (markerFails_ne_sizeMismatch hm), rfl,
    fun j hj => read_unspecify_em hem rowItemUnspec r hj⟩

/-- Settles O44: the decoder raises at the marker, whatever legal segments and blocks it has read
before. -/
theorem badMarkersFault : Obligations.BadMarkersFault := by
  refine ⟨fun s hf hem hc he hr i e h => ?_,
    fun s e hs hem hc hb he h => execDecRow_fails hs hem hc hb he
      (decRow_marker (s := start .decRow s) hc.2 (blkw_pred_lt s) h),
    fun s e hs hem hc hb he ha hrl h => execDecBlock_fails hs hem hc hb he ha
      (decBlock_marker (s := start .decBlock s) hc.2 hrl h),
    fun s u total slice tag o e hs hem hr hu hrl h => ?_⟩
  · rcases h with ⟨rfl, rfl⟩ | ⟨rfl, seg, rfl, hl, hn⟩
    · exact markerItem_fails fieldItem_markReserved hf hem hc he hr (by decide) (.inl ⟨rfl, rfl⟩)
    · have hm := marked_of_segmentLegal hl
      exact markerItem_fails (fieldItem_segmentMarker hm) hf hem hc he hr (markerByte_lt hm)
        (markerFails_of_overrun hm hn)
  · obtain ⟨segs, b, bits, -, -, hm, -⟩ := id h
    refine execDecode_fails hs hem hr hu (markerFails_ne_sizeMismatch hm) ?_
    intro t hctx hw hle htrl hblkw hbm hlimit hpos
    refine decBlock_marker hle (htrl.trans hrl) ?_
    rw [hblkw, hpos, hw]
    exact (rowMarkerFails_congr hctx hlimit hbm).mpr h

end Sys2Proof.Machine
end

section
/-! Blocks and the whole encoded stream (43_blockframer.md R186, R188, R191): ENC_BLOCK, DEC_BLOCK
and ENCODE at the exact bits. -/

namespace Sys2Proof.Machine

variable {s r : State}

theorem blkw_pos (h : s.blkw ≠ 0) : 0 < s.blkw.toNat :=
  Nat.pos_of_ne_zero fun h0 => h (BitVec.eq_of_toNat_eq h0)

/-! ## One block -/

theorem blockBits_length_pos {c : Ctx} (hpos : 0 < c.w) (hw : c.w ≤ 32) (rl : Bool) {xs : List Int}
    (h : xs ≠ []) : 0 < (blockBits c rl xs).length := by
  obtain ⟨x, ys, rfl⟩ := List.exists_cons_of_ne_nil h
  rw [blockBits_length, blockBody_cons c hw, List.length_append, bitsOf_length]
  omega

/-- Settles O49: the block is stored, where there is room or not. -/
theorem encBlockStoresBlock : Obligations.EncBlockStoresBlock := by
  intro s hs hw hc hb he ha xs bits hxs hbits
  have hblkw := blkw_pos hb
  have hcheck : openingCheck .encBlock s = none := checkBlock_none_iff.mpr ⟨hc, hb, he, ha⟩
  have hwr := encBlock_writes (s := start .encBlock s) hw hc.2 hb (eidx_add_lt he) ha
  have hne : xs ≠ [] := List.ne_nil_of_length_pos (by rw [hxs, elemsAt_length]; exact hblkw)
  have hlast : xs.getLastD 0 = elemAt s (s.blkw.toNat - 1) := by rw [hxs, elemsAt_getLastD s hblkw]
  have hpos := blockBits_length_pos (c := s.ctx) s.w_pos s.w_le s.runLength hne
  change Writes _ _ (blockBits s.ctx s.runLength (elemsAt s s.blkw.toNat)) _ at hwr
  rw [← hxs, ← hbits] at hwr
  rw [← hbits] at hpos
  have hroom : room bits.length (start .encBlock s) ↔ _ := room_iff_le hpos.ne'
  split
  case isTrue hl =>
    obtain ⟨m, hst, hexec⟩ := runCommand_writes hs hcheck hwr (hroom.mpr hl)
    refine ⟨_, hexec, ?_, hst⟩
    rw [hlast, hbits, hxs]
    rfl
  case isFalse hl =>
    obtain ⟨r, hexec⟩ := runCommand_outOfSpace hs hcheck hwr (mt hroom.mp hl)
    exact ⟨_, hexec, rfl, fun a ha => read_unspecify_bm hw _ r ha⟩

/-- Settles O50: the pad bits need no room beyond the block's own bytes. -/
theorem decBlockReadsBlock : Obligations.DecBlockReadsBlock := by
  intro s b hs hem hc he ha hl hb hlim
  have hblkw : s.blkw ≠ 0 := by
    rintro h0
    obtain ⟨-, hlen, -⟩ := hl
    rw [h0] at hlen
    cases hlen
  have hroom : room (b.bits s.ctx).length (start .decBlock s) := by
    rw [CodedBlock.bits_length]
    exact (room_pad ha).mpr (room_of_le hlim)
  obtain ⟨t, hok, hframe, -, hst⟩ := (decBlock_reads (s := start .decBlock s) hem hc.2 hl
    (eidx_add_lt he) ha (hb.below _)).1 hroom
  refine ⟨_, runCommand_ok (i := .decBlock) (accepts_of_ready hs)
    (checkBlock_none_iff.mpr ⟨hc, hblkw, he, ha⟩) hok, ?_, by simpa using hst⟩
  have heidx : s.eidx + BitVec.ofNat 32 (s.blkw.toNat * 1) = s.eidx + s.blkw := by simp
  have hlast : [b.elems s.w].flatten.getLastD 0 = (b.elems s.w).getLastD 0 := by simp
  rw [← heidx, ← hlast, hframe]
  rfl

/-! ## The encoded stream -/

theorem rowsAt_setBm (m : Memory 8) (s : State) (n : Nat) : rowsAt (s.setBm m) n = rowsAt s n :=
  rfl

theorem afterEncBlocks_setBm (n k : Nat) (m : Memory 8) (s : State) :
    afterEncBlocks n k (s.setBm m) = (afterEncBlocks n k s).setBm m :=
  rfl

/-- The cursor behind a header, with nothing encoded yet (R181). -/
def headerWritten (s : State) : State :=
  moveOn 112 (headerStart s)

@[simp] theorem headerWritten_ctx (s : State) : (headerWritten s).ctx = s.ctx := rfl
@[simp] theorem headerWritten_runLength (s : State) :
    (headerWritten s).runLength = s.runLength := rfl
@[simp] theorem headerWritten_eidx (s : State) : (headerWritten s).eidx = 0 := rfl
@[simp] theorem headerWritten_bitpos (s : State) : (headerWritten s).bitpos = 112 := rfl

/-- The rows of the array are those from the first cell on (R31, R62). -/
theorem rowsAt_headerWritten (s : State) : rowsAt (headerWritten s) s.blkc.toNat = s.rows := by
  refine List.map_congr_left fun b _ => List.map_congr_left fun k _ => ?_
  rw [elemAt, headerWritten_eidx, show (0 : BitVec 32).toNat = 0 from rfl, Nat.zero_add]
  rfl

/-- The header and the blocks are stored one after the other (R80, R191). -/
theorem encodeBlocks_writes (hw : Memory.wf s.bm) (hc : s.codecLegal) (hg : s.geometryLegal) :
    Writes (headerStart s)
      ((wrHeader s).andThen fun _ s => Res.times encBlock s.blkc.toNat s)
      (Sys2Proof.encode s.ctx (headerOf s 0) ++ blocksBits s.ctx s.runLength s.rows)
      (afterEncBlocks s.blkc.toNat (blocksBits s.ctx s.runLength s.rows).length
        (headerWritten s)) := by
  obtain ⟨hb, hlt, -⟩ := hg
  have hlen : (Sys2Proof.encode s.ctx (headerOf s 0)).length = 112 := encode_hdr_length _ _ _ _ _ _
  refine Writes.andThen (wrHeader_writes hw) (by rw [hlen]; rfl) rfl fun _ m hm => ?_
  have h := encBlocks_writes s.blkc.toNat (s := (headerWritten s).setBm m) hm hc.2 hb
    (by
      rw [setBm_eidx, headerWritten_eidx]
      show 0 + s.blkw.toNat * s.blkc.toNat < _
      omega)
    (by rw [setBm_bitpos, headerWritten_bitpos]; rfl)
  rw [rowsAt_setBm, afterEncBlocks_setBm, Writes.base_setBm, setBm_ctx, setBm_runLength,
    headerWritten_ctx, headerWritten_runLength, rowsAt_headerWritten] at h
  exact h

/-- Storing a field over the first bits that were stored (R190). -/
theorem storesBits_fieldWrite {m m' : Memory 8} {o v w k : Nat} {bits : List Bool}
    (hw : Memory.wf m') (h : storesBits m m' o (bitsOf w k ++ bits)) :
    storesBits m (fieldWrite m' o v k) o (bitsOf v k ++ bits) := by
  obtain ⟨hfield, hout, hbytes⟩ := fieldWrite_storesBits hw o v k
  obtain ⟨hb, hout', hbytes'⟩ := h
  rw [holdsBits_append] at hb
  rw [bitsOf_length] at hb hout hbytes
  simp only [List.length_append, bitsOf_length] at hout' hbytes'
  refine ⟨holdsBits_append.mpr ⟨hfield, ?_⟩, fun p hp => ?_, fun a ha => ?_⟩
  · rw [bitsOf_length]
    exact holdsBits_congr (fun i hi => hout _ (.inr (by omega))) hb.2
  · simp only [List.length_append, bitsOf_length] at hp
    rw [hout p (by omega), hout' p hp]
  · simp only [List.length_append, bitsOf_length] at ha
    rw [hbytes a (by omega), hbytes' a ha]

/-- The last element of the rows (R62). -/
theorem rowsAt_getLastD (hb : s.blkw ≠ 0) {n : Nat} (hn : n ≠ 0) :
    (rowsAt s n).flatten.getLastD 0 = elemAt s (n * s.blkw.toNat - 1) := by
  obtain ⟨n, rfl⟩ := Nat.exists_eq_succ_of_ne_zero hn
  obtain ⟨k, hk⟩ := Nat.exists_eq_succ_of_ne_zero (blkw_pos hb).ne'
  rw [rowsAt, List.range_succ, List.map_append, List.flatten_append, hk, List.range_succ]
  simp only [List.map_append, List.map_cons, List.map_nil, List.flatten_cons, List.flatten_nil,
    List.append_nil, ← List.append_assoc]
  rw [List.getLastD_concat]
  congr 1
  rw [Nat.succ_mul]
  omega

theorem encodedBlocks_length_mod (c : Ctx) (rl : Bool) (rows : List (List Int)) :
    (blocksBits c rl rows).length % 8 = 0 := by
  induction rows with
  | nil => rfl
  | cons xs rows ih =>
    have h := blockBits_length_mod c rl xs
    rw [blocksBits, List.flatMap_cons, List.length_append]
    rw [blocksBits] at ih
    omega

/-- What ENCODE leaves in the registers when it has written `n` bytes (R191). -/
def encodedStream (n : Nat) (s : State) : State :=
  { s with
    bitpos := BitVec.ofNat 64 (8 * n)
    prev := if s.blkc = 0 then s.prev else BitVec.ofNat 32 (zext s.w (s.rows.flatten.getLastD 0))
    eidx := s.blkw * s.blkc, total := BitVec.ofNat 32 n, blk := s.blkc }

/-- All blocks of the geometry, counted from the start of the stream. -/
theorem afterEncBlocks_stream {n k : Nat} (hb : s.blkw ≠ 0) (hn : 8 * n = 112 + k) :
    { afterEncBlocks s.blkc.toNat k (headerWritten s) with total := BitVec.ofNat 32 n } =
      encodedStream n s := by
  have hbitpos : (headerWritten s).bitpos + BitVec.ofNat 64 k = BitVec.ofNat 64 (8 * n) := by
    rw [hn, BitVec.ofNat_add]
    rfl
  have hprev : (if s.blkc.toNat = 0 then (headerWritten s).prev else BitVec.ofNat 32
      (zext (headerWritten s).w
        (elemAt (headerWritten s) (s.blkc.toNat * (headerWritten s).blkw.toNat - 1)))) =
      if s.blkc = 0 then s.prev else BitVec.ofNat 32 (zext s.w (s.rows.flatten.getLastD 0)) := by
    have hzero : s.blkc.toNat = 0 ↔ s.blkc = 0 := (BitVec.toNat_eq (y := 0)).symm
    split
    case isTrue h0 => exact (if_pos (hzero.mp h0)).symm
    case isFalse h0 =>
      rw [if_neg (mt hzero.mpr h0), ← rowsAt_headerWritten,
        rowsAt_getLastD (s := headerWritten s) hb h0]
      rfl
  have heidx : (headerWritten s).eidx +
      BitVec.ofNat 32 ((headerWritten s).blkw.toNat * s.blkc.toNat) = s.blkw * s.blkc := by
    rw [BitVec.ofNat_mul, BitVec.ofNat_toNat, BitVec.ofNat_toNat]
    exact BitVec.zero_add _
  have hblk : (headerWritten s).blk + BitVec.ofNat 32 s.blkc.toNat = s.blkc := by
    rw [BitVec.ofNat_toNat]
    exact BitVec.zero_add _
  unfold afterEncBlocks
  dsimp only
  rw [hbitpos, hprev, heidx, hblk]
  rfl

theorem patchSize_ok (hl : 4 ≤ s.limit.toNat) (hb : s.bitpos.toNat ≤ s.limitBits) :
    patchSize s = .ok () { s with
      bm := fieldWrite s.bm 0 (s.bitpos.toNat / 8) 32
      total := BitVec.ofNat 32 (s.bitpos.toNat / 8) } :=
  if_neg (by omega)

theorem encodeStream_eq (s : State) :
    encodeStream s = ((wrHeader s).andThen fun _ s => Res.times encBlock s.blkc.toNat s).andThen
      fun _ s => patchSize s :=
  (Res.andThen_assoc _ _ _).symm

/-- The header and the blocks take the stream's bytes (R82). -/
theorem stream_length (s : State) :
    (Sys2Proof.encode s.ctx (headerOf s 0) ++ blocksBits s.ctx s.runLength s.rows).length =
      8 * streamBytes (blocksBits s.ctx s.runLength s.rows) := by
  rw [List.length_append, headerOf, encode_hdr_length,
    streamBytes_bits (encodedBlocks_length_mod s.ctx s.runLength s.rows)]

/-- ENCODE with room for the stream stores it, and the size over the header's first field (R190,
R191). -/
theorem encodeStream_ok (hw : Memory.wf s.bm) (hc : s.codecLegal) (hg : s.geometryLegal) {n : Nat}
    (hn : n = streamBytes (blocksBits s.ctx s.runLength s.rows)) (hl : n ≤ s.limit.toNat) :
    ∃ m, storesBits s.bm m 0 (streamBits s) ∧
      encodeStream s = .ok () ((encodedStream n s).setBm m) := by
  have hbytes := streamBytes_bits (encodedBlocks_length_mod s.ctx s.runLength s.rows)
  rw [← hn] at hbytes
  have hlt := s.limit.isLt
  have h14 : 14 ≤ n := hn ▸ Nat.le_add_right _ _
  obtain ⟨m, hm, hst, hok⟩ := (encodeBlocks_writes hw hc hg).1 (by
    rw [stream_length, ← hn, room_headerStart (by omega)]
    omega)
  have hpos : ((afterEncBlocks s.blkc.toNat (blocksBits s.ctx s.runLength s.rows).length
      (headerWritten s)).setBm m).bitpos.toNat = 8 * n := by
    rw [setBm_bitpos]
    show (BitVec.toNat (112 + BitVec.ofNat 64 _)) = _
    rw [BitVec.toNat_add, BitVec.toNat_ofNat]
    show (112 + _) % _ = _
    omega
  refine ⟨fieldWrite m 0 n 32, ?_, ?_⟩
  · have hsize : (BitVec.ofNat 32 n).toNat = n := by
      rw [BitVec.toNat_ofNat]
      exact Nat.mod_eq_of_lt (hl.trans_lt hlt)
    rw [headerOf, encode_hdr, List.append_assoc] at hst
    rw [streamBits, ← hn, headerOf, encode_hdr, List.append_assoc, hsize]
    exact storesBits_fieldWrite hm hst
  · rw [encodeStream_eq, hok, Res.andThen_ok, patchSize_ok, hpos,
      Nat.mul_div_cancel_left n (by decide), ← afterEncBlocks_stream hg.1 hbytes]
    · rfl
    · show 4 ≤ s.limit.toNat
      omega
    · rw [hpos]
      show 8 * n ≤ 8 * s.limit.toNat
      omega

/-- ENCODE without room for the stream is OutOfSpace in its header or in a block (R211). -/
theorem encodeStream_outOfSpace (hw : Memory.wf s.bm) (hc : s.codecLegal) (hg : s.geometryLegal)
    (hl : s.limit.toNat < streamBytes (blocksBits s.ctx s.runLength s.rows)) :
    ∃ r, encodeStream s = .raise .outOfSpace r := by
  obtain ⟨r, hr⟩ := (encodeBlocks_writes hw hc hg).2 (by
    rw [stream_length, room_headerStart (by omega)]
    omega)
  exact ⟨r, by rw [encodeStream_eq, hr, Res.andThen_raise]⟩

/-- Settles O52: the stream fits, or else it is OutOfSpace. -/
theorem encodeStoresStream : Obligations.EncodeStoresStream := by
  intro s hs hw hc hg n hn
  have ha := accepts_of_ready hs
  have hcheck : openingCheck .encode s = none := checkEncode_none_iff.mpr ⟨hc, hg⟩
  refine ⟨fun hl => ?_, fun hl => ?_⟩
  · obtain ⟨m, hst, hok⟩ := encodeStream_ok (s := start .encode s) hw hc hg hn hl
    exact ⟨_, runCommand_ok (i := .encode) ha hcheck hok, rfl, hst⟩
  · obtain ⟨r, hr⟩ := encodeStream_outOfSpace (s := start .encode s) hw hc hg (hn ▸ hl)
    exact ⟨_, runCommand_imprecise (i := .encode) hs hcheck (by decide) hr, rfl, rfl, rfl, rfl,
      fun a ha => read_unspecify_bm hw _ r ha⟩

end Sys2Proof.Machine
end

section
/-! What a command's result depends on (10_state.md R42, 30_encoding.md R105): not on STATUS, on the
temporaries, or on a memory that it does not read. So a block coded inside ENCODE or DECODE ends as
the block command ends that the host issues in its place. -/

namespace Sys2Proof.Machine

/-! ## States that are alike -/

/-- Which of the hidden temporaries and the memories still matter. -/
structure Live where
  acc : Bool
  rem : Bool
  bm : Bool
  em : Bool

/-- `s` with the STATUS, the temporaries and the memories of `h`. -/
def State.over (s h : State) : State :=
  { s with
    status := h.status, running := h.running, acc := h.acc, rem := h.rem, bm := h.bm, em := h.em }

/-- The two states have the same registers and the same live temporaries and memories. -/
structure Alike (l : Live) (s t : State) : Prop where
  registers : t = s.over t
  found : t.status.found = s.status.found
  acc : l.acc = true → t.acc = s.acc
  rem : l.rem = true → t.rem = s.rem
  bm : l.bm = true → t.bm = s.bm
  em : l.em = true → t.em = s.em

/-- Where the operation on the left completes, so does the one on the right, with the same result
and in a state that is alike. -/
def Follows {α : Type} (l : Live) (r r' : Res α) : Prop :=
  ∀ a s, r = .ok a s → ∃ t, r' = .ok a t ∧ Alike l s t

variable {α β : Type} {l : Live} {s t : State}

/-- An update of registers that neither reads nor writes what may differ. -/
theorem Alike.update {g : State → State} (h : Alike l s t)
    (hg : ∀ k, g (s.over k) = (g s).over k) : Alike l (g s) (g t) := by
  have hs : g s = (g s).over s := hg s
  have ht : g t = (g s).over t := (congrArg g h.registers).trans (hg t)
  rw [hs, ht]
  exact ⟨rfl, h.found, h.acc, h.rem, h.bm, h.em⟩

theorem Alike.mono {l' : Live} (h : Alike l s t) (ha : l'.acc = true → l.acc = true)
    (hr : l'.rem = true → l.rem = true) (hb : l'.bm = true → l.bm = true)
    (he : l'.em = true → l.em = true) : Alike l' s t :=
  ⟨h.registers, h.found, fun x => h.acc (ha x), fun x => h.rem (hr x), fun x => h.bm (hb x),
    fun x => h.em (he x)⟩

/-- What is read off the registers is the same. -/
theorem Alike.operands (h : Alike l s t) : t.w = s.w ∧ t.sw = s.sw ∧ t.pv = s.pv ∧
    t.runLength = s.runLength ∧ t.bitpos = s.bitpos ∧ t.eidx = s.eidx ∧ t.blkw = s.blkw ∧
    t.limitBits = s.limitBits := by
  rw [h.registers]
  exact ⟨rfl, rfl, rfl, rfl, rfl, rfl, rfl, rfl⟩

/-- Completion forgets STATUS and the temporaries (R22, R42). -/
theorem Alike.complete_eq (h : Alike l s t) (hb : l.bm = true) (he : l.em = true) :
    complete t = complete s := by
  have hbm := h.bm hb
  have hem := h.em he
  have hfound := h.found
  rw [h.registers]
  unfold complete State.over Status.completed
  simp only [hbm, hem, hfound]

/-! ## Operations that follow each other -/

theorem Follows.ok (a : α) (h : Alike l s t) : Follows l (.ok a s) (.ok a t) := by
  rintro _ _ ⟨⟩
  exact ⟨t, rfl, h⟩

theorem Follows.raise {c d : Cause} : Follows l (.raise c s : Res α) (.raise d t) :=
  nofun

theorem Follows.andThen {l' : Live} {r r' : Res α} {f : α → State → Res β} (h : Follows l r r')
    (hf : ∀ a s t, Alike l s t → Follows l' (f a s) (f a t)) :
    Follows l' (r.andThen f) (r'.andThen f) := by
  intro b q hq
  obtain ⟨a, s, rfl, hs⟩ := Res.andThen_eq_ok.mp hq
  obtain ⟨t, rfl, hst⟩ := h a s rfl
  exact hf a s t hst b q hs

theorem Follows.ite {P Q : Prop} [Decidable P] [Decidable Q] {a b a' b' : Res α} (hpq : P ↔ Q)
    (h1 : Follows l a a') (h2 : Follows l b b') :
    Follows l (if P then a else b) (if Q then a' else b') := by
  by_cases hp : P
  · rwa [if_pos hp, if_pos (hpq.mp hp)]
  · rwa [if_neg hp, if_neg (mt hpq.mpr hp)]

theorem Follows.times {f : State → Res Unit} (hf : ∀ s t, Alike l s t → Follows l (f s) (f t))
    (n : Nat) (h : Alike l s t) : Follows l (Res.times f n s) (Res.times f n t) := by
  induction n generalizing s t with
  | zero => exact Follows.ok () h
  | succ n ih => exact (hf s t h).andThen fun _ _ _ h => ih h

theorem Follows.each {f : α → State → Res Unit}
    (hf : ∀ x s t, Alike l s t → Follows l (f x s) (f x t))
    (xs : List α) (h : Alike l s t) : Follows l (Res.each f xs s) (Res.each f xs t) := by
  induction xs generalizing s t with
  | nil => exact Follows.ok () h
  | cons x xs ih => exact (hf x s t h).andThen fun _ _ _ h => ih h

theorem Follows.mono {l' : Live} {r r' : Res α} (h : Follows l r r')
    (ha : l'.acc = true → l.acc = true) (hr : l'.rem = true → l.rem = true)
    (hb : l'.bm = true → l.bm = true) (he : l'.em = true → l.em = true) : Follows l' r r' :=
  fun a s hs => (h a s hs).imp fun _ ⟨ht, hst⟩ => ⟨ht, hst.mono ha hr hb he⟩

/-! ## Updates -/

theorem Alike.moveOn (h : Alike l s t) (n : Nat) : Alike l (moveOn n s) (moveOn n t) :=
  h.update (g := Machine.moveOn n) fun _ => rfl

theorem Alike.setPrev (h : Alike l s t) (x : Int) : Alike l (setPrev x s) (setPrev x t) :=
  h.update (g := Machine.setPrev x) fun _ => rfl

theorem Alike.advance (h : Alike l s t) (n : Nat) : Alike l (advance n s) (advance n t) :=
  h.update (g := Machine.advance n) fun _ => rfl

theorem Alike.countBlock (h : Alike l s t) : Alike l (countBlock s) (countBlock t) :=
  h.update (g := Machine.countBlock) fun _ => rfl

theorem Alike.rewind (h : Alike l s t) : Alike l (rewind s) (rewind t) :=
  h.update (g := Machine.rewind) fun _ => rfl

/-- Another byte memory, the same one if it is live. -/
theorem Alike.setBm (h : Alike l s t) {m m' : Memory 8} (hm : l.bm = true → m' = m) :
    Alike l (s.setBm m) (t.setBm m') := by
  rw [h.registers]
  exact ⟨rfl, h.found, h.acc, h.rem, hm, h.em⟩

/-- Another element memory, the same one if it is live. -/
theorem Alike.setEm (h : Alike l s t) {m m' : Memory 32} (hm : l.em = true → m' = m) :
    Alike l { s with em := m } { t with em := m' } := by
  rw [h.registers]
  exact ⟨rfl, h.found, h.acc, h.rem, h.bm, hm⟩

/-- Taking a difference makes the accumulator live (R42). -/
theorem Alike.takeDiff (h : Alike l s t) (d : Int) :
    Alike { l with acc := true } (takeDiff d s) (takeDiff d t) := by
  rw [h.registers]
  exact ⟨rfl, h.found, fun _ => rfl, h.rem, h.bm, h.em⟩

theorem Alike.setRem (h : Alike l s t) {r r' : BitVec 32} (hr : r' = r) :
    Alike { l with rem := true } (s.setRem r) (t.setRem r') := by
  rw [h.registers]
  exact ⟨rfl, h.found, h.acc, fun _ => hr, h.bm, h.em⟩

/-- Putting out an element reads no memory. -/
theorem Alike.produce (h : Alike l s t) (x : Int) : Alike l (produce x s) (produce x t) := by
  have hem : l.em = true →
      elemWrite t.em t.eidx.toNat x = elemWrite s.em s.eidx.toNat x := fun he => by
    rw [h.em he, h.operands.2.2.2.2.2.1]
  exact ((h.setEm hem).setPrev x).advance 1

end Sys2Proof.Machine
end

section
/-! Which of the temporaries and the memories the operations depend on: the encoder on the element
memory, the decoder on the byte memory, and neither on what it finds in the temporaries (10_state.md
R42). -/

namespace Sys2Proof.Machine

variable {l : Live} {s t : State}

/-! ## The encoder -/

theorem fits_alike (h : Alike l s t) (n : Nat) : fits n t = fits n s := by
  obtain ⟨-, -, -, -, hbitpos, -, -, hlimit⟩ := h.operands
  rw [fits, fits, hbitpos, hlimit]

theorem writeField_follows (h : Alike l s t) (v n : Nat) :
    Follows l (writeField v n s) (writeField v n t) := by
  refine Follows.ite (by rw [fits_alike h]) (Follows.ok () (Alike.moveOn (h.setBm fun hb => ?_) n))
    Follows.raise
  rw [h.bm hb, h.operands.2.2.2.2.1]

theorem alignWrite_follows (h : Alike l s t) : Follows l (alignWrite s) (alignWrite t) := by
  rw [alignWrite, alignWrite, h.operands.2.2.2.2.1]
  exact writeField_follows h _ _

theorem encCodeword_follows (d : Int) (s t : State) (h : Alike l s t) :
    Follows l (encCodeword d s) (encCodeword d t) := by
  unfold encCodeword
  rw [h.operands.2.1]
  refine (writeField_follows h _ _).andThen fun _ s t h => ?_
  rw [h.operands.2.1]
  refine Follows.ite Iff.rfl (writeField_follows h _ _) ?_
  refine (writeField_follows h _ _).andThen fun _ s t h => ?_
  rw [h.operands.1]
  exact writeField_follows h _ _

theorem encLitDiff_follows (h : Alike l s t) (d : Int) :
    Follows l (encLitDiff d s) (encLitDiff d t) := by
  rw [encLitDiff, encLitDiff, h.operands.1]
  exact writeField_follows h _ _

theorem encSegment_follows (seg : Segment) (s t : State) (h : Alike l s t) :
    Follows l (encSegment seg s) (encSegment seg t) := by
  cases seg with
  | literal ds =>
    exact (writeField_follows h _ _).andThen fun _ _ _ h => Follows.each encCodeword_follows ds h
  | constant n d =>
    exact (writeField_follows h _ _).andThen fun _ _ _ h => encLitDiff_follows h d
  | continued d =>
    exact (writeField_follows h _ _).andThen fun _ _ _ h => encLitDiff_follows h d

/-- A size patched into the byte memory (R190). -/
theorem Alike.setSize (h : Alike l s t) {m m' : Memory 8} (hm : l.bm = true → m' = m)
    {x x' : BitVec 32} (hx : x' = x) :
    Alike l { s with bm := m, total := x } { t with bm := m', total := x' } := by
  subst hx
  exact (h.setBm hm).update (g := fun s => { s with total := x' }) fun _ => rfl

theorem patchSize_follows (h : Alike l s t) : Follows l (patchSize s) (patchSize t) := by
  have hlimit : t.limit = s.limit := by
    rw [h.registers]
    rfl
  obtain ⟨-, -, -, -, hbitpos, -, -, hbits⟩ := h.operands
  refine Follows.ite (by rw [hlimit, hbits, hbitpos]) Follows.raise
    (Follows.ok () (h.setSize (fun hb => ?_) (by rw [hbitpos])))
  rw [h.bm hb, hbitpos]

/-- A field whose value is read off the registers. -/
theorem writeOperand_follows {v : State → Nat} (hv : ∀ s k : State, v (s.over k) = v s)
    (h : Alike l s t) (n : Nat) : Follows l (writeField (v s) n s) (writeField (v t) n t) := by
  have hvt : v t = v s := (congrArg v h.registers).trans (hv s t)
  rw [hvt]
  exact writeField_follows h _ n

theorem wrHeader_follows (h : Alike l s t) : Follows l (wrHeader s) (wrHeader t) := by
  have hstart : Alike l { rewind s with total := 0 } { rewind t with total := 0 } :=
    h.update (g := fun s => { rewind s with total := 0 }) fun _ => rfl
  unfold wrHeader
  exact (writeField_follows hstart 0 32).andThen fun _ _ _ h =>
    (writeOperand_follows (v := fun s => s.blkc.toNat) (fun _ _ => rfl) h 32).andThen fun _ _ _ h =>
    (writeOperand_follows (v := fun s => s.blkw.toNat) (fun _ _ => rfl) h 32).andThen fun _ _ _ h =>
    (writeOperand_follows (v := State.sw) (fun _ _ => rfl) h 8).andThen fun _ _ _ h =>
    writeOperand_follows (v := fun s => s.cfg.typ.toNat) (fun _ _ => rfl) h 8

section Encoder

variable (he : l.em = true)
include he

theorem elemAt_alike (h : Alike l s t) (k : Nat) : elemAt t k = elemAt s k := by
  rw [elemAt, elemAt, h.em he, h.operands.1, h.operands.2.2.2.2.2.1]

/-- The encoder takes an element (R186). -/
theorem takeElem_alike (h : Alike l s t) :
    Alike l (advance 1 (setPrev (elemAt s 0) s)) (advance 1 (setPrev (elemAt t 0) t)) := by
  rw [elemAt_alike he h]
  exact (h.setPrev _).advance 1

theorem encFirst_follows (h : Alike l s t) : Follows l (encFirst s) (encFirst t) := by
  unfold encFirst
  rw [elemAt_alike he h, h.operands.1]
  exact (writeField_follows h _ _).andThen fun _ _ _ h => Follows.ok () (takeElem_alike he h)

theorem encElem_follows (s t : State) (h : Alike l s t) : Follows l (encElem s) (encElem t) := by
  unfold encElem
  rw [elemAt_alike he h, h.operands.2.2.1]
  exact (encCodeword_follows _ _ _ h).andThen fun _ _ _ h => Follows.ok () (takeElem_alike he h)

theorem encRow_follows (h : Alike l s t) (n : Nat) : Follows l (encRow n s) (encRow n t) := by
  have helems : elemsAt t n = elemsAt s n := List.map_congr_left fun k _ => elemAt_alike he h k
  unfold encRow
  rw [helems, h.operands.2.2.1]
  refine (Follows.each encSegment_follows _ h).andThen fun _ s t h =>
    Follows.ok () (Alike.advance ?_ n)
  split
  · rw [elemAt_alike he h]
    exact h.setPrev _
  · exact h

theorem encBlock_follows (s t : State) (h : Alike l s t) : Follows l (encBlock s) (encBlock t) := by
  refine (encFirst_follows he h).andThen fun _ s t h => ?_
  obtain ⟨-, -, -, hrl, -, -, hblkw, -⟩ := h.operands
  rw [hrl, hblkw]
  refine (Follows.ite Iff.rfl (encRow_follows he h _)
    (Follows.times (encElem_follows he) _ h)).andThen fun _ s t h => ?_
  exact (alignWrite_follows h).andThen fun _ _ _ h => Follows.ok () h.countBlock

end Encoder

/-! ## The decoder -/

section Decoder

variable (hb : l.bm = true)
include hb

theorem readField_follows (h : Alike l s t) (n : Nat) :
    Follows l (readField n s) (readField n t) := by
  have hread : fieldRead t.bm t.bitpos.toNat n = fieldRead s.bm s.bitpos.toNat n := by
    rw [h.bm hb, h.operands.2.2.2.2.1]
  refine Follows.ite (by rw [fits_alike h]) ?_ Follows.raise
  rw [hread]
  exact Follows.ok _ (h.moveOn n)

theorem scanZeros_follows (h : Alike l s t) (n : Nat) :
    Follows l (scanZeros n s) (scanZeros n t) := by
  obtain ⟨-, -, -, -, hbitpos, -, -, hlimit⟩ := h.operands
  unfold scanZeros
  rw [h.bm hb, hbitpos, hlimit]
  split
  · exact Follows.raise
  · exact Follows.ok _ (h.moveOn _)

/-- Whatever the accumulator held, it holds the codeword's difference then (R144). -/
theorem decCodeword_follows (h : Alike l s t) :
    Follows { l with acc := true } (decCodeword s) (decCodeword t) := by
  unfold decCodeword
  rw [h.operands.2.1]
  refine (readField_follows hb h _).andThen fun lit s t h =>
    (scanZeros_follows hb h _).andThen fun r s t h => ?_
  obtain ⟨hw, hsw, -⟩ := h.operands
  refine Follows.ite Iff.rfl ?_ ?_
  · rw [unaryForm, unaryForm, hsw]
    exact Follows.ite Iff.rfl (Follows.ok () (h.takeDiff _)) Follows.raise
  · rw [hw]
    refine (readField_follows hb h _).andThen fun e s t h => ?_
    obtain ⟨hw, hsw, -⟩ := h.operands
    rw [escapeForm, escapeForm, hw, hsw]
    exact Follows.ite Iff.rfl (Follows.ok () (h.takeDiff _)) Follows.raise

theorem decLitDiff_follows (h : Alike l s t) :
    Follows { l with acc := true } (decLitDiff s) (decLitDiff t) := by
  unfold decLitDiff
  rw [h.operands.1]
  refine (readField_follows hb h _).andThen fun e s t h => ?_
  rw [h.operands.1]
  exact Follows.ok () (h.takeDiff _)

omit hb in
/-- The element after the difference in a live accumulator (R146). -/
theorem nextElem_follows (ha : l.acc = true) (s t : State) (h : Alike l s t) :
    Follows l (.ok () (produce s.nextElem s)) (.ok () (produce t.nextElem t)) := by
  have hnext : t.nextElem = s.nextElem := by
    rw [State.nextElem, State.nextElem, h.acc ha, h.operands.1, h.operands.2.2.1]
  rw [hnext]
  exact Follows.ok () (h.produce _)

theorem decElem_follows (s t : State) (h : Alike l s t) :
    Follows { l with acc := true } (decElem s) (decElem t) :=
  (decCodeword_follows hb h).andThen fun _ s t h => nextElem_follows rfl s t h

theorem decElems_follows (h : Alike l s t) (n : Nat) :
    Follows l (Res.times decElem n s) (Res.times decElem n t) :=
  Follows.times (fun s t h => (decElem_follows hb s t h).mono (fun _ => rfl) id id id) n h

theorem decFirst_follows (h : Alike l s t) : Follows l (decFirst s) (decFirst t) := by
  unfold decFirst
  rw [h.operands.1]
  refine (readField_follows hb h _).andThen fun x s t h => ?_
  rw [h.operands.1]
  exact Follows.ok () (h.produce _)

section Row

variable (hr : l.rem = true)
include hr

omit hb in
theorem checkCount_follows (h : Alike l s t) (c : Nat) :
    Follows l (checkCount c s) (checkCount c t) :=
  Follows.ite (by rw [h.rem hr]) Follows.raise (Follows.ok () h)

omit hb in
theorem lessRem_alike (h : Alike l s t) (c : Nat) : Alike l (lessRem c s) (lessRem c t) :=
  (h.setRem (congrArg (· - BitVec.ofNat 32 c) (h.rem hr))).mono id (fun _ => rfl) id id

theorem literalRun_follows (h : Alike l s t) (c : Nat) :
    Follows l (literalRun c s) (literalRun c t) :=
  (checkCount_follows hr h c).andThen fun _ _ _ h =>
    (decElems_follows hb h c).andThen fun _ _ _ h =>
    Follows.ok () (lessRem_alike hr h c)

theorem repeatedRun_follows (h : Alike l s t) (c : Nat) :
    Follows l (repeatedRun c s) (repeatedRun c t) :=
  (checkCount_follows hr h c).andThen fun _ _ _ h =>
    (decLitDiff_follows hb h).andThen fun _ _ _ h =>
    (Follows.times (nextElem_follows rfl) c h).andThen fun _ _ _ h =>
    Follows.ok () (lessRem_alike hr (h.mono (fun _ => rfl) id id id) c)

theorem afterMarker_follows (h : Alike l s t) (b : Nat) :
    Follows l (afterMarker b s) (afterMarker b t) :=
  Follows.ite Iff.rfl Follows.raise <| Follows.ite Iff.rfl (literalRun_follows hb hr h b) <|
    Follows.ite Iff.rfl (repeatedRun_follows hb hr h _) (repeatedRun_follows hb hr h _)

theorem decSegments_follows (fuel : Nat) (h : Alike l s t) :
    Follows l (decSegments fuel s) (decSegments fuel t) := by
  induction fuel generalizing s t with
  | zero => exact Follows.ok () h
  | succ fuel ih =>
    refine Follows.ite (by rw [h.rem hr]) (Follows.ok () h) ?_
    exact ((readField_follows hb h 8).andThen fun b _ _ h => afterMarker_follows hb hr h b).andThen
      fun _ _ _ h => ih h

end Row

/-- A row sets the number of missing elements itself (R166). -/
theorem decRow_follows (h : Alike l s t) (n : Nat) : Follows l (decRow n s) (decRow n t) := by
  refine ((decSegments_follows (l := { l with rem := true }) hb rfl n (h.setRem rfl)).mono
    (l' := l) id (fun _ => rfl) id id).andThen fun _ s t h => ?_
  rw [h.operands.2.2.1]
  exact Follows.ok () (h.setPrev _)

theorem decBlock_follows (s t : State) (h : Alike l s t) : Follows l (decBlock s) (decBlock t) := by
  refine (decFirst_follows hb h).andThen fun _ s t h => ?_
  obtain ⟨-, -, -, hrl, -, -, hblkw, -⟩ := h.operands
  rw [hrl, hblkw]
  refine (Follows.ite Iff.rfl (decRow_follows hb h _) (decElems_follows hb h _)).andThen
    fun _ s t h => ?_
  rw [alignRead, alignRead, h.operands.2.2.2.2.1]
  exact Follows.ok () (h.moveOn _).countBlock

theorem rdHeader_follows (h : Alike l s t) : Follows l (rdHeader s) (rdHeader t) := by
  refine (readField_follows hb h.rewind 32).andThen fun total _ _ h =>
    (readField_follows hb h 32).andThen fun count _ _ h =>
    (readField_follows hb h 32).andThen fun width _ _ h =>
    (readField_follows hb h 8).andThen fun slice _ _ h =>
    (readField_follows hb h 8).andThen fun tag s t h => ?_
  have hcheck : checkHeader count width slice tag t = checkHeader count width slice tag s := by
    rw [h.registers]
    rfl
  rw [acceptHeader, acceptHeader, hcheck]
  split
  · exact Follows.raise
  · exact Follows.ok () (h.update (g := fun s => { s with
      total := BitVec.ofNat 32 total
      cfg := { typ := BitVec.ofNat 3 tag, slice := BitVec.ofNat 6 slice } })
      fun _ => rfl)

end Decoder

end Sys2Proof.Machine
end

section
/-! ENCODE and DECODE are the host's loops over the block commands (30_encoding.md R105,
43_blockframer.md R191, R192). -/

namespace Sys2Proof.Machine

variable {s p q r t : State} {i : Instr} {u : Option Unspec} {body : State → Res Unit}

/-! ## Operations that completed -/

/-- An operation that stores bits and completed had room for them. -/
theorem Writes.of_ok {base : State} {a : Res Unit} {bits : List Bool} (h : Writes s a bits base)
    (ha : a = .ok () t) : room bits.length s ∧ ∃ m, t = base.setBm m := by
  subst ha
  by_cases hr : room bits.length s
  · obtain ⟨m, -, -, hok⟩ := h.1 hr
    cases hok
    exact ⟨hr, m, rfl⟩
  · obtain ⟨u, hu⟩ := h.2 hr
    cases hu

/-- The same registers, temporaries and cells over another byte memory. -/
theorem alike_setBm (s : State) (m : Memory 8) : Alike ⟨true, true, false, true⟩ s (s.setBm m) :=
  ⟨rfl, rfl, fun _ => rfl, fun _ => rfl, nofun, fun _ => rfl⟩

/-! ## One command of the loop -/

/-- Both memories are live and no temporary is: what a command finds when it starts. -/
def Live.memories : Live :=
  { acc := false, rem := false, bm := true, em := true }

/-- The start of one command in the place of another one. -/
theorem start_alike (i k : Instr) (s : State) : Alike .memories (start k s) (start i s) :=
  ⟨rfl, rfl, nofun, nofun, fun _ => rfl, fun _ => rfl⟩

/-- The start of a command in the middle of another one. -/
theorem start_complete_alike (i : Instr) (p : State) : Alike .memories p (start i (complete p)) :=
  ⟨rfl, rfl, nofun, nofun, fun _ => rfl, fun _ => rfl⟩

theorem complete_ready (s : State) : (complete s).ready :=
  ⟨rfl, rfl⟩

/-- A command whose body completes from `p` completes from any idle state that is alike, and leaves
the same state. -/
theorem runCommand_alike (hbody : ∀ s t, Alike .memories s t → Follows .memories (body s) (body t))
    (hs : s.ready) (hps : Alike .memories p (start i s)) (hc : openingCheck i s = none)
    (hp : body p = .ok () q) : runCommand i u body s = .next (complete q) := by
  obtain ⟨q', hq', hqq⟩ := hbody _ _ hps () q hp
  rw [runCommand_ok (accepts_of_ready hs) hc hq', hqq.complete_eq rfl rfl]

/-- The same from the state that the command before it has left. -/
theorem runCommand_complete
    (hbody : ∀ s t, Alike .memories s t → Follows .memories (body s) (body t))
    (hc : openingCheck i (complete p) = none) (hp : body p = .ok () q) :
    runCommand i u body (complete p) = .next (complete q) :=
  runCommand_alike hbody (complete_ready p) (start_complete_alike i p) hc hp

theorem execAll_cons {is : List Instr} (h : exec i s = .next t) :
    execAll (i :: is) s = execAll is t := by
  rw [execAll, h]

/-- A command that was accepted and left no fault has completed its body. -/
theorem runCommand_completed (hs : s.ready) (h : runCommand i u body s = .next t)
    (hf : t.status.fault = false) :
    openingCheck i s = none ∧ ∃ r, body (start i s) = .ok () r ∧ t = complete r := by
  rcases runCommand_cases h with ⟨ha, -⟩ | ⟨-, c, -, rfl⟩ | ⟨-, hc, r, hr, rfl⟩ |
      ⟨-, -, c, r, -, rfl⟩
  · rw [accepts_of_ready hs] at ha
    cases ha
  · cases hf
  · exact ⟨hc, r, hr, rfl⟩
  · have hfault : (faultState u c s r).status.fault = true := by
      unfold faultState
      split
      · rfl
      · split <;> rfl
    rw [hfault] at hf
    cases hf

/-! ## The block commands of the loop -/

/-- `n` more blocks fit into the element memory, and the cursor is aligned (R185). -/
def BlocksFit (n : Nat) (s : State) : Prop :=
  s.codecLegal ∧ s.blkw ≠ 0 ∧ s.eidx.toNat + n * s.blkw.toNat ≤ s.elim.toNat ∧
    s.bitpos.toNat % 8 = 0

theorem BlocksFit.checkBlock {n : Nat} (h : BlocksFit (n + 1) s) : checkBlock s = none := by
  obtain ⟨hc, hb, he, ha⟩ := h
  rw [Nat.succ_mul] at he
  exact checkBlock_none_iff.mpr ⟨hc, hb, by omega, ha⟩

/-- The loop over a block command that has the next block's room again after each block. -/
theorem execAll_blocks (hexec : ∀ s, exec i s = runCommand i u body s)
    (hcheck : ∀ s, openingCheck i s = checkBlock s)
    (hbody : ∀ s t, Alike .memories s t → Follows .memories (body s) (body t))
    (hnext : ∀ n p q, BlocksFit (n + 1) p → body p = .ok () q → BlocksFit n q)
    (is : List Instr) (n : Nat) (hp : BlocksFit n p) (h : Res.times body n p = .ok () q) :
    execAll (List.replicate n i ++ is) (complete p) = execAll is (complete q) ∧ BlocksFit 0 q := by
  induction n generalizing p with
  | zero =>
    cases h
    exact ⟨rfl, hp⟩
  | succ n ih =>
    obtain ⟨_, r, hr, hq⟩ := Res.andThen_eq_ok.mp h
    obtain ⟨hloop, hfit⟩ := ih (hnext n p r hp hr) hq
    refine ⟨?_, hfit⟩
    have hc : openingCheck i (complete p) = none :=
      (hcheck _).trans (BlocksFit.checkBlock (s := complete p) hp)
    rw [List.replicate_succ, List.cons_append,
      execAll_cons ((hexec _).trans (runCommand_complete hbody hc hr)), hloop]

/-- What a block keeps of what the next block's checks read. -/
theorem BlocksFit.of_keeps {n : Nat} {v : Touch} (hv : v.cfg = false) (hk : Keeps v p q)
    (h : BlocksFit (n + 1) p) (he : q.eidx.toNat ≤ p.eidx.toNat + p.blkw.toNat)
    (ha : q.bitpos.toNat % 8 = 0) : BlocksFit n q := by
  obtain ⟨⟨ht, hsw⟩, hb, hroom, -⟩ := h
  have hcfg := hk.cfg hv
  rw [Nat.succ_mul] at hroom
  refine ⟨⟨by rw [hcfg]; exact ht, ?_⟩, by rw [hk.blkw]; exact hb, ?_, ha⟩
  · rw [State.sw, State.w, hcfg]
    exact hsw
  · rw [hk.blkw, hk.elim]
    omega

/-- A block that was encoded has moved the cursor on by whole bytes and EIDX by its elements; what
the byte memory held does not matter (R186). -/
theorem BlocksFit.encBlock {n : Nat} (h : BlocksFit (n + 1) p) (hq : encBlock p = .ok () q) :
    BlocksFit n q := by
  have hfit := h
  obtain ⟨⟨-, hsw⟩, hb, he, ha⟩ := h
  rw [Nat.succ_mul] at he
  have hcells : p.eidx.toNat + p.blkw.toNat < 2 ^ 32 := eidx_add_lt (by omega)
  obtain ⟨q', hq', hqq⟩ := encBlock_follows rfl _ _ (alike_setBm p []) () q hq
  have hwr := encBlock_writes (s := p.setBm []) ⟨List.Pairwise.nil, nofun⟩ hsw hb hcells ha
  have hlen := blockBits_length_mod (p.setBm []).ctx (p.setBm []).runLength
    (elemsAt (p.setBm []) (p.setBm []).blkw.toNat)
  generalize blockBits (p.setBm []).ctx (p.setBm []).runLength
    (elemsAt (p.setBm []) (p.setBm []).blkw.toNat) = bits at hwr hlen
  obtain ⟨hroom, m, rfl⟩ := hwr.of_ok hq'
  obtain ⟨-, -, -, -, hbitpos, heidx, -, -⟩ := hqq.operands
  refine hfit.of_keeps rfl (keeps_of_ok hq (encBlock_keeps p)) ?_ ?_
  · rw [← heidx]
    exact (afterEncBlock_eidx (s := p.setBm []) (k := bits.length) hcells).le
  · have hpos : q.bitpos.toNat = p.bitpos.toNat + bits.length := by
      rw [← hbitpos]
      exact bitpos_add hroom
    omega

theorem padBits_aligns (o : BitVec 64) : (o + BitVec.ofNat 64 (padBits o.toNat)).toNat % 8 = 0 := by
  rw [BitVec.toNat_add, BitVec.toNat_ofNat, padBits]
  omega

/-- A block that was decoded has moved the cursor on to a byte boundary and EIDX at most by its
elements; what the element memory held does not matter (R188). -/
theorem BlocksFit.decBlock {n : Nat} (h : BlocksFit (n + 1) p) (hq : decBlock p = .ok () q) :
    BlocksFit n q := by
  have hfit := h
  obtain ⟨-, hb, he, -⟩ := h
  rw [Nat.succ_mul] at he
  have hcells : p.eidx.toNat + p.blkw.toNat < 2 ^ 32 := eidx_add_lt (by omega)
  have halike : Alike ⟨true, true, true, false⟩ p { p with em := [] } :=
    ⟨rfl, rfl, fun _ => rfl, fun _ => rfl, fun _ => rfl, nofun⟩
  obtain ⟨q', hq', hqq⟩ := decBlock_follows rfl _ _ halike () q hq
  obtain ⟨c, hc, hfills⟩ := decBlock_fills (s := { p with em := [] }) hb hq'
  change c ≤ p.blkw.toNat at hc
  obtain ⟨-, heidx, -⟩ := hfills ⟨List.Pairwise.nil, nofun⟩ (show p.eidx.toNat + c < _ by omega)
  refine hfit.of_keeps rfl (keeps_of_ok hq (decBlock_keeps p)) ?_ ?_
  · rw [← hqq.operands.2.2.2.2.2.1, heidx]
    exact Nat.add_le_add_left hc _
  · obtain ⟨_, r, -, hr⟩ := Res.andThen_eq_ok.mp hq
    obtain ⟨_, r', -, hr'⟩ := Res.andThen_eq_ok.mp hr
    cases hr'
    exact padBits_aligns r'.bitpos

/-! ## ENCODE -/

/-- WR_HEADER leaves room for the blocks of the geometry (R181, R182). -/
theorem blocksFit_wrHeader (hc : s.codecLegal) (hg : s.geometryLegal) (h : wrHeader s = .ok () r) :
    BlocksFit s.blkc.toNat r := by
  obtain ⟨r', hr', hrr⟩ := wrHeader_follows (alike_setBm s []) () r h
  obtain ⟨-, m, rfl⟩ := (wrHeader_writes (s := s.setBm []) ⟨List.Pairwise.nil, nofun⟩).of_ok hr'
  have hk := keeps_of_ok h (wrHeader_keeps s)
  obtain ⟨hw, hsw, -, -, hbitpos, heidx, -, -⟩ := hrr.operands
  refine ⟨⟨by rw [hk.cfg rfl]; exact hc.1, by rw [← hw, ← hsw]; exact hc.2⟩,
    by rw [hk.blkw]; exact hg.1, ?_, by rw [← hbitpos]; exact show 112 % 8 = 0 by decide⟩
  rw [← heidx, hk.blkw, hk.elim]
  show 0 + _ ≤ _
  rw [Nat.zero_add, Nat.mul_comm]
  exact hg.2.2

/-- Settles O55: the commands of the loop follow the parts of ENCODE's body. -/
theorem encodeIsHostLoop : Obligations.EncodeIsHostLoop := by
  intro s t hs h hf
  obtain ⟨hcheck, q, hq, rfl⟩ := runCommand_completed (i := .encode) hs h hf
  obtain ⟨hc, hg⟩ := checkEncode_none_iff.mp hcheck
  obtain ⟨_, r, hr, hblocks⟩ := Res.andThen_eq_ok.mp hq
  obtain ⟨_, p, hp, hpatch⟩ := Res.andThen_eq_ok.mp hblocks
  have hk := keeps_of_ok hr (wrHeader_keeps _)
  have hfit := blocksFit_wrHeader (s := start .encode s) hc hg hr
  rw [hk.blkc] at hp
  have hheader : exec .wrHeader s = .next (complete r) :=
    runCommand_alike (i := .wrHeader) (fun _ _ h => wrHeader_follows h) hs (start_alike _ .encode s)
      hcheck hr
  obtain ⟨hloop, -, -, -, ha⟩ := execAll_blocks (i := .encBlock) (fun _ => rfl) (fun _ => rfl)
    (encBlock_follows rfl) (fun n p q h hq => h.encBlock hq) [.patchSize] _ hfit hp
  have hsize : exec .patchSize (complete p) = .next (complete q) :=
    runCommand_complete (i := .patchSize) (fun _ _ h => patchSize_follows h)
      (if_neg (not_not.mpr ha)) hpatch
  rw [execAll_cons hheader]
  exact hloop.trans (execAll_cons hsize)

/-! ## DECODE -/

/-- A header that is accepted passed its tests, and is loaded (R184). -/
theorem acceptHeader_eq_ok {total count width : BitVec 32} {slice tag : BitVec 8}
    (h : acceptHeader total.toNat count.toNat width.toNat slice.toNat tag.toNat s = .ok () r) :
    typeReserved (tag.truncate 3) = false ∧ slice.toNat ≤ tagWidth (tag.truncate 3) ∧
      r = { s with
        total := total, cfg := { typ := tag.truncate 3, slice := slice.truncate 6 } } := by
  cases hcheck : checkHeader count.toNat width.toNat slice.toNat tag.toNat s with
  | some c =>
    rw [acceptHeader_refused hcheck] at h
    cases h
  | none =>
    rw [acceptHeader_ok hcheck] at h
    rw [checkHeader_fields] at hcheck
    split_ifs at hcheck with htag hmismatch hslice
    simp only [tagByteReserved, Bool.or_eq_true, not_or, Bool.not_eq_true] at htag
    cases h
    exact ⟨htag.2, not_lt.mp hslice, rfl⟩

/-- A header that the header step has accepted leaves room for the blocks of the geometry
(R183, R184). -/
theorem blocksFit_rdHeader (hg : s.geometryLegal) (h : rdHeader s = .ok () r) :
    BlocksFit s.blkc.toNat r := by
  have hreads := rdHeader_reads ((holdsBits_hdr_fieldRead s.ctx s.bm).below s.limitBits)
  by_cases hl : 14 ≤ s.limit.toNat
  · rw [hreads.1 hl] at h
    obtain ⟨htyp, hslice, rfl⟩ := acceptHeader_eq_ok h
    refine ⟨⟨htyp, (Nat.mod_le _ _).trans hslice⟩, hg.1, ?_, show 112 % 8 = 0 by decide⟩
    show 0 + _ ≤ _
    rw [Nat.zero_add, Nat.mul_comm]
    exact hg.2.2
  · obtain ⟨t, ht⟩ := hreads.2 (not_le.mp hl)
    rw [ht] at h
    cases h

/-- Settles O56: the commands of the loop follow the parts of DECODE's body, and the end-of-stream
check changes nothing. -/
theorem decodeIsHostLoop : Obligations.DecodeIsHostLoop := by
  intro s t hs h hf
  obtain ⟨hcheck, q, hq, rfl⟩ := runCommand_completed (i := .decode) hs h hf
  obtain ⟨-, hg⟩ := checkDecode_none_iff.mp hcheck
  obtain ⟨_, r, hr, hblocks⟩ := Res.andThen_eq_ok.mp hq
  obtain ⟨_, p, hp, hsize⟩ := Res.andThen_eq_ok.mp hblocks
  have hk := keeps_of_ok hr (rdHeader_keeps _)
  have hfit := blocksFit_rdHeader (s := start .decode s) hg hr
  rw [hk.blkc] at hp
  have hheader : exec .rdHeader s = .next (complete r) :=
    runCommand_alike (i := .rdHeader) (fun _ _ h => rdHeader_follows rfl h) hs
      (start_alike _ .decode s) hcheck hr
  obtain ⟨hloop, -⟩ := execAll_blocks (i := .decBlock) (fun _ => rfl) (fun _ => rfl)
    (decBlock_follows rfl) (fun n p q h hq => h.decBlock hq) [] _ hfit hp
  unfold checkSize at hsize
  split at hsize
  case isTrue => cases hsize
  case isFalse hpos =>
    cases hsize
    refine ⟨?_, not_not.mp hpos⟩
    rw [execAll_cons hheader, ← List.append_nil (List.replicate _ _)]
    exact hloop

end Sys2Proof.Machine
end

section
/-! BitCursor (40_bitcursor.md R121 to R127): its commands are one field write, one field read, a scan
or a move of the cursor, and every fault of theirs is precise (R227 (b)). -/

namespace Sys2Proof.Machine

variable {s r : State} {i : Instr} {u : Option Unspec} {body : State → Res Unit} {e : Cause}
  {v n : Nat}

/-! ## How the commands of BitCursor end -/

/-- A precise fault of the body (R227 (b)). -/
theorem runCommand_precise (hs : s.ready) (hc : openingCheck i s = none)
    (h : body (start i s) = .raise e r) : runCommand i none body s = .next (s.withFault e) :=
  runCommand_raise (accepts_of_ready hs) hc h

/-- A command that tests WIDTH refuses one above 64 (R223). -/
theorem runCommand_badWidth (hs : s.ready) (hi : openingCheck i = checkWidth)
    (hw : 64 < s.width.toNat) : runCommand i u body s = .next (s.withFault .badWidth) :=
  runCommand_check (accepts_of_ready hs) (hi ▸ checkWidth_bad hw)

/-- Room for a field of WIDTH bits, as the statements put it (R61). -/
theorem room_width_iff : room s.width.toNat s ↔
    ¬(s.width ≠ 0 ∧ 8 * s.limit.toNat < s.bitpos.toNat + s.width.toNat) := by
  rw [room, not_and_or, not_not, not_lt, BitVec.toNat_eq]
  rfl

/-- A command whose body is one field write stores the field where there is room (R121). -/
theorem runCommand_writeField (hs : s.ready) (hw : Memory.wf s.bm) (hc : openingCheck i s = none)
    (hbody : body (start i s) = writeField v n (start i s)) (hr : room n s) :
    ∃ t, runCommand i none body s = .next t ∧
      t = { s.atRest with bm := t.bm, bitpos := s.bitpos + BitVec.ofNat 64 n } ∧
      storesBits s.bm t.bm s.bitpos.toNat (bitsOf v n) := by
  obtain ⟨m, -, hst, hok⟩ :=
    (writeField_writes (s := start i s) hw v n).1 (by rw [bitsOf_length]; exact hr)
  exact ⟨_, runCommand_ok (accepts_of_ready hs) hc (hbody.trans hok), rfl, hst⟩

/-- Without room it is OutOfSpace, and nothing is stored (R121, R211). -/
theorem runCommand_writeField_outOfSpace (hs : s.ready) (hw : Memory.wf s.bm)
    (hc : openingCheck i s = none) (hbody : body (start i s) = writeField v n (start i s))
    (hr : ¬room n s) : runCommand i none body s = .next (s.withFault .outOfSpace) := by
  obtain ⟨r, hraise⟩ :=
    (writeField_writes (s := start i s) hw v n).2 (by rw [bitsOf_length]; exact hr)
  exact runCommand_precise hs hc (hbody.trans hraise)

/-! ## WRITE_BITS, SET_BIT, ALIGN_WR -/

theorem exec_writeBits (s : State) : exec .writeBits s =
    runCommand .writeBits none (fun s => writeField s.val.toNat s.width.toNat s) s :=
  rfl

theorem exec_setBit (s : State) : exec .setBit s = runCommand .setBit none (writeField 1 1) s :=
  rfl

theorem exec_alignWr (s : State) : exec .alignWr s = runCommand .alignWr none alignWrite s :=
  rfl

/-- Settles O20: a field write of VAL, WIDTH bits wide. -/
theorem writeBitsStoresField : Obligations.WriteBitsStoresField := by
  intro s hs hw
  rw [exec_writeBits]
  split_ifs with hwidth hfit
  · exact runCommand_badWidth hs rfl hwidth
  · exact runCommand_writeField_outOfSpace hs hw (checkWidth_none (not_lt.mp hwidth)) rfl
      (mt room_width_iff.mp (not_not.mpr hfit))
  · exact runCommand_writeField hs hw (checkWidth_none (not_lt.mp hwidth)) rfl
      (room_width_iff.mpr hfit)

/-- Settles O22: a field write of one bit. -/
theorem setBitStoresOne : Obligations.SetBitStoresOne := by
  intro s hs hw
  rw [exec_setBit]
  split_ifs with hfit
  · exact runCommand_writeField_outOfSpace hs hw rfl rfl
      (mt (room_iff_le one_ne_zero).mp (not_le.mpr hfit))
  · exact runCommand_writeField (i := .setBit) (body := writeField 1 1) hs hw rfl rfl
      (room_of_le (not_lt.mp hfit))

/-- The limit is a whole number of bytes, so the pad bits of a cursor below it are below it (R124). -/
theorem room_padBits_iff : room (padBits s.bitpos.toNat) s ↔
    ¬(s.bitpos.toNat % 8 ≠ 0 ∧ 8 * s.limit.toNat < s.bitpos.toNat) := by
  unfold room padBits State.limitBits
  omega

/-- Settles O23: a field write of as many zeros as there are pad bits. -/
theorem alignWrPadsWithZeros : Obligations.AlignWrPadsWithZeros := by
  intro s hs hw
  rw [exec_alignWr]
  split_ifs with hfit
  · exact runCommand_writeField_outOfSpace hs hw rfl rfl
      (mt room_padBits_iff.mp (not_not.mpr hfit))
  · have hr := room_padBits_iff.mpr hfit
    obtain ⟨t, hexec, ht, hst⟩ :=
      runCommand_writeField (i := .alignWr) (body := alignWrite) hs hw rfl rfl hr
    have hpos : t.bitpos = s.bitpos + BitVec.ofNat 64 (padBits s.bitpos.toNat) := congrArg _ ht
    rw [bitsOf_zero_value, padBits_eq] at hst
    refine ⟨t, hexec, by rw [hpos]; exact ht, ?_, hst⟩
    rw [hpos, bitpos_add hr, padBits_eq]
    omega

/-! ## READ_BITS, ALIGN_RD -/

/-- The body of READ_BITS (R122). -/
def readBitsBody (s : State) : Res Unit :=
  (readField s.width.toNat s).andThen fun v s => .ok () (setVal v s)

theorem exec_readBits (s : State) : exec .readBits s = runCommand .readBits none readBitsBody s :=
  rfl

theorem exec_alignRd (s : State) :
    exec .alignRd s = runCommand .alignRd none (fun s => .ok () (alignRead s)) s :=
  rfl

/-- Bit `i` of VAL after a field was read into it: no bit beyond the field is set (R122). -/
theorem getLsbD_ofInt_fieldRead (m : Memory 8) (o n : Nat) {i : Nat} (hi : i < 64) :
    (BitVec.ofInt 64 (fieldRead m o n)).getLsbD i = (decide (i < n) && bitRead m (o + i)) := by
  rw [BitVec.ofInt_natCast, BitVec.getLsbD_ofNat, testBit_fieldRead]
  simp [hi]

/-- Settles O21. -/
theorem readBitsReturnsField : Obligations.ReadBitsReturnsField := by
  intro s hs
  rw [exec_readBits]
  have hread : Reads _ (readBitsBody (start .readBits s)) _ () _ :=
    (readField_reads (start .readBits s) s.width.toNat).then_ok rfl
  split_ifs with hwidth hfit
  · exact runCommand_badWidth hs rfl hwidth
  · obtain ⟨r, hraise⟩ := hread.2 (mt room_width_iff.mp (not_not.mpr hfit))
    exact runCommand_precise hs (checkWidth_none (not_lt.mp hwidth)) hraise
  · exact ⟨_, runCommand_ok (accepts_of_ready hs) (checkWidth_none (not_lt.mp hwidth))
      (hread.1 (room_width_iff.mpr hfit)), rfl, fun _ hi => getLsbD_ofInt_fieldRead _ _ _ hi⟩

/-- Settles O24: the pad bits reach up to the next byte boundary. -/
theorem alignRdRoundsUp : Obligations.AlignRdRoundsUp := by
  intro s hs
  rw [exec_alignRd]
  refine ⟨_, runCommand_ok (accepts_of_ready hs) rfl rfl, rfl, ?_⟩
  show (s.bitpos + BitVec.ofNat 64 (padBits s.bitpos.toNat)).toNat = _
  rw [BitVec.toNat_add, BitVec.toNat_ofNat, Nat.add_mod_mod, padBits_eq]
  congr 1
  omega

/-! ## SCAN_ZEROS -/

/-- The body of SCAN_ZEROS (R126). -/
def scanZerosBody (s : State) : Res Unit :=
  (scanZeros s.width.toNat s).andThen fun r s =>
    .ok () { setVal r.1 s with status := s.status.setFound r.2 }

theorem exec_scanZeros (s : State) :
    exec .scanZeros s = runCommand .scanZeros none scanZerosBody s :=
  rfl

theorem holdsBits_replicate_false {m : Memory 8} {o n : Nat}
    (h : ∀ j, j < n → bitRead m (o + j) = false) : holdsBits m o (List.replicate n false) :=
  fun j hj => by rw [h j (by simpa using hj), List.getElem_replicate]

theorem holdsBits_singleton {m : Memory 8} {o : Nat} {b : Bool} (h : bitRead m o = b) :
    holdsBits m o [b] := by
  intro j hj
  obtain rfl : j = 0 := by simpa using hj
  exact h

/-- SCAN_ZEROS where the scan consumes `n` bits, having counted `z` zeros (R126). -/
theorem execScanZeros_ok {f : Bool} {z : Nat} (hs : s.ready) (hw : s.width.toNat ≤ 64)
    (h : scanZeros s.width.toNat (start .scanZeros s) =
      .ok (z, f) (moveOn n (start .scanZeros s))) :
    exec .scanZeros s = .next { s.atRest with
      val := BitVec.ofNat 64 z, bitpos := s.bitpos + BitVec.ofNat 64 n,
      status := { s.atRest.status with found := f } } := by
  rw [exec_scanZeros, runCommand_ok (i := .scanZeros) (accepts_of_ready hs) (checkWidth_none hw)
    (congrArg (Res.andThen · _) h), ← BitVec.ofInt_natCast]
  rfl

/-- Settles O25: all zeros, or zeros up to the limit, or zeros and a one bit. -/
theorem scanZerosCounts : Obligations.ScanZerosCounts := by
  intro s hs
  refine ⟨fun hw => (exec_scanZeros s).trans (runCommand_badWidth hs rfl hw),
    fun hw z hz hzeros => ?_⟩
  have hhold : holdsBits s.bm s.bitpos.toNat (List.replicate z false) :=
    holdsBits_replicate_false fun j hj => (hzeros j hj).1
  have hroom : room z s := by
    rcases Nat.eq_zero_or_pos z with h0 | hpos
    · exact .inl h0
    · have hlast := (hzeros (z - 1) (Nat.sub_one_lt_of_lt hpos)).2
      exact room_of_le (by omega)
  split_ifs with hall hend
  · refine execScanZeros_ok hs hw ?_
    rw [← hall]
    exact (scanZeros_none (s := start .scanZeros s) (hhold.below _)).1 hroom
  · rw [exec_scanZeros]
    refine runCommand_precise hs (checkWidth_none hw) (congrArg (Res.andThen · _)
      (scanZeros_end (s := start .scanZeros s) (z := z) (lt_of_le_of_ne hz hall) ?_ hend))
    exact fun j hj _ => (hzeros j hj).1
  · intro hone
    have hcode : holdsBits s.bm s.bitpos.toNat (List.replicate z false ++ [true]) :=
      holdsBits_append.mpr ⟨hhold, holdsBits_singleton (by rwa [List.length_replicate])⟩
    have hroom1 : room (z + 1) s := room_of_le (not_le.mp hend)
    exact execScanZeros_ok hs hw ((scanZeros_found (s := start .scanZeros s)
      (lt_of_le_of_ne hz hall) (hcode.below _)).1 hroom1)

/-! ## Sequences of fields -/

/-- Fields at consecutive cursors are stored end to end (R127). -/
theorem writeFields_writes (fields : List (Nat × Nat)) (hw : Memory.wf s.bm) :
    Writes s (writeFields fields s) (fieldBits fields)
      (moveOn (fields.map Prod.snd).sum s) := by
  rw [← fieldBits_length]
  refine Writes.each (P := fun _ => True) (fun _ _ _ _ => trivial) fields (fun f _ s _ hw => ?_)
    trivial hw
  rw [bitsOf_length]
  exact writeField_writes hw f.1 f.2

/-- Fields that stand end to end are read at consecutive cursors (R127). -/
theorem readFields_reads (fields : List (Nat × Nat))
    (h : holdsBits s.bm s.bitpos.toNat (fieldBits fields)) :
    Reads s (readFields (fields.map Prod.snd) s) (fields.map Prod.snd).sum
      (fields.map fun f => f.1 % 2 ^ f.2) (moveOn (fields.map Prod.snd).sum s) := by
  induction fields generalizing s with
  | nil =>
    exact ⟨fun _ => congrArg (Res.ok []) (moveOn_zero s).symm, fun hr => absurd (.inl rfl) hr⟩
  | cons f fields ih =>
    rw [fieldBits_cons, holdsBits_append, bitsOf_length] at h
    obtain ⟨hfirst, hrest⟩ := h
    have hread := readField_reads s f.2
    rw [fieldRead_of_holdsBits hfirst] at hread
    rw [List.map_cons, List.sum_cons, ← moveOn_moveOn]
    refine Reads.andThen hread rfl rfl fun hr => Reads.then_ok (ih ?_) rfl
    rwa [moveOn_bitpos, bitpos_add hr]

/-- Settles O26: what is stored end to end is read back from there. -/
theorem fieldsReadBack : Obligations.FieldsReadBack := by
  intro fields s hw _ hl
  have hroom : room (fields.map Prod.snd).sum s := room_of_le hl
  obtain ⟨m, -, ⟨hhold, -⟩, hok⟩ :=
    (writeFields_writes fields hw).1 (by rw [fieldBits_length]; exact hroom)
  exact ⟨_, _, hok, bitpos_add hroom,
    (readFields_reads (s := s.setBm m) fields hhold).1 hroom, rfl⟩

end Sys2Proof.Machine
end

section
/-! DifferenceCodec (41_differencecodec.md R141 to R147): its commands are the opening checks of
R142 and one codeword, written or read, and what is read is what was written. -/

namespace Sys2Proof.Machine

variable {s t : State} {i : Instr} {u : Option Unspec} {f : State → State} {c : Cause} {d : Int}

/-! ## The opening checks of R142 -/

/-- A command whose opening checks refuse changes nothing but STATUS (R227 (b)). -/
theorem exec_refused (hs : s.ready) (hi : isCommand i = true) (hne : i ≠ .clrFault)
    (h : openingCheck i s = some c) : exec i s = .next (s.withFault c) := by
  obtain ⟨u, body, hrun, -⟩ := exec_command hi hne
  rw [hrun]
  exact runCommand_check (accepts_of_ready hs) h

/-- The commands that open with the checks of R142. -/
def codecCommands : List Instr :=
  [.encCw, .decCw, .encDiff, .decDiff, .encRow, .decRow, .encBlock, .decBlock, .wrHeader, .encode]

/-- What R142 refuses, every command that opens with it refuses, whatever else it tests (R230). -/
theorem openingCheck_of_checkCodec (h : checkCodec s = some c) :
    ∀ i ∈ codecCommands, openingCheck i s = some c := by
  have hrow : checkRow s = some c := by rw [checkRow, h, Option.some_or]
  have hblock : checkBlock s = some c := by rw [checkBlock, h, Option.some_or]
  have hencode : checkEncode s = some c := by rw [checkEncode, h, Option.some_or]
  simp [codecCommands, openingCheck, h, hrow, hblock, hencode]

theorem exec_codecRefused (hs : s.ready) (h : checkCodec s = some c) (hi : i ∈ codecCommands) :
    exec i s = .next (s.withFault c) := by
  have hcommand : ∀ i ∈ codecCommands, isCommand i = true ∧ i ≠ .clrFault := by decide
  exact exec_refused hs (hcommand i hi).1 (hcommand i hi).2 (openingCheck_of_checkCodec h i hi)

/-- Settles O36: R142 tests TYPE before SLICE, and the two commands that do not read SLICE test TYPE
first as well (R183). -/
theorem codecParameterFaults : Obligations.CodecParameterFaults := by
  refine fun s hs => ⟨fun ht i hi => ?_, fun ht hlt i hi => exec_codecRefused hs ?_ hi⟩
  · rcases List.mem_append (s := codecCommands) (t := [.rdHeader, .decode]).mp hi with hi | hi
    · exact exec_codecRefused hs (if_pos ht) hi
    · have hdecode : checkDecode s = some .badType := if_pos ht
      rcases List.mem_pair.mp hi with rfl | rfl
      · exact exec_refused hs rfl (by decide) hdecode
      · exact exec_refused hs rfl (by decide) hdecode
  · rw [checkCodec, if_neg (by rw [ht]; decide), if_pos hlt]

/-! ## ENC_DIFF -/

/-- The body of ENC_DIFF (R145). -/
def encDiffBody (s : State) : Res Unit :=
  (encCodeword (s.valElem - s.pv) s).andThen fun _ s => .ok () (setPrev s.valElem s)

/-- It stores the codeword of the difference and then sets PREV. -/
theorem encDiffBody_writes (hw : Memory.wf s.bm) (hc : s.sw ≤ s.w) :
    Writes s (encDiffBody s) (codewordBits s.ctx (s.valElem - s.pv))
      (setPrev s.valElem (moveOn (codewordBits s.ctx (s.valElem - s.pv)).length s)) :=
  (encCodeword_writes hw hc _).then_ok fun _ _ _ => rfl

/-- Settles O32: the codeword is stored and PREV set where there is room; else PREV is among what
the fault leaves free. -/
theorem encDiffWritesDifference : Obligations.EncDiffWritesDifference := by
  intro s hs hw hc bits hbits
  subst hbits
  have hcheck : openingCheck .encDiff s = none := checkCodec_none_iff.mpr hc
  have hwr := encDiffBody_writes (s := start .encDiff s) hw hc.2
  have hpos := codewordBits_length_pos (c := s.ctx) (hc.2.trans s.w_le) s.w_le (s.valElem - s.pv)
  have hroom : room (codewordBits s.ctx (s.valElem - s.pv)).length (start .encDiff s) ↔ _ :=
    room_iff_le hpos.ne'
  split
  case isTrue hl =>
    obtain ⟨m, hst, hexec⟩ := runCommand_writes (body := encDiffBody) hs hcheck hwr (hroom.mpr hl)
    exact ⟨_, hexec, rfl, hst⟩
  case isFalse hl =>
    obtain ⟨r, hexec⟩ :=
      runCommand_outOfSpace (body := encDiffBody) hs hcheck hwr (mt hroom.mp hl)
    exact ⟨_, hexec, rfl, fun a ha => read_unspecify_bm hw _ r ha⟩

/-! ## DEC_CW and DEC_DIFF at a codeword -/

/-- The codeword of `d` stands at the cursor, inside the limit. -/
def State.atCodeword (s : State) (d : Int) : Prop :=
  codable s.ctx d ∧ holdsBits s.bm s.bitpos.toNat (codewordBits s.ctx d) ∧
    s.bitpos.toNat + (codewordBits s.ctx d).length ≤ 8 * s.limit.toNat

/-- A command that reads one codeword takes its difference (R144). -/
theorem runCommand_decCodeword (hs : s.ready) (hc : s.codecLegal)
    (hcheck : openingCheck i s = none) (h : s.atCodeword d) :
    runCommand i u (fun s => (decCodeword s).andThen fun _ s => .ok () (f s)) s =
      .next (complete (f (takeDiff d (moveOn (codewordBits s.ctx d).length (start i s))))) := by
  obtain ⟨hd, hb, hl⟩ := h
  have hread := (decCodeword_reads (s := start i s) hc.2 hd (hb.below _)).1 (room_of_le hl)
  exact runCommand_ok (accepts_of_ready hs) hcheck (congrArg (Res.andThen · _) hread)

theorem execDecCw_ok (hs : s.ready) (hc : s.codecLegal) (h : s.atCodeword d) :
    exec .decCw s = .next { s.atRest with
      val := BitVec.ofInt 64 d,
      bitpos := s.bitpos + BitVec.ofNat 64 (codewordBits s.ctx d).length } := by
  refine (runCommand_decCodeword (i := .decCw) (f := fun s => setVal s.acc.toInt s) hs hc
    (checkCodec_none_iff.mpr hc) h).trans ?_
  rw [takeDiff_acc, codable_acc s.w_le (hc.2.trans s.w_le) h.1]
  rfl

theorem execDecDiff_ok (hs : s.ready) (hc : s.codecLegal) (h : s.atCodeword d) :
    exec .decDiff s = .next { s.atRest with
      val := BitVec.ofInt 64 (sext s.w (s.pv + d)),
      prev := BitVec.ofNat 32 (zext s.w (s.pv + d)),
      bitpos := s.bitpos + BitVec.ofNat 64 (codewordBits s.ctx d).length } := by
  refine (runCommand_decCodeword (i := .decDiff)
    (f := fun s => setPrev s.nextElem (setVal s.nextElem s)) hs hc
    (checkCodec_none_iff.mpr hc) h).trans ?_
  rw [State.nextElem, takeDiff_acc, codable_acc s.w_le (hc.2.trans s.w_le) h.1, setPrev, setVal_w,
    takeDiff_w, zext_sext]
  rfl

/-- Settles O33: a codeword of the format is the encoder's of its difference. -/
theorem decDiffReconstructs : Obligations.DecDiffReconstructs := by
  intro s i hs hc hi hwf hb hl
  obtain ⟨hbits, hcod⟩ := codeword_wf hi hwf
  rw [hbits] at hb hl ⊢
  exact execDecDiff_ok hs hc ⟨hcod, hb, hl⟩

/-! ## The inverse law (R147) -/

/-- The operand of ENC_CW has a codeword (R32, R90). -/
theorem codable_valDiff (s : State) : codable s.ctx s.valDiff :=
  .inl (isElem_sext (Nat.succ_pos _) _)

theorem isElem_valElem (s : State) : isElem s.w s.valElem :=
  isElem_sext s.w_pos _

/-- The exact difference that ENC_DIFF codes has a codeword (R141). -/
theorem codable_valElem_sub_pv (s : State) : codable s.ctx (s.valElem - s.pv) :=
  .inl (isElem_sub s.w_pos (isElem_valElem s) (isElem_sext s.w_pos _))

/-- ENC_CW, the cursor set back, DEC_CW. -/
theorem decCw_encCw (hs : s.ready) (hw : Memory.wf s.bm) (hc : s.codecLegal)
    (hl : s.bitpos.toNat + (codewordBits s.ctx s.valDiff).length ≤ 8 * s.limit.toNat) :
    ∃ t u, exec .encCw s = .next t ∧ exec .decCw { t with bitpos := s.bitpos } = .next u ∧
      u.status.fault = false ∧ u.val = BitVec.ofInt 64 s.valDiff ∧ u.bitpos = t.bitpos := by
  have henc := encCwWritesCodeword s hs hw hc _ rfl
  rw [if_pos hl] at henc
  obtain ⟨t, hexec, ht, hst⟩ := henc
  generalize t.bm = m at ht hst
  subst ht
  exact ⟨_, _, hexec, execDecCw_ok (d := s.valDiff) ⟨rfl, rfl⟩ hc
    ⟨codable_valDiff s, hst.1, hl⟩, rfl, rfl, rfl⟩

/-- ENC_DIFF, the cursor and PREV set back, DEC_DIFF: the sum of PREV and the exact difference is
the element, so that nothing wraps. -/
theorem decDiff_encDiff (hs : s.ready) (hw : Memory.wf s.bm) (hc : s.codecLegal)
    (hl : s.bitpos.toNat + (codewordBits s.ctx (s.valElem - s.pv)).length ≤ 8 * s.limit.toNat) :
    ∃ t u, exec .encDiff s = .next t ∧
      exec .decDiff { t with bitpos := s.bitpos, prev := s.prev } = .next u ∧
      u.status.fault = false ∧ u.val = BitVec.ofInt 64 s.valElem ∧ u.prev = t.prev ∧
      u.bitpos = t.bitpos := by
  have henc := encDiffWritesDifference s hs hw hc _ rfl
  rw [if_pos hl] at henc
  obtain ⟨t, hexec, ht, hst⟩ := henc
  generalize t.bm = m at ht hst
  subst ht
  have hsum : s.pv + (s.valElem - s.pv) = s.valElem := add_sub_cancel _ _
  refine ⟨_, _, hexec, execDecDiff_ok (d := s.valElem - s.pv) ⟨rfl, rfl⟩ hc
    ⟨codable_valElem_sub_pv s, hst.1, hl⟩, rfl, ?_, ?_, rfl⟩
  · show BitVec.ofInt 64 (sext s.w (s.pv + (s.valElem - s.pv))) = _
    rw [hsum, isElem_valElem s]
  · show BitVec.ofNat 32 (zext s.w (s.pv + (s.valElem - s.pv))) = _
    rw [hsum]

/-- Where DEC_CW completes, the codeword that stands at the cursor is the encoder's of a
difference. -/
theorem execDecCw_atCodeword (hs : s.ready) (h : exec .decCw s = .next t)
    (hf : t.status.fault = false) : ∃ d, s.atCodeword d := by
  obtain ⟨hcheck, q, hq, -⟩ := runCommand_completed (i := .decCw) (body := decCwBody) hs h hf
  have hc : s.codecLegal := checkCodec_none_iff.mp hcheck
  obtain ⟨_, r, hr, -⟩ := Res.andThen_eq_ok.mp hq
  obtain ⟨d, hd, hb, hroom, -⟩ := decCodeword_ok (s := start .decCw s) hc.2 hr
  have hpos := codewordBits_length_pos (c := s.ctx) (hc.2.trans s.w_le) s.w_le d
  exact ⟨d, hd, hb, (room_iff_le hpos.ne').mp hroom⟩

/-- Settles O34: what the encoding command stored stands at the cursor for the decoding command; and
DEC_CW completes only at the encoder's codeword, whose difference it leaves in VAL. -/
theorem codewordRoundTrip : Obligations.CodewordRoundTrip := by
  refine fun s hs hw hc => ⟨decCw_encCw hs hw hc, decDiff_encDiff hs hw hc, fun t h hf => ?_⟩
  obtain ⟨d, hat⟩ := execDecCw_atCodeword hs h hf
  have hval : (BitVec.ofInt 64 d).toInt = d := codable_acc s.w_le (hc.2.trans s.w_le) hat.1
  rw [execDecCw_ok hs hc hat] at h
  cases h
  rw [hval]
  exact ⟨hat.2.1, hat.2.2, rfl⟩

end Sys2Proof.Machine
end

section
/-! The segmentation of a row (42_runcodec.md R162): the maximal runs that the machine cuts a row
into are the runs the pseudocode finds index by index, and so are the segments made of them. -/

namespace Sys2Proof.Machine

variable {ds : List Int} {d : Int}

/-! ## Runs -/

/-- The first run of a row is as long as its difference repeats. -/
theorem runsOf_cons (d : Int) (es : List Int) :
    runsOf (d :: es) = (d, leadingRun d es + 1) :: runsOf (es.drop (leadingRun d es)) := by
  induction es generalizing d with
  | nil => rfl
  | cons e es ih =>
    rw [runsOf, ih e, leadingRun]
    by_cases h : d = e
    · subst h
      simp only [if_true, List.drop_succ_cons]
    · simp only [if_neg h, if_neg (Ne.symm h), List.drop_zero, ih e]

theorem leadingRun_replicate_append (n : Nat) (d : Int) (es : List Int) :
    leadingRun d (List.replicate n d ++ es) = n + leadingRun d es := by
  induction n with
  | zero => simp
  | succ n ih =>
    rw [List.replicate_succ, List.cons_append, leadingRun, if_pos rfl, ih]
    omega

/-- A run that what follows it does not go on with is a run of the row. -/
theorem runsOf_replicate_append {n : Nat} {es : List Int} (hn : 0 < n) (h : leadingRun d es = 0) :
    runsOf (List.replicate n d ++ es) = (d, n) :: runsOf es := by
  obtain ⟨n, rfl⟩ := Nat.exists_eq_succ_of_ne_zero hn.ne'
  have hlead : leadingRun d (List.replicate n d ++ es) = n := by
    rw [leadingRun_replicate_append, h, Nat.add_zero]
  rw [List.replicate_succ, List.cons_append, runsOf_cons, hlead,
    List.drop_left' (List.length_replicate ..)]

/-- A list begins with its leading run, and what follows does not go on with it. -/
theorem leadingRun_spec (d : Int) (es : List Int) :
    es = List.replicate (leadingRun d es) d ++ es.drop (leadingRun d es) ∧
      leadingRun d (es.drop (leadingRun d es)) = 0 := by
  induction es with
  | nil => exact ⟨rfl, rfl⟩
  | cons e es ih =>
    rw [leadingRun]
    split
    case isTrue h =>
      subst h
      exact ⟨congrArg (e :: ·) ih.1, ih.2⟩
    case isFalse h => exact ⟨rfl, if_neg h⟩

/-- What the pseudocode finds at an index: a run, up to a difference that does not go on with it or
up to the end. -/
theorem runAt_spec {i : Nat} (hi : i < ds.length) :
    0 < runAt ds i ∧
      ds.drop i = List.replicate (runAt ds i) (ds.getD i 0) ++ ds.drop (i + runAt ds i) ∧
      leadingRun (ds.getD i 0) (ds.drop (i + runAt ds i)) = 0 := by
  have hdrop : ds.drop i = ds[i] :: ds.drop (i + 1) := List.drop_eq_getElem_cons hi
  have hrun : runAt ds i = leadingRun ds[i] (ds.drop (i + 1)) + 1 := by rw [runAt, hdrop]
  obtain ⟨hsplit, hend⟩ := leadingRun_spec ds[i] (ds.drop (i + 1))
  rw [List.drop_drop, Nat.add_assoc, Nat.add_comm 1, ← hrun] at hsplit hend
  rw [List.getD_eq_getElem _ _ hi]
  refine ⟨by omega, ?_, hend⟩
  rw [hdrop, hsplit, hrun]
  rfl

/-- From inside a run on, the runs of the row are what is left of it and the runs behind it. -/
theorem runsOf_drop {i j : Nat} (hi : i < ds.length) (hj : j < runAt ds i) :
    runsOf (ds.drop (i + j)) =
      (ds.getD i 0, runAt ds i - j) :: runsOf (ds.drop (i + runAt ds i)) := by
  obtain ⟨-, hsplit, hend⟩ := runAt_spec hi
  rw [← List.drop_drop, hsplit, List.drop_append_of_le_length (by simpa using hj.le),
    List.drop_replicate, runsOf_replicate_append (by omega) hend]

theorem add_runAt_le {i : Nat} (hi : i < ds.length) : i + runAt ds i ≤ ds.length := by
  obtain ⟨-, hsplit, -⟩ := runAt_spec hi
  have hlen := congrArg List.length hsplit
  simp only [List.length_drop, List.length_append, List.length_replicate] at hlen
  omega

/-- The last element of a run, met again as a run of its own, becomes a pending literal. -/
theorem segmentsFrom_lastOfRun {i : Nat} (hi : i < ds.length) :
    segmentsFrom [] (runsOf (ds.drop (i + runAt ds i - 1))) =
      segmentsFrom (List.replicate 1 (ds.getD i 0)) (runsOf (ds.drop (i + runAt ds i))) := by
  obtain ⟨hpos, -, -⟩ := runAt_spec hi
  have hlast := runsOf_drop (j := runAt ds i - 1) hi (Nat.sub_one_lt hpos.ne')
  rw [Nat.sub_sub_self hpos, ← Nat.add_sub_assoc hpos] at hlast
  rw [hlast, segmentsFrom, if_pos (by decide), List.nil_append]

/-! ## Pending literals and chains -/

/-- `D[p .. i-1]`: the differences the pseudocode has not put into a segment yet. -/
def pendingRange (ds : List Int) (p i : Nat) : List Int :=
  (ds.drop p).take (i - p)

/-- The run found at an index joins the pending literals. -/
theorem pendingRange_runAt {p i : Nat} (hp : p ≤ i) (hi : i < ds.length) :
    pendingRange ds p (i + runAt ds i) =
      pendingRange ds p i ++ List.replicate (runAt ds i) (ds.getD i 0) := by
  obtain ⟨-, hsplit, -⟩ := runAt_spec hi
  rw [pendingRange, pendingRange, Nat.sub_add_comm hp, List.take_add, List.drop_drop,
    Nat.add_sub_cancel' hp, hsplit, List.take_left' (List.length_replicate ..)]

theorem pendingRange_self (ds : List Int) (i : Nat) : pendingRange ds i i = [] := by
  rw [pendingRange, Nat.sub_self, List.take_zero]

theorem pendingRange_length {lo hi : Nat} (hhi : hi ≤ ds.length) :
    (pendingRange ds lo hi).length = hi - lo := by
  rw [pendingRange, List.length_take, List.length_drop]
  omega

/-- What stays pending after one literal run of at most `k`. -/
theorem pendingRange_drop (ds : List Int) (k lo hi : Nat) :
    (pendingRange ds lo hi).drop k = pendingRange ds (lo + min k (hi - lo)) hi := by
  rw [pendingRange, pendingRange, List.drop_take, List.drop_drop]
  rcases le_total k (hi - lo) with hmin | hmin
  · rw [min_eq_left hmin, Nat.sub_add_eq]
  · rw [min_eq_right hmin, Nat.sub_eq_zero_of_le hmin,
      show hi - (lo + (hi - lo)) = 0 by omega, List.take_zero, List.take_zero]

theorem pendingRange_take (ds : List Int) (k lo hi : Nat) :
    (pendingRange ds lo hi).take k = (ds.drop lo).take (min k (hi - lo)) := by
  rw [pendingRange, List.take_take]

theorem flushLiterals_nil (k : Nat) : flushLiterals k [] = [] := by
  cases k <;> rfl

/-- `FlushLiterals(lo, hi)` index by index is the machine's (R162); the turns need only be
enough. -/
theorem flushRange_eq {fuel k lo hi : Nat} (hhi : hi ≤ ds.length) (hf : hi - lo ≤ fuel)
    (hk : hi - lo ≤ k) : flushRange ds fuel lo hi = flushLiterals k (pendingRange ds lo hi) := by
  have hlen := pendingRange_length (lo := lo) hhi
  induction fuel generalizing lo k with
  | zero =>
    rw [List.eq_nil_of_length_eq_zero (hlen.trans (Nat.le_zero.mp hf)), flushLiterals_nil]
    rfl
  | succ fuel ih =>
    rw [flushRange]
    split
    case isTrue h =>
      obtain ⟨k, rfl⟩ : ∃ j, k = j + 1 := ⟨k - 1, by omega⟩
      have hne : pendingRange ds lo hi ≠ [] := List.ne_nil_of_length_pos (by omega)
      have hmax : 0 < Config.litRunMax := by decide
      rw [flushLiterals, if_neg hne, pendingRange_drop, pendingRange_take,
        ih (by omega) (k := k) (by omega) (pendingRange_length hhi)]
    case isFalse h =>
      rw [List.eq_nil_of_length_eq_zero (hlen.trans (by omega)), flushLiterals_nil]

theorem flushRange_pending {p i : Nat} (hi : i ≤ ds.length) :
    flushRange ds ds.length p i =
      flushLiterals (pendingRange ds p i).length (pendingRange ds p i) :=
  flushRange_eq hi (by omega) (pendingRange_length hi).ge

/-- The chain of a run: a continued run for every full 128 while more than 128 remain (R162). -/
theorem chainLoop_eq (d : Int) {fuel r : Nat} (hr : 0 < r) (hf : r ≤ fuel) :
    chainLoop d fuel r =
      (List.replicate ((r - 1) / Config.constRunMax) (.continued d), chainRest r) := by
  induction fuel generalizing r with
  | zero => omega
  | succ fuel ih =>
    rw [chainLoop]
    split
    case isTrue h =>
      change r > 128 at h
      have hdiv : (r - 1) / Config.constRunMax =
          (r - Config.constRunMax - 1) / Config.constRunMax + 1 := by
        show (r - 1) / 128 = (r - 128 - 1) / 128 + 1
        omega
      have hrest : chainRest r = chainRest (r - Config.constRunMax) := by
        show r - 128 * ((r - 1) / 128) = r - 128 - 128 * ((r - 128 - 1) / 128)
        omega
      rw [ih (Nat.sub_pos_of_lt h) (show r - 128 ≤ fuel by omega), hdiv, hrest]
      rfl
    case isFalse h =>
      change ¬r > 128 at h
      have hdiv : (r - 1) / Config.constRunMax = 0 := Nat.div_eq_of_lt (show r - 1 < 128 by omega)
      rw [chainRest, hdiv]
      rfl

/-! ## The loop -/

/-- From any index on, with the differences from `p` on pending, the loop makes the segments of the
pending literals and the runs that are left. -/
theorem segmentLoop_eq {fuel i p : Nat} (hp : p ≤ i) (hi : i ≤ ds.length)
    (hf : ds.length - i ≤ fuel) :
    segmentLoop ds fuel i p = segmentsFrom (pendingRange ds p i) (runsOf (ds.drop i)) := by
  induction fuel generalizing i p with
  | zero =>
    obtain rfl : i = ds.length := by omega
    rw [segmentLoop, flushRange_pending le_rfl, List.drop_length]
    rfl
  | succ fuel ih =>
    rw [segmentLoop]
    split
    case isTrue h =>
      obtain ⟨hpos, -, -⟩ := runAt_spec h
      have hle := add_runAt_le h
      have hruns := runsOf_drop (j := 0) h hpos
      rw [Nat.add_zero, Nat.sub_zero] at hruns
      rw [hruns, segmentsFrom]
      dsimp only
      rw [chainLoop_eq _ hpos le_rfl]
      by_cases hr : runAt ds i < Config.runMin
      · rw [if_pos hr, if_neg (not_le.mpr hr), ih (by omega) hle (by omega),
          pendingRange_runAt hp h]
      · rw [if_neg hr, if_pos (not_lt.mp hr), ← flushRange_pending hi]
        by_cases hrest : chainRest (runAt ds i) < 2
        · obtain ⟨-, hge, -⟩ := chainRest_spec hpos
          have hone : chainRest (runAt ds i) = 1 := by omega
          have hrun : 4 ≤ runAt ds i := not_lt.mp hr
          rw [if_neg (not_le.mpr hrest), if_pos hrest, hone, ih le_rfl (by omega) (by omega),
            pendingRange_self, segmentsFrom_lastOfRun h, List.append_assoc]
        · rw [if_pos (not_lt.mp hrest), if_neg hrest, ih le_rfl hle (by omega), pendingRange_self,
            List.append_assoc]
    case isFalse h =>
      obtain rfl : i = ds.length := by omega
      rw [flushRange_pending le_rfl, List.drop_length]
      rfl

/-- Settles O39: at index 0 nothing is pending, and every difference is still to come. -/
theorem segmentsFollowPseudocode : Obligations.SegmentsFollowPseudocode := by
  intro ds
  rw [segmentLoop_eq le_rfl (Nat.zero_le _) (Nat.sub_le _ _), pendingRange_self, List.drop_zero,
    segments]

end Sys2Proof.Machine
end

section
/-! The row commands (42_runcodec.md R161 to R167): ENC_ROW stores the segments of the row's
differences, DEC_ROW adds up any legal segments, and what is read is what was written. -/

namespace Sys2Proof.Machine

variable {s t : State}

/-! ## Bits and elements of a row -/

theorem segmentBits_ne_nil {c : Ctx} {seg : Segment} (h : seg.marked) : segmentBits c seg ≠ [] := by
  refine List.ne_nil_of_length_pos ?_
  rw [segmentBits_eq h, List.length_append, bitsOf_length]
  omega

/-- Only the empty row takes no bits: its segments stand for it, and each has a marker (R91,
R162). -/
theorem rowBits_eq_nil_iff {c : Ctx} {ds : List Int} : rowBits c ds = [] ↔ ds = [] := by
  refine ⟨fun h => ?_, fun h => h ▸ rfl⟩
  obtain ⟨hdiffs, -⟩ := segmentsCoverRow ds
  have hsegs : segments ds = [] := List.eq_nil_iff_forall_not_mem.mpr fun seg hs =>
    segmentBits_ne_nil (segments_marked ds seg hs) (List.flatMap_eq_nil_iff.mp h seg hs)
  rw [← hdiffs, hsegs, List.flatMap_nil]

theorem rowBits_length_eq_zero_iff {c : Ctx} {p : Int} {xs : List Int} :
    (rowBits c (rowDiffs p xs)).length = 0 ↔ xs.length = 0 := by
  rw [List.length_eq_zero_iff, rowBits_eq_nil_iff, ← List.length_eq_zero_iff, rowDiffs_length]

theorem isElem_pv (s : State) : isElem s.w s.pv :=
  isElem_sext s.w_pos _

theorem ctx_congr (hcfg : t.cfg = s.cfg) : t.ctx = s.ctx := by
  simp only [State.ctx, State.w, State.sw, hcfg]

theorem codecLegal_congr (hcfg : t.cfg = s.cfg) (h : s.codecLegal) : t.codecLegal := by
  simpa only [State.codecLegal, State.w, State.sw, hcfg] using h

theorem pv_congr (hcfg : t.cfg = s.cfg) (hprev : t.prev = s.prev) : t.pv = s.pv := by
  rw [State.pv, State.pv, State.w, State.w, hcfg, hprev]

theorem isElem_runningElems_getLastD (s : State) (ds : List Int) :
    isElem s.w ((runningElems s.w s.pv ds).getLastD s.pv) := by
  rw [← consume_pv, ← consume_w ds s]
  exact isElem_pv _

/-- A cell that holds an element sign-extended reads as the element (R51). -/
theorem elemRead_of_read {w : Nat} {m : Memory 32} {i : Nat} {x : Int} (hw : w ≤ 32)
    (hx : isElem w x) (h : Memory.read m i = BitVec.ofInt 32 x) : elemRead w m i = x := by
  have hdvd : (2 ^ w : Int) ∣ ((2 ^ 32 : Nat) : Int) := by exact_mod_cast pow_dvd_pow 2 hw
  have hcell : ((BitVec.ofInt 32 x).toNat : Int) = x % (2 ^ 32 : Nat) := by
    rw [BitVec.toNat_ofInt, Int.toNat_of_nonneg (Int.emod_nonneg _ (by norm_num))]
  rw [elemRead, h, hcell, ← sext_emod, Int.emod_emod_of_dvd _ hdvd, sext_emod, hx]

/-! ## ENC_ROW -/

/-- The body of ENC_ROW (R163). -/
def encRowBody (s : State) : Res Unit :=
  encRow (s.blkw.toNat - 1) s

/-- Settles O40: the segments are stored and the registers moved on where there is room, which the
empty row always has. -/
theorem encRowWritesSegments : Obligations.EncRowWritesSegments := by
  intro s hs hw hc hb he n xs bits hn hxs hbits
  have hcheck : openingCheck .encRow s = none := checkRow_none hc hb he
  have hwr : Writes (start .encRow s) (encRowBody (start .encRow s)) bits
      (afterEncRow n bits.length (start .encRow s)) := by
    rw [hbits, hxs, hn]
    exact encRow_writes (s := start .encRow s) hw hc.2 _
  have hroom : room bits.length (start .encRow s) ↔
      n = 0 ∨ s.bitpos.toNat + bits.length ≤ 8 * s.limit.toNat := by
    refine or_congr_left ?_
    rw [hbits, rowBits_length_eq_zero_iff, hxs, elemsAt_length]
  split
  case isTrue hl =>
    obtain ⟨m, hst, hexec⟩ := runCommand_writes (body := encRowBody) hs hcheck hwr (hroom.mpr hl)
    refine ⟨_, hexec, ?_, hst⟩
    by_cases h0 : n = 0
    · rw [afterEncRow, if_neg (by omega), if_pos h0]
      rfl
    · have hlast : xs.getLastD 0 = elemAt s (n - 1) := by
        rw [hxs, elemsAt_getLastD s (Nat.pos_of_ne_zero h0)]
      rw [afterEncRow, if_pos (Nat.pos_of_ne_zero h0), if_neg h0, hlast]
      rfl
  case isFalse hl =>
    obtain ⟨r, hexec⟩ := runCommand_outOfSpace (body := encRowBody) hs hcheck hwr (mt hroom.mp hl)
    exact ⟨_, hexec, rfl, fun a ha => read_unspecify_bm hw _ r ha⟩

/-! ## DEC_ROW -/

/-- DEC_ROW at legal segments that code the differences of the row: the running sums are stored, and
PREV holds the last of them, without bits above `W` (R164, R165, R166). -/
theorem execDecRow_ok {ds : List Int} {bits : List Bool} (hs : s.ready) (hem : Memory.wf s.em)
    (hc : s.codecLegal) (hb : s.blkw ≠ 0) (he : s.eidx.toNat + s.blkw.toNat ≤ s.elim.toNat + 1)
    (hcd : codes s.ctx true ds bits) (hlen : ds.length = s.blkw.toNat - 1)
    (h : holdsBits s.bm s.bitpos.toNat bits) (hr : room bits.length s) :
    ∃ t, exec .decRow s = .next t ∧
      t = { s.atRest with
        em := t.em, bitpos := s.bitpos + BitVec.ofNat 64 bits.length
        prev := BitVec.ofNat 32 (zext s.w ((runningElems s.w s.pv ds).getLastD s.pv))
        eidx := s.eidx + BitVec.ofNat 32 ds.length } ∧
      t.pv = (runningElems s.w s.pv ds).getLastD s.pv ∧
      storesElems s.em t.em s.eidx.toNat (runningElems s.w s.pv ds) := by
  obtain ⟨segs, hl, rfl, rfl⟩ := hcd
  have hcells := s.elim.isLt
  have hpos := blkw_pos hb
  have hread := (decRow_reads (s := start .decRow s) hc.2 hl hlen (blkw_pred_lt s) (h.below _)).1 hr
  have hst := (consume_em (segs.flatMap segmentDiffs)
    (moveOn (segs.flatMap (segmentBits s.ctx)).length (start .decRow s)) hem
    (show s.eidx.toNat + _ ≤ _ by omega)).2
  refine ⟨_, runCommand_ok (i := .decRow) (body := fun s => decRow (s.blkw.toNat - 1) s)
    (accepts_of_ready hs) (checkRow_none hc hb he) hread, ?_, ?_, hst⟩
  · rw [consume_pv, setPrev, consume_frame]
    rfl
  · refine (setPrev_pv _ _ ?_).trans (consume_pv _ _)
    show isElem (consume _ (moveOn _ _)).w _
    rw [consume_w, consume_pv]
    exact isElem_runningElems_getLastD s _

/-- Settles O41: the running sums of the segments' differences. -/
theorem decRowAcceptsSegments : Obligations.DecRowAcceptsSegments := by
  intro s segs hs hem hc hb he hl xs bits hxs hbits hlen h hlim
  subst hxs
  rw [runningElems_length] at hlen
  have hr : room bits.length s := by
    refine hlim.imp (fun h0 => ?_) id
    rw [hbits, h0, List.flatMap_nil, List.length_nil]
  obtain ⟨t, hexec, ht, hpv, hst⟩ :=
    execDecRow_ok hs hem hc hb he ⟨segs, hl, rfl, hbits⟩ hlen h hr
  have hprev : t.prev = BitVec.ofNat 32 (zext s.w
      ((runningElems s.w s.pv (segs.flatMap segmentDiffs)).getLastD s.pv)) := by rw [ht]
  refine ⟨t, hexec, ?_, hpv, fun _ => hprev, hst⟩
  rw [hprev, runningElems_length]
  exact ht

/-! ## The inverse law (R167) -/

/-- DEC_ROW at the encoder's bits of a row: they code the exact differences, so that the running
sums are the row's elements. -/
theorem execDecRow_rowBits {xs : List Int} {bits : List Bool} (hs : s.ready) (hem : Memory.wf s.em)
    (hc : s.codecLegal) (hb : s.blkw ≠ 0) (he : s.eidx.toNat + s.blkw.toNat ≤ s.elim.toNat + 1)
    (hxs : ∀ x ∈ xs, isElem s.w x) (hlen : xs.length = s.blkw.toNat - 1)
    (hbits : bits = rowBits s.ctx (rowDiffs s.pv xs)) (h : holdsBits s.bm s.bitpos.toNat bits)
    (hr : room bits.length s) :
    ∃ t, exec .decRow s = .next t ∧
      t = { s.atRest with
        em := t.em, bitpos := s.bitpos + BitVec.ofNat 64 bits.length
        prev := BitVec.ofNat 32 (zext s.w (xs.getLastD s.pv))
        eidx := s.eidx + BitVec.ofNat 32 xs.length } ∧
      t.pv = xs.getLastD s.pv ∧ storesElems s.em t.em s.eidx.toNat xs := by
  have hcd : codes s.ctx true (rowDiffs s.pv xs) bits := by
    rw [hbits]
    exact codes_rowDiffs s.w_pos true (isElem_pv s) hxs
  have hok := execDecRow_ok hs hem hc hb he hcd ((rowDiffs_length _ _).trans hlen) h hr
  rwa [runningElems_rowDiffs hxs, rowDiffs_length] at hok

/-- Where ENC_ROW completes, the opening checks have passed and the row's bits stand at the cursor,
inside the limit. -/
theorem execEncRow_completed {n : Nat} {xs : List Int} {bits : List Bool} (hs : s.ready)
    (hw : Memory.wf s.bm) (h : exec .encRow s = .next t) (hf : t.status.fault = false)
    (hn : n = s.blkw.toNat - 1) (hxs : xs = elemsAt s n)
    (hbits : bits = rowBits s.ctx (rowDiffs s.pv xs)) :
    checkRow s = none ∧ room bits.length s ∧ holdsBits t.bm s.bitpos.toNat bits ∧
      t = { s.atRest with
        bm := t.bm, bitpos := s.bitpos + BitVec.ofNat 64 bits.length
        prev := if n = 0 then s.prev else BitVec.ofNat 32 (zext s.w (xs.getLastD 0))
        eidx := s.eidx + BitVec.ofNat 32 n } := by
  obtain ⟨hcheck, -⟩ := runCommand_completed (i := .encRow) (body := encRowBody) hs h hf
  obtain ⟨hc, hb, he⟩ := checkRow_none_iff.mp hcheck
  have hpos := blkw_pos hb
  have henc := encRowWritesSegments s hs hw hc hb (by omega) n xs bits hn hxs hbits
  split at henc
  case isTrue hl =>
    obtain ⟨t', hexec, ht, hst⟩ := henc
    cases h.symm.trans hexec
    refine ⟨hcheck, hl.imp (fun h0 => ?_) id, hst.1, ht⟩
    rw [hbits, rowBits_length_eq_zero_iff, hxs, elemsAt_length, h0]
  case isFalse =>
    obtain ⟨t', hexec, ht, -⟩ := henc
    cases h.symm.trans hexec
    rw [ht] at hf
    cases hf

/-- Settles O42: the bits that ENC_ROW stored code the exact differences of the row's elements, so
that the running sums of DEC_ROW are the elements. -/
theorem rowRoundTrip : Obligations.RowRoundTrip := by
  intro s t u hs hw _ henc hf hu huem hbm hlim hcfg hblkw hprev hpos hue
  obtain ⟨n, hn⟩ : ∃ n, n = s.blkw.toNat - 1 := ⟨_, rfl⟩
  obtain ⟨xs, hxs⟩ : ∃ xs, xs = elemsAt s n := ⟨_, rfl⟩
  obtain ⟨bits, hbits⟩ : ∃ bits, bits = rowBits s.ctx (rowDiffs s.pv xs) := ⟨_, rfl⟩
  obtain ⟨hcheck, hroom, hholds, ht⟩ := execEncRow_completed hs hw henc hf hn hxs hbits
  obtain ⟨hc, hb, he⟩ := checkRow_none_iff.mp hcheck
  have huc : u.ctx = s.ctx := ctx_congr hcfg
  have huw : u.w = s.w := congrArg Ctx.w huc
  have hlen : xs.length = n := by rw [hxs, elemsAt_length]
  have hupv : u.pv = s.pv := pv_congr hcfg hprev
  obtain ⟨v, hexec, hv, hvpv, hst⟩ := execDecRow_rowBits (s := u) (xs := xs) (bits := bits) hu huem
    (codecLegal_congr hcfg hc) (hblkw ▸ hb) (hblkw ▸ hue)
    (by rw [huw, hxs]; exact isElem_elemsAt s n) (by rw [hlen, hblkw, hn])
    (by rw [huc, hupv, hbits]) (by rw [hbm, hpos]; exact hholds)
    (by rw [room, hpos, State.limitBits, hlim]; exact hroom)
  have hvprev : v.prev = BitVec.ofNat 32 (zext s.w (xs.getLastD u.pv)) := by rw [hv, huw]
  have hvcfg : v.cfg = t.cfg := by rw [hv, ht]; exact hcfg
  have hprevs : n ≠ 0 → v.prev = t.prev := fun h0 => by
    have hn0 := Nat.pos_of_ne_zero h0
    rw [hvprev, ht, hxs, elemsAt_getLastD s hn0, elemsAt_getLastD s hn0]
    exact (if_neg h0).symm
  refine ⟨v, hexec, by rw [hv]; rfl, by rw [hv, ht, ← hpos], ?_, fun h1 => hprevs ?_,
    fun k hk => ?_, fun j hj => ?_⟩
  · by_cases h0 : n = 0
    · have hnil : xs = [] := List.eq_nil_of_length_eq_zero (hlen.trans h0)
      have htprev : t.prev = s.prev := by rw [ht]; exact if_pos h0
      have htcfg : t.cfg = s.cfg := by rw [ht]; rfl
      rw [hvpv, hnil, List.getLastD_nil, hupv, pv_congr htcfg htprev]
    · exact pv_congr hvcfg (hprevs h0)
  · rintro rfl
    exact h1 (BitVec.eq_of_toNat_eq (show s.blkw.toNat = 1 by have := blkw_pos hb; omega))
  · have hkl : k < xs.length := by omega
    have hx : xs[k] = elemAt s k := by simp [hxs, elemsAt]
    exact (elemRead_of_read s.w_le (hx ▸ isElem_elemAt s k) (hst.1 k hkl)).trans hx
  · exact hst.2 j (by omega)

end Sys2Proof.Machine
end

section
/-! The geometry a command needs (43_blockframer.md R182, R183, R185, 60_exceptions.md R221, R222,
R230): what each family of commands tests first, once CFG is legal for it, and the fault it takes
before anything has changed. -/

namespace Sys2Proof.Machine

variable {s : State} {i : Instr} {c : Cause}

/-! ## The commands that test a geometry -/

/-- The commands of one row (R163, R166). -/
def rowCommands : List Instr := [.encRow, .decRow]

/-- The commands of one block (R185). -/
def blockCommands : List Instr := [.encBlock, .decBlock]

/-- The commands that test the geometry of the whole array (R182, R183). -/
def arrayCommands : List Instr := [.wrHeader, .rdHeader, .encode, .decode]

/-- The commands that test a geometry. -/
def geometryCommands : List Instr := rowCommands ++ (blockCommands ++ arrayCommands)

theorem rowCommands_subset : rowCommands ⊆ geometryCommands := by decide

theorem blockCommands_subset : blockCommands ⊆ geometryCommands := by decide

theorem arrayCommands_subset : arrayCommands ⊆ geometryCommands := by decide

/-- CFG is legal for the command: RD_HEADER and DECODE ignore CFG.SLICE (R183). -/
def cfgLegalFor (i : Instr) (s : State) : Prop :=
  typeReserved s.cfg.typ = false ∧ (i ∈ [Instr.rdHeader, .decode] ∨ s.sw ≤ s.w)

theorem cfgLegalFor.codecLegal (h : cfgLegalFor i s) (hi : i ∉ [Instr.rdHeader, .decode]) :
    s.codecLegal :=
  ⟨h.1, h.2.resolve_left hi⟩

/-! ## What they test -/

theorem openingCheck_row (h : cfgLegalFor i s) (hi : i ∈ rowCommands) :
    openingCheck i s =
      if s.blkw = 0 then some .badGeometry
      else if s.eidx.toNat + (s.blkw.toNat - 1) > s.elim.toNat then some .elemBufferTooSmall
      else none := by
  have hslice : ∀ i ∈ rowCommands, i ∉ [Instr.rdHeader, .decode] := by decide
  have hrow : openingCheck i s = checkRow s := by
    rcases List.mem_pair.mp hi with rfl | rfl <;> rfl
  rw [hrow, checkRow, checkCodec_none_iff.mpr (h.codecLegal (hslice i hi)), Option.none_or]

theorem openingCheck_block (h : cfgLegalFor i s) (hi : i ∈ blockCommands) :
    openingCheck i s =
      if s.blkw = 0 then some .badGeometry
      else if s.eidx.toNat + s.blkw.toNat > s.elim.toNat then some .elemBufferTooSmall
      else if s.bitpos.toNat % 8 ≠ 0 then some .misaligned
      else none := by
  have hslice : ∀ i ∈ blockCommands, i ∉ [Instr.rdHeader, .decode] := by decide
  have hblock : openingCheck i s = checkBlock s := by
    rcases List.mem_pair.mp hi with rfl | rfl <;> rfl
  rw [hblock, checkBlock, checkCodec_none_iff.mpr (h.codecLegal (hslice i hi)), Option.none_or]

theorem checkEncode_of_codecLegal (h : s.codecLegal) : checkEncode s = checkGeometry s := by
  rw [checkEncode, checkCodec_none_iff.mpr h, Option.none_or]

theorem checkDecode_of_typeLegal (h : typeReserved s.cfg.typ = false) :
    checkDecode s = checkGeometry s :=
  if_neg (by rw [h]; decide)

theorem openingCheck_array (h : cfgLegalFor i s) (hi : i ∈ arrayCommands) :
    openingCheck i s = checkGeometry s := by
  simp only [arrayCommands, List.mem_cons, List.not_mem_nil, or_false] at hi
  rcases hi with rfl | rfl | rfl | rfl
  · exact checkEncode_of_codecLegal (h.codecLegal (by decide))
  · exact checkDecode_of_typeLegal h.1
  · exact checkEncode_of_codecLegal (h.codecLegal (by decide))
  · exact checkDecode_of_typeLegal h.1

/-- `BLKW = 0` is the first thing any of them refuses (R221, R230). -/
theorem openingCheck_blkw_zero (h : cfgLegalFor i s) (hb : s.blkw = 0)
    (hi : i ∈ geometryCommands) : openingCheck i s = some .badGeometry := by
  rcases List.mem_append.mp hi with hi | hi
  · rw [openingCheck_row h hi, if_pos hb]
  · rcases List.mem_append.mp hi with hi | hi
    · rw [openingCheck_block h hi, if_pos hb]
    · rw [openingCheck_array h hi, checkGeometry, if_pos (.inl hb)]

/-! ## What they refuse -/

theorem exec_geometryRefused (hs : s.ready) (hi : i ∈ geometryCommands)
    (h : openingCheck i s = some c) : exec i s = .next (s.withFault c) := by
  have hcommand : ∀ i ∈ geometryCommands, isCommand i = true ∧ i ≠ .clrFault := by decide
  obtain ⟨hi, hne⟩ := hcommand i hi
  exact exec_refused hs hi hne h

theorem exec_patchSize_misaligned (hs : s.ready) (ha : s.bitpos.toNat % 8 ≠ 0) :
    exec .patchSize s = .next (s.withFault .misaligned) :=
  exec_refused hs rfl (by decide) (show checkAligned s = _ from if_pos ha)

/-- Settles O37: each clause is the first test that fails in the chain of its family. -/
theorem geometryFaults : Obligations.GeometryFaults := by
  refine fun s hs => ⟨fun ht i hsw => ?_, exec_patchSize_misaligned hs⟩
  have hcfg : cfgLegalFor i s := ⟨ht, hsw⟩
  refine ⟨fun hb hi => ?_, fun hn hi => ?_, fun hb he hi => ?_, fun hb he hi => ?_,
    fun hb hn he hi => ?_, fun ha hb he hi => ?_⟩
  · exact exec_geometryRefused hs hi (openingCheck_blkw_zero hcfg hb hi)
  · refine exec_geometryRefused hs (arrayCommands_subset hi) ?_
    rw [openingCheck_array hcfg hi, checkGeometry, if_pos (.inr hn)]
  · have := blkw_pos hb
    refine exec_geometryRefused hs (rowCommands_subset hi) ?_
    rw [openingCheck_row hcfg hi, if_neg hb, if_pos (by omega)]
  · refine exec_geometryRefused hs (blockCommands_subset hi) ?_
    rw [openingCheck_block hcfg hi, if_neg hb, if_pos he]
  · refine exec_geometryRefused hs (arrayCommands_subset hi) ?_
    rw [openingCheck_array hcfg hi, checkGeometry, if_neg (not_or.mpr ⟨hb, not_le.mpr hn⟩), if_pos he]
  · refine exec_geometryRefused hs (blockCommands_subset hi) ?_
    rw [openingCheck_block hcfg hi, if_neg hb, if_neg (not_lt.mpr he), if_pos ha]

end Sys2Proof.Machine
end

section
/-! PATCH_SIZE (43_blockframer.md R190): the stream length goes into bytes 0 to 3 and into TOTAL. -/

namespace Sys2Proof.Machine

variable {s : State}

/-- Where a field stands at the start of the memory, its bytes are little-endian (R53). -/
theorem read_of_holdsBits {m : Memory 8} {v n a : Nat} (h : holdsBits m 0 (bitsOf v n))
    (ha : 8 * a + 8 ≤ n) : (Memory.read m a).toNat = v / 256 ^ a % 256 := by
  refine Nat.eq_of_testBit_eq fun i => ?_
  rw [show 256 = 2 ^ 8 from rfl, ← pow_mul, Nat.testBit_mod_two_pow, Nat.testBit_div_two_pow,
    BitVec.testBit_toNat]
  by_cases hi : i < 8
  · have hbit := h (8 * a + i) (by rw [bitsOf_length]; omega)
    have hdiv : (8 * a + i) / 8 = a := by omega
    have hmod : (8 * a + i) % 8 = i := by omega
    rw [bitsOf_getElem, Nat.zero_add, bitRead, hdiv, hmod] at hbit
    rw [hbit, decide_eq_true hi, Bool.true_and, Nat.add_comm]
  · simp [hi, BitVec.getLsbD_of_ge _ _ (not_lt.mp hi)]

theorem patchSize_outOfSpace (h : s.limit.toNat < 4 ∨ s.limitBits < s.bitpos.toNat) :
    patchSize s = .raise .outOfSpace s :=
  if_pos h

/-- Settles O51: the field of 32 bits at offset 0 is the size, and its bytes are bytes 0 to 3. -/
theorem patchSizeStoresTotal : Obligations.PatchSizeStoresTotal := by
  intro s hs hw
  split_ifs with ha hl
  · exact exec_patchSize_misaligned hs ha
  · exact runCommand_precise (i := .patchSize) hs (if_neg ha) (patchSize_outOfSpace hl)
  · obtain ⟨hlimit, hpos⟩ := not_or.mp hl
    have hok := patchSize_ok (s := start .patchSize s) (not_lt.mp hlimit) (not_lt.mp hpos)
    have hst : storesBits s.bm (fieldWrite s.bm 0 (s.bitpos.toNat / 8) 32) 0 _ :=
      fieldWrite_storesBits hw 0 (s.bitpos.toNat / 8) 32
    have hexec := runCommand_ok (i := .patchSize) (u := none) (accepts_of_ready hs) (if_neg ha) hok
    rw [start_bm, start_bitpos] at hexec
    generalize fieldWrite s.bm 0 (s.bitpos.toNat / 8) 32 = m at hexec hst
    exact ⟨_, hexec, rfl, hst,
      fun k hk => read_of_holdsBits hst.1 (by omega)⟩

end Sys2Proof.Machine
end

section
/-! The inverse law of whole streams (43_blockframer.md R193): what ENCODE has written is a stream that
DECODE accepts, and its blocks give the elements of the array. -/

namespace Sys2Proof.Machine

variable {s t u : State}

/-! ## The rows of the array -/

/-- Consecutive stretches of `w` indices are the indices end to end. -/
theorem flatten_map_range {α : Type} (f : Nat → α) (w n : Nat) :
    ((List.range n).map fun b => (List.range w).map fun k => f (b * w + k)).flatten =
      (List.range (n * w)).map f := by
  induction n with
  | zero => rw [Nat.zero_mul]; rfl
  | succ n ih =>
    rw [List.range_succ, List.map_append, List.flatten_append, ih, Nat.succ_mul, List.range_add,
      List.map_append, List.map_map]
    simp [Function.comp_def]

/-- The rows end to end are the cells from 0 on (R31, R62). -/
theorem rows_flatten (s : State) :
    s.rows.flatten = (List.range (s.blkc.toNat * s.blkw.toNat)).map (elemRead s.w s.em) :=
  flatten_map_range (elemRead s.w s.em) s.blkw.toNat s.blkc.toNat

/-- Every row is a block of the geometry. -/
theorem mem_rows {xs : List Int} (h : xs ∈ s.rows) :
    xs.length = s.blkw.toNat ∧ ∀ x ∈ xs, isElem s.w x := by
  obtain ⟨b, -, rfl⟩ := List.mem_map.mp h
  refine ⟨by rw [List.length_map, List.length_range], fun x hx => ?_⟩
  obtain ⟨k, -, rfl⟩ := List.mem_map.mp hx
  exact isElem_sext s.w_pos _

/-! ## The encoder's blocks -/

/-- The block the encoder writes for a row that is not empty (R186). -/
def encodedRow (c : Ctx) (rl : Bool) (xs : List Int) : CodedBlock :=
  encodedBlock c rl (xs.headD 0) xs.tail

theorem encodedRow_bits (c : Ctx) (rl : Bool) {xs : List Int} (h : xs ≠ []) :
    (encodedRow c rl xs).bits c = blockBits c rl xs := by
  obtain ⟨x, ys, rfl⟩ := List.exists_cons_of_ne_nil h
  exact encodedBlock_bits c rl x ys

theorem encodedRow_elems {w : Nat} (c : Ctx) (rl : Bool) {xs : List Int} (h : xs ≠ [])
    (hxs : ∀ x ∈ xs, isElem w x) : (encodedRow c rl xs).elems w = xs := by
  obtain ⟨x, ys, rfl⟩ := List.exists_cons_of_ne_nil h
  exact encodedBlock_elems c rl x fun y hy => hxs y (List.mem_cons_of_mem x hy)

theorem encodedRow_legal {c : Ctx} (hw : 0 < c.w) (rl : Bool) {xs : List Int} (h : xs ≠ [])
    (hxs : ∀ x ∈ xs, isElem c.w x) : (encodedRow c rl xs).legal c rl xs.length := by
  obtain ⟨x, ys, rfl⟩ := List.exists_cons_of_ne_nil h
  exact encodedBlock_legal hw rl (hxs x List.mem_cons_self)
    fun y hy => hxs y (List.mem_cons_of_mem x hy)

/-- The blocks ENCODE writes (R191). -/
def State.encodedRows (s : State) : List CodedBlock :=
  s.rows.map (encodedRow s.ctx s.runLength)

section Blocks

variable (hb : s.blkw ≠ 0)
include hb

theorem ne_nil_of_mem_rows {xs : List Int} (h : xs ∈ s.rows) : xs ≠ [] :=
  List.ne_nil_of_length_pos ((mem_rows h).1 ▸ blkw_pos hb)

theorem encodedRows_bits :
    s.encodedRows.flatMap (CodedBlock.bits s.ctx) = blocksBits s.ctx s.runLength s.rows := by
  rw [State.encodedRows, List.flatMap_map, blocksBits]
  exact List.flatMap_congr fun xs h => encodedRow_bits _ _ (ne_nil_of_mem_rows hb h)

theorem encodedRows_elems : s.encodedRows.flatMap (CodedBlock.elems s.w) = s.rows.flatten := by
  rw [State.encodedRows, List.flatMap_map, ← List.flatMap_id]
  exact List.flatMap_congr fun xs h =>
    encodedRow_elems _ _ (ne_nil_of_mem_rows hb h) (mem_rows h).2

theorem encodedRows_legal : ∀ b ∈ s.encodedRows, b.legal s.ctx s.runLength s.blkw.toNat := by
  intro b h
  obtain ⟨xs, hxs, rfl⟩ := List.mem_map.mp h
  obtain ⟨hlen, helem⟩ := mem_rows hxs
  rw [← hlen]
  exact encodedRow_legal (c := s.ctx) s.w_pos _ (ne_nil_of_mem_rows hb hxs) helem

end Blocks

theorem encodedRows_length (s : State) : s.encodedRows.length = s.blkc.toNat := by
  rw [State.encodedRows, State.rows, List.length_map, List.length_map, List.length_range]

/-! ## The header -/

/-- The slice width as the header has it (R81, R181). -/
def State.sliceByte (s : State) : BitVec 8 := BitVec.ofNat 8 s.sw

/-- The type tag as the header has it (R81, R181). -/
def State.tagByte (s : State) : BitVec 8 := BitVec.ofNat 8 s.cfg.typ.toNat

theorem sliceByte_toNat (s : State) : s.sliceByte.toNat = s.sw :=
  Nat.mod_eq_of_lt (s.cfg.slice.isLt.trans (by decide))

theorem tagByte_toNat (s : State) : s.tagByte.toNat = s.cfg.typ.toNat :=
  Nat.mod_eq_of_lt (s.cfg.typ.isLt.trans (by decide))

/-- The header loads back the CFG it was written from (R181, R184). -/
theorem withHeader_cfg (s u : State) : (u.withHeader s.sliceByte s.tagByte).cfg = s.cfg := by
  have htyp : s.tagByte.truncate 3 = s.cfg.typ := BitVec.eq_of_toNat_eq (by
    rw [BitVec.toNat_setWidth, tagByte_toNat, Nat.mod_eq_of_lt s.cfg.typ.isLt])
  have hslice : s.sliceByte.truncate 6 = s.cfg.slice := BitVec.eq_of_toNat_eq (by
    rw [BitVec.toNat_setWidth, sliceByte_toNat]
    exact Nat.mod_eq_of_lt s.cfg.slice.isLt)
  rw [State.withHeader, htyp, hslice]

/-- A header written under a legal CFG is accepted where the element width and the geometry are the
encoder's (R184). -/
theorem headerAccepted_encoded (hc : s.codecLegal) (ht : typeReserved u.cfg.typ = false)
    (hg : u.geometryLegal) (hw : u.w = s.w) (total : BitVec 32) :
    headerAccepted u total s.sliceByte s.tagByte := by
  have htyp : s.tagByte.truncate 3 = s.cfg.typ := congrArg Cfg.typ (withHeader_cfg s u)
  have htag : tagByteReserved s.tagByte = false := by
    have := s.cfg.typ.isLt
    rw [tagByteReserved, htyp, hc.1, tagByte_toNat, Bool.or_false, decide_eq_false_iff_not]
    omega
  have hslice : s.sliceByte.toNat ≤ tagWidth (s.tagByte.truncate 3) := by
    rw [sliceByte_toNat, htyp]
    exact hc.2
  refine ⟨ht, hg, ?_, ?_⟩
  · simp only [Instr.wf, htag, hslice, Bool.not_false, decide_true, Bool.and_true]
  · rw [htyp]
    exact hw.symm

/-! ## The stream in the memory -/

theorem streamBits_length (s : State) :
    (streamBits s).length = 8 * streamBytes (blocksBits s.ctx s.runLength s.rows) := by
  rw [streamBits, List.length_append, headerOf, encode_hdr_length,
    streamBytes_bits (encodedBlocks_length_mod s.ctx s.runLength s.rows)]

/-- Bits that stand in the first `n` bytes stand wherever these bytes do. -/
theorem holdsBits_of_read {m m' : Memory 8} {n : Nat} {bits : List Bool}
    (hlen : bits.length ≤ 8 * n) (hm : ∀ a, a < n → Memory.read m' a = Memory.read m a)
    (h : holdsBits m 0 bits) : holdsBits m' 0 bits :=
  holdsBits_congr (fun i hi => by rw [bitRead, bitRead, hm _ (by omega)]) h

/-- The bits ENCODE writes are a header and blocks as the decoder meets them (R80). -/
theorem holdsStream_of_streamBits {m : Memory 8} (hb : s.blkw ≠ 0) {n : Nat}
    (hn : n = streamBytes (blocksBits s.ctx s.runLength s.rows)) (h : holdsBits m 0 (streamBits s))
    (lim : Nat) :
    holdsStream m lim s.ctx
      (.hdr (BitVec.ofNat 32 n) s.blkc s.blkw s.sliceByte s.tagByte) s.encodedRows := by
  rw [streamBits, ← hn, holdsBits_append, headerOf, encode_hdr_length, ← encodedRows_bits hb] at h
  exact ⟨h.1.below lim, holdsBlocks_of_holdsBits h.2 lim⟩

/-! ## The inverse law -/

/-- Where ENCODE completes, the opening checks have passed, and the stream stands in its TOTAL bytes
(R182, R191). -/
theorem execEncode_completed {n : Nat} (hs : s.ready) (hw : Memory.wf s.bm)
    (h : exec .encode s = .next t) (hf : t.status.fault = false)
    (hn : n = streamBytes (blocksBits s.ctx s.runLength s.rows)) :
    s.codecLegal ∧ s.geometryLegal ∧ t.total = BitVec.ofNat 32 n ∧ t.total.toNat = n ∧
      t.bitpos = BitVec.ofNat 64 (8 * n) ∧ holdsBits t.bm 0 (streamBits s) := by
  obtain ⟨hcheck, -⟩ := runCommand_completed (i := .encode) hs h hf
  obtain ⟨hc, hg⟩ := checkEncode_none_iff.mp hcheck
  obtain ⟨hfits, hcut⟩ := encodeStoresStream s hs hw hc hg n hn
  by_cases hl : n ≤ s.limit.toNat
  · obtain ⟨t', hexec, ht, hst⟩ := hfits hl
    cases h.symm.trans hexec
    have htotal : t.total = BitVec.ofNat 32 n := by rw [ht]
    refine ⟨hc, hg, htotal, ?_, by rw [ht], hst.1⟩
    rw [htotal, BitVec.toNat_ofNat, Nat.mod_eq_of_lt (hl.trans_lt s.limit.isLt)]
  · obtain ⟨t', hexec, hstatus, -⟩ := hcut (not_le.mp hl)
    cases h.symm.trans hexec
    rw [hstatus] at hf
    cases hf

/-- DECODE at the stream that ENCODE wrote in `s`: the header loads the encoder's CFG, its blocks are
legal, and their elements are the rows of the array (R188, R192). -/
theorem execDecode_streamBits {n : Nat} (hu : u.ready) (hem : Memory.wf u.em) (hc : s.codecLegal)
    (ht : typeReserved u.cfg.typ = false) (hg : u.geometryLegal) (hw : u.w = s.w)
    (hblkw : u.blkw = s.blkw) (hblkc : u.blkc = s.blkc)
    (hn : n = streamBytes (blocksBits s.ctx s.runLength s.rows)) (hl : n ≤ u.limit.toNat)
    (h : holdsBits u.bm 0 (streamBits s)) :
    ∃ v, exec .decode u = .next v ∧ v.status.fault = false ∧ v.total = BitVec.ofNat 32 n ∧
      v.bitpos = BitVec.ofNat 64 (8 * n) ∧ storesElems u.em v.em 0 s.rows.flatten := by
  have hb : s.blkw ≠ 0 := hblkw ▸ hg.1
  have hsize : (BitVec.ofNat 32 n).toNat = n := by
    rw [BitVec.toNat_ofNat, Nat.mod_eq_of_lt (hl.trans_lt u.limit.isLt)]
  have hcfg := withHeader_cfg s u
  have hctx : (u.withHeader s.sliceByte s.tagByte).ctx = s.ctx := ctx_congr hcfg
  have hrl : (u.withHeader s.sliceByte s.tagByte).runLength = s.runLength :=
    congrArg (fun c => c.typ.getLsbD 1) hcfg
  have hstream := holdsStream_of_streamBits hb hn h (8 * u.limit.toNat)
  rw [← hblkc, ← hblkw, ← hctx] at hstream
  have hlegal := encodedRows_legal hb
  rw [← hctx, ← hrl, ← hblkw] at hlegal
  obtain ⟨v, hexec, hv, hst⟩ := decodeReadsStream u _ s.encodedRows _ s.sliceByte s.tagByte hu hem
    (headerAccepted_encoded hc ht hg hw _) rfl n s.rows.flatten
    (by rw [hctx, encodedRows_bits hb, hn]) (by rw [hw, encodedRows_elems hb]) hl
    (by rw [hblkc, encodedRows_length]) hlegal hstream
  rw [if_pos hsize] at hv
  exact ⟨v, hexec, by rw [hv]; rfl, by rw [hv], by rw [hv], hst⟩

/-- Where the rows of `s` were stored, the cells read as those of `s` (R51). -/
theorem elemRead_of_storesRows {m m' : Memory 32} {i : Nat}
    (h : storesElems m m' 0 s.rows.flatten) (hi : i < s.blkw.toNat * s.blkc.toNat) :
    elemRead s.w m' i = elemRead s.w s.em i := by
  have hlen : i < s.rows.flatten.length := by
    rw [rows_flatten, List.length_map, List.length_range, Nat.mul_comm]
    exact hi
  have hx : s.rows.flatten[i] = elemRead s.w s.em i := by simp [rows_flatten]
  have hread := h.1 i hlen
  rw [Nat.zero_add, hx] at hread
  exact elemRead_of_read s.w_le (isElem_sext s.w_pos _) hread

/-- Settles O57: the stream that ENCODE wrote stands in the bytes below TOTAL, and DECODE restores
its rows. -/
theorem streamRoundTrip : Obligations.StreamRoundTrip := by
  intro s t u hs hw henc hf hu hem hbytes hblkw hblkc htype huw hlim helim
  obtain ⟨n, hn⟩ : ∃ n, n = streamBytes (blocksBits s.ctx s.runLength s.rows) := ⟨_, rfl⟩
  obtain ⟨hc, ⟨hb, hlt, -⟩, htotal, hsize, hpos, hholds⟩ := execEncode_completed hs hw henc hf hn
  have hg : u.geometryLegal := by
    rw [State.geometryLegal, hblkw, hblkc]
    exact ⟨hb, hlt, helim⟩
  have hlen : (streamBits s).length ≤ 8 * t.total.toNat := by rw [streamBits_length, hsize, hn]
  obtain ⟨v, hexec, hfault, hvtotal, hvpos, hst⟩ := execDecode_streamBits hu hem hc htype hg huw
    hblkw hblkc hn (hsize ▸ hlim) (holdsBits_of_read hlen hbytes hholds)
  exact ⟨v, hexec, hfault, hvtotal.trans htotal.symm, hvpos.trans hpos.symm,
    fun i hi => elemRead_of_storesRows hst hi⟩

end Sys2Proof.Machine
end

section
/-! Faults (60_exceptions.md R226, R228, R229): the STATUS words and the pairs of ERR and SUB, what the
engine accepts while a fault is recorded, and what CLR_FAULT changes. -/

namespace Sys2Proof.Machine

variable {i : Instr} {s t : State}

/-! ## STATUS -/

theorem toNat_append_eq_add {n m : Nat} (x : BitVec n) (y : BitVec m) :
    (x ++ y).toNat = x.toNat * 2 ^ m + y.toNat := by
  rw [BitVec.toNat_append, ← Nat.shiftLeft_add_eq_or_of_lt y.isLt, Nat.shiftLeft_eq]

/-- STATUS as a number: BUSY counts 1, FAULT 2, FOUND 4, ERR 16 and SUB 256 (R22). -/
theorem Status.toNat_word (r : Status) : r.word.toNat =
    256 * r.sub.toNat + 16 * r.err.toNat + 4 * r.found.toNat + 2 * r.fault.toNat + r.busy.toNat := by
  simp only [Status.word, toNat_append_eq_add, BitVec.toNat_ofBool, BitVec.toNat_ofNat]
  omega

/-- FOUND adds 4 to the STATUS word (R22, R226). -/
theorem Status.word_found (r : Status) :
    r.word = ({ r with found := false } : Status).word + (if r.found then 4 else 0) := by
  obtain ⟨busy, fault, found, err, sub⟩ := r
  cases found with
  | false => exact (BitVec.add_zero _).symm
  | true =>
    have hset := Status.toNat_word ⟨busy, fault, true, err, sub⟩
    have hclear := Status.toNat_word ⟨busy, fault, false, err, sub⟩
    simp only [Bool.toNat_true, Bool.toNat_false] at hset hclear
    rw [if_pos rfl]
    bv_omega

/-- The STATUS word of a fault with FOUND = 0: SUB, ERR, and of the low bits FAULT alone (R22, R210). -/
theorem takeFault_word (h : s.status.found = false) (c : Cause) :
    (takeFault c s).status.word = c.sub ++ c.err ++ 2#4 := by
  refine BitVec.eq_of_toNat_eq ?_
  rw [takeFault_status, Status.toNat_word, Status.faulted, h]
  simp only [toNat_append_eq_add, Bool.toNat_false, Bool.toNat_true, BitVec.toNat_ofNat]
  omega

/-! ## What keeps STATUS legal -/

/-- Every stream item is a `runItem` of a body that keeps STATUS (`Keeps`). -/
theorem exec_item_keeps (hi : isCommand i = false) :
    ∃ u check body v, (∀ s, exec i s = runItem u check body s) ∧
      ∀ s, Keeps v s (body s).state := by
  cases i <;> dsimp only [exec]
  case hdr =>
    refine ⟨_, _, _, { cfg := true, eidx := true, total := true, blk := true }, fun _ => rfl,
      fun s => .andThen ?_ fun _ t => ?_⟩
    · exact .trans _ _ _ (.mono (rewind_keeps s) rfl) (readField_keeps _ _)
    · exact .mono (acceptHeader_keeps _ _ _ _ _ t) rfl
  case raw =>
    exact ⟨_, _, _, _, fun _ => rfl, fun s =>
      .andThen (readField_keeps _ s) fun _ t => produce_keeps _ t⟩
  case cwUnary =>
    exact ⟨_, _, _, {}, fun _ => rfl, fun s =>
      .andThen (readField_keeps _ s) fun _ t => unaryForm_keeps _ _ t⟩
  case cwEscape =>
    exact ⟨_, _, _, {}, fun _ => rfl, fun s =>
      .andThen (readField_keeps _ s) fun _ t => escapeForm_keeps _ _ t⟩
  case litDiff =>
    exact ⟨_, _, _, {}, fun _ => rfl, fun s =>
      .andThen (readField_keeps _ s) fun _ t => takeDiff_keeps _ t⟩
  case pad => exact ⟨_, _, _, {}, fun _ => rfl, fun s => moveOn_keeps _ s⟩
  case markReserved | markContinued | markLiteral | markConstant =>
    exact ⟨_, _, _, _, fun _ => rfl, fun s =>
      .andThen (readField_keeps 8 s) fun _ t => afterMarker_keeps _ t⟩
  case tag0 | tag1 | tag2 | tag3 | tag4 | tag6 | tagReserved =>
    exact ⟨_, _, _, _, fun _ => rfl, fun s =>
      .andThen (readField_keeps 8 s) fun _ t => acceptTag_keeps _ t⟩
  all_goals cases hi

/-- A stream item keeps STATUS or ends in a fault. -/
theorem runItem_legal {u : Option Unspec} {check : State → Option Cause} {body : State → Res Unit}
    {v : Touch} (hbody : ∀ s, Keeps v s (body s).state) (hs : s.status.legal)
    (h : runItem u check body s = .next t) : t.status.legal := by
  rcases runItem_cases h with ⟨-, rfl⟩ | ⟨-, c, -, rfl⟩ | ⟨-, -, hr⟩ | ⟨-, -, c, r, -, rfl⟩
  case inl => exact hs
  case inr.inl =>
    obtain ⟨-, -, hlegal, -⟩ := takeFault_commandOver c s
    exact hlegal
  case inr.inr.inl =>
    have hk := hbody s
    rw [hr] at hk
    exact hk.status ▸ hs
  case inr.inr.inr =>
    obtain ⟨-, -, hlegal, -⟩ := faultState_commandOver u c s r
    exact hlegal

/-- A command that is not accepted changes nothing; one that is accepted ends with STATUS legal. -/
theorem runCommand_legal {u : Option Unspec} {body : State → Res Unit} (hs : s.status.legal)
    (h : runCommand i u body s = .next t) : t.status.legal := by
  cases ha : accepts s with
  | false =>
    rw [runCommand_ignored ha] at h
    cases h
    exact hs
  | true =>
    obtain ⟨-, -, hlegal, -⟩ := runCommand_commandOver ha h
    exact hlegal

/-- CLR_FAULT leaves ERR = 0 and SUB = 0 (R229), or changes nothing (R38). -/
theorem exec_clrFault_legal (hs : s.status.legal) (h : exec .clrFault s = .next t) :
    t.status.legal := by
  rw [exec_clrFault] at h
  cases h
  split
  · exact hs
  · exact ⟨rfl, rfl⟩

/-- No instruction produces a pair of ERR and SUB that R226 does not list. -/
theorem exec_legal (hs : s.status.legal) (h : exec i s = .next t) : t.status.legal := by
  cases hi : isCommand i with
  | true =>
    by_cases hc : i = .clrFault
    · exact exec_clrFault_legal hs (hc ▸ h)
    · obtain ⟨u, body, hrun, -⟩ := exec_command hi hc
      exact runCommand_legal hs (hrun s ▸ h)
  | false =>
    obtain ⟨u, check, body, v, hrun, hbody⟩ := exec_item_keeps hi
    exact runItem_legal hbody hs (hrun s ▸ h)

/-- Settles O15, by the word of a fault with FOUND = 0, the place of FOUND in it, and `exec_legal`. -/
theorem faultStatusWords : Obligations.FaultStatusWords := by
  refine ⟨fun c s => (takeFault c s).status.word_found, fun s hs => ?_, fun i s t => exec_legal⟩
  simp only [takeFault_word hs]
  decide

/-! ## While a fault is recorded -/

/-- Opcode 0x01 alone is CLR_FAULT (R101). -/
theorem decodeCommand_ne_clrFault {v : Word64} (h : v.truncate 8 ≠ 1#8) :
    decodeCommand v ≠ .clrFault := by
  intro hv
  obtain ⟨-, -, hfields, -⟩ := everyCommandWordDecodes v
  rw [hv] at hfields
  have hop : (1, 8) = ((v.truncate 8).toNat, 8) := List.singleton_inj.mp hfields
  exact h (BitVec.eq_of_toNat_eq (congrArg Prod.fst hop).symm)

/-- The engine accepts no command but CLR_FAULT (R228). -/
theorem exec_faulted (hs : s.status.fault = true) (hi : isCommand i = true) (hc : i ≠ .clrFault) :
    exec i s = .next s := by
  obtain ⟨u, body, hrun, -⟩ := exec_command hi hc
  rw [hrun]
  exact runCommand_ignored (by simp [accepts, hs])

/-- Settles O12: a CMD write decodes to a command that is not accepted, and access to the other
registers does not depend on FAULT. -/
theorem faultLatch : Obligations.FaultLatch := by
  refine fun s hs => ⟨fun v hv => ?_, fun i => exec_faulted hs, fun hb n v hn =>
    ⟨hostAction_write_idle hb hn v, hostAction_read_register (.inl hb)⟩⟩
  rw [hostAction_write_cmd]
  exact exec_faulted hs (isCommand_decodeCommand v) (decodeCommand_ne_clrFault hv)

/-- Settles O13: in the idle engine CLR_FAULT is `returnFromFault`. -/
theorem clrFaultReturns : Obligations.ClrFaultReturns := by
  intro s hs
  rw [exec_clrFault, hs]
  rfl

end Sys2Proof.Machine
end
